-- ==== Sys2Proof/Word.lean ====
section
/-!
DEFINITION. Words, bytes and stamps of the LX-90 (R3, R5): the widths the manual names.
-/
namespace Sys2Proof

/-- A register lane, a scalar register, a stamp: 32 bits (R1). -/
abbrev Word := BitVec 32
/-- A 64-bit value, an address or a program counter. -/
abbrev DWord := BitVec 64
/-- One byte of memory. -/
abbrev Byte := BitVec 8
/-- A birth stamp; 0 means timeless (R5). -/
abbrev Stamp := BitVec 32
/-- The five exception flags NV, DZ, OF, UF, NX in bits 4 to 0 (R114). -/
abbrev Flags := BitVec 5

end Sys2Proof
end

