-- ==== Sys2Proof/Machine/Bits.lean ====
section
/-!
DEFINITION. Bit fields, byte lists and sorted association lists, which every later file uses.
-/
namespace Sys2Proof.Machine

/-- Bits `lo + w - 1 : lo` of a natural number. -/
def bitsN (x lo w : Nat) : Nat := (x >>> lo) % 2 ^ w

/-- Sign-extend the low `w` bits of `x` to an integer. -/
def sextN (w x : Nat) : Int :=
  let y := x % 2 ^ w
  if 2 * y < 2 ^ w then (y : Int) else (y : Int) - (2 ^ w : Nat)

/-- An integer modulo 2^w, as a natural number. -/
def wrapN (w : Nat) (x : Int) : Nat := (x % ((2 ^ w : Nat) : Int)).toNat

/-- The low `n` bytes of `x`, little-endian (R3). -/
def bytesLE : Nat → Nat → List Byte
  | 0, _ => []
  | n + 1, x => BitVec.ofNat 8 x :: bytesLE n (x / 256)

/-- The number whose little-endian bytes are `bs` (R3). -/
def leNat : List Byte → Nat
  | [] => 0
  | b :: bs => b.toNat + 256 * leNat bs

/-- `n` consecutive numbers from `a`. -/
def from_ (a : Nat) : Nat → List Nat
  | 0 => []
  | n + 1 => a :: from_ (a + 1) n

/-- Sorted association lists: keys strictly rising. The entry of `k`, if any. -/
def aget? {α : Type} : List (Nat × α) → Nat → Option α
  | [], _ => none
  | (j, v) :: m, k => if j = k then some v else aget? m k

/-- The list with `k` mapped to `v`. -/
def aset {α : Type} : List (Nat × α) → Nat → α → List (Nat × α)
  | [], k, v => [(k, v)]
  | (j, w) :: m, k, v =>
    if j = k then (k, v) :: m
    else if k < j then (k, v) :: (j, w) :: m
    else (j, w) :: aset m k v

/-- The list without an entry for `k`. -/
def adel {α : Type} (m : List (Nat × α)) (k : Nat) : List (Nat × α) := m.filter fun x => x.1 != k

/-- A total map held as a sorted list without default entries: the value at `k`. -/
def mget {α : Type} (d : α) (m : List (Nat × α)) (k : Nat) : α := (aget? m k).getD d

/-- The same map with `k` mapped to `v`; a default value leaves no entry. -/
def mset {α : Type} [DecidableEq α] (d : α) (m : List (Nat × α)) (k : Nat) (v : α) : List (Nat × α) :=
  if v = d then adel m k else aset m k v

/-- Change the entry of `k`, if there is one. -/
def aupd {α : Type} (m : List (Nat × α)) (k : Nat) (f : α → α) : List (Nat × α) :=
  match aget? m k with
  | some v => aset m k (f v)
  | none => m

/-- Keys strictly rising, all at or above `lo`. -/
def sortedFrom {α : Type} : Nat → List (Nat × α) → Bool
  | _, [] => true
  | lo, (k, _) :: m => decide (lo ≤ k) && sortedFrom (k + 1) m

/-- Union of two lists used as sets: the elements of `b` that `a` lacks, then `a`. -/
def union (a b : List Nat) : List Nat := b.foldl (fun acc x => if acc.contains x then acc else x :: acc) a

/-- Do two byte ranges share a byte? -/
def overlaps (a n b m : Nat) : Bool := decide (a < b + m) && decide (b < a + n)

/-- The first `some` that `f` gives on a list. -/
def firstSome {α β : Type} (f : α → Option β) : List α → Option β
  | [] => none
  | x :: xs => match f x with
    | some y => some y
    | none => firstSome f xs

/-- The low `w` bits of a natural number, read as a list of set bit positions below `n`. -/
def bitList (n x : Nat) : List Nat := (List.range n).filter fun i => x.testBit i

/-- The mask with the listed bits set. -/
def maskOf (l : List Nat) : BitVec 64 := l.foldl (fun m i => m ||| BitVec.ofNat 64 (2 ^ i)) 0#64

/-- All or nothing. -/
def allSome {α β : Type} (f : α → Option β) : List α → Option (List β)
  | [] => some []
  | a :: as => match f a with
    | none => none
    | some b => (allSome f as).map fun r => b :: r

end Sys2Proof.Machine
end

