-- ==== Sys2Proof/Syntax.lean ====
section
/-!
DEFINITION. Instructions and whole steps of the device: one constructor per row of spec/opcode_table.json.
A row that is a form of an instruction word carries the fields of its layout (R45 to R55), read once by the decoder.
A row that is a step of the device carries what that step acts on, which comes from the agenda of State.
-/
namespace Sys2Proof

/-- A 9-bit register spec (R47). `rsv` is a reserved code, which no operand admits. -/
inductive Spec where
  | vec (n : BitVec 8)
  | scl (n : BitVec 6)
  | zero
  | lane
  | fibre
  | pred (n : BitVec 4)
  | imm
  | rsv (code : BitVec 9)
  deriving DecidableEq, Repr

/-- The 5-bit TYPE code (R51). `rsv` is a reserved code. -/
inductive Ty where
  | none | i8 | i16 | i32 | i64 | n8 | n16 | n32 | n64 | b8 | b16 | b32 | b64
  | f16 | bf16 | f32 | f64 | e4m3 | e5m2 | tx4 | tx8 | mx8
  | rsv (code : BitVec 5)
  deriving DecidableEq, Repr

/-- The 3-bit rounding mode (R52). -/
inductive RM where
  | rne | rtz | rup | rdn | rna
  | rsv (code : BitVec 3)
  deriving DecidableEq, Repr

/-- The 3-bit scope (R53). -/
inductive Scope where
  | wv | tm | cl | shd | dev | dom | sys | rsv
  deriving DecidableEq, Repr

/-- The 2-bit ordering (R53). -/
inductive MemOrd where
  | plain | acq | rel | ar
  deriving DecidableEq, Repr

/-- The guard (R46): predicate `p`, inverted when `neg`. -/
structure Guard where
  neg : Bool
  p : BitVec 4
  deriving DecidableEq, Repr

/-- The CTRL layout (R54); `top` is its reserved bits 44:36. -/
structure CtrlF where
  g : Guard
  d : Spec
  a : Spec
  b : Spec
  c : Spec
  top : BitVec 9
  sub : BitVec 4
  imm : BitVec 32
  deriving DecidableEq, Repr

/-- The ARITH layout (R54). -/
structure ArithF where
  g : Guard
  d : Spec
  a : Spec
  b : Spec
  c : Spec
  ty : Ty
  rm : RM
  sub : BitVec 5
  imm : BitVec 32
  deriving DecidableEq, Repr

/-- The extension of the MEM layout in IMM (R55). -/
structure Ext where
  off : BitVec 16
  scale : BitVec 2
  refire : Bool
  layout : BitVec 2
  maxage : BitVec 11
  deriving DecidableEq, Repr

/-- The MEM layout (R55). -/
structure MemF where
  g : Guard
  d : Spec
  a : Spec
  b : Spec
  c : Spec
  ty : Ty
  scope : Scope
  ord : MemOrd
  evp : BitVec 2
  lu : Bool
  ext : Ext
  deriving DecidableEq, Repr

/-- The SYNC layout with the MEM extension, for the atomics (R55, R250). -/
structure AtomF where
  g : Guard
  d : Spec
  a : Spec
  b : Spec
  c : Spec
  ty : Ty
  scope : Scope
  ord : MemOrd
  aop : BitVec 3
  ext : Ext
  deriving DecidableEq, Repr

/-- The SYNC layout with a plain IMM, for fences, barriers and phases; `mask` is bits 44:40 (R55, R253, R257). -/
structure SyncF where
  g : Guard
  d : Spec
  a : Spec
  b : Spec
  c : Spec
  mask : BitVec 5
  scope : Scope
  ord : MemOrd
  aop : BitVec 3
  imm : BitVec 32
  deriving DecidableEq, Repr

/-- The ENGINE layout (R55). -/
structure EngF where
  g : Guard
  d : Spec
  a : Spec
  b : Spec
  c : Spec
  ty : Ty
  rm : RM
  flags : BitVec 5
  imm : BitVec 32
  deriving DecidableEq, Repr

/-- A Fenica flit (R308): the header's fields, the payload granules with their stamps, and the byte enables. -/
structure Flit where
  off : BitVec 47
  src : BitVec 8
  dst : BitVec 8
  ldom : BitVec 3
  kind : BitVec 4
  ngr : BitVec 3
  gixh : BitVec 7
  tag : BitVec 16
  aux : BitVec 32
  payload : List Byte
  stamps : List Stamp
  enables : List Bool
  /-- the AES-256-GCM tag that goes with it under the link key (R343) -/
  gcm : BitVec 128
  deriving DecidableEq, Repr

/-- What the host writes for a firmware command (R331, R341): the function, 0 for PF 0 and p + 1 for the function of partition p; the
header but for its CODE; the payload as it stands in the buffer; and the doorbell. What the payload says stands with the command. -/
structure Cmd where
  fn : Nat
  tag : BitVec 128
  seq : BitVec 64
  len : BitVec 16
  res47 : BitVec 13
  part : BitVec 3
  res31 : BitVec 15
  isSealed : Bool
  payload : List Byte
  bell : BitVec 64
  deriving DecidableEq, Repr

/-- The fields that QUEUE_CFG writes (R26): all that the owner may write. -/
structure QueueFields where
  halt : Bool
  enable : Bool
  qprio : BitVec 3
  wdog : BitVec 32
  logn : BitVec 4
  taila : BitVec 64
  ringa : BitVec 64
  wfailClear : Bool
  deriving DecidableEq, Repr

/-- A backing-map record (R284, R336, R343): where a page's image lies, its digest, and the entry fields to restore. -/
structure Backing where
  drive : Nat
  nspace : Nat
  lba : Nat
  digest : BitVec 512
  entry : BitVec 128
  deriving DecidableEq, Repr

/-- Instructions and device steps, one constructor per row of the opcode table, in the table's order. -/
inductive Instr where
  | nop (f : CtrlF)
  | bra (f : CtrlF)
  | brx (f : CtrlF)
  | jmp (f : CtrlF)
  | call (f : CtrlF)
  | callx (f : CtrlF)
  | ret (f : CtrlF)
  | join (f : CtrlF)
  /-- step of R75 on slot `g` -/
  | joinRelease (g : Nat)
  | fspawn (f : CtrlF)
  /-- step of R71 on quarter `q` of core `core` -/
  | spillReturn (core q : Nat)
  | fend (f : CtrlF)
  | exit (f : CtrlF)
  | yield (f : CtrlF)
  | yieldRelease (g : Nat)
  | sleep (f : CtrlF)
  | sleepExpire (g : Nat)
  | brk (f : CtrlF)
  | trap (f : CtrlF)
  | pset (f : ArithF)
  | plop (f : ArithF)
  | pmovGet (f : ArithF)
  | pmovPut (f : ArithF)
  | vote (f : ArithF)
  | elect (f : ArithF)
  | shfl (f : ArithF)
  | vred (f : ArithF)
  | vscan (f : ArithF)
  | mov (f : ArithF)
  | movi (f : ArithF)
  | sel (f : ArithF)
  | iadd (f : ArithF)
  | isub (f : ArithF)
  | imul (f : ArithF)
  | imulh (f : ArithF)
  | imad (f : ArithF)
  | idiv (f : ArithF)
  | irem (f : ArithF)
  | imin (f : ArithF)
  | imax (f : ArithF)
  | iabs (f : ArithF)
  | ineg (f : ArithF)
  | and (f : ArithF)
  | or (f : ArithF)
  | xor (f : ArithF)
  | not (f : ArithF)
  | blop (f : ArithF)
  | shl (f : ArithF)
  | shr (f : ArithF)
  | sar (f : ArithF)
  | rot (f : ArithF)
  | bfe (f : ArithF)
  | bfi (f : ArithF)
  | popc (f : ArithF)
  | clz (f : ArithF)
  | brev (f : ArithF)
  | lea (f : ArithF)
  | fadd (f : ArithF)
  | fsub (f : ArithF)
  | fmul (f : ArithF)
  | ffma (f : ArithF)
  | fmin (f : ArithF)
  | fmax (f : ArithF)
  | fabs (f : ArithF)
  | fneg (f : ArithF)
  | fdiv (f : ArithF)
  | fsqrt (f : ArithF)
  | frcp (f : ArithF)
  | frsq (f : ArithF)
  | fexp2 (f : ArithF)
  | flog2 (f : ArithF)
  | fsin (f : ArithF)
  | fcos (f : ArithF)
  | fcmp (f : ArithF)
  | fclass (f : ArithF)
  | fscalb (f : ArithF)
  | frnd (f : ArithF)
  | cvt (f : ArithF)
  | cvtMx8 (f : ArithF)
  | qblk (f : ArithF)
  | dqblk (f : ArithF)
  | mxq (f : ArithF)
  | mxdq (f : ArithF)
  | pack (f : ArithF)
  | unpack (f : ArithF)
  | stget (f : ArithF)
  | stset (f : ArithF)
  | stless (f : ArithF)
  | stmin (f : ArithF)
  | age (f : ArithF)
  | fresh (f : ArithF)
  | time (f : ArithF)
  | timeReply (op : Nat)
  | hzn (f : ArithF)
  | ld (f : MemF)
  | st (f : MemF)
  | lde (f : MemF)
  | ldg (f : MemF)
  | sct (f : MemF)
  | ldt (f : MemF)
  | lds (f : MemF)
  | sts (f : MemF)
  | pref (f : MemF)
  | cctlWb (f : MemF)
  | cctlInv (f : MemF)
  | cctlLu (f : MemF)
  | bankcfg (f : MemF)
  /-- the drain of bank `bank` of cluster `cluster` finishes (R35) -/
  | bankDrainDone (cluster bank : Nat)
  | wlog (f : MemF)
  | loadDataArrive (op : Nat)
  /-- the home of granule `gran` applies store operation `op` (R165, R244) -/
  | storeApply (op gran : Nat)
  | mma (f : EngF)
  | mmaStep (op : Nat)
  | tzero (f : EngF)
  | tldm (f : EngF)
  | trd (f : EngF)
  | twr (f : EngF)
  | tscl (f : EngF)
  | tileRetire (op : Nat)
  | vproj (f : EngF)
  | vprojChunk (op : Nat)
  | vprojb (f : EngF)
  | vmerge (f : EngF)
  | vrset (f : EngF)
  | xcopy (f : EngF)
  | xcopyPush (f : EngF)
  | xcopyPop (f : EngF)
  | xfill (f : EngF)
  | xconv (f : EngF)
  | copyEntryComplete (op : Nat)
  | wait (f : EngF)
  | waitseq (f : EngF)
  | seqrd (f : EngF)
  | atom (f : AtomF)
  | atomf (f : AtomF)
  | cas (f : AtomF)
  | red (f : AtomF)
  /-- the home applies the atomic of lane `lane` of operation `op` (R251) -/
  | atomicApply (op lane : Nat)
  | atomicResponseLost (op lane : Nat)
  | atomicTimeout (op lane : Nat)
  | fence (f : SyncF)
  | xfence (f : SyncF)
  | bar (f : SyncF)
  | phaseArrive (f : SyncF)
  | phaseWait (f : SyncF)
  | cgload (f : EngF)
  | cgrun (f : EngF)
  | cgstat (f : EngF)
  | cappend (f : EngF)
  | appendApply (op lane : Nat)
  | cgfree (f : EngF)
  | srd (f : CtrlF)
  | swr (f : CtrlF)
  | tret (f : CtrlF)
  | cont (f : CtrlF)
  | resume (f : CtrlF)
  | prog (f : CtrlF)
  | kcallPageIn (f : CtrlF)
  | kcallPageOut (f : CtrlF)
  | kcallQuery (f : CtrlF)
  /-- the groom ends service `op`; `storageOk` says whether the storage port served it (R298) -/
  | kcallDone (op : Nat) (storageOk : Bool)
  | tailWrite (queue : Nat)
  | launchStart (queue : Nat)
  | placeTeam (die : Nat)
  | coresidentStart (launch : Nat)
  | placementStarvation (die : Nat)
  | weaveFormerPlace (g : Nat)
  | formerEmptySlot (core q : Nat)
  | watchdogFire (queue : Nat)
  | terminationTimeout (queue : Nat)
  | teamEnd (team : Nat)
  | launchComplete (launch : Nat)
  | partitionTick (part : Nat)
  | horizonMessage (die : Nat)
  | refireServe (g : Nat)
  | refireReplay (g : Nat)
  /-- the groom reads the page at `va` of partition `part`; `storageOk` is the storage port's answer (R284, R336) -/
  | groomPageIn (part : Nat) (va : BitVec 64) (storageOk : Bool)
  | groomPageOut (part : Nat) (va : BitVec 64)
  | switchOut (core : Nat)
  | priorityPreempt (die : Nat)
  | preemptSave (team : Nat)
  | preemptDrain (team : Nat)
  | drainTimeout (team : Nat)
  | preemptFlush (team : Nat)
  | saveTimeout (team : Nat)
  | teamRestore (team : Nat)
  | flitReceive (port : Nat) (flit : Flit)
  | flitResend (port : Nat) (tag : BitVec 16)
  | portDown (port : Nat)
  | runTake
  | runGrant (collid : BitVec 32) (run : BitVec 20)
  | runStart (collid : BitVec 32) (run : BitVec 20)
  | runRevoke (collid : BitVec 32) (run : BitVec 20) (dev : BitVec 8)
  | runAbort (collid : BitVec 32) (run : BitVec 20)
  | chunkReceive (port : Nat) (flit : Flit)
  | nodeSend (run node : Nat)
  | nodeRecv (run node : Nat)
  | nodeReduce (run node : Nat)
  | nodeCopy (run node : Nat)
  | nodeMerge (run node : Nat)
  | nodeTeam (run node : Nat)
  | nodeNop (run node : Nat)
  | runComplete (run : Nat)
  | hostRead (part : Nat) (off : BitVec 64) (len : Nat)
  | hostWrite (part : Nat) (off : BitVec 64) (bytes : List Byte)
  /-- a write arrives at port `port` for address `va` of partition `part`, with the stamp the sender carried (R143) -/
  | ingressWrite (port part : Nat) (va : BitVec 64) (bytes : List Byte) (carried : Stamp)
  | backInvalidate (line : Nat)
  | identify (h : Cmd)
  | attest (h : Cmd) (nonce : BitVec 256)
  | partCreate (h : Cmd) (dies : BitVec 8)
  | partDestroy (h : Cmd)
  | sessionOpen (h : Cmd) (ownerKey : BitVec 256) (share : BitVec 256) (sigOk stampAuth : Bool)
  | keyRotate (h : Cmd)
  | rootSet (h : Cmd) (rdbase : BitVec 64)
  | map (h : Cmd) (va : BitVec 64) (level : Nat) (entry : BitVec 128)
  | backingSet (h : Cmd) (va : BitVec 64) (rec : Backing)
  | hostwin (h : Cmd) (win : Nat) (base off : BitVec 64) (size : BitVec 64) (hr hw : Bool)
  /-- `cxlKind`: false is HDM-H, true is HDM-DB -/
  | memGrant (h : Cmd) (lo len : Nat) (cxlKind : Bool)
  | memRevoke (h : Cmd) (lo len : Nat)
  | kernelBind (h : Cmd) (va : BitVec 64)
  | queueCfg (h : Cmd) (queue : Nat) (fields : QueueFields)
  | queueRead (h : Cmd) (queue : Nat)
  | cancel (h : Cmd) (queue : Nat) (seq : BitVec 48)
  | suspend (h : Cmd)
  | fwResume (h : Cmd)
  | queueGrant (h : Cmd) (queue : Nat) (release : Bool)
  | timeCfg (h : Cmd) (hzi k : BitVec 6) (t : BitVec 64)
  | portStamp (h : Cmd) (port : Nat) (origin : Stamp) (omode : BitVec 2) (egen : Bool) (egmax : BitVec 29)
  | wlogCfg (h : Cmd) (ringa : BitVec 64) (logn : BitVec 4) (enable : Bool)
  | preemptCfg (h : Cmd) (drainp flushp : BitVec 8) (parkth : BitVec 7)
  | domainSet (h : Cmd) (dev : BitVec 8) (valid : Bool) (ldom : BitVec 3) (ports : BitVec 16) (linkKey : BitVec 256)
  | linkRetrain (h : Cmd) (port : Nat)
  | powerCap (h : Cmd) (watts : Nat)
  | unknownCommand (h : Cmd) (code : BitVec 16)
  | partitionReset (part : Nat)
  | moduleReset
  /-- bring-up runs its next stage; `ok` says whether the stage's training or check succeeded (R347) -/
  | bringUp (ok : Bool)
  | memorySideReset (die : Nat)
  /-- readings: module power in watts over the last millisecond, and the hottest junction in degrees Celsius (R348) -/
  | powerThrottle (watts temp : Nat)
  | overtempReset (temp : Nat)
  | throttlingEnd (watts temp : Nat)
  deriving DecidableEq, Repr

end Sys2Proof
end

