-- ==== Sys2Proof/Machine/Forms.lean ====
section
/-!
DEFINITION. Operand forms: which spec classes, types, modes and immediates each instruction admits (R47 to R57 and
the encoding tables of R73, R81, R95, R119, R129, R151, R175, R192, R214, R232, R250, R253, R257, R295, R323),
and the first decode cause of an instruction (R58, R59).
-/
namespace Sys2Proof

open Machine

/-! ### Codes of the small fields (R47, R51 to R53) -/

/-- A 9-bit spec code (R47). -/
def specOf (x : BitVec 9) : Spec :=
  let n := x.toNat
  if n < 0x100 then .vec (BitVec.ofNat 8 n)
  else if n < 0x140 then .scl (BitVec.ofNat 6 n)
  else if n = 0x140 then .zero
  else if n = 0x141 then .lane
  else if n = 0x142 then .fibre
  else if n < 0x180 then .rsv x
  else if n < 0x190 then .pred (BitVec.ofNat 4 n)
  else if n = 0x1C0 then .imm
  else .rsv x

def specCode : Spec → BitVec 9
  | .vec n => BitVec.ofNat 9 n.toNat
  | .scl n => BitVec.ofNat 9 (0x100 + n.toNat)
  | .zero => 0x140
  | .lane => 0x141
  | .fibre => 0x142
  | .pred n => BitVec.ofNat 9 (0x180 + n.toNat)
  | .imm => 0x1C0
  | .rsv c => c

/-- A 5-bit TYPE code (R51). -/
def tyOf (c : BitVec 5) : Ty :=
  match c.toNat with
  | 0 => .none | 1 => .i8 | 2 => .i16 | 3 => .i32 | 4 => .i64 | 5 => .n8 | 6 => .n16 | 7 => .n32
  | 8 => .n64 | 9 => .b8 | 10 => .b16 | 11 => .b32 | 12 => .b64
  | 16 => .f16 | 17 => .bf16 | 18 => .f32 | 19 => .f64 | 20 => .e4m3 | 21 => .e5m2
  | 22 => .tx4 | 23 => .tx8 | 24 => .mx8
  | _ => .rsv c

def tyCode : Ty → BitVec 5
  | .none => 0 | .i8 => 1 | .i16 => 2 | .i32 => 3 | .i64 => 4 | .n8 => 5 | .n16 => 6 | .n32 => 7
  | .n64 => 8 | .b8 => 9 | .b16 => 10 | .b32 => 11 | .b64 => 12
  | .f16 => 16 | .bf16 => 17 | .f32 => 18 | .f64 => 19 | .e4m3 => 20 | .e5m2 => 21
  | .tx4 => 22 | .tx8 => 23 | .mx8 => 24
  | .rsv c => c

/-- A 3-bit rounding mode code (R52). -/
def rmOf (c : BitVec 3) : RM :=
  match c.toNat with
  | 0 => .rne | 1 => .rtz | 2 => .rup | 3 => .rdn | 4 => .rna
  | _ => .rsv c

def rmCode : RM → BitVec 3
  | .rne => 0 | .rtz => 1 | .rup => 2 | .rdn => 3 | .rna => 4
  | .rsv c => c

/-- A 3-bit scope code (R53). -/
def scopeOf (c : BitVec 3) : Scope :=
  match c.toNat with
  | 0 => .wv | 1 => .tm | 2 => .cl | 3 => .shd | 4 => .dev | 5 => .dom | 6 => .sys
  | _ => .rsv

def scopeCode : Scope → BitVec 3
  | .wv => 0 | .tm => 1 | .cl => 2 | .shd => 3 | .dev => 4 | .dom => 5 | .sys => 6 | .rsv => 7

/-- A 2-bit ordering code (R53). -/
def ordOf (c : BitVec 2) : MemOrd :=
  match c.toNat with
  | 0 => .plain | 1 => .acq | 2 => .rel
  | _ => .ar

def ordCode : MemOrd → BitVec 2
  | .plain => 0 | .acq => 1 | .rel => 2 | .ar => 3

/-! ### Types -/

/-- The width in bits of a type's value (R49, R93, R107); block formats and `none` have no width. -/
def Ty.bits : Ty → Nat
  | .i8 | .n8 | .b8 | .e4m3 | .e5m2 => 8
  | .i16 | .n16 | .b16 | .f16 | .bf16 => 16
  | .i64 | .n64 | .b64 | .f64 => 64
  | _ => 32

/-- A 64-bit operand is a register pair (R92). -/
def Ty.wide (t : Ty) : Bool := t.bits == 64

/-- How many 32-bit registers a value takes. -/
def Ty.regs (t : Ty) : Nat := if t.wide then 2 else 1

/-- Bytes of a memory access (R171, R175). -/
def Ty.bytes (t : Ty) : Nat := t.bits / 8

def Ty.isSigned : Ty → Bool
  | .i8 | .i16 | .i32 | .i64 => true
  | _ => false

def tysI : List Ty := [.i8, .i16, .i32, .i64]
def tysN : List Ty := [.n8, .n16, .n32, .n64]
def tysB : List Ty := [.b8, .b16, .b32, .b64]
/-- "All int" of R95. -/
def tysInt : List Ty := tysI ++ tysN ++ tysB
/-- "Float" of R129. -/
def tysFloat : List Ty := [.f16, .bf16, .f32, .f64, .e4m3, .e5m2]
/-- "mem" of R175. -/
def tysMem : List Ty := tysInt ++ [.f16, .bf16, .f32, .f64]
/-- "Int" of R129. -/
def tysCvtInt : List Ty := [.i32, .n32, .i64, .n64]

/-- RNE to RDN. -/
def RM.four (m : RM) : Bool := [RM.rne, .rtz, .rup, .rdn].contains m
/-- RNE to RNA. -/
def RM.five (m : RM) : Bool := m.four || m == .rna

/-! ### Operands -/

/-- What an operand field admits (R47, R48): the spec classes, the registers it covers from the named one, whether the
number must be even (R92), and whether it is a predicate destination, where p15 is not admitted (R81, R89). -/
structure Adm where
  vec : Bool := false
  scl : Bool := false
  zero : Bool := false
  special : Bool := false
  pred : Bool := false
  imm : Bool := false
  regs : Nat := 1
  even : Bool := false
  predDest : Bool := false
  /-- type under which an immediate in this field is read (R49) -/
  ity : Ty := .none
  deriving DecidableEq, Repr

/-- `n` registers as the type has them. -/
def Adm.at (a : Adm) (t : Ty) : Adm := { a with regs := t.regs, even := t.wide, ity := t }

/-- "data" of R95: vector, scalar, zero, %lane, %fibre or immediate. -/
def aData (t : Ty) : Adm := Adm.at { vec := true, scl := true, zero := true, special := true, imm := true } t
/-- "reg" of R95. -/
def aReg (t : Ty) : Adm := Adm.at { vec := true, scl := true, zero := true } t
/-- "dest" of R95. -/
def aDest (t : Ty) : Adm := aReg t
def aVec (t : Ty) : Adm := Adm.at { vec := true } t
def aVecRun (n : Nat) (even : Bool) : Adm := { vec := true, regs := n, even := even }
def aScl : Adm := { scl := true }
def aSclZero : Adm := { scl := true, zero := true }
def aSclPair : Adm := { scl := true, regs := 2, even := true }
def aSclPairZero : Adm := { scl := true, zero := true, regs := 2, even := true }
def aSclImm : Adm := { scl := true, imm := true }
def aPred : Adm := { pred := true }
def aPredDest : Adm := { pred := true, predDest := true }
/-- "idx" of R175. -/
def aIdx : Adm := { vec := true, scl := true, zero := true, special := true }
/-- "bound" of R175. -/
def aBound : Adm := { vec := true, scl := true, zero := true, imm := true }

/-- Cause 0x002: a reserved spec. -/
def Adm.isRsv (_ : Adm) : Spec → Bool
  | .rsv _ => true
  | _ => false

/-- Cause 0x003: a class the operand does not admit, an odd pair, or p15 as a destination. -/
def Adm.badClass (a : Adm) : Spec → Bool
  | .vec n => !a.vec || (a.even && n.toNat % 2 == 1)
  | .scl n => !a.scl || (a.even && n.toNat % 2 == 1)
  | .zero => !a.zero
  | .lane => !a.special
  | .fibre => !a.special
  | .pred n => !a.pred || (a.predDest && n.toNat == 15)
  | .imm => !a.imm || [Ty.tx4, .tx8, .mx8].contains a.ity
  | .rsv _ => false

/-- Cause 0x004: a vector register at or above the allotment (R16, R17). -/
def Adm.beyond (a : Adm) (allot : Nat) : Spec → Bool
  | .vec n => decide (allot < n.toNat + a.regs)
  | _ => false

/-- R49: does the immediate fit the type under which it is read? -/
def immFits (t : Ty) (imm : BitVec 32) : Bool :=
  let x := imm.toNat
  match t with
  | .i8 => decide (sextN 32 x = sextN 8 x)
  | .i16 => decide (sextN 32 x = sextN 16 x)
  | .n8 | .b8 | .e4m3 | .e5m2 => decide (x < 0x100)
  | .n16 | .b16 | .f16 | .bf16 => decide (x < 0x10000)
  | _ => true

/-- The form of one instruction: what each operand field admits (`none`: it must hold 0x000), whether the modifier
fields are accepted (cause 0x001), and whether IMM obeys the class layout when no source names it (cause 0x005). -/
structure Form where
  d : Option Adm := none
  a : Option Adm := none
  b : Option Adm := none
  c : Option Adm := none
  mods : Bool := true
  /-- IMM is read as an immediate source when some source names 0x1C0; otherwise it must be 0 -/
  immSource : Bool := true
  immOk : Bool := true
  deriving DecidableEq, Repr

/-- The operand fields of an instruction: guard, specs and IMM. -/
structure Ops where
  g : Guard
  d : Spec
  a : Spec
  b : Spec
  c : Spec
  imm : BitVec 32
  deriving DecidableEq, Repr

def extBits (e : Ext) : BitVec 32 :=
  BitVec.ofNat 32 (e.off.toNat * 0x10000 + e.scale.toNat * 0x4000 + (if e.refire then 0x2000 else 0)
    + e.layout.toNat * 0x800 + e.maxage.toNat)

def extOf (x : BitVec 32) : Ext :=
  { off := BitVec.ofNat 16 (bitsN x.toNat 16 16), scale := BitVec.ofNat 2 (bitsN x.toNat 14 2)
    refire := bitsN x.toNat 13 1 == 1, layout := BitVec.ofNat 2 (bitsN x.toNat 11 2)
    maxage := BitVec.ofNat 11 (bitsN x.toNat 0 11) }

def CtrlF.ops (f : CtrlF) : Ops := ⟨f.g, f.d, f.a, f.b, f.c, f.imm⟩
def ArithF.ops (f : ArithF) : Ops := ⟨f.g, f.d, f.a, f.b, f.c, f.imm⟩
def MemF.ops (f : MemF) : Ops := ⟨f.g, f.d, f.a, f.b, f.c, extBits f.ext⟩
def AtomF.ops (f : AtomF) : Ops := ⟨f.g, f.d, f.a, f.b, f.c, extBits f.ext⟩
def SyncF.ops (f : SyncF) : Ops := ⟨f.g, f.d, f.a, f.b, f.c, f.imm⟩
def EngF.ops (f : EngF) : Ops := ⟨f.g, f.d, f.a, f.b, f.c, f.imm⟩

/-! ### Forms by class -/

/-- CTRL forms (R73): SUB is 0 and the reserved bits are 0. -/
def ctrlForm (f : CtrlF) (d a : Option Adm) (immOk : Bool) (immSource : Bool := false) : Form :=
  { d, a, mods := f.sub == 0 && f.top == 0, immSource, immOk }

/-- Integer forms (R95): RM is 0b000. -/
def intForm (f : ArithF) (types : List Ty) (subs : List (BitVec 5)) (d a b c : Option Adm) : Form :=
  { d, a, b, c, mods := types.contains f.ty && subs.contains f.sub && f.rm == .rne }

/-- IADD, ISUB, IMUL: `.sat` on .i and .n types only. -/
def satForm (f : ArithF) : Form :=
  let t := f.ty
  { d := aDest t, a := aData t, b := aData t
    mods := f.rm == .rne && tysInt.contains t && (f.sub == 0 || (f.sub == 1 && (tysI ++ tysN).contains t)) }

def binForm (f : ArithF) (types : List Ty) (subs : List (BitVec 5)) : Form :=
  intForm f types subs (aDest f.ty) (aData f.ty) (aData f.ty) none

def unForm (f : ArithF) (types : List Ty) (subs : List (BitVec 5)) : Form :=
  intForm f types subs (aDest f.ty) (aData f.ty) none none

/-- Shifts and bit fields: the count or control is one 32-bit register read as .n32 (R95). -/
def countForm (f : ArithF) (types : List Ty) (c : Option Adm) : Form :=
  intForm f types [0] (aDest f.ty) (aData f.ty) (aData .n32) c

/-- Floating-point forms (R119). -/
def fpForm (f : ArithF) (n : Nat) (rounds : Bool) : Form :=
  let t := f.ty
  { d := aDest t, a := aData t, b := if n ≥ 2 then some (aData t) else none
    c := if n ≥ 3 then some (aData t) else none
    mods := [Ty.f32, .f64].contains t && f.sub == 0 && (if rounds then f.rm.four else f.rm == .rne) }

/-- VRED and VSCAN (R86): the types each operation admits. -/
def redTypes (op : Nat) : List Ty :=
  match op with
  | 0 => [.i32, .n32, .b32, .i64, .n64, .b64, .f32, .f64]
  | 1 | 2 => [.i32, .n32, .i64, .n64, .f32, .f64]
  | 3 | 4 | 5 => [.b32, .b64]
  | _ => []

def laneRedForm (f : ArithF) (scan : Bool) : Form :=
  let op := bitsN f.sub.toNat 0 3
  let high := bitsN f.sub.toNat 3 2
  { d := aVec f.ty, a := aVec f.ty
    mods := (redTypes op).contains f.ty && (if scan then high == 0 || high == 2 else high == 0)
      && (if op == 0 && [Ty.f32, .f64].contains f.ty then f.rm.four else f.rm == .rne) }

/-- Stamp instructions (R151). -/
def stampForm (f : ArithF) (subs : List (BitVec 5)) (d : Option Adm) (b : Option Adm) : Form :=
  { d, a := aData f.ty, b, mods := [Ty.b32, .b64].contains f.ty && subs.contains f.sub && f.rm == .rne }

/-- The registers of a block image (R113): elements and the exponent or scale word; 9 where TYPE or SUB names no block (log 71). -/
def blockRegs : Ty → Nat
  | .tx4 => 5
  | _ => 9

/-- Loads and stores of R175: the fields common to all. `acq` and `rel` say which orderings the row accepts. -/
def memMods (f : MemF) (acq rel evp lu : Bool) : Bool :=
  (match f.ord with
    | .plain => f.scope == .wv
    | .acq => acq && f.scope != .rsv
    | .rel => rel && f.scope != .rsv
    | .ar => false)
  && (evp || f.evp == 0) && (lu || !f.lu)

/-- IMM of an access: the extension fields that the row does not use are 0; MAXAGE only beside an immediate bound. -/
def memExtOk (f : MemF) (refire layout : Bool) : Bool :=
  (refire || !f.ext.refire) && (layout || f.ext.layout == 0) && (f.c == .imm || f.ext.maxage == 0)

def accessForm (f : MemF) (base : Adm) (load lu evp : Bool) : Form :=
  { d := aReg f.ty, a := base, b := aIdx, c := aBound
    mods := tysMem.contains f.ty && memMods f load (!load) evp (lu && load)
    immSource := false, immOk := memExtOk f (load && lu) false }

/-- The atomics' operand forms (R250). -/
def atomBase (f : AtomF) : Adm := { vec := true, scl := true, zero := true, regs := 2, even := true, ity := f.ty }

def atomTypes (aop : Nat) : List Ty :=
  match aop with
  | 0 => [.i32, .n32, .b32, .i64, .n64, .b64]
  | 1 | 2 => [.i32, .n32, .i64, .n64]
  | 3 | 4 | 5 | 6 => [.b32, .b64]
  | _ => []

def atomfTypes (aop : Nat) : List Ty := if aop ≤ 2 then [.f32, .f64] else []

def atomForm (f : AtomF) (types : List Ty) (noDest relOnly : Bool) : Form :=
  { d := if noDest then none else some (aReg f.ty), a := atomBase f, b := aIdx, c := aReg f.ty
    mods := types.contains f.ty && f.scope != .rsv
      && (match f.ord with
          | .plain | .rel => true
          | .acq | .ar => !relOnly)
    immSource := false, immOk := !f.ext.refire && f.ext.layout == 0 && f.ext.maxage == 0 }

/-- FLAGS of a tile instruction (R192). -/
def EngF.reuse (f : EngF) : Bool := bitsN f.flags.toNat 0 1 == 1
def EngF.acc (f : EngF) : Nat := bitsN f.flags.toNat 1 2
def EngF.part (f : EngF) : Nat := bitsN f.flags.toNat 3 2

/-- The accumulator kinds each A type accepts (R194). -/
def mmaAccOk (t : Ty) (acc : Nat) : Bool :=
  match t with
  | .f64 => acc == 1 || acc == 2
  | .tx4 | .tx8 | .e4m3 | .e5m2 | .mx8 | .f16 | .bf16 | .f32 => acc == 0
  | _ => false

/-- Registers of a TRD or TWR run (R208). -/
def tileRun (f : EngF) : Nat :=
  let n := bitsN f.imm.toNat 17 6 + 1
  if f.acc == 0 then n else 2 * n

def projTypes : List Ty := [.tx4, .tx8, .e4m3, .e5m2, .mx8, .f16, .bf16, .f32]

def projForm (f : EngF) : Form :=
  { b := aScl, mods := projTypes.contains f.ty && f.rm.four && f.flags == 0, immSource := false, immOk := f.imm == 0 }

/-- A slot number in IMM when SRCA is an immediate (R323). -/
def slotImmOk (f : EngF) : Bool := if f.a == .imm then decide (f.imm.toNat < 64) else f.imm == 0

def cgMods (f : EngF) : Bool := f.ty == .none && f.rm == .rne && f.flags == 0

/-- CVT: the accepted pairs of types (R129). -/
def cvtPair (dst src : Ty) : Bool :=
  (tysFloat.contains src && (tysFloat.contains dst || tysCvtInt.contains dst))
  || (tysCvtInt.contains src && tysFloat.contains dst)

/-- The special registers that SRD reads as a pair (R295). -/
def srdWide (n : Nat) : Bool := [11, 18, 19, 20].contains n

/-- The form of an instruction under encoding version `v`; a device step has none. CVT reads an immediate source as one of its source
type, which stands in SUB, CVT with .mx8 an immediate scale as .b32, and PACK an immediate source as .f32 (log 71). -/
def formOf (v : Nat) : Instr → Option (Ops × Form)
  | .nop f => some (f.ops, ctrlForm f none none (f.imm == 0))
  | .bra f => some (f.ops, ctrlForm f none none true)
  | .brx f => some (f.ops, ctrlForm f none (some { vec := true, scl := true }) (f.imm == 0))
  | .jmp f => some (f.ops, ctrlForm f none none true)
  | .call f => some (f.ops, ctrlForm f (some { vec := true }) none true)
  | .callx f => some (f.ops, ctrlForm f (some { vec := true }) (some { vec := true, scl := true }) (f.imm == 0))
  | .ret f => some (f.ops, ctrlForm f none (some { vec := true, scl := true }) (f.imm == 0))
  | .join f => some (f.ops, ctrlForm f none none (decide (f.imm.toNat < 0x10000)))
  | .fspawn f => some (f.ops, ctrlForm f none (some { vec := true, scl := true, zero := true }) true)
  | .fend f => some (f.ops, ctrlForm f none none (f.imm == 0))
  | .exit f => some (f.ops, ctrlForm f none none (f.imm == 0))
  | .yield f => some (f.ops, ctrlForm f none none (f.imm == 0))
  | .sleep f => some (f.ops, ctrlForm f none (some aSclImm) true true)
  | .brk f => some (f.ops, ctrlForm f none none (decide (f.imm.toNat < 0x10000)))
  | .trap f => some (f.ops, ctrlForm f none none (decide (f.imm.toNat < 32)))
  | .pset f => some (f.ops, intForm f tysInt [0, 1, 2, 3, 4, 5] (some aPredDest) (aData f.ty) (aData f.ty) none)
  | .plop f => some (f.ops, { d := aPredDest, a := aPred, b := aPred
                              mods := f.ty == .none && f.rm == .rne && decide (f.sub.toNat < 16) })
  | .pmovGet f => some (f.ops, { d := aVec .none, mods := f.ty == .none && f.rm == .rne && f.sub == 0 })
  | .pmovPut f => some (f.ops, { a := some { vec := true, scl := true, imm := true }
                                 mods := f.ty == .none && f.rm == .rne && f.sub == 1 })
  | .vote f => some (f.ops, { d := some (if f.sub == 3 then aVec .b64 else aPredDest), a := aPred
                              mods := f.ty == .none && f.rm == .rne && decide (f.sub.toNat < 4) })
  | .elect f => some (f.ops, { d := aPredDest, mods := f.ty == .none && f.rm == .rne && f.sub == 0 })
  | .shfl f => some (f.ops, { d := aVec f.ty, a := aVec f.ty
                              b := some { vec := true, scl := true, zero := true, imm := true, ity := .n32 }
                              mods := [Ty.b32, .b64].contains f.ty && f.rm == .rne && decide (f.sub.toNat < 4) })
  | .vred f => some (f.ops, laneRedForm f false)
  | .vscan f => some (f.ops, laneRedForm f true)
  | .mov f => some (f.ops, unForm f tysInt [0])
  | .movi f => some (f.ops, { d := aDest f.ty
                              mods := f.rm == .rne && ((f.sub == 0 && (tysInt ++ tysFloat).contains f.ty) || (f.sub == 1 && f.ty == .b64))
                              immSource := false, immOk := f.sub == 1 || immFits f.ty f.imm })
  | .sel f => some (f.ops, intForm f tysInt [0] (aDest f.ty) (aData f.ty) (aData f.ty) (some aPred))
  | .iadd f => some (f.ops, satForm f)
  | .isub f => some (f.ops, satForm f)
  | .imul f => some (f.ops, satForm f)
  | .imulh f => some (f.ops, binForm f (tysI ++ tysN) [0])
  | .imad f =>
    let w := f.sub == 2
    let tw : Ty := if w then (if f.ty == .i32 then .i64 else .n64) else f.ty
    some (f.ops, { d := aDest tw, a := aData f.ty, b := aData f.ty, c := aData tw
                   mods := f.rm == .rne && (tysI ++ tysN).contains f.ty
                     && (f.sub == 0 || f.sub == 1 || (w && [Ty.i32, .n32].contains f.ty)) })
  | .idiv f => some (f.ops, binForm f (tysI ++ tysN) [0, 1])
  | .irem f => some (f.ops, binForm f (tysI ++ tysN) [0, 1])
  | .imin f => some (f.ops, binForm f (tysI ++ tysN) [0])
  | .imax f => some (f.ops, binForm f (tysI ++ tysN) [0])
  | .iabs f => some (f.ops, unForm f tysI [0, 1])
  | .ineg f => some (f.ops, { d := aDest f.ty, a := aData f.ty
                              mods := f.rm == .rne && tysInt.contains f.ty && (f.sub == 0 || (f.sub == 1 && tysI.contains f.ty)) })
  | .and f => some (f.ops, binForm f tysB [0])
  | .or f => some (f.ops, binForm f tysB [0])
  | .xor f => some (f.ops, binForm f tysB [0])
  | .not f => some (f.ops, unForm f tysB [0])
  | .blop f => some (f.ops, { d := aDest f.ty, a := aReg f.ty, b := aReg f.ty, c := aReg f.ty
                              mods := f.rm == .rne && tysB.contains f.ty && f.sub == 0
                              immSource := false, immOk := immFits .n8 f.imm })
  | .shl f => some (f.ops, countForm f tysInt none)
  | .shr f => some (f.ops, countForm f tysInt none)
  | .sar f => some (f.ops, countForm f tysInt none)
  | .rot f => some (f.ops, countForm f tysInt none)
  | .bfe f => some (f.ops, countForm f [.i32, .n32, .b32, .i64, .n64, .b64] none)
  | .bfi f => some (f.ops, countForm f [.b32, .b64] (some (aData f.ty)))
  | .popc f => some (f.ops, intForm f [.b32, .b64] [0] (some (aDest .b32)) (aData f.ty) none none)
  | .clz f => some (f.ops, intForm f [.b32, .b64] [0] (some (aDest .b32)) (aData f.ty) none none)
  | .brev f => some (f.ops, unForm f [.b32, .b64] [0])
  | .lea f => some (f.ops, { d := aDest .b64, a := aReg .b64, b := aReg f.ty
                             mods := f.rm == .rne && [Ty.i32, .n32, .i64].contains f.ty && decide (f.sub.toNat < 4)
                             immSource := false })
  | .fadd f => some (f.ops, fpForm f 2 true)
  | .fsub f => some (f.ops, fpForm f 2 true)
  | .fmul f => some (f.ops, fpForm f 2 true)
  | .ffma f => some (f.ops, fpForm f 3 true)
  | .fmin f => some (f.ops, fpForm f 2 false)
  | .fmax f => some (f.ops, fpForm f 2 false)
  | .fabs f => some (f.ops, fpForm f 1 false)
  | .fneg f => some (f.ops, fpForm f 1 false)
  | .fdiv f => some (f.ops, fpForm f 2 true)
  | .fsqrt f => some (f.ops, fpForm f 1 true)
  | .frcp f => some (f.ops, fpForm f 1 true)
  | .frsq f => some (f.ops, fpForm f 1 true)
  | .fexp2 f => some (f.ops, fpForm f 1 true)
  | .flog2 f => some (f.ops, fpForm f 1 true)
  | .fsin f => some (f.ops, fpForm f 1 true)
  | .fcos f => some (f.ops, fpForm f 1 true)
  | .fcmp f => some (f.ops, { d := aPredDest, a := aData f.ty, b := aData f.ty
                              mods := [Ty.f32, .f64].contains f.ty && f.rm == .rne && decide (f.sub.toNat < 8) })
  | .fclass f => some (f.ops, { d := aDest .b32, a := aData f.ty
                                mods := [Ty.f32, .f64].contains f.ty && f.rm == .rne && f.sub == 0 })
  | .fscalb f => some (f.ops, { d := aDest f.ty, a := aData f.ty, b := aData .i32
                                mods := [Ty.f32, .f64].contains f.ty && f.rm.four && f.sub == 0 })
  | .frnd f => some (f.ops, { d := aDest f.ty, a := aData f.ty
                              mods := [Ty.f32, .f64].contains f.ty && f.rm.five && (f.sub == 0 || f.sub == 1) })
  | .cvt f => some (f.ops, { d := aDest f.ty, a := aData (tyOf f.sub), mods := f.rm.five && cvtPair f.ty (tyOf f.sub) })
  | .cvtMx8 f => some (f.ops, { d := aDest (if f.ty == .mx8 then .b8 else .f32)
                                a := aData (tyOf f.sub), b := aData .b32
                                mods := f.rm.five && decide (2 ≤ v)
                                  && ((f.ty == .mx8 && tyOf f.sub == .f32) || (f.ty == .f32 && tyOf f.sub == .mx8)) })
  | .qblk f => some (f.ops, { d := aVecRun (blockRegs f.ty) false, a := aVecRun 32 false
                              mods := f.rm.five && [Ty.tx4, .tx8].contains f.ty })
  | .dqblk f => some (f.ops, { d := aVecRun (32 * f.ty.regs) f.ty.wide, a := aVecRun (blockRegs (tyOf f.sub)) false
                               mods := f.rm.five && [Ty.f32, .f64].contains f.ty && [Ty.tx4, .tx8].contains (tyOf f.sub) })
  | .mxq f => some (f.ops, { d := aVecRun 9 false, a := aVecRun 32 false
                             mods := f.rm.five && f.ty == .mx8 && f.sub == 0 })
  | .mxdq f => some (f.ops, { d := aVecRun (32 * f.ty.regs) f.ty.wide, a := aVecRun 9 false
                              mods := f.rm.five && [Ty.f32, .f64].contains f.ty && tyOf f.sub == .mx8 })
  | .pack f => some (f.ops, { d := aDest .b32, a := aData .f32, b := aData .f32
                              mods := f.rm.five && [Ty.f16, .bf16, .e4m3, .e5m2].contains f.ty
                                && (f.sub == 0 || (f.sub == 1 && f.ty.bits == 8)) })
  | .unpack f => some (f.ops, { d := aDest .f32, a := aData f.ty
                                mods := f.rm == .rne && [Ty.f16, .bf16, .e4m3, .e5m2].contains f.ty
                                  && decide (f.sub.toNat < 32 / f.ty.bits) })
  | .stget f => some (f.ops, stampForm f [0] (some (aDest .b32)) none)
  | .stset f => some (f.ops, stampForm f [0] (some (aDest f.ty)) (some (aData .n32)))
  | .stless f => some (f.ops, stampForm f [0] (some aPredDest) (some (aData f.ty)))
  | .stmin f => some (f.ops, stampForm f [0] (some (aDest f.ty)) (some (aData f.ty)))
  | .age f => some (f.ops, stampForm f [0, 1] (some (aDest .b32)) none)
  | .fresh f => some (f.ops, stampForm f [0, 1] (if f.sub == 1 then none else some aPredDest) (some (aData .n32)))
  | .time f => some (f.ops, { d := aDest .b64, mods := f.ty == .n64 && f.rm == .rne && f.sub == 0 })
  | .hzn f => some (f.ops, { d := aDest .b32, mods := f.ty == .n32 && f.rm == .rne && f.sub == 0 })
  | .ld f => some (f.ops, accessForm f aSclPairZero true true true)
  | .st f => some (f.ops, accessForm f aSclPairZero false true true)
  | .lde f => some (f.ops, { d := aVec f.ty, a := aSclPairZero, b := aIdx, c := aBound
                             mods := [Ty.f32, .f64].contains f.ty && memMods f true false true true && f.ext.scale == 0
                             immSource := false, immOk := memExtOk f true false })
  | .ldg f => some (f.ops, accessForm f (aVecRun 2 true) true true true)
  | .sct f => some (f.ops, accessForm f (aVecRun 2 true) false true true)
  | .ldt f =>
    some (f.ops, { d := aVecRun (if f.ext.layout == 2 then 16 else if f.ext.layout == 3 then 1 else 8 * f.ty.bytes) false
                   a := aSclPair, b := aSclZero, c := aBound
                   mods := tysB.contains f.ty && memMods f true false true true
                     && !(f.ext.layout == 2 && (decide (v < 3) || f.ty == .b64))
                   immSource := false, immOk := memExtOk f true true })
  | .lds f => some (f.ops, accessForm f (aReg .n32) true false true)
  | .sts f => some (f.ops, accessForm f (aReg .n32) false false true)
  | .pref f => some (f.ops, { a := aSclPairZero, b := aIdx, mods := f.ty == .none && memMods f false false true false
                              immSource := false, immOk := memExtOk f false false })
  | .cctlWb f => some (f.ops, { a := aSclPairZero, b := aIdx
                                mods := f.ty == .none && f.ord == .plain && [Scope.dev, .sys].contains f.scope && f.evp == 0 && !f.lu
                                  && f.ext.maxage == 0
                                immSource := false, immOk := !f.ext.refire && f.ext.layout == 0 })
  | .cctlInv f => some (f.ops, { a := aSclPairZero, b := aIdx
                                 mods := f.ty == .none && f.ord == .plain && [Scope.dev, .sys].contains f.scope && f.evp == 0 && !f.lu
                                   && f.ext.maxage == 1
                                 immSource := false, immOk := !f.ext.refire && f.ext.layout == 0 })
  | .cctlLu f => some (f.ops, { a := aSclPairZero, b := aIdx
                                mods := f.ty == .none && f.ord == .plain && [Scope.dev, .sys].contains f.scope && f.evp == 0 && !f.lu
                                  && f.ext.maxage == 2
                                immSource := false, immOk := !f.ext.refire && f.ext.layout == 0 })
  | .bankcfg f => some (f.ops, { d := aSclZero, a := aSclZero
                                 mods := f.ty == .b32 && memMods f false false false false && decide (f.ext.maxage.toNat ≤ 1)
                                 immSource := false
                                 immOk := f.ext.off == 0 && f.ext.scale == 0 && !f.ext.refire && f.ext.layout == 0 })
  | .wlog f => some (f.ops, { a := aSclZero, mods := f.ty == .b32 && memMods f false false false false
                              immSource := false, immOk := extBits f.ext == 0 })
  | .mma f => some (f.ops, { a := some { vec := true }, b := aScl
                             mods := mmaAccOk f.ty f.acc && f.part == 0 && (if f.acc == 2 then f.rm == .rne else f.rm.four)
                               && (f.ty != .mx8 || decide (2 ≤ v))
                             immSource := false, immOk := f.imm == 0 })
  | .tzero f => some (f.ops, { mods := f.ty == .none && f.rm == .rne && f.acc != 3 && f.part == 0 && !f.reuse
                               immSource := false, immOk := decide (f.imm.toNat < 32) })
  | .tldm f => some (f.ops, { a := aSclPair, b := aScl
                              mods := f.ty == .none && f.rm == .rne && f.acc != 3 && f.part == 0 && !f.reuse
                              immSource := false, immOk := decide (f.imm.toNat < 32) })
  | .trd f => some (f.ops, { d := aVecRun (tileRun f) (f.acc != 0)
                             mods := f.ty == .none && f.acc != 3 && !f.reuse && f.part != 3 && (f.part == 0 || f.acc == 2)
                               && (if f.acc == 2 && f.part == 0 then f.rm.four else f.rm == .rne)
                             immSource := false, immOk := decide (f.imm.toNat < 2 ^ 23) })
  | .twr f => some (f.ops, { a := aVecRun (tileRun f) (f.acc != 0)
                             mods := f.ty == .none && f.rm == .rne && f.acc != 3 && !f.reuse && f.part != 3 && (f.part == 0 || f.acc == 2)
                             immSource := false, immOk := decide (f.imm.toNat < 2 ^ 23) })
  | .tscl f => some (f.ops, { a := some (if f.acc == 0 then aScl else aSclPair)
                              mods := f.ty == .none && f.acc != 3 && f.part == 0 && !f.reuse
                                && (if f.acc == 2 then f.rm == .rne else f.rm.four)
                              immSource := false, immOk := decide (f.imm.toNat < 2 ^ 10) })
  | .vproj f => some (f.ops, { projForm f with mods := (projForm f).mods && (f.ty != .mx8 || decide (2 ≤ v)) })
  | .vprojb f => some (f.ops, { projForm f with mods := (projForm f).mods && (f.ty != .mx8 || decide (2 ≤ v)) })
  | .vmerge f => some (f.ops, { a := aSclPair, b := aSclPair
                                mods := cgMods f && decide (1 ≤ bitsN f.imm.toNat 0 7) && decide (bitsN f.imm.toNat 0 7 ≤ 64)
                                immSource := false, immOk := decide (f.imm.toNat < 128) })
  | .vrset f => some (f.ops, { a := aSclPair, b := aScl, c := aSclPairZero, mods := cgMods f
                               immSource := false, immOk := f.imm == 0 })
  | .xcopy f => some (f.ops, { d := aSclZero, a := aSclPair, b := aSclPair, c := aSclImm
                               mods := f.ty == .none && f.rm == .rne && bitsN f.flags.toNat 0 2 == 0 })
  | .xcopyPush f => some (f.ops, { d := aSclZero, a := aScl, b := aSclPair, c := aSclImm
                                   mods := f.ty == .none && f.rm == .rne && bitsN f.flags.toNat 0 2 == 1 })
  | .xcopyPop f => some (f.ops, { d := aSclZero, a := aSclPair, b := aScl, c := aSclImm
                                  mods := f.ty == .none && f.rm == .rne && bitsN f.flags.toNat 0 2 == 2 })
  | .xfill f => some (f.ops, { d := aSclZero, a := aSclPair, b := some { scl := true, zero := true, imm := true }, c := aSclImm
                               mods := f.ty == .none && f.rm == .rne && bitsN f.flags.toNat 0 3 == 0 })
  | .xconv f => some (f.ops, { d := aSclZero, a := aSclPair, b := aSclPair, c := aSclImm
                               mods := [Ty.f64, .f32, .f16, .bf16, .e4m3, .e5m2, .tx4, .tx8, .mx8].contains f.ty && f.rm.five
                                 && ([Ty.tx4, .tx8].contains f.ty || f.flags == 0) && (f.ty != .mx8 || decide (2 ≤ v)) })
  | .wait f => some (f.ops, { mods := cgMods f, immSource := false, immOk := decide (f.imm.toNat < 2 ^ 24) })
  | .waitseq f => some (f.ops, { a := aSclImm, mods := cgMods f })
  | .seqrd f => some (f.ops, { d := aScl
                               mods := f.ty == .none && f.rm == .rne && bitsN f.flags.toNat 0 2 != 3 && bitsN f.flags.toNat 3 2 == 0
                                 && (bitsN f.flags.toNat 2 1 == 0 || bitsN f.flags.toNat 0 2 == 2)
                               immSource := false, immOk := f.imm == 0 })
  | .atom f => some (f.ops, atomForm f (atomTypes f.aop.toNat) false false)
  | .atomf f => some (f.ops, atomForm f (atomfTypes f.aop.toNat) false false)
  | .cas f => some (f.ops, atomForm f (if f.aop == 0 then [.b32, .b64] else []) false false)
  | .red f => some (f.ops, atomForm f (atomTypes f.aop.toNat ++ atomfTypes f.aop.toNat) true true)
  | .fence f => some (f.ops, { mods := f.mask == 0 && f.scope != .rsv && f.aop == 0, immSource := false, immOk := f.imm == 0 })
  | .xfence f => some (f.ops, { mods := f.mask != 0 && f.scope == .wv && f.ord == .plain && f.aop == 0
                                immSource := false, immOk := f.imm == 0 })
  | .bar f => some (f.ops, { mods := f.mask == 0 && f.ord == .plain && f.aop == 0
                               && (if bitsN f.imm.toNat 0 4 < 12 then f.scope == .tm else f.scope == .shd)
                             immSource := false, immOk := decide (f.imm.toNat < 16) })
  | .phaseArrive f => some (f.ops, { d := aSclZero, mods := f.mask == 0 && f.ord == .plain && f.aop == 0 && f.scope == .wv
                                     immSource := false, immOk := f.imm == 0 })
  | .phaseWait f => some (f.ops, { a := aSclImm, mods := f.mask == 0 && f.ord == .plain && f.aop == 1 && f.scope == .wv })
  | .cgload f => some (f.ops, { d := aSclZero, a := aSclPair, mods := cgMods f, immSource := false, immOk := f.imm == 0 })
  | .cgrun f => some (f.ops, { d := aSclZero, a := aSclImm, b := aSclPair, mods := cgMods f, immSource := false, immOk := slotImmOk f })
  | .cgstat f => some (f.ops, { d := aScl, a := aSclImm, mods := cgMods f, immSource := false, immOk := slotImmOk f })
  | .cappend f => some (f.ops, { a := some { vec := true, scl := true, regs := 2, even := true }
                                 b := some { vec := true, scl := true, regs := 2, even := true }
                                 mods := cgMods f, immSource := false, immOk := f.imm == 0 })
  | .cgfree f => some (f.ops, { a := aSclImm, mods := cgMods f, immSource := false, immOk := slotImmOk f })
  | .srd f =>
    let n := bitsN f.imm.toNat 0 6
    let w := srdWide n
    some (f.ops, ctrlForm f (some { vec := true, scl := true, regs := if w then 2 else 1, even := w }) none (decide (f.imm.toNat ≤ 20)))
  | .swr f =>
    let w := bitsN f.imm.toNat 0 6 == 19
    some (f.ops, ctrlForm f none (some { vec := true, scl := true, zero := true, regs := if w then 2 else 1, even := w })
      (decide (f.imm.toNat ≤ 20)))
  | .tret f => some (f.ops, ctrlForm f none none (f.imm == 0))
  | .cont f => some (f.ops, ctrlForm f (some aPredDest) none (f.imm == 0))
  | .resume f => some (f.ops, ctrlForm f none none (f.imm == 0))
  | .prog f => some (f.ops, ctrlForm f none (some aSclImm) (if f.a == .imm then decide (f.imm.toNat < 256) else f.imm == 0))
  | .kcallPageIn f => some (f.ops, { ctrlForm f (some aSclZero) (some aSclPair) (f.imm == 0) with b := aScl })
  | .kcallPageOut f => some (f.ops, { ctrlForm f (some aSclZero) (some aSclPair) (f.imm == 1) with b := aScl })
  | .kcallQuery f => some (f.ops, { ctrlForm f (some aSclZero) (some aSclPair) (decide (2 ≤ f.imm.toNat && f.imm.toNat < 256)) with b := aScl })
  | _ => none

/-- Opcodes that a version does not assign (R57). -/
def assigned (v : Nat) : Instr → Bool
  | .mxq _ | .mxdq _ | .wlog _ | .cappend _ | .prog _ => decide (2 ≤ v)
  | .vprojb _ | .vrset _ => decide (3 ≤ v)
  | _ => true

/-- Some field that the instruction uses satisfies `p`. -/
def anyUsed (o : Ops) (fm : Form) (p : Adm → Spec → Bool) : Bool :=
  [(fm.d, o.d), (fm.a, o.a), (fm.b, o.b), (fm.c, o.c)].any fun x =>
    match x.1 with
    | some adm => p adm x.2
    | none => false

/-- Cause 0x005: a non-zero unused field, or an immediate that breaks R49 or the layout (R48). A source field that the
form leaves unused, as LEA does SRCC, is judged here alone, 0x1C0 in it among the rest (log 71). -/
def badUnused (o : Ops) (fm : Form) : Bool :=
  ([(fm.d, o.d), (fm.a, o.a), (fm.b, o.b), (fm.c, o.c)].any fun x => x.1.isNone && x.2 != .vec 0)
  || !fm.immOk
  || (fm.immSource &&
      (if anyUsed o fm (fun adm x => x == .imm && adm.imm) then
        anyUsed o fm (fun adm x => x == .imm && !immFits adm.ity o.imm)
      else o.imm != 0))

/-- The first decode cause of an instruction in the order of R59, from 0x000 on, for a fibre whose window holds `allot`
registers; `none` when the word is an instruction of version `v`. -/
def firstCause (v allot : Nat) (i : Instr) : Option Nat :=
  match formOf v i with
  | none => some 0x000
  | some (o, fm) =>
    if !assigned v i then some 0x000
    else if o.g.neg && o.g.p == 15 then some 0x00E
    else if anyUsed o fm Adm.isRsv then some 0x002
    else if anyUsed o fm Adm.badClass then some 0x003
    else if anyUsed o fm (fun adm x => adm.beyond allot x) then some 0x004
    else if !fm.mods then some 0x001
    else if badUnused o fm then some 0x005
    else none

end Sys2Proof
end

