-- ==== Sys2Proof/WellFormed.lean ====
section
/-!
DEFINITION. Well-formed instructions: an instruction of encoding version 3 that no decode cause of R58 rejects, for the
widest window of 256 registers. The checks themselves stand in Machine/Forms.lean, one for each instruction form.
-/
namespace Sys2Proof

/-- A well-formed instruction: a form of an instruction word that the manual admits (R47 to R58). -/
def wellFormed (i : Instr) : Bool := (firstCause 3 256 i).isNone

end Sys2Proof
end

