-- ==== Sys2Proof/Decode.lean ====
section
/-!
DEFINITION. The decoder: from the 96 bits of an instruction word (R45 to R56) to an instruction or the decode cause of
R58, and the encoder written from the same tables. Bit 0 of a word is its least significant bit; it lies in memory
little-endian, at the lowest address first (R3, R39).
-/
namespace Sys2Proof

open Machine

/-- The fields of an instruction word (R45). -/
structure Raw where
  opc : BitVec 10
  gneg : BitVec 1
  gp : BitVec 4
  d : BitVec 9
  a : BitVec 9
  b : BitVec 9
  c : BitVec 9
  mod : BitVec 13
  imm : BitVec 32
  deriving DecidableEq, Repr

/-- R45: OPC 95:86, GUARD 85:81, DST 80:72, SRCA 71:63, SRCB 62:54, SRCC 53:45, MOD 44:32, IMM 31:0. -/
def rawOf (w : BitVec 96) : Raw :=
  let n := w.toNat
  { opc := BitVec.ofNat 10 (n / 2 ^ 86), gneg := BitVec.ofNat 1 (n / 2 ^ 85), gp := BitVec.ofNat 4 (n / 2 ^ 81)
    d := BitVec.ofNat 9 (n / 2 ^ 72), a := BitVec.ofNat 9 (n / 2 ^ 63), b := BitVec.ofNat 9 (n / 2 ^ 54)
    c := BitVec.ofNat 9 (n / 2 ^ 45), mod := BitVec.ofNat 13 (n / 2 ^ 32), imm := BitVec.ofNat 32 n }

/-- The word of some fields (R45). -/
def Raw.word (r : Raw) : BitVec 96 :=
  BitVec.ofNat 96 (r.opc.toNat * 2 ^ 86 + r.gneg.toNat * 2 ^ 85 + r.gp.toNat * 2 ^ 81 + r.d.toNat * 2 ^ 72
    + r.a.toNat * 2 ^ 63 + r.b.toNat * 2 ^ 54 + r.c.toNat * 2 ^ 45 + r.mod.toNat * 2 ^ 32 + r.imm.toNat)

/-- R46: bit 85 inverts, bits 84:81 name the predicate. -/
def Raw.guard (r : Raw) : Guard := ⟨r.gneg == 1, r.gp⟩

/-- TYPE in bits 44:40 (R50). -/
def Raw.ty (r : Raw) : Ty := tyOf (BitVec.ofNat 5 (r.mod.toNat / 2 ^ 8))
/-- Bits 36:32: SUB of ARITH, FLAGS of ENGINE (R54, R55). -/
def Raw.sub5 (r : Raw) : BitVec 5 := BitVec.ofNat 5 r.mod.toNat
/-- RM, bits 39:37 (R52). -/
def Raw.rm (r : Raw) : RM := rmOf (BitVec.ofNat 3 (r.mod.toNat / 2 ^ 5))
/-- SCOPE, bits 39:37 (R53). -/
def Raw.scope (r : Raw) : Scope := scopeOf (BitVec.ofNat 3 (r.mod.toNat / 2 ^ 5))
/-- ORD, bits 36:35 (R53). -/
def Raw.ord (r : Raw) : MemOrd := ordOf (BitVec.ofNat 2 (r.mod.toNat / 2 ^ 3))

/-- The five layouts (R54, R55). -/
def Raw.ctrl (r : Raw) : CtrlF :=
  { g := r.guard, d := specOf r.d, a := specOf r.a, b := specOf r.b, c := specOf r.c
    top := BitVec.ofNat 9 (r.mod.toNat / 2 ^ 4), sub := BitVec.ofNat 4 r.mod.toNat, imm := r.imm }

def Raw.arith (r : Raw) : ArithF :=
  { g := r.guard, d := specOf r.d, a := specOf r.a, b := specOf r.b, c := specOf r.c
    ty := r.ty, rm := r.rm, sub := r.sub5, imm := r.imm }

def Raw.mem (r : Raw) : MemF :=
  { g := r.guard, d := specOf r.d, a := specOf r.a, b := specOf r.b, c := specOf r.c
    ty := r.ty, scope := r.scope, ord := r.ord, evp := BitVec.ofNat 2 (r.mod.toNat / 2)
    lu := BitVec.ofNat 1 r.mod.toNat == 1, ext := extOf r.imm }

def Raw.atom (r : Raw) : AtomF :=
  { g := r.guard, d := specOf r.d, a := specOf r.a, b := specOf r.b, c := specOf r.c
    ty := r.ty, scope := r.scope, ord := r.ord, aop := BitVec.ofNat 3 r.mod.toNat, ext := extOf r.imm }

def Raw.sync (r : Raw) : SyncF :=
  { g := r.guard, d := specOf r.d, a := specOf r.a, b := specOf r.b, c := specOf r.c
    mask := BitVec.ofNat 5 (r.mod.toNat / 2 ^ 8), scope := r.scope, ord := r.ord, aop := BitVec.ofNat 3 r.mod.toNat
    imm := r.imm }

def Raw.eng (r : Raw) : EngF :=
  { g := r.guard, d := specOf r.d, a := specOf r.a, b := specOf r.b, c := specOf r.c
    ty := r.ty, rm := r.rm, flags := r.sub5, imm := r.imm }

/-- The instruction of an assigned opcode (R56), with its fields as they stand; `none` for an unassigned opcode. -/
def instrOf (r : Raw) : Option Instr :=
  match r.opc.toNat with
  | 0x000 => some (.nop r.ctrl)
  | 0x001 => some (.bra r.ctrl)
  | 0x002 => some (.brx r.ctrl)
  | 0x003 => some (.jmp r.ctrl)
  | 0x004 => some (.call r.ctrl)
  | 0x005 => some (.callx r.ctrl)
  | 0x006 => some (.ret r.ctrl)
  | 0x007 => some (.join r.ctrl)
  | 0x008 => some (.fspawn r.ctrl)
  | 0x009 => some (.fend r.ctrl)
  | 0x00A => some (.exit r.ctrl)
  | 0x00B => some (.yield r.ctrl)
  | 0x00C => some (.sleep r.ctrl)
  | 0x00D => some (.brk r.ctrl)
  | 0x00E => some (.trap r.ctrl)
  | 0x040 => some (.pset r.arith)
  | 0x041 => some (.plop r.arith)
  | 0x042 => some (if r.sub5 == 1 then .pmovPut r.arith else .pmovGet r.arith)
  | 0x043 => some (.vote r.arith)
  | 0x044 => some (.elect r.arith)
  | 0x045 => some (.shfl r.arith)
  | 0x046 => some (.vred r.arith)
  | 0x047 => some (.vscan r.arith)
  | 0x080 => some (.mov r.arith)
  | 0x081 => some (.movi r.arith)
  | 0x082 => some (.sel r.arith)
  | 0x083 => some (.iadd r.arith)
  | 0x084 => some (.isub r.arith)
  | 0x085 => some (.imul r.arith)
  | 0x086 => some (.imulh r.arith)
  | 0x087 => some (.imad r.arith)
  | 0x088 => some (.idiv r.arith)
  | 0x089 => some (.irem r.arith)
  | 0x08A => some (.imin r.arith)
  | 0x08B => some (.imax r.arith)
  | 0x08C => some (.iabs r.arith)
  | 0x08D => some (.ineg r.arith)
  | 0x08E => some (.and r.arith)
  | 0x08F => some (.or r.arith)
  | 0x090 => some (.xor r.arith)
  | 0x091 => some (.not r.arith)
  | 0x092 => some (.blop r.arith)
  | 0x093 => some (.shl r.arith)
  | 0x094 => some (.shr r.arith)
  | 0x095 => some (.sar r.arith)
  | 0x096 => some (.rot r.arith)
  | 0x097 => some (.bfe r.arith)
  | 0x098 => some (.bfi r.arith)
  | 0x099 => some (.popc r.arith)
  | 0x09A => some (.clz r.arith)
  | 0x09B => some (.brev r.arith)
  | 0x09C => some (.lea r.arith)
  | 0x100 => some (.fadd r.arith)
  | 0x101 => some (.fsub r.arith)
  | 0x102 => some (.fmul r.arith)
  | 0x103 => some (.ffma r.arith)
  | 0x104 => some (.fmin r.arith)
  | 0x105 => some (.fmax r.arith)
  | 0x106 => some (.fabs r.arith)
  | 0x107 => some (.fneg r.arith)
  | 0x108 => some (.fdiv r.arith)
  | 0x109 => some (.fsqrt r.arith)
  | 0x10A => some (.frcp r.arith)
  | 0x10B => some (.frsq r.arith)
  | 0x10C => some (.fexp2 r.arith)
  | 0x10D => some (.flog2 r.arith)
  | 0x10E => some (.fsin r.arith)
  | 0x10F => some (.fcos r.arith)
  | 0x110 => some (.fcmp r.arith)
  | 0x111 => some (.fclass r.arith)
  | 0x112 => some (.fscalb r.arith)
  | 0x113 => some (.frnd r.arith)
  | 0x180 => some (if r.ty == .mx8 || tyOf r.sub5 == .mx8 then .cvtMx8 r.arith else .cvt r.arith)
  | 0x181 => some (.qblk r.arith)
  | 0x182 => some (.dqblk r.arith)
  | 0x183 => some (.mxq r.arith)
  | 0x184 => some (.mxdq r.arith)
  | 0x185 => some (.pack r.arith)
  | 0x186 => some (.unpack r.arith)
  | 0x1C0 => some (.stget r.arith)
  | 0x1C1 => some (.stset r.arith)
  | 0x1C2 => some (.stless r.arith)
  | 0x1C3 => some (.stmin r.arith)
  | 0x1C4 => some (.age r.arith)
  | 0x1C5 => some (.fresh r.arith)
  | 0x1C6 => some (.time r.arith)
  | 0x1C7 => some (.hzn r.arith)
  | 0x200 => some (.ld r.mem)
  | 0x201 => some (.st r.mem)
  | 0x202 => some (.lde r.mem)
  | 0x203 => some (.ldg r.mem)
  | 0x204 => some (.sct r.mem)
  | 0x205 => some (.ldt r.mem)
  | 0x206 => some (.lds r.mem)
  | 0x207 => some (.sts r.mem)
  | 0x208 => some (.pref r.mem)
  | 0x209 => some (if r.mem.ext.maxage == 1 then .cctlInv r.mem else if r.mem.ext.maxage == 2 then .cctlLu r.mem else .cctlWb r.mem)
  | 0x20A => some (.bankcfg r.mem)
  | 0x20B => some (.wlog r.mem)
  | 0x280 => some (.mma r.eng)
  | 0x281 => some (.tzero r.eng)
  | 0x282 => some (.tldm r.eng)
  | 0x283 => some (.trd r.eng)
  | 0x284 => some (.twr r.eng)
  | 0x285 => some (.tscl r.eng)
  | 0x2C0 => some (.vproj r.eng)
  | 0x2C1 => some (.vprojb r.eng)
  | 0x2C2 => some (.vmerge r.eng)
  | 0x2C3 => some (.vrset r.eng)
  | 0x2E0 => some (if bitsN r.sub5.toNat 0 2 == 1 then .xcopyPush r.eng else if bitsN r.sub5.toNat 0 2 == 2 then .xcopyPop r.eng else .xcopy r.eng)
  | 0x2E1 => some (.xfill r.eng)
  | 0x2E2 => some (.xconv r.eng)
  | 0x2E3 => some (.wait r.eng)
  | 0x2E4 => some (.waitseq r.eng)
  | 0x2E5 => some (.seqrd r.eng)
  | 0x300 => some (.atom r.atom)
  | 0x301 => some (.atomf r.atom)
  | 0x302 => some (.cas r.atom)
  | 0x303 => some (.red r.atom)
  | 0x304 => some (.fence r.sync)
  | 0x305 => some (.xfence r.sync)
  | 0x306 => some (.bar r.sync)
  | 0x307 => some (if bitsN r.mod.toNat 0 3 == 1 then .phaseWait r.sync else .phaseArrive r.sync)
  | 0x340 => some (.cgload r.eng)
  | 0x341 => some (.cgrun r.eng)
  | 0x342 => some (.cgstat r.eng)
  | 0x343 => some (.cappend r.eng)
  | 0x344 => some (.cgfree r.eng)
  | 0x360 => some (.srd r.ctrl)
  | 0x361 => some (.swr r.ctrl)
  | 0x362 => some (.tret r.ctrl)
  | 0x363 => some (.cont r.ctrl)
  | 0x364 => some (.resume r.ctrl)
  | 0x365 => some (.prog r.ctrl)
  | 0x366 => some (if r.imm == 0 then .kcallPageIn r.ctrl else if r.imm == 1 then .kcallPageOut r.ctrl else .kcallQuery r.ctrl)
  | _ => none

/-- Decode one word under encoding version `v` for a fibre with `allot` registers in its window: the instruction, or the
first cause in the order of R59 (R57, R58). -/
def decode (v allot : Nat) (w : BitVec 96) : Except Nat Instr :=
  match instrOf (rawOf w) with
  | none => .error 0x000
  | some i => match firstCause v allot i with
    | some c => .error c
    | none => .ok i

def Guard.bit (g : Guard) : BitVec 1 := if g.neg then 1 else 0

def CtrlF.raw (f : CtrlF) (opc : BitVec 10) : Raw :=
  { opc, gneg := f.g.bit, gp := f.g.p, d := specCode f.d, a := specCode f.a, b := specCode f.b, c := specCode f.c
    mod := BitVec.ofNat 13 (f.top.toNat * 2 ^ 4 + f.sub.toNat), imm := f.imm }

def ArithF.raw (f : ArithF) (opc : BitVec 10) : Raw :=
  { opc, gneg := f.g.bit, gp := f.g.p, d := specCode f.d, a := specCode f.a, b := specCode f.b, c := specCode f.c
    mod := BitVec.ofNat 13 ((tyCode f.ty).toNat * 2 ^ 8 + (rmCode f.rm).toNat * 2 ^ 5 + f.sub.toNat), imm := f.imm }

def MemF.raw (f : MemF) (opc : BitVec 10) : Raw :=
  { opc, gneg := f.g.bit, gp := f.g.p, d := specCode f.d, a := specCode f.a, b := specCode f.b, c := specCode f.c
    mod := BitVec.ofNat 13 ((tyCode f.ty).toNat * 2 ^ 8 + (scopeCode f.scope).toNat * 2 ^ 5 + (ordCode f.ord).toNat * 2 ^ 3
      + f.evp.toNat * 2 + (if f.lu then 1 else 0))
    imm := extBits f.ext }

def AtomF.raw (f : AtomF) (opc : BitVec 10) : Raw :=
  { opc, gneg := f.g.bit, gp := f.g.p, d := specCode f.d, a := specCode f.a, b := specCode f.b, c := specCode f.c
    mod := BitVec.ofNat 13 ((tyCode f.ty).toNat * 2 ^ 8 + (scopeCode f.scope).toNat * 2 ^ 5 + (ordCode f.ord).toNat * 2 ^ 3
      + f.aop.toNat)
    imm := extBits f.ext }

def SyncF.raw (f : SyncF) (opc : BitVec 10) : Raw :=
  { opc, gneg := f.g.bit, gp := f.g.p, d := specCode f.d, a := specCode f.a, b := specCode f.b, c := specCode f.c
    mod := BitVec.ofNat 13 (f.mask.toNat * 2 ^ 8 + (scopeCode f.scope).toNat * 2 ^ 5 + (ordCode f.ord).toNat * 2 ^ 3
      + f.aop.toNat)
    imm := f.imm }

def EngF.raw (f : EngF) (opc : BitVec 10) : Raw :=
  { opc, gneg := f.g.bit, gp := f.g.p, d := specCode f.d, a := specCode f.a, b := specCode f.b, c := specCode f.c
    mod := BitVec.ofNat 13 ((tyCode f.ty).toNat * 2 ^ 8 + (rmCode f.rm).toNat * 2 ^ 5 + f.flags.toNat), imm := f.imm }

/-- The fields of an instruction's word (R45, R56); a device step has no word. -/
def encodeRaw : Instr → Option Raw
  | .nop f => some (f.raw 0x000)
  | .bra f => some (f.raw 0x001)
  | .brx f => some (f.raw 0x002)
  | .jmp f => some (f.raw 0x003)
  | .call f => some (f.raw 0x004)
  | .callx f => some (f.raw 0x005)
  | .ret f => some (f.raw 0x006)
  | .join f => some (f.raw 0x007)
  | .fspawn f => some (f.raw 0x008)
  | .fend f => some (f.raw 0x009)
  | .exit f => some (f.raw 0x00A)
  | .yield f => some (f.raw 0x00B)
  | .sleep f => some (f.raw 0x00C)
  | .brk f => some (f.raw 0x00D)
  | .trap f => some (f.raw 0x00E)
  | .pset f => some (f.raw 0x040)
  | .plop f => some (f.raw 0x041)
  | .pmovGet f => some (f.raw 0x042)
  | .pmovPut f => some (f.raw 0x042)
  | .vote f => some (f.raw 0x043)
  | .elect f => some (f.raw 0x044)
  | .shfl f => some (f.raw 0x045)
  | .vred f => some (f.raw 0x046)
  | .vscan f => some (f.raw 0x047)
  | .mov f => some (f.raw 0x080)
  | .movi f => some (f.raw 0x081)
  | .sel f => some (f.raw 0x082)
  | .iadd f => some (f.raw 0x083)
  | .isub f => some (f.raw 0x084)
  | .imul f => some (f.raw 0x085)
  | .imulh f => some (f.raw 0x086)
  | .imad f => some (f.raw 0x087)
  | .idiv f => some (f.raw 0x088)
  | .irem f => some (f.raw 0x089)
  | .imin f => some (f.raw 0x08A)
  | .imax f => some (f.raw 0x08B)
  | .iabs f => some (f.raw 0x08C)
  | .ineg f => some (f.raw 0x08D)
  | .and f => some (f.raw 0x08E)
  | .or f => some (f.raw 0x08F)
  | .xor f => some (f.raw 0x090)
  | .not f => some (f.raw 0x091)
  | .blop f => some (f.raw 0x092)
  | .shl f => some (f.raw 0x093)
  | .shr f => some (f.raw 0x094)
  | .sar f => some (f.raw 0x095)
  | .rot f => some (f.raw 0x096)
  | .bfe f => some (f.raw 0x097)
  | .bfi f => some (f.raw 0x098)
  | .popc f => some (f.raw 0x099)
  | .clz f => some (f.raw 0x09A)
  | .brev f => some (f.raw 0x09B)
  | .lea f => some (f.raw 0x09C)
  | .fadd f => some (f.raw 0x100)
  | .fsub f => some (f.raw 0x101)
  | .fmul f => some (f.raw 0x102)
  | .ffma f => some (f.raw 0x103)
  | .fmin f => some (f.raw 0x104)
  | .fmax f => some (f.raw 0x105)
  | .fabs f => some (f.raw 0x106)
  | .fneg f => some (f.raw 0x107)
  | .fdiv f => some (f.raw 0x108)
  | .fsqrt f => some (f.raw 0x109)
  | .frcp f => some (f.raw 0x10A)
  | .frsq f => some (f.raw 0x10B)
  | .fexp2 f => some (f.raw 0x10C)
  | .flog2 f => some (f.raw 0x10D)
  | .fsin f => some (f.raw 0x10E)
  | .fcos f => some (f.raw 0x10F)
  | .fcmp f => some (f.raw 0x110)
  | .fclass f => some (f.raw 0x111)
  | .fscalb f => some (f.raw 0x112)
  | .frnd f => some (f.raw 0x113)
  | .cvt f => some (f.raw 0x180)
  | .cvtMx8 f => some (f.raw 0x180)
  | .qblk f => some (f.raw 0x181)
  | .dqblk f => some (f.raw 0x182)
  | .mxq f => some (f.raw 0x183)
  | .mxdq f => some (f.raw 0x184)
  | .pack f => some (f.raw 0x185)
  | .unpack f => some (f.raw 0x186)
  | .stget f => some (f.raw 0x1C0)
  | .stset f => some (f.raw 0x1C1)
  | .stless f => some (f.raw 0x1C2)
  | .stmin f => some (f.raw 0x1C3)
  | .age f => some (f.raw 0x1C4)
  | .fresh f => some (f.raw 0x1C5)
  | .time f => some (f.raw 0x1C6)
  | .hzn f => some (f.raw 0x1C7)
  | .ld f => some (f.raw 0x200)
  | .st f => some (f.raw 0x201)
  | .lde f => some (f.raw 0x202)
  | .ldg f => some (f.raw 0x203)
  | .sct f => some (f.raw 0x204)
  | .ldt f => some (f.raw 0x205)
  | .lds f => some (f.raw 0x206)
  | .sts f => some (f.raw 0x207)
  | .pref f => some (f.raw 0x208)
  | .cctlWb f => some (f.raw 0x209)
  | .cctlInv f => some (f.raw 0x209)
  | .cctlLu f => some (f.raw 0x209)
  | .bankcfg f => some (f.raw 0x20A)
  | .wlog f => some (f.raw 0x20B)
  | .mma f => some (f.raw 0x280)
  | .tzero f => some (f.raw 0x281)
  | .tldm f => some (f.raw 0x282)
  | .trd f => some (f.raw 0x283)
  | .twr f => some (f.raw 0x284)
  | .tscl f => some (f.raw 0x285)
  | .vproj f => some (f.raw 0x2C0)
  | .vprojb f => some (f.raw 0x2C1)
  | .vmerge f => some (f.raw 0x2C2)
  | .vrset f => some (f.raw 0x2C3)
  | .xcopy f => some (f.raw 0x2E0)
  | .xcopyPush f => some (f.raw 0x2E0)
  | .xcopyPop f => some (f.raw 0x2E0)
  | .xfill f => some (f.raw 0x2E1)
  | .xconv f => some (f.raw 0x2E2)
  | .wait f => some (f.raw 0x2E3)
  | .waitseq f => some (f.raw 0x2E4)
  | .seqrd f => some (f.raw 0x2E5)
  | .atom f => some (f.raw 0x300)
  | .atomf f => some (f.raw 0x301)
  | .cas f => some (f.raw 0x302)
  | .red f => some (f.raw 0x303)
  | .fence f => some (f.raw 0x304)
  | .xfence f => some (f.raw 0x305)
  | .bar f => some (f.raw 0x306)
  | .phaseArrive f => some (f.raw 0x307)
  | .phaseWait f => some (f.raw 0x307)
  | .cgload f => some (f.raw 0x340)
  | .cgrun f => some (f.raw 0x341)
  | .cgstat f => some (f.raw 0x342)
  | .cappend f => some (f.raw 0x343)
  | .cgfree f => some (f.raw 0x344)
  | .srd f => some (f.raw 0x360)
  | .swr f => some (f.raw 0x361)
  | .tret f => some (f.raw 0x362)
  | .cont f => some (f.raw 0x363)
  | .resume f => some (f.raw 0x364)
  | .prog f => some (f.raw 0x365)
  | .kcallPageIn f => some (f.raw 0x366)
  | .kcallPageOut f => some (f.raw 0x366)
  | .kcallQuery f => some (f.raw 0x366)
  | _ => none

/-- The encoder: the word of an instruction (R45 to R56); the all-zero word for a device step, which has none. -/
def encode (i : Instr) : BitVec 96 :=
  match encodeRaw i with
  | some r => r.word
  | none => 0

/-- The instruction that the decoder reads from the bits `w`, under version 3 and a window of 256 registers. The word
is 12 bytes, least significant first (R3, R45), so its bits are numbered as the table numbers them. -/
def decodeTableWord (_nbits w : Nat) : Option Instr :=
  match decode 3 256 (BitVec.ofNat 96 w) with
  | .ok i => some i
  | .error _ => none

end Sys2Proof
end

