-- ==== Sys2Proof/Config.lean ====
section
/-!
DEFINITION. What one implementation fixes, and the free values: constants of the device (R1) and opaque functions
for what the manual leaves open (R6, R245, R360). Nothing can be proved of an opaque value, so a claim holds for every one.
-/
namespace Sys2Proof.Config

/-- DESIGN CHOICE (log 2). The k-th undefined 64-bit pattern that the device returns (R6). -/
opaque freeValue : Nat → BitVec 64
/-- DESIGN CHOICE (log 2). The stamp of the k-th undefined value (R6). -/
opaque freeStamp : Nat → BitVec 32
/-- DESIGN CHOICE (log 2). The byte read at a location whose contents are undefined since it was allotted (R35, R315). -/
opaque undefByte : Nat → BitVec 8
/-- DESIGN CHOICE (log 2). The stamp read at a granule whose stamp is undefined since it was allotted (R35, R315). -/
opaque undefStamp : Nat → BitVec 32
/-- DESIGN CHOICE (log 2). The value and stamp of an undefined tile element (R188): by tile run and element. -/
opaque undefTile : Nat → Nat → BitVec 64
opaque undefTileStamp : Nat → Nat → BitVec 32
/-- DESIGN CHOICE (log 2). The k-th choice among several outcomes that the manual allows (R245, R252, R233, R319). -/
opaque pick : Nat → Nat
/-- DESIGN CHOICE (log 2). Which of several contents the fetch of a granule returns (R25): by clock, and by slot and granule. -/
opaque pickCode : Nat → Nat → Nat

/-- DESIGN CHOICE (log 72). Does the CXL.mem completion for a granule carry an error or poison (R173)? By clock and granule. -/
opaque cxlError : Nat → Nat → Bool

/-- DESIGN CHOICE (log 13). The format and the geometry of a 64 KiB page at another device (R162, R174), which no flit tells: by
device and page. -/
opaque farFmt : Nat → Nat
opaque farGeom : Nat → Nat

/-- UNVERIFIED (log 9). SHA-512 of a byte string (R340), by the name of its standard only. -/
opaque sha512 : List (BitVec 8) → BitVec 512
/-- UNVERIFIED (log 9). The device's key share answering an owner's share (R339). -/
opaque deviceShare : BitVec 256 → Nat → BitVec 256
/-- UNVERIFIED (log 9). The binding secret that both sides derive (R339). -/
opaque bindingSecret : BitVec 256 → Nat → BitVec 256
/-- UNVERIFIED (log 9). The Ed25519 signature of the device identity key over a report (R340). -/
opaque reportSignature : BitVec 2560 → BitVec 512
/-- UNVERIFIED (log 9). The command key that both sides derive (R339), the device identity key's signature of the device's share, and
the AES-256-GCM tag of a command or a response under a command key: by header bits 127:0 and payload (R341). -/
opaque commandKey : BitVec 256 → Nat → BitVec 256
opaque shareSignature : BitVec 256 → BitVec 512
opaque commandTag : BitVec 256 → Nat → List (BitVec 8) → BitVec 128
/-- UNVERIFIED (log 9). The n-th key of the security processor's random source (R337). -/
opaque randomKey : Nat → BitVec 512
/-- UNVERIFIED (log 9). The AES-256-GCM tag of a flit under a link key (R343). -/
opaque linkTag : BitVec 256 → Nat → BitVec 128
/-- UNVERIFIED (log 9). What a byte of ciphertext under one key reads as under another (R338, R344). -/
opaque foreignByte : Nat → Nat → BitVec 8
/-- UNVERIFIED (log 9). Its stamp. -/
opaque foreignStamp : Nat → Nat → BitVec 32

/-- UNVERIFIED (log 10). The device's own domain ID, ROM version and ROM digest (R343). -/
opaque deviceId : BitVec 8
opaque romVersion : BitVec 64
opaque romDigest : BitVec 512
/-- UNVERIFIED (log 10). Does the expander behind a root port support back-invalidate (R334)? -/
opaque hasBackInvalidate : Nat → Bool

/-- Figures of R1. -/
def dies : Nat := 8
def coresPerDie : Nat := 16
def cores : Nat := 128
def queues : Nat := 64
def partitions : Nat := 8
def graphSlots : Nat := 64
def phaseTrees : Nat := 8
def tilesPerCore : Nat := 32
def spawnRecords : Nat := 4096
def chainEntries : Nat := 1024
def keyIds : Nat := 1024
def columnRegs : Nat := 2048
def banksPerCluster : Nat := 32
/-- A bank is 256 KiB, 64 units of 4 KiB (R1, R34). -/
def unitsPerBank : Nat := 64
/-- The staging pool (R315). -/
def stagingUnits : Nat := 1024
/-- Entries of a chute bank (R170). -/
def chuteEntries : Nat := 32768
/-- Heap entries of a quarter's projection engine (R218). -/
def heapEntries : Nat := 1024

/-- HBM data, reserved HBM and the CXL ports (R164). -/
def hbmDataEnd : Nat := 0x7000000000
def hbmEnd : Nat := 0x7200000000
def cxlBase : Nat := 0x4000000000000
def cxlStride : Nat := 0x40000000000
def cxlPorts : Nat := 4

/-- The frame window (R274). -/
def frameWindow : BitVec 64 := 0x007FFFFFFF800000#64
/-- DESIGN CHOICE (log 11). The physical place of the frame window's first frame, inside reserved HBM (R164, R274). -/
def framePhys : Nat := 0x7000000000
/-- DESIGN CHOICE (log 11). The physical place of partition `p`'s root table, 512 KiB each, inside reserved HBM (R161). -/
def rootPhys (p : Nat) : Nat := 0x7010000000 + p * 0x80000

end Sys2Proof.Config
end

