-- ==== Sys2Proof/Machine/State.lean ====
section
/-!
DEFINITION. The state of the device, as plain data: every piece of state that the manual names, under the headings of
INVENTORY.md, and the reasons why a step can stop. Maps are lists sorted by key, without entries for default values.
-/
namespace Sys2Proof.Machine

/-- Why a step stops with a fault. -/
inductive Fault where
  /-- Raised by every meaning of an instruction word when no weave slot is issuing it. Safe: the manual gives an
  instruction an effect only in a slot (R62, R64), and `step` never does this. -/
  | noWeave
  deriving DecidableEq, Repr

/-- Why a step has no meaning. -/
inductive Refusal where
  /-- Raised by an arm of `exec` that has no meaning yet. Safe: the machine stops. -/
  | notModelled (mnemonic : String)
  deriving DecidableEq, Repr

/-- What moves next (R360 leaves every latency open). -/
inductive Act where
  /-- a clock of 800 MHz passes (R3) -/
  | clock
  /-- quarter `q` of core `core` makes its next choice of R64 -/
  | quarter (core q : Nat)
  /-- an engine, a home, a port, the firmware or the outside moves -/
  | event (i : Instr)
  deriving DecidableEq, Repr, Inhabited

/-- DESIGN CHOICE (log 1). What moves next when the agenda names nothing: the k-th free choice. -/
opaque Config.freeAct : Nat → Act

/-- The memory paths of R240, which are also the engine classes of XFENCE. -/
inductive Path where
  | vec | cp | mx | vp | coll
  deriving DecidableEq, Repr

/-- The outstanding-operation counters of R235. -/
inductive Ctr where
  | none | ld | st | cp | tl
  deriving DecidableEq, Repr

/-- The pipes of R61. -/
inductive Pipe where
  | vector | special | memory | engine | branch
  deriving DecidableEq, Repr

/-- A register lane or a scalar register: value and stamp together (R91). -/
structure Reg where
  val : Word
  st : Stamp
  deriving DecidableEq, Repr

/-- R21: registers start at 0 and timeless. -/
def Reg.zero : Reg := ⟨0, 0⟩

/-- How far an instruction got when its cause arose (R276). -/
inductive Kind where
  | precise | partly | after | engine | late | parked
  deriving DecidableEq, Repr

/-- A cause with all that its frame holds (R275, R276). Lane sets are lists of lane columns. -/
structure TrapInfo where
  cause : Nat
  kind : Kind
  lmask : List Nat
  rmask : List Nat
  addr : DWord
  info : Word
  stamp : Stamp
  hzn : Word
  bound : Word
  pc : DWord
  /-- the PC of R42 after the instruction -/
  next : DWord
  rstep : Nat
  word : BitVec 96
  /-- the `%weave` that the operation retained (R178, R305) -/
  weave : Nat
  /-- an engine instruction that was itself issued again: the step it resumed at, and the PC that follows it (R279) -/
  again : Option (Nat × DWord)
  /-- the bounds that failing lanes of a load used (R149) -/
  bounds : List (Nat × Word)
  deriving DecidableEq, Repr

/-- What brought a slot to its PC, which decides the checks at the next issue (R42, R43). -/
inductive Arrive where
  /-- sequential flow, or the PC of a record -/
  | flow
  /-- a target that was checked when the transfer was taken -/
  | target
  /-- a role's ENTRY, TRAPENT or CONTENT -/
  | entry
  /-- a PC restored by TRET or RESUME, or a replay PC -/
  | resumption
  deriving DecidableEq, Repr

/-- The stages of a fault that the groom serves (R149, R284). -/
inductive Serve where
  /-- pages that must become present, by virtual page address -/
  | pages (vas : List Nat)
  /-- a re-fire that has not begun: the page entry's descriptor index -/
  | refireNew (rdidx : Nat)
  /-- a re-fire that waits for launch `seq` of queue `queue`; `n`: the highest count among its fibres when it was served -/
  | refireWait (queue : Nat) (seq : Nat) (n : Nat)
  /-- served: the replay may issue -/
  | ready
  deriving DecidableEq, Repr

/-- A fault in the groom's hands: its cause and its stage. `cont` marks a fault behind a running continuation. -/
structure Parked where
  trap : TrapInfo
  serve : Serve
  deriving DecidableEq, Repr

/-- Why a slot does not issue (R64, R75, R78, R258, R273, R298). -/
inductive Wait where
  | none
  | sleep (till : Nat)
  /-- the slots that YIELD still waits for, and the clock at which it ends -/
  | yield (others : List Nat) (till : Nat)
  /-- JOIN: the clock at which the limit passes, and the next PC -/
  | join (till : Nat) (next : DWord)
  /-- every fibre stays at BAR `id` -/
  | bar (id : Nat)
  | park (p : Parked)
  /-- parked in KCALL until operation `op` ends -/
  | kcall (op : Nat)
  /-- waiting for the drains of BANKCFG: the banks of the cluster still to drain, the destination and the mask to write -/
  | banks (left : List Nat) (dst : Spec) (mask : Word)
  deriving DecidableEq, Repr

/-- A replay (R279): the lanes for which alone the next issue acts; the step at which an engine instruction resumes; the PC at
which the slot goes on after it, where that is not the next PC; the next PC; and the bounds of a re-fired load (R149). -/
structure Replay where
  lanes : List Nat
  rstep : Option Nat
  thenPc : Option DWord
  next : DWord
  bounds : List (Nat × Word)
  deriving DecidableEq, Repr

/-- A weave slot (R62), keyed by the global slot number 256 × core + 64 × quarter + slot (R274). -/
structure Slot where
  /-- identity of the team that holds the slot -/
  team : Nat
  /-- the weave for which the team took the slot (R63) -/
  w : Nat
  /-- the role of its fibres (R69) -/
  role : Nat
  pc : DWord
  arrive : Arrive
  /-- occupied lane columns, each with its fibre -/
  lanes : List (Nat × Nat)
  /-- s0 to s63 (R88), zero and timeless where unlisted -/
  sregs : List (Nat × Reg)
  /-- scalar registers that hold an uncorrectable error (R294) -/
  sue : List Nat
  fflags : Flags
  fmask : Flags
  ld : Nat
  st : Nat
  cp : Nat
  tl : Nat
  wait : Wait
  handler : Bool
  frame : DWord
  cont : DWord
  /-- the fault behind a continuation (R285) -/
  contPark : Option Parked
  /-- causes that wait for the slot's next issue (R177, R178, R278), with what the groom is to serve -/
  late : List (TrapInfo × Option Serve)
  /-- the next issue is a replay (R279) -/
  replay : Option Replay
  /-- the cause that the handler is handling: the KIND, RMASK, PC and RSTEP that the device set (R279) -/
  handling : Option TrapInfo
  /-- when the slot became eligible, last issued and was last filled (R64, R70) -/
  eligSince : Option Nat
  lastIssue : Nat
  lastFill : Nat
  deriving DecidableEq, Repr

/-- What a fibre has received on one path (R241, R245): the writes that are hb its next event there, and the writes that
its reads there have returned. -/
structure View where
  know : List Nat
  seen : List Nat
  deriving DecidableEq, Repr

/-- A window and the fibre in it (R62, R63, R87), keyed by 8192 × team + 64 × w + c. -/
structure Fibre where
  team : Nat
  w : Nat
  lane : Nat
  role : Nat
  core : Nat
  q : Nat
  base : Nat
  size : Nat
  alive : Bool
  win : List (Nat × Reg)
  /-- registers that hold an uncorrectable error (R294) -/
  ue : List Nat
  preds : BitVec 16
  refires : Nat
  /-- barriers: arrived flags and generation bits by id (R258) -/
  arrived : BitVec 16
  gen : BitVec 16
  /-- the phase of its last arrival (R260) -/
  phase : Option Word
  vec : View
  cp : View
  mx : View
  vp : View
  coll : View
  /-- what the writes that its reads returned carry, for a later FENCE with `.acq` (R254) -/
  pendAcq : List Nat
  /-- what its later writes carry since a FENCE with `.rel` (R254); `none` before one -/
  relFence : Option (List Nat)
  /-- reads in flight before its next event (V1, V4 of R245) -/
  after : List Nat
  deriving DecidableEq, Repr

/-- A spawn record (R68): its team, its 128 bits, and what goes with it. -/
structure Rec where
  team : Nat
  /-- KIND, ROLE, LANE, PC, PRED, and HOME or the argument with its stamp -/
  word : BitVec 128
  /-- it holds an uncorrectable error (R294) -/
  ue : Bool
  /-- KIND 0: operations that the former slot issued before the fibre left and that must complete first (R69) -/
  ops : List Nat
  /-- KIND 1: the writes that are hb the child's first instruction (R76), and the reads in flight before it -/
  know : List Nat
  after : List Nat
  since : Nat
  deriving DecidableEq, Repr

/-- A chunk of a launch's spawn-spill area (R71), whose header and records also stand in memory. -/
structure Chunk where
  launch : Nat
  index : Nat
  team : Nat
  core : Nat
  q : Nat
  /-- index plus 1 of the next chunk of this team and quarter, 0 if none -/
  next : Nat
  recs : List Rec
  deriving DecidableEq, Repr

/-- A quarter (R61, R64, R68), keyed by 4 × core + quarter. Spawn memory is oldest first. -/
structure Quarter where
  recs : List Rec
  /-- the pipes taken this clock, and the slots that have issued in it, each with the PC it issued from -/
  taken : List Pipe
  issued : List (Nat × DWord)
  /-- records that the former has placed in this clock (R69) -/
  placed : Nat
  deriving DecidableEq, Repr

def Quarter.zero : Quarter := ⟨[], [], [], 0⟩

/-- Modes of a cluster SRAM bank (R168). -/
inductive BankMode where
  /-- lent to the cache: at reset, and when R35 has returned it -/
  | cache
  | scratch
  /-- taken from the cache for scratch units or chutes by R35: it returns to the cache when they are freed -/
  | lent
  /-- set to cache by BANKCFG: not lent, so no scratch units come from it (R34, step 3) -/
  | kept
  deriving DecidableEq, Repr

/-- A cluster's SRAM banks (R35, R168): the mode of each bank, cache where unlisted, and the banks whose drain has not
finished. Which units and chute banks are allotted stands with the teams. -/
structure Cluster where
  modes : List (Nat × BankMode)
  draining : List Nat
  deriving DecidableEq, Repr

def Cluster.zero : Cluster := ⟨[], []⟩

/-- A chute entry (R170): value, stamp, and what its push carries to the pop. -/
structure ChuteEntry where
  val : BitVec 64
  st : Stamp
  carry : List Nat
  after : List Nat
  deriving DecidableEq, Repr

/-- Where a team stands (R9, R291, R304). -/
inductive TeamState where
  /-- placed, its weaves not started: a coresident launch, a drain of banks, or a restore that waits for its launch -/
  | held
  | running
  | retiring
  /-- save, drain or flush in progress; `till` is the deadline of R291, R293 -/
  | saving (till : Nat)
  | draining (till : Nat)
  | flushing
  /-- saved in the save area, with its slots -/
  | saved
  /-- flushed, to be placed afresh with its ticket -/
  | flushed
  | ended
  deriving DecidableEq, Repr

/-- Why pre-emption acts on a team (R289). -/
inductive PreemptWhy where
  | none | priority | suspension | switchOut
  deriving DecidableEq, Repr

/-- A tile run (R188), by core half and tile: the accumulator under which it holds values, its elements and their stamps
with the seed of those it does not list (0: they are +0 and timeless), and its flag bits. -/
structure Tile where
  acc : Nat
  /-- elements as bit patterns of the accumulator (`.wide`: hi in bits 63:0, lo in bits 127:64), by 64 × row + column -/
  elems : List (Nat × BitVec 128)
  stamps : List (Nat × Stamp)
  flags : Flags
  seed : Nat
  /-- elements that hold an uncorrectable error (R294) -/
  ue : List Nat
  deriving DecidableEq, Repr

/-- A team (R10, R32 to R36). -/
structure Team where
  launch : Nat
  index : Word
  die : Nat
  /-- the core, or the even core of a pair -/
  core : Nat
  state : TeamState
  why : PreemptWhy
  placedAt : Nat
  /-- identity of its scratch contents, and allotted units as (bank, count) pairs -/
  scrId : Nat
  units : List (Nat × Nat)
  /-- chute banks by core half, in allotment order -/
  chuteBanks : List (Nat × List Nat)
  /-- chute contents, oldest first, keyed by 8 × half + c -/
  chutes : List (Nat × List ChuteEntry)
  /-- tiles keyed by 32 × half + t -/
  tiles : List (Nat × Tile)
  issued : Word
  done : Word
  errs : Nat
  fx : Flags
  /-- barrier counts and generation bits by id (R258) -/
  counts : List (Nat × Nat)
  gens : BitVec 16
  prog : Nat
  /-- one more than the clock of the last PROG, and its slot (R297) -/
  progAt : Nat
  progBy : Nat
  /-- a publishing write since it started (R290) -/
  published : Bool
  /-- its save area holds an uncorrectable error (R294) -/
  saveUe : Bool
  /-- slots of a saved team, keyed by weave -/
  savedSlots : List (Nat × Slot)
  /-- its spawn records, with their quarter counted from the team's first core -/
  savedRecs : List (Nat × Rec)
  /-- the frames of its slots, keyed by weave -/
  savedFrames : List (Nat × List Byte)
  /-- the TEAM node that placed it (R318): run and node -/
  node : Option (Nat × Nat)
  /-- writes that are hb its first instruction (R30, R32) -/
  know : List Nat
  /-- what fibres that have ended and given up their windows had received and done (R30, R241, item 6) -/
  gone : List Nat
  /-- the writes that its chain entries have made, and those of its projections, each with its core (R229, R220) -/
  cpMade : List Nat
  vpMade : List (Nat × Nat)
  deriving DecidableEq, Repr

/-- The states of a launch (R9): running and parked are told apart by its slots. -/
inductive LaunchState where
  | queued | claiming | complete
  deriving DecidableEq, Repr

/-- A launch (R14 to R24). -/
structure Launch where
  queue : Nat
  seq : Nat
  part : Nat
  block : BitVec 1024
  /-- bytes 0 to 127 of the image as read by R24 -/
  image : BitVec 1024
  state : LaunchState
  status : Nat
  /-- `none` until a weave has issued -/
  ran : Bool
  errcnt : Nat
  late : Nat
  /-- the first error (R22) -/
  first : Option TrapInfo
  firstTeam : Word
  firstRole : Nat
  firstCore : Nat
  /-- what its prerequisites carry (R30) -/
  know : List Nat
  /-- its phase tree (R260) -/
  tree : Option Nat
  /-- termination in progress (R37): status to write, cause, and the clock at which it began -/
  ending : Option (Nat × Nat × Nat)
  /-- when it first found no core, by die (R33) -/
  starving : List (Nat × Nat)
  /-- what its completion carries (R20, R30): the writes of its teams and runs, and all that is hb them -/
  out : List Nat
  /-- pages that the groom is to bring for a read or write of the device, and those it could not (R20, R24) -/
  want : List Nat
  noPages : List Nat
  /-- writes of the image's code that the read of R24 found: a fetch returns none older (R25) -/
  codeSeen : List Nat
  /-- parts of the error record that are still to be written (R22): 0 the first-error fields, 1 the counts -/
  recDue : List Nat
  /-- its completion: 1 once STATUS and REASON are written, 2 once the completion word is (R20) -/
  stage : Nat
  /-- TAGs of its error record's and completion word's writes to other devices that have no answer yet -/
  waits : List Nat
  /-- the kernel of a reduce team: the launch whose collective run placed it (R318) -/
  parent : Option Nat
  deriving DecidableEq, Repr

/-- A hardware queue (R26 to R32, R37). -/
structure Queue where
  cseq : Nat
  wfail : Nat
  herr : Nat
  halt : Bool
  enable : Bool
  qprio : Nat
  wdog : Nat
  granted : Bool
  part : Nat
  logn : Nat
  taila : DWord
  ringa : DWord
  /-- the last tail value observed, where the tail word stood then, the last of its writes that it takes in, and the launch
  blocks read (R27, R28) -/
  tail : Nat
  tailAt : Nat
  tailSeen : Option Nat
  read : Nat
  /-- HALT has been cleared since the tail word was last read (R28) -/
  reread : Bool
  ticket : Nat
  /-- one more than the clock in which the counter reached NTEAM (R32) -/
  filledAt : Nat
  /-- the clock of the watchdog counter's last reset, while it counts (R37) -/
  wdSince : Option Nat
  /-- launches that are complete, above cseq -/
  doneSeqs : List Nat
  deriving DecidableEq, Repr

/-- R26: every field is 0 at reset. -/
def Queue.zero : Queue :=
  { cseq := 0, wfail := 0, herr := 0, halt := false, enable := false, qprio := 0, wdog := 0, granted := false, part := 0
    logn := 0, taila := 0, ringa := 0, tail := 0, tailAt := 0, tailSeen := none, read := 0, reread := false, ticket := 0
    filledAt := 0, wdSince := none, doneSeqs := [] }

/-- A stamp register of a port (R143). -/
structure PortStamp where
  origin : Stamp
  omode : Nat
  egen : Bool
  egmax : Nat
  deriving DecidableEq, Repr

def PortStamp.zero : PortStamp := ⟨0, 0, false, 0⟩

/-- A host window (R333). -/
structure HostWin where
  base : DWord
  off : DWord
  size : Nat
  hw : Bool
  hr : Bool
  deriving DecidableEq, Repr

def HostWin.zero : HostWin := ⟨0, 0, 0, false, false⟩

/-- An entry of the domain table (R310). -/
structure DomEntry where
  ldom : BitVec 3
  ports : BitVec 16
  linkKey : BitVec 256
  deriving DecidableEq, Repr

/-- A session (R339). -/
structure Session where
  ownerKey : BitVec 256
  secret : BitVec 256
  commandKey : BitVec 256
  stampAuth : Bool
  /-- the highest SEQ accepted -/
  seq : Option Nat
  deriving DecidableEq, Repr

/-- An owner partition (R337). -/
structure Part where
  dies : BitVec 8
  key : Nat
  time : Nat
  /-- the clock's distance to the next tick, in thousandths of 1.25 ns: nanoseconds × 4 counted in clocks × 5 -/
  phaseNs : Nat
  hzi : Nat
  k : Nat
  root : Bool
  rdbase : DWord
  ports : List (Nat × PortStamp)
  refusals : Nat
  wlogRing : DWord
  wlogN : Nat
  wlogOn : Bool
  /-- lines covered by a range record since their last write-back (R186) -/
  wlogged : List Nat
  drainp : Nat
  flushp : Nat
  parkth : Nat
  domain : List (Nat × DomEntry)
  wins : List (Nat × HostWin)
  session : Option Session
  measured : List (BitVec 512)
  backing : List (Nat × Backing)
  suspended : Bool
  deriving DecidableEq, Repr

/-- A compute die (R33, R34, R140, R345). -/
structure Die where
  horizon : Word
  /-- horizon messages on their way: time and the clock at which they take effect -/
  messages : List (Nat × Nat)
  rotation : Nat
  robin : Nat
  memUp : Bool
  /-- the core on which switch-out counts, since which clock (R288), by local core -/
  parkedSince : List (Nat × Nat)
  /-- the clock after the processor's last draw (R32) -/
  drew : Nat
  deriving DecidableEq, Repr

def Die.zero : Die := ⟨0, [], 0, 0, true, [], 0⟩

/-- A graph slot (R311): its image's nodes and header. -/
structure Graph where
  part : Nat
  header : BitVec 512
  nodes : List (BitVec 256)
  /-- the first 128 bytes of REDK's image (R318) -/
  redImage : BitVec 1024
  issued : Nat
  done : Nat
  /-- what CGSTAT's acquire receives from the header writes of runs 1 to n, by run -/
  carry : List (Nat × List Nat)
  deriving DecidableEq, Repr

/-- Where a run of a graph stands (R315, R319). -/
inductive RunState where
  | waiting | granted | started | complete
  deriving DecidableEq, Repr

/-- A node of a run (R316, R319). -/
structure NodeState where
  deps : Nat
  acted : Bool
  failed : Bool
  cause : Nat
  fx : Flags
  /-- granules of the chunk that have arrived from PEER: index, and bytes with stamps -/
  arrived : List (Nat × List (Byte × Stamp))
  /-- a reduce team has been placed -/
  team : Option Nat
  /-- what its events carry to the next nodes (R320) -/
  carry : List Nat
  deriving DecidableEq, Repr

/-- A run (R314, R315). -/
structure Run where
  slot : Nat
  collid : BitVec 32
  run : Nat
  launch : Nat
  fibre : Nat
  part : Nat
  table : BitVec 1024
  state : RunState
  staging : Nat
  nodes : List (Nat × NodeState)
  aborted : Bool
  /-- devices whose grants this device holds as coordinator -/
  grants : List Nat
  /-- START has been sent or has arrived; a REVOKE has been sent -/
  startSent : Bool
  revoking : Bool
  know : List Nat
  /-- the reads in flight before it (V4 of R245), and what its fibre's earlier reads on path `coll` had returned -/
  after : List Nat
  seen : List Nat
  /-- pages that the groom is to bring, and those it could not -/
  want : List Nat
  noPages : List Nat
  deriving DecidableEq, Repr

/-- A port's status (R143, R147, R308, R309): port 0 is the host link, 1 to 16 Fenica, 17 to 20 CXL. -/
structure Port where
  down : Bool
  mismatches : Nat
  refusals : Nat
  drops : Nat
  /-- flits lost because their tag failed (R343) -/
  losses : Nat
  /-- flits sent and not acknowledged, with the clocks of their first and last sending -/
  unacked : List (Flit × Nat × Nat)
  deriving DecidableEq, Repr

def Port.zero : Port := ⟨false, 0, 0, 0, 0, []⟩

/-- A granted range of physical memory (R334, R344), in bytes. `kind`: 0 HBM, 1 HDM-H, 2 HDM-DB. -/
structure Grant where
  lo : Nat
  len : Nat
  part : Nat
  kind : Nat
  deriving DecidableEq, Repr

/-- A memory key of R337: its 512 bits, and which key of the random source it is. -/
structure MemKey where
  serial : Nat
  bits : BitVec 512
  deriving DecidableEq, Repr

/-- A page image on a drive (R336): what it says under the key that wrote it, and which key that is. -/
structure Image where
  key : Nat
  bytes : List Byte
  stamps : List Stamp
  deriving DecidableEq, Repr

/-- A firmware response as it stands in the response buffer (R341): header and payload. -/
structure Response where
  header : BitVec 256
  payload : List Byte
  deriving DecidableEq, Repr

/-- A function's command buffer and doorbell (R331, R341). -/
structure Mailbox where
  header : BitVec 256
  payload : List Byte
  doorbell : DWord
  deriving DecidableEq, Repr

/-- The module (R345 to R348). -/
structure Module where
  /-- stages of R347 that have succeeded, 0 to 5; `some n`: stage n failed -/
  stage : Nat
  failed : Option Nat
  cap : Nat
  throttled : Bool
  keysUsed : List Nat
  /-- the key table (R337), by key ID -/
  keys : List (Nat × MemKey)
  /-- host interrupts raised, oldest first (R331) -/
  interrupts : List Nat
  /-- BAR0 of each function: command buffer and doorbell, and response buffer (R331) -/
  mailboxes : List (Nat × Mailbox)
  responses : List (Nat × Response)
  /-- commands that have still to be carried out, in the order of their doorbells (R342) -/
  waiting : List Instr
  /-- completions of host reads, oldest first: the bytes, or `none` for poisoned data (R333) -/
  reads : List (Option (List Byte))
  deriving DecidableEq, Repr

/-- A write event (R239, R244) that its home has applied: its bytes, what stood there before, the stamp of each granule
after and before it, the writes that are hb it, and what an acquire that returns it receives (R241, item 4). -/
structure WEv where
  id : Nat
  bytes : List (Nat × Byte)
  old : List (Nat × Byte)
  gAfter : List (Nat × Stamp)
  gBefore : List (Nat × Stamp)
  preds : List Nat
  carry : List Nat
  after : List Nat
  clk : Nat
  deriving DecidableEq, Repr

/-- The write of one lane, formed at issue: surviving bytes by location with their data stamps, and the page facts it needs
at its home. A write to another device waits for the answer to its flit. -/
structure LaneWrite where
  lane : Nat
  fibre : Nat
  va : DWord
  id : Nat
  bytes : List (Nat × (Byte × Stamp))
  preds : List Nat
  carry : List Nat
  after : List Nat
  timeless : Bool
  swm : Bool
  /-- TAG of the flit whose acknowledgement it waits for -/
  remote : Option Nat
  deriving DecidableEq, Repr

/-- One single-copy unit of a read (R246): its byte place counted from the destination, its locations, lowest first, and the
page facts. -/
structure ReadUnit where
  k : Nat
  locs : List Nat
  timeless : Bool
  /-- the page entry's descriptor index (R149) -/
  rdidx : Nat
  deriving DecidableEq, Repr

/-- A read of one lane, formed at issue, with the writes that are hb it (R245). For another device: the granules asked for
with the TAG of each request, and what has come back. -/
structure LaneRead where
  lane : Nat
  fibre : Nat
  va : DWord
  units : List ReadUnit
  bound : Option Word
  /-- LDE: the exponent word, the element format and its nibble -/
  expo : Option ReadUnit
  fmt : Nat
  nib : Nat
  know : List Nat
  waits : List (Nat × Nat)
  got : List (Nat × Byte)
  gotSt : List (Nat × Stamp)
  deriving DecidableEq, Repr

/-- What an engine's read has asked other devices for (R174): TAGs by granule, the bytes and stamps that have come back, and a
granule that came back with a cause. -/
structure FarRead where
  asks : List (Nat × Nat)
  got : List (Nat × Byte)
  gotSt : List (Nat × Stamp)
  lost : Option (Nat × Nat)
  deriving DecidableEq, Repr

def FarRead.zero : FarRead := ⟨[], [], [], none⟩

/-- An atomic of one lane (R251). -/
structure AtomLane where
  lane : Nat
  fibre : Nat
  va : DWord
  loc : Nat
  timeless : Bool
  swm : Bool
  id : Nat
  preds : List Nat
  carry : List Nat
  after : List Nat
  opnd : BitVec 64
  opst : Stamp
  expect : BitVec 64
  remote : Option Nat
  /-- old value, its stamp and the exceptions, once the home has applied it -/
  result : Option (BitVec 64 × Stamp × Flags)
  /-- the cause 0x144 or 0x145, or one that came back, if its answer failed -/
  lost : Option Nat
  /-- the time at which the egress bound of its port turned it away, 0 where none did (R147) -/
  hzn : Word := 0
  deriving DecidableEq, Repr

/-- A CAPPEND of one lane (R322). -/
structure AppendLane where
  lane : Nat
  fibre : Nat
  desc : DWord
  row : DWord
  know : List Nat
  carry : List Nat
  after : List Nat
  /-- the index taken from TAIL, once the append has begun -/
  begun : Option Nat
  /-- the address whose page the groom brings -/
  held : List Nat
  /-- at another device (log 15): the TAG of the request that it waits for; the descriptor as it stood when the index was taken; the
  bytes of the row that are there; the TAGs of row writes that have no answer yet, with the address of each; and whether the update of
  DONE has been asked for -/
  remote : Option Nat
  dsc : Option Nat
  got : Nat
  waits : List (Nat × DWord)
  last : Bool
  deriving DecidableEq, Repr

/-- What is common to all operations in flight: where they were issued (R178, R235). -/
structure OpHead where
  g : Nat
  team : Nat
  launch : Nat
  part : Nat
  core : Nat
  q : Nat
  role : Nat
  weave : Nat
  /-- the weave for which the team took the slot -/
  sw : Nat
  pc : DWord
  next : DWord
  word : BitVec 96
  lanes : List (Nat × Nat)
  ctr : Ctr
  issuedAt : Nat
  /-- for an engine's operation: the writes that are hb it on its path (R241), and the reads in flight before it (V4 of R245); for a
  CCTL: the writes that are hb it on path `vec` -/
  know : List Nat
  after : List Nat
  deriving DecidableEq, Repr

/-- A lane that met a cause at issue (R177): the cause, whether the groom serves it, and its address. -/
structure LaneMiss where
  lane : Nat
  cause : Nat
  groom : Bool
  va : DWord
  deriving DecidableEq, Repr

/-- A granule that an engine reads or writes: its location, its virtual address, and the page facts. -/
structure ELoc where
  loc : Nat
  va : Nat
  timeless : Bool
  swm : Bool
  deriving DecidableEq, Repr

/-- What a projection instruction holds (R215, R216, R220): the parameter block or control word; the record arrays, granule
by granule, with the records as they stand and the stamps of each; target words; hidden rows; the stamps of W read so far; the rows whose
records have become undefined (R221); and, once it has written, the TAGs of its writes to other devices that have no answer yet. -/
structure ProjData where
  param : Nat
  rows : Nat
  dst : List (List ELoc)
  recs : List Nat
  recSt : List (List Stamp)
  src : List (List ELoc)
  srcs : List Nat
  srcSt : List (List Stamp)
  tgt : List ELoc
  hidden : List (List Byte)
  hidSt : List (List Stamp)
  wSt : List Stamp
  bad : List Nat
  out : Option (List (Nat × DWord))
  deriving DecidableEq, Repr

/-- A chain entry (R227 to R234): what it moves; the units made and the bytes of them not yet written; the address whose page the
groom brings; the cause with which it completes; and the TAGs of its writes to other devices that have no answer yet, with the address
of each. -/
structure CopyData where
  seq : Word
  dst : DWord
  src : DWord
  cnt : Nat
  pat : Word
  patSt : Stamp
  pos : Nat
  buf : List (Byte × Stamp)
  held : List Nat
  failed : Option (Nat × DWord)
  waits : List (Nat × DWord)
  /-- the horizon sampled when it began (R141), and whether it holds an uncorrectable error (R294) -/
  hz : Option Word
  ue : Bool
  deriving DecidableEq, Repr

/-- An operation in flight. -/
inductive OpBody where
  /-- LD, LDG, LDE, LDT, LDS: lanes still to arrive, and lanes that met a cause at issue or at another device -/
  | load (i : Instr) (reads : List LaneRead) (miss : List LaneMiss)
  | store (ws : List LaneWrite)
  | atomic (i : Instr) (lanes : List AtomLane) (miss : List LaneMiss)
  | append (lanes : List AppendLane)
  | wlog (mark : Word)
  | cctl (lines : List Nat) (lu sys : Bool)
  | time (i : Instr) (askedAt : Nat)
  | copy (i : Instr) (fibre lane : Nat) (d : CopyData)
  | tile (i : Instr) (t : Nat) (fibre lane : Nat) (opnds : List (Nat × Reg)) (step : Nat) (held : List Nat) (resumed : Bool)
  | proj (i : Instr) (fibre lane : Nat) (d : ProjData) (chunk : Nat) (held : List Nat)
  | kcall (svc : Nat) (base : DWord) (len : Nat) (dst : Spec) (count : Nat)
  deriving DecidableEq, Repr

structure Op where
  head : OpHead
  body : OpBody
  deriving DecidableEq, Repr

/-- The instruction now issuing (R44, R64, R279): its slot, the COUNT of its line, its word, the lanes that may take part
and, for an engine instruction that resumes, its step and the PC at which the slot then goes on. -/
structure IssueCtx where
  g : Nat
  count : Nat
  word : BitVec 96
  part : List Nat
  rstep : Option Nat
  thenPc : Option DWord
  /-- the bounds that a re-fired load keeps (R149) -/
  bounds : List (Nat × Word)
  /-- the other slots of the quarter that were eligible (R78) -/
  peers : List Nat
  deriving DecidableEq, Repr

/-- What the arrivals of a team's fibres in the open phase carry: writes, and reads in flight (R260). -/
structure Arrivals where
  know : List Nat
  after : List Nat
  deriving DecidableEq, Repr

/-- A phase tree (R260): its launch, its counter, what the arrivals of the teams that have arrived carry, by phase, and what
those of teams that have not yet arrived in the open phase carry, by team. -/
structure Tree where
  launch : Nat
  c : Word
  know : List (Nat × List Nat)
  after : List (Nat × List Nat)
  part : List (Nat × Arrivals)
  deriving DecidableEq, Repr

/-- A release of this device that has left for another device (R262 to R265): its write, the bytes that it writes there (what an atomic
writes is not known here), and what it carries. -/
structure FarRel where
  id : Nat
  atomic : Bool
  bytes : List (Nat × Byte)
  carry : List Nat
  deriving DecidableEq, Repr

/-- The device. -/
structure State where
  clock : Nat
  free : Nat
  uid : Nat
  agenda : List Act
  cur : Option IssueCtx
  mem : List Host.Cell
  stamps : List (Nat × Stamp)
  ue : List Nat
  hist : List WEv
  scSet : List Nat
  sysKnow : List Nat
  /-- writes of the host that have completed (R332) -/
  hostKnow : List Nat
  ptes : List (Nat × BitVec 128)
  slots : List (Nat × Slot)
  fibres : List (Nat × Fibre)
  teams : List (Nat × Team)
  launches : List (Nat × Launch)
  ops : List (Nat × Op)
  quarters : List (Nat × Quarter)
  /-- the lowest quarter that may still choose in this clock (R189, R228) -/
  turnAt : Nat
  chunks : List (Nat × Chunk)
  clusters : List (Nat × Cluster)
  queues : List (Nat × Queue)
  parts : List (Nat × Part)
  dies : List (Nat × Die)
  graphs : List (Nat × Graph)
  runs : List (Nat × Run)
  /-- run-control flits that have arrived (R315): what they say (0 GRANT, 1 START, 2 REVOKE, 3 ABORT), COLLID, run, device -/
  control : List (Nat × Nat × Nat × Nat)
  trees : List (Nat × Tree)
  ports : List (Nat × Port)
  grants : List Grant
  /-- requests of other devices that wait for a page, with their ports (R174); the pages that the groom brings for them, and those it
  could not: partition and page -/
  heldFlits : List (Nat × Flit)
  asked : List (Nat × Nat)
  denied : List (Nat × Nat)
  storage : List (Nat × Image)
  outFlits : List (Nat × Flit)
  /-- reads that engines make at other devices, by reader -/
  far : List (Nat × FarRead)
  /-- releases of this device at other devices, and what other devices may have learnt from it (log 73) -/
  farRel : List FarRel
  farKnow : List Nat
  module : Module
  deriving DecidableEq, Repr

/-- The module after power-on: bring-up has not begun (R347), the cap is 2,200 W (R348). -/
def Module.zero : Module :=
  { stage := 0, failed := none, cap := 2200, throttled := false, keysUsed := [], keys := [], interrupts := [], mailboxes := []
    responses := [], waiting := [], reads := [] }

/-- The device right after a module reset (R345): no partition, no queue granted, nothing placed. The log entries 1 to 11
and 30 name what the manual does not give. -/
def State.reset : State :=
  { clock := 0, free := 0, uid := 0, agenda := [], cur := none, mem := [], stamps := [], ue := [], hist := [], scSet := [], sysKnow := []
    hostKnow := [], ptes := [], slots := [], fibres := [], teams := [], launches := [], ops := [], quarters := [], turnAt := 0, chunks := []
    clusters := [], queues := [], parts := [], dies := [], graphs := [], runs := [], control := [], trees := [], ports := []
    grants := [], heldFlits := [], asked := [], denied := [], storage := [], outFlits := [], far := [], farRel := [], farKnow := [], module := Module.zero }

end Sys2Proof.Machine
end

