-- ==== Sys2Proof/Machine/Ops.lean ====
section
/-!
DEFINITION. The named operations over memory, registers, slots, teams and launches; translation; and taking a trap, with
the return from one beside it.
-/
namespace Sys2Proof.Machine

/-! ### Stamps and time -/

/-- R138: a time as a stamp. -/
def tstamp (t : Nat) : Word := if t % 2 ^ 32 = 0 then 0xFFFFFFFF else BitVec.ofNat 32 t

/-- R141: the signed difference of a horizon and a stamp. -/
def sd (h s : Word) : Int := (h - s).toInt

/-- R5, R141: the older of two stamps at horizon `h`. -/
def older (h a b : Word) : Word := if a = 0 then b else if b = 0 then a else if sd h b ≤ sd h a then a else b

def olderAll (h : Word) (l : List Stamp) : Stamp := l.foldl (older h) 0

/-- The outcomes of R141's age. -/
inductive Age where
  | timeless | age (n : Nat) | future
  deriving DecidableEq, Repr

/-- R141: the age of stamp `st` at horizon `h`, with interval `hh`. -/
def ageOf (hh : Nat) (h st : Word) : Age :=
  if st = 0 then .timeless
  else if 0 ≤ sd h st then .age (sd h st).toNat
  else if -((hh : Int) + 2) ≤ sd h st then .age 0
  else .future

/-- R141, R144: the cause of a bound check that fails, `none` where it passes. -/
def boundCause (hh : Nat) (h : Word) (bound : Option Word) (old : Nat) (st : Stamp) : Option Nat :=
  match bound with
  | none => none
  | some b => match ageOf hh h st with
    | .timeless => none
    | .age n => if b.toNat < n then some old else none
    | .future => some 0x084

/-! ### Total readers of the maps -/

def Team.zero : Team :=
  { launch := 0, index := 0, die := 0, core := 0, state := .ended, why := .none, placedAt := 0, scrId := 0, units := []
    chuteBanks := [], chutes := [], tiles := [], issued := 0, done := 0, errs := 0, fx := 0, counts := [], gens := 0
    prog := 0, progAt := 0, progBy := 0, published := false, saveUe := false, savedSlots := [], savedRecs := [], savedFrames := [], node := none, know := [], gone := [], cpMade := [], vpMade := [] }

def Launch.zero : Launch :=
  { queue := 0, seq := 0, part := 0, block := 0, image := 0, state := .complete, status := 0, ran := false, errcnt := 0
    late := 0, first := none, firstTeam := 0, firstRole := 0, firstCore := 0, know := [], tree := none, ending := none
    starving := [], out := [], want := [], noPages := [], codeSeen := [], recDue := [], stage := 0, waits := [], parent := none }

/-- R139, R287, R333, R343: the state of a new partition. -/
def Part.zero : Part :=
  { dies := 0, key := 0, time := 0, phaseNs := 0, hzi := 3, k := 20, root := false, rdbase := 0, ports := []
    refusals := 0, wlogRing := 0, wlogN := 0, wlogOn := false, wlogged := [], drainp := 224, flushp := 64, parkth := 50
    domain := [], wins := [], session := none, measured := [], backing := [], suspended := false }

def View.empty : View := ⟨[], []⟩

/-- R21, R62: a fibre at placement. -/
def Fibre.zero : Fibre :=
  { team := 0, w := 0, lane := 0, role := 0, core := 0, q := 0, base := 0, size := 0, alive := false, win := []
    ue := [], preds := 0x8000, refires := 0, arrived := 0, gen := 0, phase := none, vec := .empty, cp := .empty
    mx := .empty, vp := .empty, coll := .empty, pendAcq := [], relFence := none, after := [] }

/-- R21: a weave slot at placement, before its registers are set. -/
def Slot.zero : Slot :=
  { team := 0, w := 0, role := 0, pc := 0, arrive := .entry, lanes := [], sregs := [], sue := [], fflags := 0, fmask := 0
    ld := 0, st := 0, cp := 0, tl := 0, wait := .none, handler := false, frame := 0, cont := 0, contPark := none
    late := [], replay := none, handling := none, eligSince := none, lastIssue := 0, lastFill := 0 }

def TrapInfo.zero : TrapInfo :=
  { cause := 0, kind := .precise, lmask := [], rmask := [], addr := 0, info := 0, stamp := 0, hzn := 0, bound := 0
    pc := 0, next := 0, rstep := 0, word := 0, weave := 0, again := none, bounds := [] }

def OpHead.zero : OpHead :=
  { g := 0, team := 0, launch := 0, part := 0, core := 0, q := 0, role := 0, weave := 0, sw := 0, pc := 0, next := 0, word := 0
    lanes := [], ctr := .none, issuedAt := 0, know := [], after := [] }

def State.slot (s : State) (g : Nat) : Slot := (aget? s.slots g).getD Slot.zero
def State.fibre (s : State) (f : Nat) : Fibre := (aget? s.fibres f).getD Fibre.zero
def State.team (s : State) (t : Nat) : Team := (aget? s.teams t).getD Team.zero
def State.launch (s : State) (l : Nat) : Launch := (aget? s.launches l).getD Launch.zero
def State.part (s : State) (p : Nat) : Part := (aget? s.parts p).getD Part.zero
def State.queue (s : State) (q : Nat) : Queue := (aget? s.queues q).getD Queue.zero
def State.die (s : State) (d : Nat) : Die := (aget? s.dies d).getD Die.zero
def State.quarterAt (s : State) (k : Nat) : Quarter := (aget? s.quarters k).getD Quarter.zero
def State.port (s : State) (p : Nat) : Port := (aget? s.ports p).getD Port.zero

def State.setSlot (s : State) (g : Nat) (x : Slot) : State := { s with slots := aset s.slots g x }
def State.setFibre (s : State) (f : Nat) (x : Fibre) : State := { s with fibres := aset s.fibres f x }
def State.setTeam (s : State) (t : Nat) (x : Team) : State := { s with teams := aset s.teams t x }
def State.setLaunch (s : State) (l : Nat) (x : Launch) : State := { s with launches := aset s.launches l x }
def State.setPart (s : State) (p : Nat) (x : Part) : State := { s with parts := aset s.parts p x }
def State.setQueue (s : State) (q : Nat) (x : Queue) : State := { s with queues := aset s.queues q x }
def State.setDie (s : State) (d : Nat) (x : Die) : State := { s with dies := aset s.dies d x }
def State.setQuarter (s : State) (k : Nat) (x : Quarter) : State := { s with quarters := aset s.quarters k x }
def State.setPort (s : State) (p : Nat) (x : Port) : State := { s with ports := aset s.ports p x }
/-- Is this the identity of a read of operation `o`? The 64 numbers after an operation's are those of its lanes' reads. -/
def ofOp (o rid : Nat) : Bool := decide (o < rid) && decide (rid ≤ o + 64)

/-- Under this number stands what slot `g` has asked other devices for while an instruction of it waits to issue. -/
def farIssue (g : Nat) : Nat := 2 ^ 64 + g

/-- The identity of the reads of run `k` of this device. -/
def runRead (k : Nat) : Nat := 2 ^ 65 + k

/-- The slot's waiting instruction no longer wants what it has asked for. -/
def State.dropIssue (s : State) (g : Nat) : State := { s with far := adel s.far (farIssue g) }

def State.setOp (s : State) (o : Nat) (x : Op) : State := { s with ops := aset s.ops o x }
def State.delOp (s : State) (o : Nat) : State :=
  { s with ops := adel s.ops o, far := s.far.filter fun f => !ofOp o f.1 }

def State.modSlot (s : State) (g : Nat) (f : Slot → Slot) : State := { s with slots := aupd s.slots g f }
def State.modFibre (s : State) (k : Nat) (f : Fibre → Fibre) : State := { s with fibres := aupd s.fibres k f }
def State.modTeam (s : State) (t : Nat) (f : Team → Team) : State := { s with teams := aupd s.teams t f }
def State.modLaunch (s : State) (l : Nat) (f : Launch → Launch) : State := { s with launches := aupd s.launches l f }
def State.modPart (s : State) (p : Nat) (f : Part → Part) : State := { s with parts := aupd s.parts p f }

/-- A fresh identity. -/
def State.bump (s : State) : State := { s with uid := s.uid + 1 }

/-- R274: the core, quarter and slot of a global slot number. -/
def coreOf (g : Nat) : Nat := g / 256
def quarterOf (g : Nat) : Nat := g / 64 % 4
def qkeyOf (g : Nat) : Nat := g / 64
def dieOf (core : Nat) : Nat := core / 16
/-- R35: four cores and their banks form a cluster (R90). -/
def clusterOf (core : Nat) : Nat := core / 4

/-- The key of the fibre in position (w, c) of a team (R63). -/
def fibreKey (team w lane : Nat) : Nat := team * 8192 + w * 64 + lane

/-- R140: the horizon that a rule on core `core` samples. -/
def State.hz (s : State) (core : Nat) : Word := (s.die (dieOf core)).horizon

/-! ### Launch fields (R15, R16, R18) -/

def Launch.hdr (l : Launch) (lo w : Nat) : Nat := bitsN l.image.toNat lo w
def Launch.blk (l : Launch) (lo w : Nat) : Nat := bitsN l.block.toNat lo w
def Launch.kimg (l : Launch) : DWord := BitVec.ofNat 64 (l.blk 0 64)
def Launch.argp (l : Launch) : Nat := l.blk 64 64
def Launch.erra (l : Launch) : DWord := BitVec.ofNat 64 (l.blk 128 64)
def Launch.compa (l : Launch) : DWord := BitVec.ofNat 64 (l.blk 192 64)
def Launch.spilla (l : Launch) : DWord := BitVec.ofNat 64 (l.blk 256 64)
def Launch.preq (l : Launch) (i : Nat) : Nat := l.blk (320 + 64 * i) 64
def Launch.arg (l : Launch) (i : Nat) : Word := BitVec.ofNat 32 (l.blk (576 + 32 * i) 32)
def Launch.nteam (l : Launch) : Nat := l.blk 832 32
def Launch.spillsz (l : Launch) : Nat := l.blk 864 16
def Launch.prio (l : Launch) : Nat := l.blk 880 3
def Launch.notify (l : Launch) : Bool := l.blk 883 1 == 1

def Launch.encv (l : Launch) : Nat := l.hdr 32 4
def Launch.width (l : Launch) : Nat := 8 * 2 ^ l.hdr 36 2
def Launch.nroles (l : Launch) : Nat := l.hdr 38 2 + 1
def Launch.coresident (l : Launch) : Bool := l.hdr 40 1 == 1
def Launch.idemp (l : Launch) : Bool := l.hdr 41 1 == 1
def Launch.paired (l : Launch) : Bool := l.hdr 42 1 == 1
def Launch.stauth (l : Launch) : Bool := l.hdr 43 1 == 1
def Launch.trapp (l : Launch) : Bool := l.hdr 44 1 == 1
def Launch.contp (l : Launch) : Bool := l.hdr 45 1 == 1
def Launch.scratch (l : Launch) : Nat := l.hdr 64 11
def Launch.tiles (l : Launch) : Nat := l.hdr 75 6
def Launch.chutes (l : Launch) : Nat := l.hdr 81 4
def Launch.codelines (l : Launch) : Nat := l.hdr 96 32
def Launch.trapent (l : Launch) : Nat := l.hdr 128 32
def Launch.content (l : Launch) : Nat := l.hdr 160 32
def Launch.entry (l : Launch) (j : Nat) : Nat := l.hdr (512 + 64 * j) 32
/-- R16: registers of a window of role `j`. -/
def Launch.allot (l : Launch) (j : Nat) : Nat := 8 * l.hdr (544 + 64 * j) 8
def Launch.weaves (l : Launch) (j : Nat) : Nat := l.hdr (552 + 64 * j) 8
def Launch.nweave (l : Launch) : Nat := ((List.range l.nroles).map l.weaves).sum

/-- R11: the role of weave `w`: weaves are numbered in role order. -/
def Launch.roleOf (l : Launch) (w : Nat) : Nat :=
  ((List.range l.nroles).find? fun j => decide (w < ((List.range (j + 1)).map l.weaves).sum)).getD 0

/-- R20, R90: `%launch`. -/
def Launch.id (l : Launch) : Nat := l.queue * 2 ^ 48 + l.seq

/-- R42: the PC of a line index and slot, as an entry point or a branch immediate gives them. -/
def Launch.pcAt (l : Launch) (line : Int) (slot : Nat) : DWord :=
  l.kimg + BitVec.ofInt 64 (128 + 64 * line) + BitVec.ofNat 64 slot

/-- R42: the line index of a PC, which may lie outside the code. -/
def Launch.lineOf (l : Launch) (pc : DWord) : Int :=
  ((pc &&& ~~~(63 : DWord)) - l.kimg - 128).toInt / 64

def slotOf (pc : DWord) : Nat := pc.toNat % 8

/-- R42: the next PC after a slot of a line that holds `count` slots. -/
def nextPc (pc : DWord) (count : Nat) : DWord :=
  if slotOf pc + 1 < count then pc + 1 else (pc &&& ~~~(63 : DWord)) + 64

/-- R9, R20: a line index and slot as CALL and a spawn record hold them. -/
def Launch.packPc (l : Launch) (pc : DWord) : Word := BitVec.ofInt 32 (8 * l.lineOf pc + slotOf pc)

/-! ### Memory: bytes, stamps and write events -/

/-- Reserved HBM, which bring-up zeroes (R164, R347). -/
def inReserved (a : Nat) : Bool := decide (Config.hbmDataEnd ≤ a) && decide (a < Config.hbmEnd)

/-- What a location reads as while the memory list has no entry for it: reserved HBM reads 0 (R347); data HBM and the CXL tier
(R347), scratch and staging (R35, R315) are undefined (log 5). Locations at or above 2^60 are scratch and staging. -/
def unlisted (a : Nat) : Option Byte := if inReserved a then some 0 else none

/-- The byte at a location. -/
def memRead (m : List Host.Cell) (a : Nat) : Byte :=
  match aget? m a with
  | some b => b
  | none => (unlisted a).getD (Config.undefByte a)

/-- The memory with one byte written. -/
def memWrite (m : List Host.Cell) (a : Nat) (b : Byte) : List Host.Cell :=
  if unlisted a = some b then adel m a else aset m a b

/-- The memory with a run of bytes written from location `a` on. -/
def memFill (m : List Host.Cell) (a : Nat) (bs : List Byte) : List Host.Cell :=
  (m.filter fun c => decide (c.1 < a)) ++ (((from_ a bs.length).zip bs).filter fun c => unlisted c.1 != some c.2)
    ++ m.filter fun c => decide (a + bs.length ≤ c.1)

/-- `n` bytes from location `a` on, in one pass over the memory. -/
def memRun (m : List Host.Cell) (a : Nat) : Nat → List Byte
  | 0 => []
  | n + 1 => memRead m a :: memRun (m.dropWhile fun c => decide (c.1 ≤ a)) (a + 1) n

/-- The canonical form of memory: addresses strictly rising, no entry equal to what an unlisted address reads as. -/
abbrev Memory.wf (m : List Host.Cell) : Bool :=
  sortedFrom 0 m && m.all fun c => unlisted c.1 != some c.2

/-- Locations of a team's scratch, and of a run's staging (R169). -/
def scratchLoc (scrId x : Nat) : Nat := 2 ^ 60 + scrId * 2 ^ 24 + x
def stagingLoc (run x : Nat) : Nat := 2 ^ 61 + run * 2 ^ 25 + x

/-- The stamp of a granule (R165): timeless in zeroed reserved HBM, undefined elsewhere until it is written (log 5). -/
def stampRead (m : List (Nat × Stamp)) (gran : Nat) : Stamp :=
  match aget? m gran with
  | some x => x
  | none => if inReserved (gran * 32) then 0 else Config.undefStamp gran

def State.byteAt (s : State) (a : Nat) : Byte := memRead s.mem a
def State.stampAt (s : State) (a : Nat) : Stamp := stampRead s.stamps (a / 32)
def State.bytesAt (s : State) (a n : Nat) : List Byte := (from_ a n).map s.byteAt
def State.natAt (s : State) (a n : Nat) : Nat := leNat (s.bytesAt a n)

/-- Distinct granules of some locations, in order of first appearance. -/
def granulesOf (locs : List Nat) : List Nat := (locs.map (· / 32)).eraseDups

/-- R164: the die of a location's home. -/
def homeDie (a : Nat) : Nat := a / 4096 % 8

/-- R141: the horizon at which a home applies a write: that of its die; scratch and staging are applied beside core `core`. -/
def State.homeHz (s : State) (core a : Nat) : Word := if a < 2 ^ 60 then (s.die (homeDie a)).horizon else s.hz core

/-- A write to apply: its identity, its bytes with their data stamps, and its place in happens-before. -/
structure WReq where
  id : Nat
  bytes : List (Nat × (Byte × Stamp))
  preds : List Nat
  carry : List Nat
  after : List Nat
  deriving DecidableEq, Repr

/-- R165, R247: the stamp of granule `gran` after writes whose bytes are `bs`. -/
def stampAfter (h : Word) (old : Stamp) (gran : Nat) (bs : List (Nat × (Byte × Stamp))) (timeless : Bool) : Stamp :=
  let mine := bs.filter fun b => b.1 / 32 == gran
  let data := olderAll h (mine.map fun b => b.2.2)
  if timeless then old
  else if (from_ (gran * 32) 32).all fun a => mine.any fun b => b.1 == a then data
  else older h old data

/-- R179: granules of `bs` that hold an uncorrectable error and are not covered whole. -/
def State.ueHit (s : State) (bs : List (Nat × (Byte × Stamp))) : List Nat :=
  (granulesOf (bs.map fun b => b.1)).filter fun gr =>
    s.ue.contains gr && !((from_ (gr * 32) 32).all fun a => bs.any fun b => b.1 == a)

/-- Apply writes at their homes in one step of the home order (R244): bytes, granule stamps and events. Bytes that fall in
a granule with an uncorrectable error that the step does not cover are not written (R179). `core` places the bank or chute
of a scratch location. -/
def State.commit (s : State) (core : Nat) (timeless : Bool) (reqs : List WReq) : State :=
  let all := reqs.flatMap fun r => r.bytes
  let bad := s.ueHit all
  let ok := all.filter fun b => !bad.contains (b.1 / 32)
  let grans := granulesOf (ok.map fun b => b.1)
  let after := grans.map fun gr => (gr, stampAfter (s.homeHz core (gr * 32)) (s.stampAt (gr * 32)) gr ok timeless)
  let before := grans.map fun gr => (gr, s.stampAt (gr * 32))
  let ev (r : WReq) : WEv :=
    let bs := r.bytes.filter fun b => !bad.contains (b.1 / 32)
    { id := r.id, bytes := bs.map fun b => (b.1, b.2.1), old := bs.map fun b => (b.1, s.byteAt b.1)
      gAfter := after.filter fun x => bs.any fun b => b.1 / 32 == x.1
      gBefore := before.filter fun x => bs.any fun b => b.1 / 32 == x.1
      preds := r.preds, carry := r.carry, after := r.after, clk := s.clock }
  { s with mem := ok.foldl (fun m b => memWrite m b.1 b.2.1) s.mem
           stamps := after.foldl (fun m x => aset m x.1 x.2) s.stamps
           ue := s.ue.filter fun gr => !(grans.contains gr)
           hist := s.hist ++ reqs.map ev }

/-- Identities of the applied writes that touch some location of a list. -/
def State.writersOf (s : State) (locs : List Nat) : List Nat :=
  (s.hist.filter fun w => w.bytes.any fun b => locs.contains b.1).map fun w => w.id

/-- A write by the device itself, ordered after every write already applied there; its identity is the returned number. -/
def State.sysWrite (s : State) (core : Nat) (timeless : Bool) (bytes : List (Nat × (Byte × Stamp))) (carry : List Nat) : State × Nat :=
  let id := s.uid
  (s.bump.commit core timeless
    [{ id, bytes, preds := s.writersOf (bytes.map fun b => b.1), carry := id :: carry, after := [] }], id)

/-- The history of locations that no read may reach any more: what a location holds now is all that is left of it. -/
def State.forget (s : State) (gone : Nat → Bool) : State :=
  let cut (w : WEv) : WEv :=
    { w with bytes := w.bytes.filter (fun b => !gone b.1), old := w.old.filter (fun b => !gone b.1)
             gAfter := w.gAfter.filter (fun g => !gone (g.1 * 32)), gBefore := w.gBefore.filter (fun g => !gone (g.1 * 32)) }
  { s with hist := (s.hist.map cut).filter fun w => !w.bytes.isEmpty }

/-- Lay bytes at a run of locations, all timeless, outside the order of events: what the program must not access (R71). -/
def State.layBytes (s : State) (base : Nat) (bs : List Byte) : State :=
  let s := s.forget fun a => decide (base ≤ a) && decide (a < base + bs.length)
  { s with mem := memFill s.mem base bs
           stamps := (from_ (base / 32) (bs.length / 32)).foldl (fun m gr => aset m gr 0) s.stamps }

/-! ### Views (R241) -/

def Fibre.view (f : Fibre) : Path → View
  | .vec => f.vec | .cp => f.cp | .mx => f.mx | .vp => f.vp | .coll => f.coll

def Fibre.setView (f : Fibre) (p : Path) (v : View) : Fibre :=
  match p with
  | .vec => { f with vec := v } | .cp => { f with cp := v } | .mx => { f with mx := v }
  | .vp => { f with vp := v } | .coll => { f with coll := v }

/-- Writes become hb the fibre's next event on a path. -/
def Fibre.learn (f : Fibre) (p : Path) (ids : List Nat) : Fibre :=
  f.setView p { f.view p with know := union (f.view p).know ids }

def State.learn (s : State) (fids : List Nat) (p : Path) (ids : List Nat) : State :=
  fids.foldl (fun s f => s.modFibre f fun x => x.learn p ids) s

/-! ### Translation (R160 to R164, R274) -/

/-- What an access asks of a page (R163, step 3). -/
inductive Acc where
  | load | store | atomic | cctl | fetch
  deriving DecidableEq, Repr

/-- A cause of an address, whether the groom serves it, and the virtual page. -/
structure Miss where
  cause : Nat
  groom : Bool
  page : Nat
  deriving DecidableEq, Repr

/-- A translated byte: its physical location and what its page entry says (R162). -/
structure Page where
  loc : Nat
  timeless : Bool
  swm : Bool
  fmt : Nat
  geom : Nat
  frame : Nat
  rdidx : Nat
  tier : Nat
  /-- physical base and size of the page, and the virtual base -/
  base : Nat
  size : Nat
  vbase : Nat
  deriving DecidableEq, Repr

/-- R160: bits 63:57 equal bit 56. -/
def canonical (va : DWord) : Bool := va.toNat / 2 ^ 56 == 0 || va.toNat / 2 ^ 56 == 255

def pageSize (level : Nat) : Nat := if level = 3 then 2 ^ 30 else if level = 2 then 2 ^ 21 else 2 ^ 16
def levelIndex (level va : Nat) : Nat :=
  if level = 4 then bitsN va 40 15 else if level = 3 then bitsN va 30 10 else if level = 2 then bitsN va 21 9 else bitsN va 16 5

/-- The 64 KiB pieces that a physical range touches (R344). -/
def pieces64 (lo len : Nat) : List Nat := (List.range ((lo % 65536 + len + 65535) / 65536)).map fun k => (lo / 65536 + k) * 65536

/-- R344, R334: is every piece of a physical range granted to partition `p` under a kind? -/
def State.granted (s : State) (p lo len : Nat) (kind : Nat) : Bool :=
  (pieces64 lo len).all fun a => s.grants.any fun g =>
    g.part == p && g.kind == kind && decide (g.lo ≤ a) && decide (a + 65536 ≤ g.lo + g.len)

/-- R344: is every piece of a physical range granted to partition `p`, under whatever kind? -/
def State.owns (s : State) (p lo len : Nat) : Bool :=
  (pieces64 lo len).all fun a => s.grants.any fun g => g.part == p && decide (g.lo ≤ a) && decide (a + 65536 ≤ g.lo + g.len)

/-- R164: HBM data, and the CXL root ports. -/
def inHbmData (lo len : Nat) : Bool := decide (lo + len ≤ Config.hbmDataEnd)
def inCxl (lo len : Nat) : Bool :=
  (List.range Config.cxlPorts).any fun p =>
    decide (Config.cxlBase + p * Config.cxlStride ≤ lo) && decide (lo + len ≤ Config.cxlBase + (p + 1) * Config.cxlStride)

def isBlockFmt (fmt : Nat) : Bool := fmt == 7 || fmt == 8 || fmt == 9

/-- R163, step 2, for a leaf at `level`. Bits 51:48 and bit 2 of a leaf are not looked at (log 33). -/
def State.badLeaf (s : State) (p level e : Nat) : Bool :=
  let addr := bitsN e 8 40 * 4096
  let size := pageSize level
  let tier := bitsN e 60 2
  let fmt := bitsN e 56 4
  let frame := bitsN e 88 40
  addr % size != 0 || tier == 3 || decide (2 ≤ bitsN e 54 2) || decide (2 ≤ bitsN e 52 2) || decide (10 ≤ fmt)
    || (bitsN e 54 2 != 0 && !isBlockFmt fmt)
    || (if isBlockFmt fmt then frame == 0 else frame != 0)
    || (if tier == 0 then !inHbmData addr size else !(inCxl addr size && s.granted p addr size tier))

/-- R163, step 3: the permission that is missing. -/
def lacks (acc : Acc) (e : Nat) : Bool :=
  let r := bitsN e 4 1 == 1
  let w := bitsN e 5 1 == 1
  match acc with
  | .load => !r | .store => !w | .atomic => !(r && w) | .cctl => !(r || w) | .fetch => !(bitsN e 6 1 == 1)

/-- The walk of R161 from a table at `table`, at `level`, with the checks of R163. -/
def State.walk (s : State) (p : Nat) (acc : Acc) (va : Nat) : Nat → Nat → Except Miss Page
  | 0, _ => .error ⟨0x045, false, va / 65536 * 65536⟩
  | level + 1, table =>
    let l := level + 1
    let e := ((aget? s.ptes (table + 16 * levelIndex l va)).getD 0).toNat
    let miss (c : Nat) : Except Miss Page := .error ⟨c, c == 0x043 && bitsN e 1 1 == 1, va / 65536 * 65536⟩
    if bitsN e 0 1 = 0 then miss 0x043
    else if bitsN e 3 1 = 0 then
      if l = 1 || e != bitsN e 8 40 * 256 + 1 then miss 0x045
      else s.walk p acc va level (bitsN e 8 40 * 4096)
    else if l = 4 || s.badLeaf p l e then miss 0x045
    else if lacks acc e then miss 0x044
    else if bitsN e 62 10 != (s.part p).key then miss 0x04D
    else
      let size := pageSize l
      let base := bitsN e 8 40 * 4096
      .ok { loc := base + va % size, timeless := bitsN e 52 2 == 1, swm := bitsN e 7 1 == 1, fmt := bitsN e 56 4
            geom := bitsN e 54 2, frame := bitsN e 88 40 * 4096, rdidx := bitsN e 72 16, tier := bitsN e 60 2
            base, size, vbase := va / size * size }

/-- R274: an address in the frame window. -/
def inFrames (va : Nat) : Bool :=
  decide (Config.frameWindow.toNat ≤ va) && decide (va < Config.frameWindow.toNat + 0x800000)

/-- Translate a region-0b00 address for partition `p` (R161, R163, R274). -/
def State.translate (s : State) (p : Nat) (acc : Acc) (va : DWord) : Except Miss Page :=
  let v := va.toNat
  if inFrames v then
    let off := v - Config.frameWindow.toNat
    if (s.part p).dies.getLsbD (dieOf (off / 65536)) then
      if acc = .fetch then .error ⟨0x044, false, v / 65536 * 65536⟩
      else .ok { loc := Config.framePhys + off, timeless := true, swm := false, fmt := 0, geom := 0, frame := 0, rdidx := 0
                 tier := 0, base := Config.framePhys + off / 65536 * 65536, size := 65536, vbase := v / 65536 * 65536 }
    else .error ⟨0x043, false, v / 65536 * 65536⟩
  else if !(s.part p).root then .error ⟨0x043, false, v / 65536 * 65536⟩
  else s.walk p acc (bitsN v 0 55) 4 (Config.rootPhys p)

/-! ### Reads and writes of the device itself -/

/-- R173: a completion over CXL.mem with an error or poison (log 72). -/
def State.cxlBad (s : State) (loc n : Nat) : Bool :=
  decide (Config.cxlBase ≤ loc) && decide (loc < 2 ^ 60) && (granulesOf (from_ loc n)).any fun g => Config.cxlError s.clock g

/-- R164, R173, R179: causes of a translated access at its home. -/
def State.homeCause (s : State) (load : Bool) (loc n : Nat) : Option Nat :=
  if loc < 2 ^ 60 && !(s.die (homeDie loc)).memUp then some 0x04B
  else if load && (granulesOf (from_ loc n)).any s.ue.contains then some 0x04A
  else if s.cxlBad loc n then some 0x04E
  else none

/-- R171, R179: the first cause of a write at its home: the merge of a partial granule may meet an uncorrectable error. -/
def State.writeCause (s : State) (loc n : Nat) (bs : List (Nat × (Byte × Stamp))) : Option Nat :=
  match s.homeCause false loc n with
  | some 0x04B => some 0x04B
  | c => if s.ueHit bs = [] then c else some 0x04A

/-- The entry that stands for a virtual page: its address, its level, and its bits (R161). -/
def State.leafOf (s : State) (va : Nat) : Nat → Nat → Option (Nat × Nat × Nat)
  | 0, _ => none
  | level + 1, table =>
    let l := level + 1
    let at_ := table + 16 * levelIndex l va
    let e := ((aget? s.ptes at_).getD 0).toNat
    if bitsN e 0 1 = 1 && bitsN e 3 1 = 0 then s.leafOf va level (bitsN e 8 40 * 4096)
    else some (at_, l, e)

def State.pageEntry (s : State) (p : Nat) (va : Nat) : Option (Nat × Nat × Nat) :=
  if (s.part p).root then s.leafOf (bitsN va 0 55) 4 (Config.rootPhys p) else none

/-- Read `n` bytes at a virtual address of a partition as the device does, at their homes, crossing no page in one piece: the bytes,
or the first cause. An address in a domain window counts as one that is not mapped (log 38). -/
def State.devRead (s : State) (p : Nat) (acc : Acc) (va : DWord) (n : Nat) : Except Miss (List Byte) :=
  if !canonical va then .error ⟨0x040, false, 0⟩
  else if bitsN va.toNat 55 2 != 0 && !inFrames va.toNat then .error ⟨0x041, false, 0⟩
  else (List.range ((va.toNat % 32 + n + 31) / 32)).foldl (fun acc' i =>
    match acc' with
    | .error m => .error m
    | .ok bs =>
      let lo := if i = 0 then va.toNat else (va.toNat / 32 + i) * 32
      let hi := min (va.toNat + n) ((va.toNat / 32 + i + 1) * 32)
      match s.translate p acc (BitVec.ofNat 64 lo) with
      | .error m => .error m
      | .ok pg => match s.homeCause true pg.loc (hi - lo) with
        | some c => .error ⟨c, false, pg.vbase⟩
        | none => .ok (bs ++ s.bytesAt pg.loc (hi - lo))) (.ok [])

/-- The locations of `n` bytes from a virtual address for a store by the device, or the first cause (R20). -/
def State.devLocs (s : State) (p : Nat) (acc : Acc) (va : DWord) (n : Nat) : Except Miss (List (Nat × Page)) :=
  if !canonical va then .error ⟨0x040, false, 0⟩
  else if bitsN va.toNat 55 2 != 0 && !inFrames va.toNat then .error ⟨0x041, false, 0⟩
  else (List.range ((va.toNat % 32 + n + 31) / 32)).foldl (fun acc' i =>
    match acc' with
    | .error m => .error m
    | .ok ls =>
      let lo := if i = 0 then va.toNat else (va.toNat / 32 + i) * 32
      let hi := min (va.toNat + n) ((va.toNat / 32 + i + 1) * 32)
      match s.translate p acc (BitVec.ofNat 64 lo) with
      | .error m => .error m
      | .ok pg => match s.homeCause (acc != .store) pg.loc (hi - lo) with
        | some c => .error ⟨c, false, pg.vbase⟩
        | none => .ok (ls ++ (from_ pg.loc (hi - lo)).map fun a => (a, pg))) (.ok [])

/-- Write bytes at a virtual address as a store on path `vec` would (R20): the new state, or the cause with nothing written.
The written data is timeless. -/
def State.devWrite (s : State) (p : Nat) (va : DWord) (bs : List Byte) (carry : List Nat) : Except Miss State :=
  match s.devLocs p .store va bs.length with
  | .error m => .error m
  | .ok ls =>
    let timeless := ls.any fun x => x.2.timeless
    let data := (ls.zip bs).map fun x => (x.1.1, (x.2, (0 : Stamp)))
    if s.ueHit data = [] then .ok (s.sysWrite 0 timeless data carry).1 else .error ⟨0x04A, false, va.toNat / 65536 * 65536⟩

/-! ### Fibres of a slot -/

/-- The fibres of a slot, lowest lane first. -/
def Slot.fids (sl : Slot) : List Nat := sl.lanes.map fun x => x.2

/-- The `%weave` of a slot's lowest-numbered fibre (R275). -/
def State.weaveOf (s : State) (sl : Slot) : Nat := match sl.lanes with
  | [] => sl.w
  | (_, f) :: _ => (s.fibre f).w

/-- The slots that a team holds. -/
def State.slotsOf (s : State) (t : Nat) : List (Nat × Slot) := s.slots.filter fun x => x.2.team == t

/-- The fibres of a team that exist, in their windows or as KIND 1 records (R258). -/
def State.fibresOf (s : State) (t : Nat) : List (Nat × Fibre) := s.fibres.filter fun x => x.2.team == t && x.2.alive

/-! ### Spawn records (R68) -/

def Rec.field (r : Rec) (lo w : Nat) : Nat := bitsN r.word.toNat lo w
def Rec.kind1 (r : Rec) : Bool := r.word.getLsbD 47
def Rec.role (r : Rec) : Nat := r.field 38 2
def Rec.lane (r : Rec) : Nat := r.field 32 6
/-- Line index in bits 31:3, slot in bits 2:0. -/
def Rec.pc (r : Rec) : Word := BitVec.ofNat 32 (r.field 0 32)
def Rec.preds (r : Rec) : BitVec 16 := BitVec.ofNat 16 (r.field 48 16)
def Rec.arg (r : Rec) : Word := BitVec.ofNat 32 (r.field 64 32)
def Rec.argst (r : Rec) : Stamp := BitVec.ofNat 32 (r.field 96 32)
/-- KIND 0: the fibre, by the position of its window. -/
def Rec.fibre (r : Rec) : Nat := fibreKey r.team (r.field 89 7) r.lane

/-- The word of a record: the high 64 bits are HOME or the argument, and ARGST. -/
def recWord (kind1 : Bool) (role lane : Nat) (pc : Word) (preds : BitVec 16) (home : Nat) (argst : Stamp) : BitVec 128 :=
  BitVec.ofNat 128 (pc.toNat + lane % 64 * 2 ^ 32 + role % 4 * 2 ^ 38 + (if kind1 then 2 ^ 47 else 0) + (preds ||| 0x8000).toNat * 2 ^ 48
    + home % 2 ^ 32 * 2 ^ 64 + argst.toNat * 2 ^ 96)

/-- HOME of a fibre: the weave index of its window, and the window base in the column. -/
def Fibre.home (f : Fibre) : Nat := f.w % 128 * 2 ^ 25 + f.base % 2048 * 2 ^ 14

def State.recsOf (s : State) (t : Nat) : List Rec := s.quarters.flatMap fun x => x.2.recs.filter fun r => r.team == t
def State.chunksOf (s : State) (t : Nat) : List (Nat × Chunk) := s.chunks.filter fun x => x.2.team == t

/-- Fibres of a team, with spawned ones that have no window yet (R258). -/
def State.existing (s : State) (t : Nat) : Nat :=
  (s.fibresOf t).length + ((s.recsOf t).filter fun r => r.kind1).length
    + ((s.chunksOf t).map fun c => c.2.recs.length).sum

/-- Operations that slot `g` of a team has in flight. -/
def State.opsOf (s : State) (g t : Nat) : List (Nat × Op) :=
  s.ops.filter fun o => o.2.head.g == g && o.2.head.team == t

/-- Those, and the operations of the fibres that the slot holds now, whichever slot issued them. -/
def State.opsHere (s : State) (g : Nat) (sl : Slot) : List (Nat × Op) :=
  s.ops.filter fun o => o.2.head.team == sl.team && (o.2.head.g == g || o.2.head.lanes.any fun a => sl.fids.contains a.2)

/-! ### Error record (R22, R23, R280, R305) -/

/-- The error record's fields as 64 bytes (R22). -/
def Launch.errorRecord (l : Launch) : Nat :=
  let f := l.first.getD TrapInfo.zero
  l.status + (if l.first.isSome then f.cause * 2 ^ 16 else 0) + l.errcnt * 2 ^ 32 + f.pc.toNat * 2 ^ 64
    + l.firstTeam.toNat * 2 ^ 128 + f.weave % 256 * 2 ^ 160 + l.firstRole * 2 ^ 168 + l.firstCore * 2 ^ 176
    + f.addr.toNat * 2 ^ 192 + l.late * 2 ^ 256

/-- R20: one more dropped write of a queue, saturating at 255. -/
def State.wfail (s : State) (q : Nat) : State :=
  s.setQueue q { s.queue q with wfail := min 255 ((s.queue q).wfail + 1) }

/-- The launch at the end of a chain of parents. -/
def State.rootFrom (s : State) : Nat → Nat → Nat
  | 0, lid => lid
  | n + 1, lid => match (s.launch lid).parent with
    | some p => s.rootFrom n p
    | none => lid

/-- R318: the launch to which a reduce team's errors and effects go, through every run between; any other launch itself. -/
def State.root (s : State) (lid : Nat) : Nat := s.rootFrom s.launches.length lid

/-- Count one error (R22, R23, R305); LATECNT saturates as ERRCNT does (log 70). What the error record in memory is to hold is due
from now on. -/
def State.recordError (s : State) (lid : Nat) (t : TrapInfo) (late : Bool) (team : Word) (role core : Nat) : State :=
  let lid := s.root lid
  let l := s.launch lid
  let l := { l with errcnt := min 0xFFFFFFFF (l.errcnt + 1), late := if late then min 0xFFFFFFFF (l.late + 1) else l.late
                    recDue := if l.first.isSome then union l.recDue [1] else [0, 1] }
  let l := if l.first.isSome then l
    else { l with first := some t, firstTeam := team, firstRole := role, firstCore := core }
  s.setLaunch lid l

/-- R291: does a team hold core resources? -/
def TeamState.isPlaced : TeamState → Bool
  | .held | .running | .retiring | .saving _ | .draining _ | .flushing => true
  | .saved | .flushed | .ended => false

/-! ### Barriers (R258, R259) -/

/-- The path on which an operation works, for the engines (R240), with the fibre and the lane that issued it. -/
def OpBody.engine : OpBody → Option (Path × Nat × Nat)
  | .tile _ _ fid lane .. => some (.mx, fid, lane)
  | .proj _ fid lane .. => some (.vp, fid, lane)
  | .copy _ fid lane .. => some (.cp, fid, lane)
  | _ => none

/-- Of some reads in flight those on path `vec`, which alone a barrier, a phase and FSPAWN order before what comes after them (R241,
item 3; R259). -/
def State.vecReads (s : State) (ids : List Nat) : List Nat :=
  ids.filter fun id => !(decide (runRead 0 ≤ id) || s.ops.any fun o => ofOp o.1 id && o.2.body.engine.isSome)

def setBit16 (w : BitVec 16) (i : Nat) (b : Bool) : BitVec 16 :=
  if b then w ||| BitVec.ofNat 16 (2 ^ i) else w &&& ~~~(BitVec.ofNat 16 (2 ^ i))

/-- The teams over which barrier `id` counts: the team, or the launch's teams placed on its die (R258). -/
def State.barTeams (s : State) (t id : Nat) : List Nat :=
  if id < 12 then [t]
  else
    let tm := s.team t
    (s.teams.filter fun x => x.2.launch == tm.launch && x.2.die == tm.die && x.2.state.isPlaced && x.2.node.isNone).map fun x => x.1

/-- R258: the barrier completes when every existing fibre has arrived: generations flip, counts return to 0, and slots that
wait there are eligible again. R259: each fibre that arrived receives what all of them knew. -/
def State.barCheck (s : State) (t id : Nat) : State :=
  let ts := s.barTeams t id
  let count := (ts.map fun k => mget 0 (s.team k).counts id).sum
  if count ≠ 0 && count = (ts.map s.existing).sum then
    let fs := s.fibres.filter fun f => ts.contains f.2.team && f.2.alive && f.2.arrived.getLsbD id
      && f.2.gen.getLsbD id == (s.team f.2.team).gens.getLsbD id
    let know := fs.foldl (fun m f => union m f.2.vec.know) []
    let aft := s.vecReads (fs.foldl (fun m f => union m f.2.after) [])
    let s := fs.foldl (fun s f => s.modFibre f.1 fun x => { (x.learn .vec know) with after := union x.after aft }) s
    let s := ts.foldl (fun s k => s.modTeam k fun x =>
      { x with counts := mset 0 x.counts id 0, gens := setBit16 x.gens id (!x.gens.getLsbD id) }) s
    { s with slots := s.slots.map fun (x : Nat × Slot) =>
        if ts.contains x.2.team && x.2.wait == .bar id then (x.1, { x.2 with wait := .none }) else x }
  else s

/-- Every barrier of a team, after a fibre has ended (R258). -/
def State.barCheckAll (s : State) (t : Nat) : State := (List.range 16).foldl (fun s id => s.barCheck t id) s

/-! ### Phases (R260) -/

/-- The launch's tree: the one it holds, or a free one of the eight. -/
def State.treeOf (s : State) (lid : Nat) : Option Nat :=
  match (s.launch lid).tree with
  | some k => some k
  | none => (List.range Config.phaseTrees).find? fun k => (aget? s.trees k).isNone

def State.tree (s : State) (k lid : Nat) : Tree := (aget? s.trees k).getD ⟨lid, 0, [], [], []⟩

def State.takeTree (s : State) (lid k : Nat) : State :=
  { (s.modLaunch lid fun l => { l with tree := some k }) with trees := aset s.trees k (s.tree k lid) }

/-- R260: every existing fibre of the team has arrived in phase `c`; a spawned fibre without a window has not. -/
def State.teamArrived (s : State) (t : Nat) (c : Word) : Bool :=
  s.existing t == (s.fibresOf t).length && (s.fibresOf t).all fun f => f.2.phase == some c

/-- R260, R269: once a team has arrived in the open phase, what its fibres' arrivals carry belongs to the phase. -/
def State.settleTeam (s : State) (k lid t : Nat) : State :=
  let tr := s.tree k lid
  match aget? tr.part t with
  | none => s
  | some a =>
    if s.existing t ≠ 0 && s.teamArrived t tr.c then
      let n := tr.c.toNat
      { s with trees := aset s.trees k { tr with
          know := aset tr.know n (union (mget [] tr.know n) a.know), after := aset tr.after n (union (mget [] tr.after n) a.after)
          part := adel tr.part t } }
    else s

/-- R260: the open phase completes when every team of the launch that has not ended has arrived. -/
def State.phaseCheck (s : State) (lid : Nat) : State :=
  match (s.launch lid).tree with
  | none => s
  | some k =>
    let ts := s.teams.filter fun x => x.2.launch == lid && x.2.state != .ended && x.2.node.isNone
    let s := ts.foldl (fun s x => s.settleTeam k lid x.1) s
    let tr := s.tree k lid
    if ts ≠ [] && ts.all fun x => s.teamArrived x.1 tr.c then { s with trees := aset s.trees k { tr with c := tr.c + 1, part := [] } } else s

/-- R269: a team ends: what it has not arrived with gives no edge. -/
def State.dropArrivals (s : State) (t : Nat) : State :=
  { s with trees := s.trees.map fun (x : Nat × Tree) => (x.1, { x.2 with part := adel x.2.part t }) }

/-- A fibre or a team has ended: barriers and the phase may complete. -/
def State.afterEnd (s : State) (t : Nat) : State := (s.barCheckAll t).phaseCheck (s.team t).launch

/-! ### Ending fibres and teams (R77, R304) -/

/-- A team's weave slots are given back, with what their issue had asked other devices for. -/
def State.dropSlots (s : State) (t : Nat) : State :=
  { s with slots := s.slots.filter fun x => x.2.team != t
           far := s.far.filter fun f => !(s.slots.any fun x => x.2.team == t && f.1 == farIssue x.1) }

/-- R304: a team with no fibre, record or chunk passes to retiring and returns its weave slots. -/
def State.retireIfDone (s : State) (t : Nat) : State :=
  if s.existing t = 0 && (s.recsOf t).isEmpty then
    match (s.team t).state with
    | .retiring | .ended | .saved | .flushed => s
    | _ => (s.modTeam t fun x => { x with state := .retiring }).dropSlots t
  else s

/-- R178, R204: causes that go to the error record when no fibre is left to take them. -/
def Kind.outlives : Kind → Bool
  | .late | .engine => true
  | _ => false

/-- The causes waiting in slot `g` of team `t` that `ks` picks go to the error record. -/
def State.recordSlot (s : State) (t g : Nat) (sl : Slot) (ks : Kind → Bool) : State :=
  sl.late.foldl (fun s c =>
    if ks c.1.kind then s.recordError (s.team t).launch c.1 true (s.team t).index sl.role (coreOf g) else s) s

/-- R178, R305: late causes that a team's slots still hold when it ends go to the error record. -/
def State.recordLate (s : State) (t : Nat) (ks : Kind → Bool) : State :=
  (s.slotsOf t).foldl (fun s x => s.recordSlot t x.1 x.2 ks) s

/-- R178: a slot without fibres holds no cause any more. -/
def State.emptied (s : State) (g : Nat) : State :=
  match aget? s.slots g with
  | some sl => if sl.lanes.isEmpty then (s.recordSlot sl.team g sl Kind.outlives).modSlot g fun x => { x with late := [] } else s
  | none => s

/-- Where a chunk stands, checked as a store would be (R76). -/
def State.chunkBase (s : State) (lid index : Nat) : Except Miss Nat :=
  let l := s.launch lid
  let va := l.spilla + BitVec.ofNat 64 (65536 * index)
  if !canonical va then .error ⟨0x040, false, 0⟩
  else if bitsN va.toNat 55 2 != 0 then .error ⟨0x041, false, 0⟩
  else match s.translate l.part .store va with
    | .error m => .error m
    | .ok pg => if (List.range 16).any fun k => (s.homeCause false (pg.loc + 4096 * k) 1).isSome then .error ⟨0x04B, false, pg.vbase⟩
      else .ok pg.loc

/-- R71: the header of a chunk. -/
def State.chunkHeader (s : State) (c : Chunk) : Nat :=
  (if c.recs = [] then 0 else 1) + c.recs.length % 4096 * 2 ^ 36 + c.next % 65536 * 2 ^ 64 + c.q % 4 * 2 ^ 87 + c.core % 128 * 2 ^ 89
    + (s.team c.team).index.toNat * 2 ^ 96

/-- The bytes of a chunk: the header, then its records with the youngest first, so that the oldest leave from the end (log 71). -/
def State.chunkBytes (s : State) (c : Chunk) : List Byte :=
  bytesLE 16 (s.chunkHeader c) ++ c.recs.reverse.flatMap fun r => bytesLE 16 r.word.toNat

/-- Write a chunk, or its header alone, where it stands. -/
def State.layChunk (s : State) (c : Chunk) (whole : Bool) : State :=
  match s.chunkBase c.launch c.index with
  | .error _ => s
  | .ok base => s.layBytes base (if whole then s.chunkBytes c else bytesLE 16 (s.chunkHeader c))

/-- R71: the chunks of a team become free: their headers say so. -/
def State.dropChunks (s : State) (t : Nat) : State :=
  let s := (s.chunksOf t).foldl (fun s c => s.layChunk { c.2 with recs := [] } false) s
  { s with chunks := s.chunks.filter fun x => x.2.team != t }

/-- R77: every fibre of the team ends, as by EXIT; its records and chunks are discarded; barriers and the phase may complete
(R258, R260). -/
def State.endTeam (s : State) (t : Nat) : State :=
  let s := ((s.recordLate t Kind.outlives).dropArrivals t).dropChunks t
  let s := { s with
    fibres := s.fibres.map fun (x : Nat × Fibre) => if x.2.team == t then (x.1, { x.2 with alive := false }) else x
    slots := s.slots.map fun (x : Nat × Slot) => if x.2.team == t then (x.1, { x.2 with lanes := [] }) else x
    quarters := s.quarters.map fun (x : Nat × Quarter) => (x.1, { x.2 with recs := x.2.recs.filter fun r => r.team != t })
    teams := aupd s.teams t fun x => { x with counts := [] } }
  (s.afterEnd t).retireIfDone t

/-! ### Frames and traps (R273 to R280) -/

def Kind.code : Kind → Nat
  | .precise => 0 | .partly => 1 | .after => 2 | .engine => 3 | .late => 4 | .parked => 5

def laneMask (l : List Nat) : Nat := (maskOf l).toNat

/-- R276: REPLAY is 1 for the kinds that issue again. -/
def Kind.replays : Kind → Bool
  | .precise | .partly | .engine | .parked => true
  | .after | .late => false

/-- R274: the address of a slot's trap frame; its continuation frame stands 128 bytes above. -/
def frameAddr (g : Nat) : DWord := Config.frameWindow + BitVec.ofNat 64 (256 * g)

/-- R275, R276: a frame as a number of 1024 bits. `cur` is the slot's PC when the cause is raised. -/
def State.frameBits (s : State) (g : Nat) (sl : Slot) (t : TrapInfo) (cur : DWord) : Nat :=
  let rpc := match t.kind with
    | .engine | .late => cur
    | _ => t.next
  t.cause + t.kind.code * 2 ^ 10 + (if t.kind.replays then 2 ^ 13 else 0) + t.rstep * 2 ^ 16 + laneMask t.rmask * 2 ^ 384
    + (g % 64) * 2 ^ 455 + quarterOf g * 2 ^ 461 + coreOf g * 2 ^ 463 + sl.role * 2 ^ 470 + s.weaveOf sl % 256 * 2 ^ 472
    + (s.team sl.team).index.toNat * 2 ^ 480 + t.addr.toNat * 2 ^ 512 + laneMask t.lmask * 2 ^ 576 + t.pc.toNat * 2 ^ 640
    + rpc.toNat * 2 ^ 704 + t.info.toNat * 2 ^ 768 + t.stamp.toNat * 2 ^ 800 + t.hzn.toNat * 2 ^ 832
    + t.bound.toNat * 2 ^ 864 + t.word.toNat * 2 ^ 928

/-- Write a frame at its physical place (R274); the write is hb the next instruction of every fibre of the slot (R277). -/
def State.writeFrame (s : State) (g off : Nat) (sl : Slot) (bits : Nat) : State :=
  let base := Config.framePhys + 256 * g + off
  let r := s.sysWrite (coreOf g) true (((from_ base 128).zip (bytesLE 128 bits)).map fun x => (x.1, (x.2, (0 : Stamp)))) []
  r.1.learn sl.fids .vec [r.2]

/-- Bits of `%cont` (R285). -/
def contReady : DWord := BitVec.ofNat 64 (2 ^ 63)
def contActive : DWord := BitVec.ofNat 64 (2 ^ 62)
def Slot.active (sl : Slot) : Bool := sl.cont.getLsbD 62
def Slot.ready (sl : Slot) : Bool := sl.cont.getLsbD 63

/-- R278, R280: the error record and the end of the team. `c` replaces the cause by 0x1C5 for a trap within the handler. -/
def State.killTeam (s : State) (g : Nat) (t : TrapInfo) : State :=
  let sl := s.slot g
  let s := s.recordError (s.team sl.team).launch { t with weave := s.weaveOf sl } false (s.team sl.team).index sl.role (coreOf g)
  s.endTeam sl.team

/-- TAKING A TRAP. Delivery of a cause that the groom does not serve (R273, paths 2 to 4; R277, R278, R280): within the
handler, to the handler, or to the error record. -/
def State.deliver (s : State) (g : Nat) (t : TrapInfo) : State :=
  let sl := s.slot g
  let l := s.launch (s.team sl.team).launch
  if sl.handler then s.killTeam g { t with cause := 0x1C5 }
  else if l.trapp then
    let s := s.writeFrame g 0 sl (s.frameBits g sl t sl.pc)
    s.modSlot g fun x =>
      { x with handler := true, frame := frameAddr g, pc := l.pcAt (l.trapent / 8 : Nat) (l.trapent % 8), arrive := .entry
               wait := .none, replay := none, handling := some { t with bounds := [] } }
  else s.killTeam g t

/-- R273, path 1; R285: the groom serves the fault; the slot enters its continuation or parks. The replay is for the lanes of RMASK
(log 31). -/
def State.giveGroom (s : State) (g : Nat) (t : TrapInfo) (serve : Serve) : State :=
  let sl := s.slot g
  let l := s.launch (s.team sl.team).launch
  if l.contp && sl.cont.getLsbD 0 && !sl.active && !sl.handler then
    let s := s.writeFrame g 128 sl (s.frameBits g sl { t with kind := .parked } sl.pc)
    s.modSlot g fun x =>
      { x with cont := (x.cont &&& ~~~contReady) ||| contActive, frame := frameAddr g + 128
               pc := l.pcAt (l.content / 8 : Nat) (l.content % 8), arrive := .entry, wait := .none, replay := none
               contPark := some ⟨t, serve⟩ }
  else s.modSlot g fun x => { x with wait := .park ⟨t, serve⟩, replay := none }

/-- TAKING A TRAP (R273): the one operation through which every cause of a slot passes. `serve` names what the groom must
do when path 1 applies. -/
def State.raise (s : State) (g : Nat) (t : TrapInfo) (serve : Option Serve) : State :=
  let s := s.dropIssue g
  match serve with
  | some v => s.giveGroom g t v
  | none => s.deliver g t

/-- R178: a cause that arises after issue: raised in the slot before its next issue while the slot holds a fibre of the
team, kept with a saved team (R293), else the error record as a late fault. -/
def State.raiseLate (s : State) (h : OpHead) (t : TrapInfo) : State :=
  let held := match aget? s.slots h.g with
    | some sl => sl.team == h.team && !sl.lanes.isEmpty
    | none => false
  if held then s.modSlot h.g fun x => { x with late := x.late ++ [(t, none)] }
  else match (s.team h.team).state with
    | .saved => s.modTeam h.team fun x =>
        { x with savedSlots := aupd x.savedSlots h.sw fun sl => { sl with late := sl.late ++ [(t, none)] } }
    | _ => s.recordError h.launch { t with weave := h.weave } true (s.team h.team).index h.role h.core

/-- What a return reads of a frame in memory: REPLAY, RPC and RMASK (R279). -/
structure FrameRead where
  replay : Bool
  rmask : Nat
  rpc : DWord
  deriving DecidableEq, Repr

def frameRead (n : Nat) : FrameRead :=
  { replay := bitsN n 13 1 == 1, rmask := bitsN n 384 64, rpc := BitVec.ofNat 64 (bitsN n 704 64) }

/-- RETURN FROM A TRAP (R279, R286): with the frame's fields `f` and the cause `t` that the device framed, where the slot
goes on and for which lanes. The PC of a replay is a resumption point, after causes 0x00A and 0x00C too (R43, log 31). Bits of RMASK that the device did not set are ignored. An engine instruction that was itself issued
again keeps its step. -/
def Slot.resumeAt (sl : Slot) (f : FrameRead) (t : TrapInfo) (kind : Kind) : Slot :=
  let lanes := (bitList 64 f.rmask).filter fun i => t.rmask.contains i && sl.lanes.any fun x => x.1 == i
  match f.replay, kind with
  | true, .precise | true, .partly | true, .parked =>
    { sl with pc := t.pc, arrive := .resumption
              replay := some ⟨lanes, t.again.map fun a => a.1, t.again.map fun a => a.2, t.next, t.bounds⟩ }
  | true, .engine => { sl with pc := t.pc, arrive := .resumption, replay := some ⟨lanes, some t.rstep, some f.rpc, t.next, []⟩ }
  | _, _ => { sl with pc := f.rpc, arrive := .resumption, replay := none }

end Sys2Proof.Machine
end

