-- ==== Sys2Proof/Machine/Operands.lean ====
section
/-!
DEFINITION. Operands: reading every operand form (R47, R49, R88, R92, R93), the active lanes of an issue (R46, R66),
writing results (R91 to R93), and the common course of an instruction that works lane by lane (R88, R115).
-/
namespace Sys2Proof.Machine

/-- R49: the value of an immediate under a type, as 64 bits; sub-word values fill the low bits. -/
def immVal (t : Ty) (imm : BitVec 32) : Nat :=
  match t with
  | .i64 => (imm.signExtend 64).toNat
  | .f64 =>
    let x := imm.toNat
    let sign := bitsN x 31 1
    let e := bitsN x 23 8
    let m := bitsN x 0 23
    if e = 255 then sign * 2 ^ 63 + 2047 * 2 ^ 52 + m * 2 ^ 29
    else if e = 0 then
      if m = 0 then sign * 2 ^ 63
      else
        let k := Nat.log2 m
        sign * 2 ^ 63 + (k + 874) * 2 ^ 52 + (m - 2 ^ k) * 2 ^ (52 - k)
    else sign * 2 ^ 63 + (e + 896) * 2 ^ 52 + m * 2 ^ 29
  | _ => imm.toNat % 2 ^ t.bits

/-- An operand as it is read: raw bits, and the stamps of its halves (the high one 0 for a single register). -/
structure Opnd where
  val : Nat
  lo : Stamp
  hi : Stamp
  deriving DecidableEq, Repr

/-- A vector register of a fibre's window (R87). -/
def Fibre.reg (f : Fibre) (n : Nat) : Reg := mget Reg.zero f.win n

/-- A scalar register of a slot (R88). -/
def Slot.reg (sl : Slot) (n : Nat) : Reg := mget Reg.zero sl.sregs n

/-- One 32-bit register, or a special source, by its spec (R47); `k` counts registers upward from the named one. -/
def readReg (l : Launch) (sl : Slot) (f : Fibre) (k : Nat) : Spec → Reg
  | .vec n => f.reg (n.toNat + k)
  | .scl n => sl.reg (n.toNat + k)
  | .lane => if k = 0 then ⟨BitVec.ofNat 32 f.lane, 0⟩ else Reg.zero
  | .fibre => if k = 0 then ⟨BitVec.ofNat 32 (f.w * l.width + f.lane), 0⟩ else Reg.zero
  | _ => Reg.zero

/-- An operand of a type (R92, R93): sub-word types read their low bits, 64-bit types a pair. -/
def readOpnd (l : Launch) (sl : Slot) (f : Fibre) (t : Ty) (imm : BitVec 32) (sp : Spec) : Opnd :=
  match sp with
  | .imm => ⟨immVal t imm, 0, 0⟩
  | _ =>
    let r0 := readReg l sl f 0 sp
    if t.wide then
      let r1 := readReg l sl f 1 sp
      ⟨r0.val.toNat + r1.val.toNat * 2 ^ 32, r0.st, r1.st⟩
    else ⟨r0.val.toNat % 2 ^ t.bits, r0.st, 0⟩

/-- The operand as a number of its type: signed for .i types (R93). -/
def numOf (t : Ty) (v : Nat) : Int := if t.isSigned then sextN t.bits v else (v % 2 ^ t.bits : Nat)

def predOf (f : Fibre) (p : BitVec 4) : Bool := p.toNat == 15 || f.preds.getLsbD p.toNat

/-- R46: does the guard hold in a fibre? -/
def guardHolds (g : Guard) (f : Fibre) : Bool := xor (predOf f g.p) g.neg

/-- A predicate operand. -/
def readPred (f : Fibre) : Spec → Bool
  | .pred p => predOf f p
  | _ => false

/-- Registers of an integer result (R92, R93): sub-word results are extended into 32 bits, 64-bit ones take a pair. -/
def resultRegs (t : Ty) (v : Int) (lo hi : Stamp) : List (Nat × Reg) :=
  if t.wide then
    let n := wrapN 64 v
    [(0, ⟨BitVec.ofNat 32 n, lo⟩), (1, ⟨BitVec.ofNat 32 (n / 2 ^ 32), hi⟩)]
  else
    let n := wrapN t.bits v
    [(0, ⟨BitVec.ofInt 32 (numOf t n), lo⟩)]

/-! ### The course of an issue -/

/-- What an instruction sees of its issue: the slot, its launch, the horizon sampled at issue, and the active lanes. -/
structure Ctx where
  c : IssueCtx
  sl : Slot
  l : Launch
  h : Word
  hh : Nat
  /-- active lanes with their fibres, lowest first: they take part and their guard holds (R66, R279) -/
  act : List (Nat × Nat)
  deriving DecidableEq, Repr

/-- R140: the horizon interval H of a partition. -/
def Part.interval (p : Part) : Nat := p.hzi + 1

/-- The active lanes of slot `sl` in an issue `c` under a guard. -/
def State.activeLanes (s : State) (c : IssueCtx) (sl : Slot) (g : Guard) : List (Nat × Nat) :=
  sl.lanes.filter fun x => c.part.contains x.1 && guardHolds g (s.fibre x.2)

def State.ctx (s : State) (c : IssueCtx) (sl : Slot) (g : Guard) : Ctx :=
  let l := s.launch (s.team sl.team).launch
  { c, sl, l, h := s.hz (coreOf c.g), hh := (s.part l.part).interval, act := s.activeLanes c sl g }

/-- The course of every instruction word: it acts in the slot that issues it (R62, R64). -/
def onSlot (g : Guard) (s : State) (k : Ctx → State → State) : Host.Outcome State Fault Refusal :=
  match s.cur with
  | none => .fault .noWeave
  | some c => match aget? s.slots c.g with
    | none => .fault .noWeave
    | some sl => .next (k (s.ctx c sl g) s)

/-- The PC after the instruction (R42). -/
def Ctx.next (x : Ctx) : DWord := nextPc x.sl.pc x.c.count

/-- The slot goes on: to the next PC, or where a replayed engine instruction returns to (R279). -/
def State.advance (s : State) (x : Ctx) : State :=
  s.modSlot x.c.g fun sl => match x.c.thenPc with
    | some p => { sl with pc := p, arrive := .resumption }
    | none => { sl with pc := x.next, arrive := .flow }

/-- A cause of the instruction now issuing (R275, R276). -/
def Ctx.trap (x : Ctx) (cause : Nat) (kind : Kind) (lmask rmask : List Nat) : TrapInfo :=
  { TrapInfo.zero with cause, kind, lmask, rmask, pc := x.sl.pc, next := x.next, word := x.c.word
                       bounds := x.c.bounds
                       again := match x.c.rstep, x.c.thenPc with
                         | some k, some pc => some (k, pc)
                         | _, _ => none }

def Ctx.lanesOf (x : Ctx) : List Nat := x.act.map fun a => a.1

/-- Raise a precise cause in some active lanes; the instruction issues again for every active lane (R283). -/
def State.trapPrecise (s : State) (x : Ctx) (cause : Nat) (lanes : List Nat) : State :=
  s.raise x.c.g (x.trap cause .precise lanes x.lanesOf) none

/-- Write registers of a fibre; a write clears an uncorrectable error (R294). -/
def Fibre.write (f : Fibre) (base : Nat) (rs : List (Nat × Reg)) : Fibre :=
  { f with win := rs.foldl (fun m r => mset Reg.zero m (base + r.1) r.2) f.win
           ue := f.ue.filter fun n => !(rs.any fun r => base + r.1 == n) }

def Slot.write (sl : Slot) (base : Nat) (rs : List (Nat × Reg)) : Slot :=
  { sl with sregs := rs.foldl (fun m r => mset Reg.zero m (base + r.1) r.2) sl.sregs
            sue := sl.sue.filter fun n => !(rs.any fun r => base + r.1 == n) }

def setPred (w : BitVec 16) (p : Nat) (b : Bool) : BitVec 16 :=
  if p = 15 then w else if b then w ||| BitVec.ofNat 16 (2 ^ p) else w &&& ~~~(BitVec.ofNat 16 (2 ^ p))

/-- Write registers to a destination spec (R47): the zero register discards them. -/
def State.writeDst (s : State) (g fid : Nat) (d : Spec) (rs : List (Nat × Reg)) : State :=
  match d with
  | .vec n => s.modFibre fid fun f => f.write n.toNat rs
  | .scl n => s.modSlot g fun sl => sl.write n.toNat rs
  | _ => s

def State.writePred (s : State) (fid : Nat) (d : Spec) (b : Bool) : State :=
  match d with
  | .pred p => s.modFibre fid fun f => { f with preds := setPred f.preds p.toNat b }
  | _ => s

/-- What an instruction does in one lane: registers from its destination upward, a predicate, exceptions, or a cause with
the stamp and bound that its frame shows (R145, R156). -/
structure LaneOut where
  regs : List (Nat × Reg) := []
  pred : Option Bool := none
  exc : Flags := 0
  cause : Option Nat := none
  stamp : Stamp := 0
  bound : Word := 0
  deriving DecidableEq, Repr

/-- R114: the flag bits. -/
def NV : Flags := 16
def DZ : Flags := 8
def OF : Flags := 4
def UF : Flags := 2
def NX : Flags := 1

/-- R115: the first of NV, DZ, OF, UF, NX in a set of flags, as its code and bit. -/
def firstFlag (x : Flags) : Option (Nat × Flags) :=
  [(0, NV), (1, DZ), (2, OF), (3, UF), (4, NX)].find? fun p => x &&& p.2 != 0

/-- The lanes in which an instruction executes: with a scalar destination once, in the lowest active lane (R88), which
alone a cause then names (log 71). -/
def Ctx.runLanes (x : Ctx) : Spec → List (Nat × Nat)
  | .scl _ => x.act.take 1
  | _ => x.act

/-- Write what the lanes give. -/
def State.writeLane (s : State) (g : Nat) (d : Spec) (o : Nat × LaneOut) : State :=
  let s := s.writeDst g o.1 d o.2.regs
  match o.2.pred with
  | some b => s.writePred o.1 d b
  | none => s

/-- R115 and the precise causes of R99, R153, R155, R156: with a cause in some lane, or an enabled exception, nothing is
written and the trap is raised; otherwise every lane is written, the flags are ORed in, and the slot goes on. -/
def State.finishLanes (s : State) (x : Ctx) (d : Spec) (outs : List (Nat × Nat × LaneOut)) : State :=
  let causes := outs.filterMap fun o => o.2.2.cause
  if causes ≠ [] then
    let c := causes.foldl max 0
    let bad := outs.filter fun o => o.2.2.cause == some c
    let o := (bad.head?.map fun o => o.2.2).getD {}
    s.raise x.c.g { x.trap c .precise (bad.map fun o => o.1) x.lanesOf with
      stamp := o.stamp, bound := o.bound, hzn := if 0x080 ≤ c && c < 0x0C0 then x.h else 0 } none
  else
    let en := x.sl.fmask
    let all := outs.foldl (fun m o => m ||| o.2.2.exc) (0 : Flags)
    match firstFlag (all &&& en) with
    | some (k, bit) =>
      s.trapPrecise x (0x0C0 + k) ((outs.filter fun o => o.2.2.exc &&& bit != 0).map fun o => o.1)
    | none =>
      let s := outs.foldl (fun s o => s.writeLane x.c.g d (o.2.1, o.2.2)) s
      (s.modSlot x.c.g fun sl => { sl with fflags := sl.fflags ||| all }).advance x

/-- An instruction that works lane by lane, each lane reading before any lane is written. -/
def lanewise (x : Ctx) (s : State) (d : Spec) (body : Fibre → LaneOut) : State :=
  s.finishLanes x d ((x.runLanes d).map fun a => (a.1, a.2, body (s.fibre a.2)))

/-- Stamps of the data operands of R91, R92 (whole). -/
def Ctx.whole (x : Ctx) (os : List Opnd) : Stamp := olderAll x.h (os.flatMap fun o => [o.lo, o.hi])

/-- R92 (per half): the stamps of the two halves. -/
def Ctx.half (x : Ctx) (os : List Opnd) : Stamp × Stamp :=
  (olderAll x.h (os.map fun o => o.lo), olderAll x.h (os.map fun o => o.hi))

def Ctx.read (x : Ctx) (f : Fibre) (t : Ty) (imm : BitVec 32) (sp : Spec) : Opnd := readOpnd x.l x.sl f t imm sp

/-- The unsigned 32-bit value of an operand read as .n32 (R95, R232). -/
def Ctx.read32 (x : Ctx) (f : Fibre) (imm : BitVec 32) (sp : Spec) : Opnd := x.read f .n32 imm sp

/-- The fibre that stands for the slot where an instruction executes once: the lowest active one (R88). -/
def Ctx.first (x : Ctx) (s : State) : Fibre := match x.act with
  | [] => Fibre.zero
  | a :: _ => s.fibre a.2

/-- A 64-bit scalar pair or register pair as a number. -/
def Ctx.pair (x : Ctx) (f : Fibre) (sp : Spec) : DWord := BitVec.ofNat 64 (x.read f .b64 0 sp).val

/-! ### Operations in flight (R235) -/

/-- What an operation in flight keeps of its issue. -/
def State.head (s : State) (x : Ctx) (ctr : Ctr) : OpHead :=
  { g := x.c.g, team := x.sl.team, launch := (s.team x.sl.team).launch, part := x.l.part, core := coreOf x.c.g
    q := quarterOf x.c.g, role := x.sl.role, weave := s.weaveOf x.sl, sw := x.sl.w, pc := x.sl.pc, next := x.next, word := x.c.word
    lanes := x.act, ctr, issuedAt := s.clock, know := [], after := [] }

/-- R235: one more operation in a counter, or one fewer. -/
def Slot.count (sl : Slot) (c : Ctr) (up : Bool) : Slot :=
  let n (k : Nat) : Nat := if up then k + 1 else k - 1
  match c with
  | .none => sl | .ld => { sl with ld := n sl.ld } | .st => { sl with st := n sl.st }
  | .cp => { sl with cp := n sl.cp } | .tl => { sl with tl := n sl.tl }

/-- The identity of the read of a lane of an operation, for V1 and V4 of R245. No write has it, so that what an event knows may list
reads in flight beside writes. -/
def readId (op lane : Nat) : Nat := op + 1 + lane

/-- A read has returned: wherever its identity stood among reads in flight, stand those before the writes it returned. -/
def settleIn (rid : Nat) (aft l : List Nat) : List Nat := if l.contains rid then union (l.filter fun x => x != rid) aft else l

def OpBody.settle (rid : Nat) (aft : List Nat) : OpBody → OpBody
  | .store ws => .store (ws.map fun w => { w with after := settleIn rid aft w.after })
  | .atomic i ls m => .atomic i (ls.map fun l => { l with after := settleIn rid aft l.after }) m
  | .append ls => .append (ls.map fun l => { l with after := settleIn rid aft l.after })
  | b => b

def State.settle (s : State) (rid : Nat) (aft : List Nat) : State :=
  { s with
    teams := s.teams.map fun (t : Nat × Team) => (t.1, { t.2 with chutes := t.2.chutes.map fun (c : Nat × List ChuteEntry) =>
      (c.1, c.2.map fun e => { e with after := settleIn rid aft e.after }) })
    fibres := s.fibres.map fun (f : Nat × Fibre) => (f.1, { f.2 with after := settleIn rid aft f.2.after })
    hist := s.hist.map fun (w : WEv) => { w with after := settleIn rid aft w.after }
    ops := s.ops.map fun (o : Nat × Op) => (o.1, { o.2 with
      head := { o.2.head with after := settleIn rid aft o.2.head.after }, body := o.2.body.settle rid aft })
    quarters := s.quarters.map fun (q : Nat × Quarter) =>
      (q.1, { q.2 with recs := q.2.recs.map fun r => { r with after := settleIn rid aft r.after } })
    runs := s.runs.map fun (r : Nat × Run) => (r.1, { r.2 with after := settleIn rid aft r.2.after })
    chunks := s.chunks.map fun (c : Nat × Chunk) =>
      (c.1, { c.2 with recs := c.2.recs.map fun r => { r with after := settleIn rid aft r.after } })
    trees := s.trees.map fun (t : Nat × Tree) =>
      (t.1, { t.2 with
        after := t.2.after.map fun (a : Nat × List Nat) => (a.1, settleIn rid aft a.2)
        part := t.2.part.map fun (a : Nat × Arrivals) => (a.1, { a.2 with after := settleIn rid aft a.2.after }) }) }

/-- Start an operation: it takes a fresh identity, with the 64 after it for the reads of its lanes, and counts (R235). What an engine
reads stands before its fibre's next event (R239, V4 of R245); a CCTL follows every write that is hb it (R264). -/
def State.startOp (s : State) (x : Ctx) (ctr : Ctr) (body : OpBody) : State :=
  let (know, after) := match body.engine, body with
    | some (p, fid, _), _ => (((s.fibre fid).view p).know, (s.fibre fid).after)
    | _, .cctl .. => (x.act.foldl (fun m a => union m (s.fibre a.2).vec.know) [], [])
    | _, _ => ([], [])
  let o := s.uid
  let s := { s with ops := aset s.ops o ⟨{ s.head x ctr with know, after }, body⟩, uid := o + 65 }
  let s := match body.engine with
    | some (_, fid, lane) => s.modFibre fid fun f => { f with after := union f.after [readId o lane] }
    | none => s
  s.modSlot x.c.g fun sl => sl.count ctr true

/-- Does the team that issued an operation still hold its slot? -/
def State.holds (s : State) (h : OpHead) : Bool := match aget? s.slots h.g with
  | some sl => sl.team == h.team
  | none => false

/-- An operation completes: an engine reads no more for it, and it leaves its counter, in the slot that its team still holds (R235) or
has saved (R221, R293). -/
def State.endOp (s : State) (o : Nat) (h : OpHead) : State :=
  let s := match (aget? s.ops o).bind fun x => x.body.engine with
    | some (_, _, lane) => s.settle (readId o lane) []
    | none => s
  let s := s.delOp o
  if s.holds h then s.modSlot h.g fun sl => sl.count h.ctr false
  else s.modTeam h.team fun t => { t with savedSlots := aupd t.savedSlots h.sw fun sl => sl.count h.ctr false }

/-- Write a result that comes back: to a window in any case, to a scalar register only while the team holds the slot. -/
def State.opWrite (s : State) (h : OpHead) (fid : Nat) (d : Spec) (rs : List (Nat × Reg)) : State :=
  match d with
  | .scl n => s.modSlot h.g fun sl => if sl.team = h.team then sl.write n.toNat rs else sl
  | _ => s.writeDst h.g fid d rs

/-- A cause met by an operation in flight (R275): the frame names the instruction that issued it. -/
def OpHead.trap (h : OpHead) (cause : Nat) (kind : Kind) (lmask rmask : List Nat) (addr : DWord) : TrapInfo :=
  { TrapInfo.zero with cause, kind, lmask, rmask, addr, pc := h.pc, next := h.next, word := h.word, weave := h.weave }

/-- Queue a cause of an operation in flight for the slot's next issue (R177); a slot that no longer holds a fibre of the
team takes it as a late fault (R178, R305). -/
def State.queueTrap (s : State) (h : OpHead) (t : TrapInfo) (serve : Option Serve) : State :=
  let held := match aget? s.slots h.g with
    | some sl => sl.team == h.team && !sl.lanes.isEmpty
    | none => false
  if held then s.modSlot h.g fun x => { x with late := x.late ++ [(t, serve)] } else s.raiseLate h t

end Sys2Proof.Machine
end

