-- ==== Sys2Proof/Machine/Numbers.lean ====
section
/-!
DEFINITION. Number formats and rounding (R107 to R113): a format's codes as exact values, and the one rounding of R110.
-/
namespace Sys2Proof.Machine

/-- A scalar format (R108): fraction and exponent bits, and whether it is e4m3, which has no infinity. -/
structure Fmt where
  fb : Nat
  eb : Nat
  e4m3 : Bool
  deriving DecidableEq, Repr

def Fmt.bias (f : Fmt) : Nat := 2 ^ (f.eb - 1) - 1
def Fmt.width (f : Fmt) : Nat := 1 + f.eb + f.fb
/-- The exponent of the least normal value. -/
def Fmt.emin (f : Fmt) : Int := 1 - (f.bias : Int)

def fmtOf : Ty → Fmt
  | .f64 => ⟨52, 11, false⟩
  | .f16 => ⟨10, 5, false⟩
  | .bf16 => ⟨7, 8, false⟩
  | .e5m2 => ⟨2, 5, false⟩
  | .e4m3 => ⟨3, 4, true⟩
  | _ => ⟨23, 8, false⟩

/-- What a code of a format is: a zero, a finite non-zero value (−1)^neg × m × 2^e, an infinity, or a NaN with its payload
in `pw` bits (R108, R109). -/
inductive FV where
  | zero (neg : Bool)
  | fin (neg : Bool) (m : Nat) (e : Int)
  | inf (neg : Bool)
  | nan (neg : Bool) (sig : Bool) (payload pw : Nat)
  deriving DecidableEq, Repr

/-- R108: the value of a code. -/
def decodeF (f : Fmt) (x : Nat) : FV :=
  let neg := bitsN x (f.fb + f.eb) 1 == 1
  let e := bitsN x f.fb f.eb
  let m := bitsN x 0 f.fb
  if f.e4m3 && e == 15 && m == 7 then .nan neg false 0 0
  else if !f.e4m3 && e == 2 ^ f.eb - 1 then
    if m = 0 then .inf neg
    else .nan neg (bitsN m (f.fb - 1) 1 == 0) (bitsN m 0 (f.fb - 1)) (f.fb - 1)
  else if e = 0 then (if m = 0 then .zero neg else .fin neg m (f.emin - f.fb))
  else .fin neg (2 ^ f.fb + m) (f.emin - f.fb + (e - 1 : Nat))

def signBit (f : Fmt) (neg : Bool) : Nat := if neg then 2 ^ (f.fb + f.eb) else 0
def zeroF (f : Fmt) (neg : Bool) : Nat := signBit f neg
/-- The infinity; e4m3 has none, and the NaN of that sign stands in its place (R130). -/
def infF (f : Fmt) (neg : Bool) : Nat :=
  signBit f neg + (if f.e4m3 then 0x7F else (2 ^ f.eb - 1) * 2 ^ f.fb)
/-- The largest finite value. -/
def maxF (f : Fmt) (neg : Bool) : Nat :=
  signBit f neg + (if f.e4m3 then 0x7E else (2 ^ f.eb - 1) * 2 ^ f.fb - 1)
/-- R109: a quiet NaN with the sign and the highest payload bits that fit. -/
def nanF (f : Fmt) (neg : Bool) (payload pw : Nat) : Nat :=
  if f.e4m3 then signBit f neg + 0x7F
  else
    let w := f.fb - 1
    let p := if pw ≤ w then payload * 2 ^ (w - pw) else payload / 2 ^ (pw - w)
    signBit f neg + (2 ^ f.eb - 1) * 2 ^ f.fb + 2 ^ w + p
/-- R109: the canonical NaN. -/
def canonNaN (f : Fmt) : Nat := nanF f false 0 0

/-- The code of M × 2^q, where M < 2^(fb+1) and q is at least the least quantum. -/
def encodeF (f : Fmt) (neg : Bool) (m : Nat) (q : Int) : Nat :=
  let (m, q) := if m = 2 ^ (f.fb + 1) then (2 ^ f.fb, q + 1) else (m, q)
  signBit f neg + (if m < 2 ^ f.fb then m else (q - (f.emin - f.fb)).toNat * 2 ^ f.fb + m)

/-- An exact real, or one known to lie strictly between m × 2^e and (m + 1) × 2^e when `sticky`. -/
structure Mag where
  m : Nat
  e : Int
  sticky : Bool
  deriving DecidableEq, Repr

/-- A magnitude cut to quantum 2^q: floor, whether half of the quantum or more is left, and what is left beyond that. -/
def Mag.cut (x : Mag) (q : Int) : Nat × Bool × Bool :=
  if q ≤ x.e then (x.m * 2 ^ (x.e - q).toNat, false, x.sticky)
  else
    let k := (q - x.e).toNat
    (x.m / 2 ^ k, x.m / 2 ^ (k - 1) % 2 == 1, x.sticky || x.m % 2 ^ (k - 1) != 0)

/-- R52: does a mode round a magnitude away from zero? -/
def roundsUp (rm : RM) (neg : Bool) (odd half rest : Bool) : Bool :=
  match rm with
  | .rne => half && (rest || odd)
  | .rna => half
  | .rup => !neg && (half || rest)
  | .rdn => neg && (half || rest)
  | _ => false

/-- Round a magnitude to an integer multiple of 2^q: the multiple, and whether it is inexact. -/
def Mag.roundAt (x : Mag) (rm : RM) (neg : Bool) (q : Int) : Nat × Bool :=
  let (fl, half, rest) := x.cut q
  (if roundsUp rm neg (fl % 2 == 1) half rest then fl + 1 else fl, half || rest)

/-- The exponent of the highest bit. -/
def Mag.top (x : Mag) : Int := x.e + (Nat.log2 x.m : Nat)

/-- R110: `round(x, fmt, mode)` of a non-zero real, with its exceptions. -/
def roundF (f : Fmt) (rm : RM) (neg : Bool) (x : Mag) : Nat × Flags :=
  let free := x.top - (f.fb : Int)
  let least := f.emin - (f.fb : Int)
  let q := if free < least then least else free
  let (m, nx) := x.roundAt rm neg q
  -- the largest finite value in units of 2^q
  let topQ := if f.e4m3 then (5 : Int) else ((2 ^ f.eb - 2 : Nat) : Int) - f.bias - f.fb
  let topM := if f.e4m3 then 14 else 2 ^ (f.fb + 1) - 1
  let beyond := if q ≤ topQ then decide (topM * 2 ^ (topQ - q).toNat < m) else decide (0 < m)
  if beyond then
    let toInf := match rm with
      | .rne | .rna => true
      | .rup => !neg
      | .rdn => neg
      | _ => false
    (if !f.e4m3 && toInf then infF f neg else maxF f neg, OF ||| NX)
  else
    -- tiny after rounding: the value rounded with an unbounded exponent lies below the least normal (R110, step 3)
    let (mf, _) := x.roundAt rm neg free
    let tiny := decide (free < least) && decide (mf * 2 < 2 ^ (least - free).toNat * 2 ^ (f.fb + 1))
    (encodeF f neg m q, if nx then (if tiny then UF ||| NX else NX) else 0)

/-- An exact rational n / d as a magnitude of at least `bits` bits. -/
def ratMag (n d bits : Nat) : Mag :=
  let k := bits + Nat.log2 d + 1
  { m := n * 2 ^ k / d, e := -(k : Int), sticky := n * 2 ^ k % d != 0 }

/-- An exact dyadic n × 2^e. -/
structure Dy where
  n : Int
  e : Int
  deriving DecidableEq, Repr

def Dy.zero : Dy := ⟨0, 0⟩
def Dy.add (a b : Dy) : Dy :=
  if a.n = 0 then b else if b.n = 0 then a
  else if a.e ≤ b.e then ⟨a.n + b.n * 2 ^ (b.e - a.e).toNat, a.e⟩
  else ⟨a.n * 2 ^ (a.e - b.e).toNat + b.n, b.e⟩
def Dy.neg (a : Dy) : Dy := ⟨-a.n, a.e⟩
def Dy.mul (a b : Dy) : Dy := ⟨a.n * b.n, a.e + b.e⟩
/-- a < b -/
def Dy.lt (a b : Dy) : Bool := decide ((a.add b.neg).n < 0)
def Dy.mag (a : Dy) : Mag := ⟨a.n.natAbs, a.e, false⟩
/-- a × 2^k -/
def Dy.scale (a : Dy) (k : Int) : Dy := ⟨a.n, a.e + k⟩

def FV.dy : FV → Dy
  | .fin neg m e => ⟨if neg then -(m : Int) else m, e⟩
  | _ => Dy.zero

def FV.isNaN : FV → Bool
  | .nan .. => true
  | _ => false
def FV.isSig : FV → Bool
  | .nan _ s _ _ => s
  | _ => false
def FV.isNeg : FV → Bool
  | .zero n => n | .fin n _ _ => n | .inf n => n | .nan n _ _ _ => n
def FV.isInf : FV → Bool
  | .inf _ => true
  | _ => false
def FV.isZero : FV → Bool
  | .zero _ => true
  | _ => false

/-- Round an exact dyadic (R110); an exact zero has the given sign. -/
def roundDy (f : Fmt) (rm : RM) (zneg : Bool) (x : Dy) : Nat × Flags :=
  if x.n = 0 then (zeroF f zneg, 0) else roundF f rm (decide (x.n < 0)) x.mag

/-- Round a finite dyadic to an integer (R128, R130): the integer and whether it is inexact. -/
def roundInt (rm : RM) (x : Dy) : Int × Bool :=
  let (m, nx) := x.mag.roundAt rm (decide (x.n < 0)) 0
  (if x.n < 0 then -(m : Int) else m, nx)

end Sys2Proof.Machine
end

