-- ==== Sys2Proof/Machine/Transcend.lean ====
section
/-!
DEFINITION. Roots and transcendental functions, correctly rounded (R124): integer square roots, and enclosures of 2^x,
log2 x, sin(πx) and cos(πx) that are narrowed until both ends round alike. A fixed-point number is an integer in units
of 2^−N.
-/
namespace Sys2Proof.Machine

/-- ⌊√n⌋, bit by bit from bit `k`. -/
def isqrtFrom (n : Nat) : Nat → Nat → Nat
  | 0, r => r
  | k + 1, r => let t := r + 2 ^ k
                isqrtFrom n k (if t * t ≤ n then t else r)

def isqrt (n : Nat) : Nat := isqrtFrom n (Nat.log2 n / 2 + 1) 0

/-- √(m × 2^e) with at least 60 bits beyond the operand's. -/
def sqrtMag (m : Nat) (e : Int) : Mag :=
  let (m, e) := if e % 2 = 0 then (m, e) else (2 * m, e - 1)
  let n := m * 2 ^ 128
  let r := isqrt n
  { m := r, e := (e - 128) / 2, sticky := r * r != n }

/-- 1 / √(m × 2^e). -/
def rsqrtMag (m : Nat) (e : Int) : Mag :=
  let (m, e) := if e % 2 = 0 then (m, e) else (2 * m, e - 1)
  let k := 64 + Nat.log2 m
  let n := 2 ^ (2 * k) / m
  let r := isqrt n
  { m := r, e := -(e / 2) - k, sticky := r * r * m != 2 ^ (2 * k) }

/-- An enclosure lo ≤ x ≤ hi of a non-negative real, in units of 2^−N. -/
structure Enc where
  lo : Nat
  hi : Nat
  deriving DecidableEq, Repr

def ceilDiv (a b : Nat) : Nat := (a + b - 1) / b

def Enc.mul (n : Nat) (a b : Enc) : Enc := ⟨a.lo * b.lo / 2 ^ n, ceilDiv (a.hi * b.hi) (2 ^ n)⟩
def Enc.add (a b : Enc) : Enc := ⟨a.lo + b.lo, a.hi + b.hi⟩
def Enc.sub (a b : Enc) : Enc := ⟨a.lo - b.hi, a.hi - b.lo⟩
def Enc.div (n : Nat) (a b : Enc) : Enc := ⟨a.lo * 2 ^ n / b.hi, ceilDiv (a.hi * 2 ^ n) b.lo⟩
def Enc.divN (a : Enc) (k : Nat) : Enc := ⟨a.lo / k, ceilDiv a.hi k⟩
def Enc.mulN (a : Enc) (k : Nat) : Enc := ⟨a.lo * k, a.hi * k⟩
def Enc.one (n : Nat) : Enc := ⟨2 ^ n, 2 ^ n⟩
/-- A rational a / b. -/
def Enc.rat (n a b : Nat) : Enc := ⟨a * 2 ^ n / b, ceilDiv (a * 2 ^ n) b⟩
/-- Widen the upper end by one unit for a tail below it. -/
def Enc.tail (a : Enc) : Enc := ⟨a.lo, a.hi + 2⟩

/-- Terms t(k+1) = t(k) × y / d(k), summed with alternating signs when `alt`: even terms in the first sum. -/
def seriesSum (n : Nat) (y : Enc) (d : List Nat) (t : Enc) (alt : Bool) : Enc :=
  let r := d.foldl (fun (acc : Enc × Enc × Enc × Bool) k =>
    let t := ((acc.1.mul n y).divN k)
    if acc.2.2.2 && alt then (t, acc.2.1, acc.2.2.1.add t, !acc.2.2.2)
    else (t, acc.2.1.add t, acc.2.2.1, !acc.2.2.2)) (t, t, (⟨0, 0⟩ : Enc), true)
  (r.2.1.sub r.2.2.1).tail

/-- atanh(t) for 0 ≤ t ≤ 1/3: Σ t^(2k+1) / (2k+1), with n/3 + 2 terms. -/
def atanhEnc (n : Nat) (t : Enc) : Enc :=
  let y := t.mul n t
  let r := (List.range (n / 3 + 2)).foldl (fun (acc : Enc × Enc) k =>
    (acc.1.mul n y, acc.2.add (acc.1.divN (2 * k + 1)))) (t, (⟨0, 0⟩ : Enc))
  r.2.tail

/-- ln 2 = 2 atanh(1/3). -/
def ln2Enc (n : Nat) : Enc := (atanhEnc n (Enc.rat n 1 3)).mulN 2

/-- arctan(1/q) by its alternating series, q ≥ 5. -/
def atanInv (n q : Nat) : Enc :=
  let r := (List.range (n / 4 + 2)).foldl (fun (acc : Enc × Enc × Enc) k =>
    let term := acc.1.divN (2 * k + 1)
    (acc.1.divN (q * q), if k % 2 = 0 then (acc.2.1.add term, acc.2.2) else (acc.2.1, acc.2.2.add term)))
    (Enc.rat n 1 q, (⟨0, 0⟩ : Enc), (⟨0, 0⟩ : Enc))
  (r.2.1.sub r.2.2).tail

/-- π = 16 arctan(1/5) − 4 arctan(1/239). -/
def piEnc (n : Nat) : Enc := ((atanInv n 5).mulN 16).sub ((atanInv n 239).mulN 4)

/-- e^z for 0 ≤ z ≤ 1. -/
def expEnc (n : Nat) (z : Enc) : Enc := seriesSum n z (from_ 1 (n / 2 + 4)) (Enc.one n) false

/-- sin z and cos z for 0 ≤ z ≤ 2, by their series in z². -/
def sinEnc (n : Nat) (z : Enc) : Enc :=
  seriesSum n (z.mul n z) ((from_ 1 (n / 4 + 4)).map fun k => 2 * k * (2 * k + 1)) z true
def cosEnc (n : Nat) (z : Enc) : Enc :=
  seriesSum n (z.mul n z) ((from_ 1 (n / 4 + 4)).map fun k => (2 * k - 1) * (2 * k)) (Enc.one n) true

/-- Narrow an enclosure until both ends round alike (R110). The precisions reach beyond every operand's own; the last one
stands if none decides (log 12). -/
def zivRound (f : Fmt) (rm : RM) (neg : Bool) (enc : Nat → Enc) (scale : Int) : List Nat → Nat × Flags
  | [] => (canonNaN f, 0)
  | n :: ns =>
    let x := enc n
    let lo := roundF f rm neg ⟨x.lo, scale - n, true⟩
    if 2 ^ (f.fb + 4) ≤ x.lo && lo = roundF f rm neg ⟨x.hi, scale - n, true⟩ then lo
    else if ns = [] then lo
    else zivRound f rm neg enc scale ns

def precisions : List Nat := [96, 192, 384, 768, 1536, 3072]

/-- 2^(n × 2^e), not an integer exponent. -/
def exp2Round (f : Fmt) (rm : RM) (x : Dy) : Nat × Flags :=
  let k := (-x.e).toNat
  let whole : Int := x.n.fdiv (2 ^ k : Nat)
  let frac := (x.n - whole * (2 ^ k : Nat)).toNat
  zivRound f rm false (fun n => expEnc n ((Enc.rat n frac (2 ^ k)).mul n (ln2Enc n))) whole precisions

/-- log2(m × 2^e), not a power of two: the sign and the enclosure of its magnitude. -/
def log2Round (f : Fmt) (rm : RM) (m : Nat) (e : Int) : Nat × Flags :=
  let l := Nat.log2 m
  let ex : Int := e + l
  -- y = m / 2^l lies between 1 and 2; log2 y = 2 atanh((y − 1) / (y + 1)) / ln 2
  let frac (n : Nat) : Enc := ((atanhEnc n (Enc.rat n (m - 2 ^ l) (m + 2 ^ l))).mulN 2).div n (ln2Enc n)
  if 0 ≤ ex then zivRound f rm false (fun n => (frac n).add ⟨ex.toNat * 2 ^ n, ex.toNat * 2 ^ n⟩) 0 precisions
  else zivRound f rm true (fun n => (⟨ex.natAbs * 2 ^ n, ex.natAbs * 2 ^ n⟩ : Enc).sub (frac n)) 0 precisions

/-- sin(π a / 2^k) for 0 < a / 2^k ≤ 1/2, with its sign. -/
def sinPiRound (f : Fmt) (rm : RM) (neg : Bool) (a k : Nat) : Nat × Flags :=
  zivRound f rm neg (fun n => sinEnc n ((Enc.rat n a (2 ^ k)).mul n (piEnc n))) 0 precisions

/-- A reduction of n × 2^e modulo 2, in units of 2^−k with k ≥ 1. -/
def mod2 (x : Dy) : Nat × Nat :=
  let k := max 1 (-x.e).toNat
  let n := x.n * 2 ^ (k + x.e).toNat
  (wrapN (k + 1) n, k)

end Sys2Proof.Machine
end

