-- ==== Sys2Proof/Machine/Flags.lean ====
section
/-!
DEFINITION. Floating-point results with their exceptions (R109, R110, R121 to R137): arithmetic, roots and functions,
comparisons, conversions, and the block formats. Every operation takes and gives codes of a format.
-/
namespace Sys2Proof.Machine

/-- R109: a NaN operand delivered quiet in format `f`. -/
def quietF (f : Fmt) : FV → Nat
  | .nan n _ p pw => nanF f n p pw
  | _ => canonNaN f

def sigFlag (vs : List FV) : Flags := if vs.any FV.isSig then NV else 0

/-- R109: the first NaN in the order of the operands, and NV for a signalling one. -/
def firstNaN (f : Fmt) (vs : List FV) : Option (Nat × Flags) :=
  (vs.find? FV.isNaN).map fun v => (quietF f v, sigFlag vs)

/-- The sign of an exact zero sum (R110, step 5). -/
def zeroSign (rm : RM) (a b : Bool) : Bool := if a = b then a else rm == .rdn

/-- Addition of two values, `a` first in the order of R109 (R121). -/
def addV (f : Fmt) (rm : RM) (a b : FV) : Nat × Flags :=
  match firstNaN f [a, b] with
  | some r => r
  | none =>
    if a.isInf || b.isInf then
      if a.isInf && b.isInf && a.isNeg != b.isNeg then (canonNaN f, NV)
      else (infF f (if a.isInf then a.isNeg else b.isNeg), 0)
    else roundDy f rm (zeroSign rm a.isNeg b.isNeg) (a.dy.add b.dy)

def negV : FV → FV
  | .zero n => .zero (!n) | .fin n m e => .fin (!n) m e | .inf n => .inf (!n) | .nan n s p w => .nan n s p w

/-- R121. -/
def mulV (f : Fmt) (rm : RM) (a b : FV) : Nat × Flags :=
  let neg := a.isNeg != b.isNeg
  match firstNaN f [a, b] with
  | some r => r
  | none =>
    if (a.isInf && b.isZero) || (a.isZero && b.isInf) then (canonNaN f, NV)
    else if a.isInf || b.isInf then (infF f neg, 0)
    else roundDy f rm neg (a.dy.mul b.dy)

/-- R121: a × b + c, rounded once. -/
def fmaV (f : Fmt) (rm : RM) (a b c : FV) : Nat × Flags :=
  let neg := a.isNeg != b.isNeg
  let bad := (a.isInf && b.isZero) || (a.isZero && b.isInf)
  match firstNaN f [a, b, c] with
  | some (r, fl) => (r, if bad then fl ||| NV else fl)
  | none =>
    if bad then (canonNaN f, NV)
    else if a.isInf || b.isInf then
      if c.isInf && c.isNeg != neg then (canonNaN f, NV) else (infF f neg, 0)
    else if c.isInf then (infF f c.isNeg, 0)
    else roundDy f rm (zeroSign rm neg c.isNeg) ((a.dy.mul b.dy).add c.dy)

/-- Order of two values that are not NaNs, −0 below +0 when `zeros`. -/
def ltV (zeros : Bool) (a b : FV) : Bool :=
  match a, b with
  | .inf true, .inf true => false
  | .inf true, _ => true
  | _, .inf true => false
  | .inf false, _ => false
  | _, .inf false => true
  | _, _ => if a.dy.n = 0 && b.dy.n = 0 then zeros && a.isNeg && !b.isNeg else a.dy.lt b.dy

/-- R122: minimumNumber and maximumNumber of two codes. -/
def minMaxF (f : Fmt) (isMax : Bool) (x y : Nat) : Nat × Flags :=
  let a := decodeF f x
  let b := decodeF f y
  let fl := sigFlag [a, b]
  if a.isNaN && b.isNaN then (quietF f a, fl)
  else if a.isNaN then (y, fl)
  else if b.isNaN then (x, fl)
  else if isMax then (if ltV true a b then y else x, 0)
  else (if ltV true b a then y else x, 0)

/-- R124: the special-function instructions. -/
inductive FFn where
  | sqrt | rcp | rsq | exp2 | log2 | sin | cos
  deriving DecidableEq, Repr

/-- R124: division. -/
def divV (f : Fmt) (rm : RM) (a b : FV) : Nat × Flags :=
  let neg := a.isNeg != b.isNeg
  match firstNaN f [a, b] with
  | some r => r
  | none =>
    match a, b with
    | .zero _, .zero _ | .inf _, .inf _ => (canonNaN f, NV)
    | .inf _, _ => (infF f neg, 0)
    | _, .inf _ => (zeroF f neg, 0)
    | .zero _, _ => (zeroF f neg, 0)
    | _, .zero _ => (infF f neg, DZ)
    | .fin _ m e, .fin _ n g =>
      let q := ratMag m n (f.fb + 8)
      roundF f rm neg { q with e := q.e + e - g }
    | _, _ => (canonNaN f, 0)

/-- Is a dyadic an integer? -/
def Dy.isInt (x : Dy) : Bool := decide (0 ≤ x.e) || x.n.natAbs % 2 ^ (-x.e).toNat == 0

/-- Round 2^k. -/
def pow2F (f : Fmt) (rm : RM) (k : Int) : Nat × Flags := roundF f rm false ⟨1, k, false⟩

/-- R124: sin(πx) of x mod 2 = r / 2^k, by symmetry from the first half-turn; exact at multiples of 1/2. -/
def sinQuarter (f : Fmt) (rm : RM) (r k : Nat) : Nat × Flags :=
  let half := 2 ^ k
  let neg := decide (half ≤ r)
  let a := if half ≤ r then r - half else r
  let a := if half < 2 * a then half - a else a
  if a = 0 then (zeroF f false, 0)
  else if 2 * a = half then roundF f rm neg ⟨1, 0, false⟩
  else sinPiRound f rm neg a k

/-- R124: one function of one operand. -/
def fnV (f : Fmt) (rm : RM) (fn : FFn) (a : FV) : Nat × Flags :=
  match firstNaN f [a] with
  | some r => r
  | none =>
    match fn, a with
    | .sqrt, .zero n => (zeroF f n, 0)
    | .sqrt, .inf false => (infF f false, 0)
    | .sqrt, .fin false m e => roundF f rm false (sqrtMag m e)
    | .sqrt, _ => (canonNaN f, NV)
    | .rcp, .zero n => (infF f n, DZ)
    | .rcp, .inf n => (zeroF f n, 0)
    | .rcp, .fin n m e =>
      let q := ratMag 1 m (f.fb + 8)
      roundF f rm n { q with e := q.e - e }
    | .rcp, _ => (canonNaN f, 0)
    | .rsq, .zero n => (infF f n, DZ)
    | .rsq, .inf false => (zeroF f false, 0)
    | .rsq, .fin false m e => roundF f rm false (rsqrtMag m e)
    | .rsq, _ => (canonNaN f, NV)
    | .exp2, .zero _ => pow2F f rm 0
    | .exp2, .inf n => if n then (zeroF f false, 0) else (infF f false, 0)
    | .exp2, v =>
      let x := v.dy
      -- beyond these bounds the result rounds as the nearest power of two inside does, kept inexact
      if x.lt ⟨-4096, 0⟩ then roundF f rm false ⟨1, -4100, true⟩
      else if (Dy.lt ⟨4096, 0⟩ x) then roundF f rm false ⟨1, 4100, false⟩
      else if x.isInt then pow2F f rm (roundInt .rtz x).1
      else exp2Round f rm x
    | .log2, .zero _ => (infF f true, DZ)
    | .log2, .inf false => (infF f false, 0)
    | .log2, .fin false m e =>
      if m = 2 ^ Nat.log2 m then roundDy f rm false ⟨e + (Nat.log2 m : Nat), 0⟩ else log2Round f rm m e
    | .log2, _ => (canonNaN f, NV)
    | .sin, .zero n => (zeroF f n, 0)
    | .sin, .inf _ => (canonNaN f, NV)
    | .sin, v =>
      if v.dy.isInt then (zeroF f v.isNeg, 0)
      else sinQuarter f rm (mod2 v.dy).1 (mod2 v.dy).2
    | .cos, .zero _ => roundF f rm false ⟨1, 0, false⟩
    | .cos, .inf _ => (canonNaN f, NV)
    | .cos, v =>
      -- cos(πx) = sin(π(x + 1/2))
      let y := v.dy.add ⟨1, -1⟩
      sinQuarter f rm (mod2 y).1 (mod2 y).2

/-- R125: the predicate and its exceptions. -/
def cmpF (f : Fmt) (sub : Nat) (x y : Nat) : Bool × Flags :=
  let a := decodeF f x
  let b := decodeF f y
  let un := a.isNaN || b.isNaN
  let lt := ltV false a b
  let gt := ltV false b a
  let quiet := sigFlag [a, b]
  if un then
    if 2 ≤ sub && sub ≤ 5 then (false, NV) else (sub == 1 || sub == 6, quiet)
  else
    (match sub with
      | 0 => !lt && !gt | 1 => lt || gt | 2 => lt | 3 => !gt | 4 => gt | 5 => !lt | 6 => false | _ => true, 0)

/-- R126. -/
def classF (f : Fmt) (x : Nat) : Nat :=
  match decodeF f x with
  | .inf n => if n then 1 else 128
  | .zero n => if n then 8 else 16
  | .nan _ s _ _ => if s then 256 else 512
  | .fin n _ _ =>
    let sub := bitsN x f.fb f.eb == 0
    if n then (if sub then 4 else 2) else (if sub then 32 else 64)

/-- R127. -/
def scalbF (f : Fmt) (rm : RM) (x : Nat) (n : Int) : Nat × Flags :=
  match decodeF f x with
  | .fin s m e => roundF f rm s ⟨m, e + n, false⟩
  | v => match firstNaN f [v] with
    | some r => r
    | none => (x, 0)

/-- R128. -/
def rndF (f : Fmt) (rm : RM) (exact : Bool) (x : Nat) : Nat × Flags :=
  let v := decodeF f x
  match v with
  | .fin s _ _ =>
    let (n, nx) := roundInt rm v.dy
    ((roundDy f .rtz s ⟨n, 0⟩).1, if nx && exact then NX else 0)
  | _ => match firstNaN f [v] with
    | some r => r
    | none => (x, 0)

/-- R130: a value converted to a float format. -/
def cvtV (f : Fmt) (rm : RM) (v : FV) : Nat × Flags :=
  match v with
  | .nan n s p pw => (nanF f n p pw, if s then NV else 0)
  | .inf n => (infF f n, if f.e4m3 then NV else 0)
  | .zero n => (zeroF f n, 0)
  | .fin n m e => roundF f rm n ⟨m, e, false⟩

/-- R130: a conversion of an integer. -/
def cvtIntF (f : Fmt) (rm : RM) (n : Int) : Nat × Flags := roundDy f rm false ⟨n, 0⟩

/-- R130: a float converted to an integer type of `bits` bits. -/
def cvtToInt (signed : Bool) (bits : Nat) (rm : RM) (v : FV) : Int × Flags :=
  let lo : Int := if signed then -(2 ^ (bits - 1) : Nat) else 0
  let hi : Int := if signed then (2 ^ (bits - 1) : Nat) - 1 else (2 ^ bits : Nat) - 1
  match v with
  | .nan .. => (0, NV)
  | .inf n => (if n then lo else hi, NV)
  | .zero _ => (0, 0)
  | .fin _ _ _ =>
    let (q, nx) := roundInt rm v.dy
    if q < lo then (lo, NV) else if hi < q then (hi, NV) else (q, if nx then NX else 0)

/-! ### Blocks (R111 to R113, R131 to R135) -/

/-- A block format: mantissa unit K, greatest m, bits of an element and of m. -/
structure TxFmt where
  k : Nat
  mmax : Nat
  bits : Nat
  deriving DecidableEq, Repr

def txOf (t : Ty) : TxFmt := if t = .tx4 then ⟨2, 3, 4⟩ else ⟨32, 63, 8⟩

/-- R111: the value of an element under exponent word `w`; a reserved code is a signalling canonical NaN. -/
def txValue (tf : TxFmt) (w code : Nat) : FV :=
  let sel := bitsN code (tf.bits - 1) 1
  let s := bitsN code (tf.bits - 2) 1
  let m := bitsN code 0 (tf.bits - 2)
  let e := if sel = 0 then bitsN w 0 8 else bitsN w 8 8
  if m = 0 then (if s = 1 then .nan false true 0 0 else .zero false)
  else .fin (s == 1) m ((e : Int) - 127 - (Nat.log2 tf.k : Nat))

/-- R112: the value of an mx8 element under scale `sc`; a scale of 0xFF makes a signalling canonical NaN. -/
def mxValue (sc code : Nat) : FV :=
  if sc = 255 then .nan false true 0 0
  else match decodeF (fmtOf .e4m3) code with
    | .fin s m e => .fin s m (e + sc - 127)
    | v => v

/-- R132: x × K × 2^(127 − E) rounded to an integer. -/
def qAt (tf : TxFmt) (rm : RM) (x : Dy) (e : Nat) : Int :=
  (roundInt rm ⟨x.n * tf.k, x.e + 127 - e⟩).1

/-- The least exponent at or above `e` for which every element fits. -/
def leastE (tf : TxFmt) (rm : RM) (xs : List Dy) (e : Nat) : Nat → Nat
  | 0 => 255
  | n + 1 => if xs.all fun x => decide ((qAt tf rm x e).natAbs ≤ tf.mmax) then e else leastE tf rm xs (e + 1) n

/-- R132, with R234's extension for values beyond every exponent: E0, E1, the element codes, and the exceptions. -/
def quantTx (tf : TxFmt) (rm : RM) (gap : Nat) (vs : List FV) : Nat × Nat × List Nat × Flags :=
  let z := (vs.filter fun v => !v.isNaN && !v.isInf && !v.isZero).map FV.dy
  let e0 := if z = [] then 127 else leastE tf rm z 0 256
  let e1 := e0 - gap
  let top := 2 ^ (tf.bits - 1)
  let sgn := 2 ^ (tf.bits - 2)
  let elem (v : FV) : Nat × Flags :=
    if v.isNaN || v.isInf then (sgn, NV)
    else
      let x := v.dy
      let q1 := qAt tf rm x e1
      let small := decide (e1 < e0) && decide (1 ≤ q1.natAbs) && decide (q1.natAbs ≤ tf.mmax)
      let e := if small then e1 else e0
      let q := if small then q1 else qAt tf rm x e0
      if tf.mmax < q.natAbs then ((if q < 0 then sgn else 0) + tf.mmax, OF ||| NX)
      else
        let back : Dy := ⟨q, (e : Int) - 127 - (Nat.log2 tf.k : Nat)⟩
        let nx := decide ((back.add x.neg).n ≠ 0)
        let code := (if small then top else 0) + (if q < 0 then sgn else 0) + q.natAbs
        (code, (if nx then NX else 0) ||| (if x.n ≠ 0 && q = 0 then UF else 0))
  let es := vs.map elem
  (e0, e1, es.map fun e => e.1, es.foldl (fun m e => m ||| e.2) 0)

/-- ⌊log2 |x|⌋ -/
def Dy.log2 (x : Dy) : Int := x.e + (Nat.log2 x.n.natAbs : Nat)

/-- R134, with R234's limit: the scale of a block. -/
def mxScale (vs : List FV) : Nat :=
  let z := (vs.filter fun v => !v.isNaN && !v.isInf && !v.isZero).map FV.dy
  match z with
  | [] => 127
  | x :: xs =>
    let top := xs.foldl (fun m y => max m y.log2) x.log2
    min 254 (max 0 (top - 8 + 127)).toNat

/-- A value times 2^k. -/
def FV.scale (v : FV) (k : Int) : FV := match v with
  | .fin s m e => .fin s m (e + k)
  | v => v

/-- R134: the scale, the element codes, and the exceptions. -/
def quantMx (rm : RM) (vs : List FV) : Nat × List Nat × Flags :=
  let s := mxScale vs
  let es := vs.map fun v => cvtV (fmtOf .e4m3) rm (v.scale (127 - s))
  (s, es.map fun e => e.1, es.foldl (fun m e => m ||| e.2) 0)

end Sys2Proof.Machine
end

