-- ==== Sys2Proof/Machine/Float.lean ====
section
/-!
DEFINITION. Floating-point instructions, FADD to FRND (R119 to R128). The flags and traps of R115 are those of `lanewise`.
-/
namespace Sys2Proof.Machine

/-- Registers of a floating-point result: 16- and 8-bit values stand in the low bits, the rest 0 (R107). -/
def fpRegs (t : Ty) (v : Nat) (st : Stamp) : List (Nat × Reg) :=
  if t.wide then [(0, ⟨BitVec.ofNat 32 v, st⟩), (1, ⟨BitVec.ofNat 32 (v / 2 ^ 32), st⟩)]
  else [(0, ⟨BitVec.ofNat 32 v, st⟩)]

/-- A result with its exceptions, stamped over every operand (R120). -/
def fpOut (x : Ctx) (t : Ty) (r : Nat × Flags) (os : List Opnd) : LaneOut :=
  { regs := fpRegs t r.1 (x.whole os), exc := r.2 }

def fp1 (x : Ctx) (f : ArithF) (op : Fmt → Nat → Nat × Flags) (fb : Fibre) : LaneOut :=
  let a := x.read fb f.ty f.imm f.a
  fpOut x f.ty (op (fmtOf f.ty) a.val) [a]

def fp2 (x : Ctx) (f : ArithF) (op : Fmt → Nat → Nat → Nat × Flags) (fb : Fibre) : LaneOut :=
  let a := x.read fb f.ty f.imm f.a
  let b := x.read fb f.ty f.imm f.b
  fpOut x f.ty (op (fmtOf f.ty) a.val b.val) [a, b]

/-- R121: FADD. -/
def execFadd (f : ArithF) (s : State) : Host.Outcome State Fault Refusal :=
  onSlot f.g s fun x s => lanewise x s f.d (fp2 x f fun t a b => addV t f.rm (decodeF t a) (decodeF t b))

/-- R121: FSUB. -/
def execFsub (f : ArithF) (s : State) : Host.Outcome State Fault Refusal :=
  onSlot f.g s fun x s => lanewise x s f.d (fp2 x f fun t a b => addV t f.rm (decodeF t a) (negV (decodeF t b)))

/-- R121: FMUL. -/
def execFmul (f : ArithF) (s : State) : Host.Outcome State Fault Refusal :=
  onSlot f.g s fun x s => lanewise x s f.d (fp2 x f fun t a b => mulV t f.rm (decodeF t a) (decodeF t b))

/-- R121: FFMA. -/
def execFfma (f : ArithF) (s : State) : Host.Outcome State Fault Refusal :=
  onSlot f.g s fun x s => lanewise x s f.d fun fb =>
    let a := x.read fb f.ty f.imm f.a
    let b := x.read fb f.ty f.imm f.b
    let c := x.read fb f.ty f.imm f.c
    let t := fmtOf f.ty
    fpOut x f.ty (fmaV t f.rm (decodeF t a.val) (decodeF t b.val) (decodeF t c.val)) [a, b, c]

/-- R122: FMIN. -/
def execFmin (f : ArithF) (s : State) : Host.Outcome State Fault Refusal :=
  onSlot f.g s fun x s => lanewise x s f.d (fp2 x f fun t a b => minMaxF t false a b)

/-- R122: FMAX. -/
def execFmax (f : ArithF) (s : State) : Host.Outcome State Fault Refusal :=
  onSlot f.g s fun x s => lanewise x s f.d (fp2 x f fun t a b => minMaxF t true a b)

/-- R123: FABS. -/
def execFabs (f : ArithF) (s : State) : Host.Outcome State Fault Refusal :=
  onSlot f.g s fun x s => lanewise x s f.d (fp1 x f fun t a => (a % 2 ^ (t.width - 1), 0))

/-- R123: FNEG. -/
def execFneg (f : ArithF) (s : State) : Host.Outcome State Fault Refusal :=
  onSlot f.g s fun x s => lanewise x s f.d (fp1 x f fun t a => (a ^^^ 2 ^ (t.width - 1), 0))

/-- R124: FDIV. -/
def execFdiv (f : ArithF) (s : State) : Host.Outcome State Fault Refusal :=
  onSlot f.g s fun x s => lanewise x s f.d (fp2 x f fun t a b => divV t f.rm (decodeF t a) (decodeF t b))

/-- R124: one function of one operand. -/
def fpFn (x : Ctx) (f : ArithF) (fn : FFn) (fb : Fibre) : LaneOut := fp1 x f (fun t a => fnV t f.rm fn (decodeF t a)) fb

/-- R124: FSQRT. -/
def execFsqrt (f : ArithF) (s : State) : Host.Outcome State Fault Refusal :=
  onSlot f.g s fun x s => lanewise x s f.d (fpFn x f .sqrt)

/-- R124: FRCP. -/
def execFrcp (f : ArithF) (s : State) : Host.Outcome State Fault Refusal :=
  onSlot f.g s fun x s => lanewise x s f.d (fpFn x f .rcp)

/-- R124: FRSQ. -/
def execFrsq (f : ArithF) (s : State) : Host.Outcome State Fault Refusal :=
  onSlot f.g s fun x s => lanewise x s f.d (fpFn x f .rsq)

/-- R124: FEXP2. -/
def execFexp2 (f : ArithF) (s : State) : Host.Outcome State Fault Refusal :=
  onSlot f.g s fun x s => lanewise x s f.d (fpFn x f .exp2)

/-- R124: FLOG2. -/
def execFlog2 (f : ArithF) (s : State) : Host.Outcome State Fault Refusal :=
  onSlot f.g s fun x s => lanewise x s f.d (fpFn x f .log2)

/-- R124: FSIN. -/
def execFsin (f : ArithF) (s : State) : Host.Outcome State Fault Refusal :=
  onSlot f.g s fun x s => lanewise x s f.d (fpFn x f .sin)

/-- R124: FCOS. -/
def execFcos (f : ArithF) (s : State) : Host.Outcome State Fault Refusal :=
  onSlot f.g s fun x s => lanewise x s f.d (fpFn x f .cos)

/-- R125: FCMP. -/
def execFcmp (f : ArithF) (s : State) : Host.Outcome State Fault Refusal :=
  onSlot f.g s fun x s => lanewise x s f.d fun fb =>
    let r := cmpF (fmtOf f.ty) f.sub.toNat (x.read fb f.ty f.imm f.a).val (x.read fb f.ty f.imm f.b).val
    { pred := some r.1, exc := r.2 }

/-- R126: FCLASS. -/
def execFclass (f : ArithF) (s : State) : Host.Outcome State Fault Refusal :=
  onSlot f.g s fun x s => lanewise x s f.d fun fb =>
    let a := x.read fb f.ty f.imm f.a
    fpOut x .b32 (classF (fmtOf f.ty) a.val, 0) [a]

/-- R127: FSCALB. -/
def execFscalb (f : ArithF) (s : State) : Host.Outcome State Fault Refusal :=
  onSlot f.g s fun x s => lanewise x s f.d fun fb =>
    let a := x.read fb f.ty f.imm f.a
    let n := x.read fb .i32 f.imm f.b
    fpOut x f.ty (scalbF (fmtOf f.ty) f.rm a.val (sextN 32 n.val)) [a, n]

/-- R128: FRND. -/
def execFrnd (f : ArithF) (s : State) : Host.Outcome State Fault Refusal :=
  onSlot f.g s fun x s => lanewise x s f.d (fp1 x f fun t a => rndF t f.rm (f.sub == 1) a)

end Sys2Proof.Machine
end

