-- ==== Sys2Proof/Machine/Lanes.lean ====
section
/-!
DEFINITION. Predicate and cross-lane instructions, PSET to VSCAN (R81 to R86).
-/
namespace Sys2Proof.Machine

/-- R82: PSET. -/
def execPset (f : ArithF) (s : State) : Host.Outcome State Fault Refusal :=
  onSlot f.g s fun x s => lanewise x s f.d fun fb =>
    let a := numOf f.ty (x.read fb f.ty f.imm f.a).val
    let b := numOf f.ty (x.read fb f.ty f.imm f.b).val
    { pred := some (match f.sub.toNat with
        | 0 => decide (a = b) | 1 => decide (a ≠ b) | 2 => decide (a < b) | 3 => decide (a ≤ b)
        | 4 => decide (b < a) | _ => decide (b ≤ a)) }

/-- R83: PLOP, bit 2a + b of the truth table. -/
def execPlop (f : ArithF) (s : State) : Host.Outcome State Fault Refusal :=
  onSlot f.g s fun x s => lanewise x s f.d fun fb =>
    { pred := some (f.sub.getLsbD (2 * (readPred fb f.a).toNat + (readPred fb f.b).toNat)) }

/-- R83: PMOV.get. -/
def execPmovGet (f : ArithF) (s : State) : Host.Outcome State Fault Refusal :=
  onSlot f.g s fun x s => lanewise x s f.d fun fb =>
    { regs := [(0, ⟨(fb.preds ||| 0x8000).zeroExtend 32, 0⟩)] }

/-- R83: PMOV.put. -/
def execPmovPut (f : ArithF) (s : State) : Host.Outcome State Fault Refusal :=
  onSlot f.g s fun x s =>
    let vals := x.act.map fun a => (a.2, (x.read (s.fibre a.2) .none f.imm f.a).val)
    (vals.foldl (fun s v => s.modFibre v.1 fun fb => { fb with preds := BitVec.ofNat 16 (v.2 % 2 ^ 15) ||| 0x8000 }) s).advance x

/-- R84: VOTE. -/
def execVote (f : ArithF) (s : State) : Host.Outcome State Fault Refusal :=
  onSlot f.g s fun x s =>
    let votes := x.act.map fun a => (a.1, readPred (s.fibre a.2) f.a)
    let yes := votes.filter fun v => v.2
    let mask := laneMask (yes.map fun v => v.1)
    lanewise x s f.d fun _ =>
      match f.sub.toNat with
      | 0 => { pred := some (yes.length == votes.length) }
      | 1 => { pred := some (!yes.isEmpty) }
      | 2 => { pred := some (yes.isEmpty || yes.length == votes.length) }
      | _ => { regs := [(0, ⟨BitVec.ofNat 32 mask, 0⟩), (1, ⟨BitVec.ofNat 32 (mask / 2 ^ 32), 0⟩)] }

/-- R84: ELECT. -/
def execElect (f : ArithF) (s : State) : Host.Outcome State Fault Refusal :=
  onSlot f.g s fun x s =>
    let lowest := (x.act.head?.map fun a => a.1).getD 64
    lanewise x s f.d fun fb => { pred := some (fb.lane == lowest) }

/-- R85: the source lane, if it lies within the width. -/
def shflLane (sub : Nat) (width i b : Nat) : Option Nat :=
  match sub with
  | 0 => if b < width then some b else none
  | 1 => if b ≤ i then some (i - b) else none
  | 2 => if i + b < width then some (i + b) else none
  | _ => if i ^^^ b < width then some (i ^^^ b) else none

/-- R85: SHFL. -/
def execShfl (f : ArithF) (s : State) : Host.Outcome State Fault Refusal :=
  onSlot f.g s fun x s =>
    lanewise x s f.d fun fb =>
      let b := (x.read32 fb f.imm f.b).val
      let src := match shflLane f.sub.toNat x.l.width fb.lane b with
        | some j => match x.sl.lanes.find? fun y => y.1 == j with
          | some y => s.fibre y.2
          | none => fb
        | none => fb
      let a := x.read src f.ty f.imm f.a
      { regs := resultRegs f.ty (a.val : Int) a.lo a.hi }

/-- R86: the identity of an operation. -/
def redIdentity (op : Nat) (t : Ty) : Nat :=
  let fl := [Ty.f32, .f64].contains t
  match op with
  | 0 => if fl then zeroF (fmtOf t) true else 0
  | 1 => if fl then infF (fmtOf t) false else wrapN t.bits (if t.isSigned then (2 ^ (t.bits - 1) : Nat) - 1 else (2 ^ t.bits : Nat) - 1)
  | 2 => if fl then infF (fmtOf t) true else wrapN t.bits (if t.isSigned then -(2 ^ (t.bits - 1) : Nat) else 0)
  | 3 => 2 ^ t.bits - 1
  | _ => 0

/-- R86: a floating-point sum formed exactly and rounded once. -/
def sumF (t : Fmt) (rm : RM) (xs : List Nat) : Nat × Flags :=
  let vs := xs.map (decodeF t)
  match firstNaN t vs with
  | some r => r
  | none =>
    let pos := vs.any fun v => v == .inf false
    let neg := vs.any fun v => v == .inf true
    if pos && neg then (canonNaN t, NV)
    else if pos || neg then (infF t neg, 0)
    else roundDy t rm ((vs.all fun v => v == .zero true) || rm == .rdn) (vs.foldl (fun a v => a.add v.dy) Dy.zero)

/-- R86: floating-point minimum or maximum; NaNs count only when every term is one. -/
def minMaxAll (t : Fmt) (isMax : Bool) (xs : List Nat) : Nat × Flags :=
  let vs := xs.map (decodeF t)
  let nums := xs.filter fun v => !(decodeF t v).isNaN
  match nums with
  | [] => (firstNaN t vs).getD (canonNaN t, 0)
  | v :: rest => (rest.foldl (fun m w => (minMaxF t isMax m w).1) v, sigFlag vs)

/-- R86: one result over some terms. -/
def redValue (op : Nat) (t : Ty) (rm : RM) (xs : List Nat) : Nat × Flags :=
  let fl := [Ty.f32, .f64].contains t
  match xs with
  | [] => (redIdentity op t, 0)
  | v :: rest =>
    if fl then
      (match op with
        | 0 => sumF (fmtOf t) rm xs
        | 1 => minMaxAll (fmtOf t) false xs
        | _ => minMaxAll (fmtOf t) true xs)
    else
      let n (y : Nat) : Int := numOf t y
      (match op with
        | 0 => xs.sum % 2 ^ t.bits
        | 1 => rest.foldl (fun m w => if n w < n m then w else m) v
        | 2 => rest.foldl (fun m w => if n m < n w then w else m) v
        | 3 => rest.foldl (fun m w => m &&& w) v
        | 4 => rest.foldl (fun m w => m ||| w) v
        | _ => rest.foldl (fun m w => m ^^^ w) v, 0)

/-- R86: value, stamps and exceptions of one result as a lane's output. -/
def redOut (x : Ctx) (f : ArithF) (os : List Opnd) : LaneOut :=
  let op := bitsN f.sub.toNat 0 3
  let r := redValue op f.ty f.rm (os.map fun o => o.val)
  let st := if 3 ≤ op then x.half os else (x.whole os, x.whole os)
  { regs := if f.ty.wide then [(0, ⟨BitVec.ofNat 32 r.1, st.1⟩), (1, ⟨BitVec.ofNat 32 (r.1 / 2 ^ 32), st.2⟩)]
      else [(0, ⟨BitVec.ofNat 32 r.1, st.1⟩)]
    exc := r.2 }

/-- R86: VRED. -/
def execVred (f : ArithF) (s : State) : Host.Outcome State Fault Refusal :=
  onSlot f.g s fun x s =>
    let out := redOut x f (x.act.map fun a => x.read (s.fibre a.2) f.ty f.imm f.a)
    lanewise x s f.d fun _ => out

/-- R86: VSCAN; with `.ex` the lane's own term is left out. -/
def execVscan (f : ArithF) (s : State) : Host.Outcome State Fault Refusal :=
  onSlot f.g s fun x s =>
    let terms := x.act.map fun a => (a.1, x.read (s.fibre a.2) f.ty f.imm f.a)
    let ex := f.sub.getLsbD 4
    lanewise x s f.d fun fb =>
      redOut x f ((terms.filter fun t => if ex then decide (t.1 < fb.lane) else decide (t.1 ≤ fb.lane)).map fun t => t.2)

end Sys2Proof.Machine
end

