-- ==== Sys2Proof/Machine/Access.lean ====
section
/-!
DEFINITION. The course of a memory access: where an address leads (R160, R169 to R174), which writes a read may return
(R245, R246, R266), what a write carries (R241, R254), and requests to other devices (R308 to R310).
-/
namespace Sys2Proof.Machine

/-! ### Where an address leads -/

/-- On whose behalf an access is made. -/
structure Who where
  part : Nat
  launch : Nat
  team : Nat
  core : Nat
  deriving DecidableEq, Repr

def Ctx.who (x : Ctx) (s : State) : Who :=
  { part := x.l.part, launch := (s.team x.sl.team).launch, team := x.sl.team, core := coreOf x.c.g }

def OpHead.who (h : OpHead) : Who := { part := h.part, launch := h.launch, team := h.team, core := h.core }

/-- Where an address leads: bytes with their page, or chute `c` of the fibre's core. -/
inductive Target where
  | bytes (pg : Page)
  | chute (c : Nat)
  deriving DecidableEq, Repr

/-- A location outside paged memory: stamped, raw, no descriptor. -/
def Page.plain (loc size : Nat) : Page :=
  { loc, timeless := false, swm := false, fmt := 0, geom := 0, frame := 0, rdidx := 0, tier := 0, base := loc, size, vbase := 0 }

/-- The location that stands for offset `off` at another device (R174). -/
def remoteLoc (dev off : Nat) : Nat := 2 ^ 62 + dev * 2 ^ 47 + off
def isRemote (loc : Nat) : Bool := decide (2 ^ 62 ≤ loc)
def remoteDev (loc : Nat) : Nat := (loc - 2 ^ 62) / 2 ^ 47
def remoteOff (loc : Nat) : Nat := (loc - 2 ^ 62) % 2 ^ 47
/-- Can a flit name such a location? Exponent words of another device's pages have no window address. -/
def reachable (loc : Nat) : Bool := decide (remoteDev loc < 256)
/-- The page of offset `off` at another device: its format is that device's (log 13), and its exponent words lie beyond every
window address. -/
def farPage (dev off : Nat) : Page :=
  let k := dev * 2 ^ 31 + off / 65536
  let fmt := Config.farFmt k % 10
  { Page.plain (remoteLoc dev off) (2 ^ 47) with
    fmt, geom := if isBlockFmt fmt then Config.farGeom k % 2 else 0, base := remoteLoc dev 0, frame := remoteLoc 256 0 + dev * 2 ^ 46 }
/-- The window address of such a location. -/
def windowVa (loc : Nat) : DWord := BitVec.ofNat 64 (2 ^ 55 + remoteDev loc * 2 ^ 47 + remoteOff loc)

/-- R9: may a team's slots issue? -/
def TeamState.issues : TeamState → Bool
  | .running | .draining _ => true
  | _ => false

def regionOf (v : Nat) : Nat := bitsN v 55 2
def kindOf (v : Nat) : Nat := bitsN v 52 3

/-- The 64 KiB page that the groom is to bring for an address: one in this device's own window is translated here (R174). -/
def groomPage (v : Nat) : Nat :=
  (if regionOf v = 1 && bitsN v 47 8 = Config.deviceId.toNat then bitsN v 0 47 else v) / 65536 * 65536

/-- R160, R169, R170: cause 0x041. -/
def State.badRegion (s : State) (w : Who) (chuteOk : Bool) (v : Nat) : Bool :=
  match regionOf v with
  | 2 => true
  | 3 => match kindOf v with
    | 0 => bitsN v 23 29 != 0 || (bitsN v 22 1 == 1 && (!chuteOk || bitsN v 6 16 != 0 || bitsN v 0 3 != 0))
    | 1 => false
    | 2 => bitsN v 24 28 != 0 || (s.team w.team).node.isNone
    | _ => true
  | _ => false

/-- R169: the team that the cluster form names: the lowest `%team` of the launch on the issuing core's cluster. -/
def State.clusterTeam (s : State) (w : Who) (t : Nat) : Option Team :=
  let cands := (s.teams.map fun x => x.2).filter fun x =>
    x.launch == w.launch && x.state.isPlaced && clusterOf x.core == clusterOf w.core && x.index.toNat % 2 ^ 30 == t
      && x.node.isNone
  cands.foldl (fun best x => match best with
    | some b => if x.index.toNat < b.index.toNat then some x else best
    | none => some x) none

/-- R169, R318: bytes of the staging that a reduce team reaches, and their locations. -/
def State.stagingOf (s : State) (w : Who) : Option (Nat × Run) :=
  match (s.team w.team).node with
  | some (r, _) => (aget? s.runs r).map fun x => (r, x)
  | none => none

/-- R171: where the access of lane address `va` leads, checking alignment to `align`, or its first cause. -/
def State.place (s : State) (w : Who) (acc : Acc) (va : DWord) (align : Nat) (chuteOk : Bool) : Except Miss Target :=
  let v := va.toNat
  let bad (c : Nat) : Except Miss Target := .error ⟨c, false, v / 65536 * 65536⟩
  let paged (a : DWord) : Except Miss Target := match s.translate w.part acc a with
    | .ok pg => .ok (.bytes pg)
    | .error m => .error m
  if !canonical va then bad 0x040
  else if s.badRegion w chuteOk v then bad 0x041
  else if v % align ≠ 0 then bad 0x042
  else match regionOf v with
    | 0 => paged va
    | 1 =>
      let dev := bitsN v 47 8
      if dev = Config.deviceId.toNat then paged (BitVec.ofNat 64 (bitsN v 0 47))
      else if (aget? (s.part w.part).domain dev).isNone then bad 0x049
      else .ok (.bytes (farPage dev (bitsN v 0 47)))
    | _ =>
      let l := s.launch w.launch
      let bytes := l.scratch * 4096
      match kindOf v with
      | 0 =>
        if bitsN v 22 1 = 1 then
          (if l.chutes ≤ bitsN v 3 3 then bad 0x047 else .ok (.chute (bitsN v 3 3)))
        else if bytes ≤ bitsN v 0 22 then bad 0x047
        else .ok (.bytes (Page.plain (scratchLoc (s.team w.team).scrId (bitsN v 0 22)) bytes))
      | 1 =>
        if bytes ≤ bitsN v 0 22 then bad 0x047
        else match s.clusterTeam w (bitsN v 22 30) with
          | some t => .ok (.bytes (Page.plain (scratchLoc t.scrId (bitsN v 0 22)) bytes))
          | none => bad 0x048
      | _ => match s.stagingOf w with
        | some (r, x) =>
          if x.staging * 65536 ≤ bitsN v 0 24 then bad 0x047
          else .ok (.bytes (Page.plain (stagingLoc r (bitsN v 0 24)) (x.staging * 65536)))
        | none => bad 0x047

/-- The same where no chute may be reached. -/
def State.placeBytes (s : State) (w : Who) (acc : Acc) (va : DWord) (align : Nat) : Except Miss Page :=
  match s.place w acc va align false with
  | .ok (.bytes pg) => .ok pg
  | .ok (.chute _) => .error ⟨0x041, false, 0⟩
  | .error m => .error m

/-! ### Requests to other devices -/

/-- R309: the first listed port towards a device that is not down. -/
def State.route (s : State) (p dev : Nat) : Option (Nat × DomEntry) :=
  match aget? (s.part p).domain dev with
  | none => none
  | some e => ((bitList 16 e.ports.toNat).find? fun k => !(s.port (k + 1)).down).map fun k => (k + 1, e)

/-- R308: a flit's 256 bytes as a number. -/
def flitBits (f : Flit) : Nat :=
  let header := f.off.toNat * 2 ^ 81 + f.src.toNat * 2 ^ 73 + f.dst.toNat * 2 ^ 65 + f.ldom.toNat * 2 ^ 62 + f.kind.toNat * 2 ^ 58
    + f.ngr.toNat * 2 ^ 55 + f.gixh.toNat * 2 ^ 48 + f.tag.toNat * 2 ^ 32 + f.aux.toNat
  header + leNat f.payload * 2 ^ 128 + leNat (f.stamps.flatMap fun x => bytesLE 4 x.toNat) * 2 ^ 1664
    + (f.enables.foldr (fun b n => 2 * n + b.toNat) 0) * 2 ^ 1856

/-- R343: the link key that this device shares with another for a link domain. -/
def State.linkKey (s : State) (dev : Nat) (ldom : BitVec 3) : BitVec 256 :=
  ((s.parts.filterMap fun p => aget? p.2.domain dev).find? fun e => e.ldom == ldom).elim 0 fun e => e.linkKey

/-- Send a flit through a port (R308, R309), sealed under the link key (R343). -/
def State.sendOn (s : State) (port : Nat) (f : Flit) : State :=
  let po := s.port port
  let f := { f with gcm := Config.linkTag (s.linkKey f.dst.toNat f.ldom) (flitBits f) }
  { s.setPort port { po with unacked := po.unacked ++ [(f, s.clock, s.clock)] } with outFlits := s.outFlits ++ [(port, f)] }

/-- A flit of this device (R308). -/
def flitTo (dev kind tag off aux : Nat) (ldom : BitVec 3) (payload : List Byte) (stamps : List Stamp) (enables : List Bool) : Flit :=
  { off := BitVec.ofNat 47 off, src := Config.deviceId, dst := BitVec.ofNat 8 dev, ldom, kind := BitVec.ofNat 4 kind
    ngr := BitVec.ofNat 3 stamps.length, gixh := 0, tag := BitVec.ofNat 16 tag, aux := BitVec.ofNat 32 aux, payload, stamps, enables, gcm := 0 }

/-- Send a request of a partition to a device: the TAG it takes, or `none` where every route is down (cause 0x180). -/
def State.request (s : State) (p dev kind off aux : Nat) (payload : List Byte) (stamps : List Stamp) (enables : List Bool) :
    Option (Nat × State) :=
  match s.route p dev with
  | none => none
  | some (port, e) =>
    let tag := s.uid % 2 ^ 16
    some (tag, s.bump.sendOn port (flitTo dev kind tag off aux e.ldom payload stamps enables))

/-- R147: does data of stamp `st` pass the egress bound of a port? -/
def State.egressOk (s : State) (p port : Nat) (st : Stamp) : Bool :=
  let r := mget PortStamp.zero (s.part p).ports port
  !r.egen || (boundCause ((s.part p).interval) (tstamp (s.part p).time) (some (BitVec.ofNat 32 r.egmax)) 0x083 st).isNone

/-- The egress port that a location lies behind: a CXL root port (17 to 20), or the first Fenica port of its device. -/
def State.egressPort (s : State) (p loc : Nat) : Option Nat :=
  if isRemote loc then (s.route p (remoteDev loc)).map fun x => x.1
  else if Config.cxlBase ≤ loc && loc < 2 ^ 60 then some (17 + (loc - Config.cxlBase) / Config.cxlStride)
  else none

/-- The bytes of a granule as enables (R308), and its payload with zeros elsewhere. -/
def granEnables (bs : List (Nat × Byte)) (gr : Nat) : List Bool := (from_ (gr * 32) 32).map fun a => bs.any fun b => b.1 == a
def granPayload (bs : List (Nat × Byte)) (gr : Nat) : List Byte :=
  (from_ (gr * 32) 32).map fun a => ((bs.find? fun b => b.1 == a).map fun b => b.2).getD 0

/-! ### Which writes a read may return -/

/-- What decides a read's candidates. -/
structure Reader where
  rid : Nat
  know : List Nat
  seen : List Nat
  issuedAt : Nat
  deriving DecidableEq, Repr

def WEv.at? (w : WEv) (a : Nat) : Option Byte := aget? (w.bytes.map fun b => b) a
def WEv.touches (w : WEv) (a : Nat) : Bool := w.bytes.any fun b => b.1 == a

/-- Bytes of an atomic's operand (R250). -/
def atomBytes : Instr → Nat
  | .atom f | .atomf f | .cas f | .red f => f.ty.bytes
  | _ => 0

/-- Writes formed but not yet applied: identity, locations, and the writes that are hb them. -/
def Op.pendingWrites (o : Op) : List (Nat × List Nat × List Nat) :=
  match o.body with
  | .store ws => ws.map fun w => (w.id, w.bytes.map fun b => b.1, w.preds)
  | .atomic i ls _ =>
    (ls.filter fun l => l.result.isNone && l.lost.isNone).map fun l => (l.id, from_ l.loc (atomBytes i), l.preds)
  | _ => []

def State.pending (s : State) : List (Nat × List Nat × List Nat) := s.ops.flatMap fun o => o.2.pendingWrites

/-- The applied writes of a location, in home order. -/
def State.writesAt (s : State) (a : Nat) : List WEv := s.hist.filter fun w => w.touches a

/-- Is candidate `c` (`none`: the initial write) hb a write with predecessors `preds`? -/
def candBefore (c : Option WEv) (preds : List Nat) : Bool :=
  match c with
  | none => true
  | some w => preds.contains w.id

/-- R245 V1, V2, V3, V4 and R266 for a candidate among the writes `ws` of a location in home order. -/
def allowed (r : Reader) (ws : List WEv) (pend : List (Nat × List Nat)) (c : Option WEv) (later : List WEv) : Bool :=
  let hidden (ids : List Nat) : Bool :=
    (ws.any fun w => ids.contains w.id && candBefore c w.preds) || (pend.any fun w => ids.contains w.1 && candBefore c w.2)
  (match c with | some w => !w.after.contains r.rid && !w.preds.contains r.rid | none => true)
    && !hidden r.know && !hidden r.seen
    && later.all fun w => decide (r.issuedAt < w.clk + 65536)

/-- Each write with those after it. -/
def tails : List WEv → List (Option WEv × List WEv)
  | [] => []
  | w :: ws => (some w, ws) :: tails ws

/-- The writes of a location that a read may return. -/
def State.cands (s : State) (r : Reader) (a : Nat) : List (Option WEv) :=
  let ws := s.writesAt a
  let pend := (s.pending.filter fun p => p.2.1.contains a).map fun p => (p.1, p.2.2)
  (((none, ws) :: tails ws).filter fun c => allowed r ws pend c.1 c.2).map fun c => c.1

/-- The byte and granule stamp after a candidate write at a location. -/
def State.candByte (s : State) (c : Option WEv) (a : Nat) : Byte :=
  match c with
  | some w => (w.at? a).getD 0
  | none => match s.writesAt a with
    | w :: _ => (aget? w.old a).getD 0
    | [] => s.byteAt a

def State.candStamp (s : State) (c : Option WEv) (a : Nat) : Stamp :=
  match c with
  | some w => (aget? w.gAfter (a / 32)).getD 0
  | none => match s.hist.find? fun w => w.gBefore.any fun g => g.1 == a / 32 with
    | some w => (aget? w.gBefore (a / 32)).getD 0
    | none => s.stampAt a

/-- What a read returned: bytes with the stamps of their granules, and the writes they came from. -/
structure ReadOut where
  bytes : List Byte
  stamps : List Stamp
  src : List WEv
  deriving DecidableEq, Repr

def ReadOut.empty : ReadOut := ⟨[], [], []⟩
def ReadOut.append (a b : ReadOut) : ReadOut := ⟨a.bytes ++ b.bytes, a.stamps ++ b.stamps, a.src ++ b.src⟩

/-- One of `n` outcomes (R245), with the state that has made the choice; a single outcome uses up nothing. -/
def State.choose (s : State) (n : Nat) : Nat × State :=
  if n ≤ 1 then (0, s) else (Config.pick s.free % n, { s with free := s.free + 1 })

def State.readWith (s : State) (timeless : Bool) (cs : List (Nat × Option WEv)) : ReadOut :=
  { bytes := cs.map fun c => s.candByte c.2 c.1
    stamps := cs.map fun c => if timeless then 0 else s.candStamp c.2 c.1
    src := cs.filterMap fun c => c.2 }

/-- Read each byte on its own. -/
def State.readEach (s : State) (r : Reader) (timeless : Bool) : List Nat → Option (ReadOut × State)
  | [] => some (.empty, s)
  | a :: as =>
    let cs := s.cands r a
    if cs = [] then none
    else
      let (k, s') := s.choose cs.length
      match cs[k]? with
      | none => none
      | some c => (s'.readEach r timeless as).map fun x => ((s.readWith timeless [(a, c)]).append x.1, x.2)

/-- R246: read a single-copy unit: from one write where every byte has the same candidates, else byte by byte. `none` while
no write may be returned yet. -/
def State.readUnit (s : State) (r : Reader) (timeless : Bool) (locs : List Nat) : Option (ReadOut × State) :=
  match locs with
  | [] => some (.empty, s)
  | a :: as =>
    let cs := s.cands r a
    if as.all fun b => decide ((s.cands r b).map (fun c => c.map fun w => w.id) = cs.map fun c => c.map fun w => w.id) then
      let (k, s') := s.choose cs.length
      match cs[k]? with
      | none => none
      | some c => some (s.readWith timeless (locs.map fun b => (b, c)), s')
    else s.readEach r timeless locs

/-- R241, R245, R254: what a fibre receives from the writes that a read of it on a path returned. -/
def State.receive (s : State) (fid : Nat) (path : Path) (acq : Bool) (src : List WEv) : State :=
  let carry := src.foldl (fun m w => union m w.carry) []
  let aft := src.foldl (fun m w => union m w.after) []
  s.modFibre fid fun f =>
    let v := f.view path
    let f := f.setView path { v with seen := union v.seen (src.map fun w => w.id) }
    let f := { f with after := union f.after aft }
    match path with
    | .vec => if acq then f.learn .vec carry else { f with pendAcq := union f.pendAcq carry }
    | _ => f

/-- Does a re-fire serve the fault (R149)? -/
def Serve.isRefire : Serve → Bool
  | .refireNew _ | .refireWait .. => true
  | _ => false

/-! ### Writes -/

/-- The identity, predecessors, carry and reads-before of a write that fibre `fid` makes on path `vec` (R241, R254). -/
structure WritePass where
  id : Nat
  preds : List Nat
  carry : List Nat
  after : List Nat
  deriving DecidableEq, Repr

def State.newWrite (s : State) (fid : Nat) (path : Path) (rel : Bool) : WritePass × State :=
  let id := s.uid
  let f := s.fibre fid
  let v := f.view path
  let carry := if rel then id :: union v.know f.after else match path, f.relFence with
    | .vec, some k => id :: k
    | _, _ => []
  ({ id, preds := v.know, carry, after := f.after }, s.bump.learn [fid] path [id])

/-- A write that the device applies at once for a fibre on a path, or for a node: engines, copies, appends. -/
def State.writeNow (s : State) (core : Nat) (timeless : Bool) (p : WritePass) (bytes : List (Nat × (Byte × Stamp))) : State :=
  s.commit core timeless [{ id := p.id, bytes, preds := union p.preds [], carry := p.carry, after := p.after }]

/-- Is a location in a CXL tier (R164)? -/
def isCxl (a : Nat) : Bool := decide (Config.cxlBase ≤ a) && decide (a < 2 ^ 60)

/-- R172, R184: a read or CCTL with last use, before a write in its fibre's order, has not yet dropped a line that the write falls in. -/
def dropsLater (o : Nat × Op) (bytes after : List Nat) : Bool :=
  let lineOf (a : Nat) : Nat := a / 128
  (after.any fun r => ofOp o.1 r) && (match o.2.body with
    | .load i rs _ => (match i with
        | .ld f | .ldg f | .lde f | .ldt f => f.lu
        | _ => false)
      && rs.any fun r => (r.units ++ r.expo.toList).any fun u => u.locs.any fun a => bytes.any fun b => lineOf b == lineOf a
    | .cctl lines lu _ => lu && bytes.any fun b => lines.contains (lineOf b)
    | _ => false)

/-- R172, R244, R335: a write at some bytes waits: one that is hb it at a shared byte has not been applied; for a release, one in a CXL
tier that is hb it has not reached the expander, whatever its scope; or a last use before it has not dropped the line. -/
def State.heldBack (s : State) (bytes preds carry after : List Nat) : Bool :=
  (s.pending.any fun p => preds.contains p.1
      && ((p.2.1.any fun a => bytes.contains a) || (carry ≠ [] && p.2.1.any isCxl)))
    || s.ops.any fun o => dropsLater o bytes after

/-- R244, R308: what is to leave for another device waits for the writes that are hb it and not yet applied or acknowledged: at the
same bytes, and every one where it is a release. -/
def State.farHeld (s : State) (bytes preds carry : List Nat) : Bool :=
  s.pending.any fun p => preds.contains p.1 && (carry ≠ [] || p.2.1.any fun a => bytes.contains a)

/-- A release leaves for another device: what other devices may learn from now on (log 73). -/
def State.noteFar (s : State) (r : FarRel) : State :=
  if r.carry = [] then s else { s with farRel := s.farRel ++ [r], farKnow := union s.farKnow r.carry }

/-- Another device has read what some writes left: what it may have learnt (log 73). -/
def State.tellFar (s : State) (src : List WEv) : State :=
  { s with farKnow := src.foldl (fun m w => union m w.carry) s.farKnow }

/-- Has an atomic of this device at some location of another device no answer yet? -/
def State.farOpen (s : State) (locs : List Nat) : Bool :=
  s.farRel.any fun r => r.atomic && (r.bytes.any fun b => locs.contains b.1) && s.pending.any fun p => p.1 == r.id

/-- The releases of this device that a read at another device may have returned: those whose bytes it has returned, and the atomics
there (log 73). -/
def State.farSrc (s : State) (cells : List (Nat × Byte)) : List WEv :=
  (s.farRel.filter fun r => (r.bytes.any fun b => cells.any fun c => c.1 == b.1)
      && (r.atomic || r.bytes.all fun b => cells.all fun c => c.1 != b.1 || c.2 == b.2)).map fun r =>
    { id := r.id, bytes := [], old := [], gAfter := [], gBefore := [], preds := [], carry := r.carry, after := [], clk := s.clock }

/-- R166: bytes of the lanes in ascending order: a byte belongs to the highest lane that writes it. -/
def survivors : List LaneWrite → List LaneWrite
  | [] => []
  | w :: ws =>
    let rest := survivors ws
    { w with bytes := w.bytes.filter fun b => !(rest.any fun r => r.bytes.any fun c => c.1 == b.1) } :: rest

/-! ### The write log (R186) -/

/-- A number as the device reads it for itself. -/
def State.devNat (s : State) (p : Nat) (va : DWord) (n : Nat) : Nat :=
  match s.devRead p .load va n with
  | .ok bs => leNat bs
  | .error _ => 0

def State.devStore (s : State) (p : Nat) (va : DWord) (n : Nat) (x : Nat) : State :=
  match s.devWrite p va (bytesLE n x) [] with
  | .ok t => t
  | .error _ => s

/-- What the last write of a location carries. -/
def State.carriedAt (s : State) (p : Nat) (va : DWord) : List Nat :=
  match s.devLocs p .load va 1 with
  | .ok (l :: _) => ((s.writesAt l.1).getLast?.map fun w => w.carry).getD []
  | _ => []

/-- One record of 128 bits is due: it is written, then WIDX advances, a release at system scope of this record and those before it; a
full ring sets OVF, and no record is written while OVF is 1. Was it written? -/
def State.logRecord (s : State) (p : Nat) (rec : Nat) : Bool × State :=
  let pt := s.part p
  let ring := pt.wlogRing
  let widx := s.devNat p ring 8
  let ridx := s.devNat p (ring + 8) 8
  let ovf := s.devNat p (ring + 16) 1
  if ovf % 2 = 1 then (false, s)
  else if widx - ridx = 2 ^ pt.wlogN then (false, s.devStore p (ring + 16) 1 (ovf + 1))
  else
    let before := s.carriedAt p ring
    let own := s.uid
    let s := s.devStore p (ring + 64 + BitVec.ofNat 64 (16 * (widx % 2 ^ pt.wlogN))) 16 rec
    match s.devWrite p ring (bytesLE 8 (widx + 1)) (own :: before) with
    | .ok t => (true, { t with sysKnow := union t.sysKnow [own, s.uid] })
    | .error _ => (true, s)

/-- R186: a line of an SWM page is about to be written: a range record covers it unless one already does. -/
def State.logLine (s : State) (p : Nat) (va : Nat) (loc : Nat) : State :=
  let pt := s.part p
  if pt.wlogOn && !pt.wlogged.contains (loc / 128) then
    let (written, s) := s.logRecord p (va / 128 * 128 * 2 ^ 64 + 2 ^ 62 + 2 ^ 32)
    if !written then s else s.modPart p fun x => { x with wlogged := (loc / 128) :: x.wlogged }
  else s

/-! ### Writes of the device on path `vec` (R20) -/

/-- A region-0b00 address for one in this device's own window (R174). -/
def ownVa (va : DWord) : DWord :=
  if regionOf va.toNat = 1 && bitsN va.toNat 47 8 = Config.deviceId.toNat then BitVec.ofNat 64 (bitsN va.toNat 0 47) else va

/-- What such a write gave: the identities of the writes made here, and the TAGs of those on their way to another device. -/
structure Posted where
  ids : List Nat
  tags : List Nat
  state : State
  deriving DecidableEq, Repr

/-- The write to another device, a flit for each granule (R174, R308); a release where it carries something (R20, log 73). -/
def State.postFar (s : State) (p : Nat) (va : DWord) (bs : List Byte) (carry : List Nat) : Except Miss Posted :=
  let dev := bitsN va.toNat 47 8
  let loc := remoteLoc dev (bitsN va.toNat 0 47)
  let cells := (from_ loc bs.length).zip bs
  if (aget? (s.part p).domain dev).isNone then .error ⟨0x049, false, 0⟩
  else (granulesOf (from_ loc bs.length)).foldl (fun acc gr => match acc with
    | .error m => .error m
    | .ok o => match o.state.request p dev 2 (remoteOff (gr * 32)) 0 (granPayload cells gr) [0] (granEnables cells gr) with
      | none => .error ⟨0x180, false, 0⟩
      | some (tag, s) => .ok { o with tags := o.tags ++ [tag]
                                      state := s.bump.noteFar ⟨s.uid, false, cells.filter (fun c => c.1 / 32 == gr), carry⟩ }) (.ok ⟨[], [], s⟩)

/-- R20: bytes are written as a store on path `vec` would write them, timeless: the write log first (R186), and nothing where some
cause is met. -/
def State.vecWrite (s : State) (p : Nat) (va : DWord) (bs : List Byte) (carry : List Nat) : Except Miss Posted :=
  let va := ownVa va
  if canonical va && regionOf va.toNat = 1 then s.postFar p va bs carry
  else match s.devLocs p .store va bs.length with
    | .error m => .error m
    | .ok ls =>
      let data := (ls.zip bs).map fun x => (x.1.1, (x.2, (0 : Stamp)))
      if s.ueHit data ≠ [] then .error ⟨0x04A, false, va.toNat / 65536 * 65536⟩
      else
        let s := ls.zipIdx.foldl (fun s x => if x.1.2.swm then s.logLine p (va.toNat + x.2) x.1.1 else s) s
        let r := s.sysWrite 0 (ls.any fun x => x.2.timeless) data carry
        .ok ⟨[r.2], [], r.1⟩

end Sys2Proof.Machine
end

