-- ==== Sys2Proof/Machine/Convert.lean ====
section
/-!
DEFINITION. Conversions and blocks, CVT to UNPACK (R129 to R137).
-/
namespace Sys2Proof.Machine

def isIntTy (t : Ty) : Bool := tysCvtInt.contains t

/-- R130: CVT of a code of type `src` to type `dst`. -/
def cvtCode (dst src : Ty) (rm : RM) (v : Nat) : Nat × Flags :=
  if isIntTy src then cvtIntF (fmtOf dst) rm (numOf src v)
  else if isIntTy dst then
    let r := cvtToInt dst.isSigned dst.bits rm (decodeF (fmtOf src) v)
    (wrapN dst.bits r.1, r.2)
  else cvtV (fmtOf dst) rm (decodeF (fmtOf src) v)

/-- R130: CVT. -/
def execCvt (f : ArithF) (s : State) : Host.Outcome State Fault Refusal :=
  onSlot f.g s fun x s => lanewise x s f.d fun fb =>
    let src := tyOf f.sub
    let a := x.read fb src f.imm f.a
    fpOut x f.ty (cvtCode f.ty src f.rm a.val) [a]

/-- R131: the mx8 forms of CVT. -/
def execCvtMx8 (f : ArithF) (s : State) : Host.Outcome State Fault Refusal :=
  onSlot f.g s fun x s => lanewise x s f.d fun fb =>
    let a := x.read fb (if f.ty = .mx8 then .f32 else .b32) f.imm f.a
    let k := x.read fb .b32 f.imm f.b
    let sc := bitsN k.val 0 8
    let r :=
      if f.ty = .mx8 then
        (if sc = 255 then (0x7F, NV)
         else cvtV (fmtOf .e4m3) f.rm ((decodeF (fmtOf .f32) a.val).scale (127 - (sc : Int))))
      else cvtV (fmtOf .f32) f.rm (mxValue sc (bitsN a.val 0 8))
    fpOut x .b32 r [a, k]

/-- The registers of a run that starts at a vector spec. -/
def Fibre.run (f : Fibre) (sp : Spec) (n : Nat) : List Reg :=
  match sp with
  | .vec b => (List.range n).map fun k => f.reg (b.toNat + k)
  | _ => []

/-- A list of codes packed into registers, `per` codes of `bits` bits each, lowest first (R113). -/
def packRegs (bits per : Nat) : Nat → List Nat → List Nat
  | 0, _ => []
  | n + 1, cs => ((cs.take per).foldr (fun c acc => c + acc * 2 ^ bits) 0) :: packRegs bits per n (cs.drop per)

/-- R113: the image of a block: element registers, then the exponent or scale word. -/
def blockImage (bits : Nat) (codes : List Nat) (w : Nat) (st : Stamp) : List (Nat × Reg) :=
  ((packRegs bits (32 / bits) bits codes ++ [w]).zipIdx).map fun p => (p.2, ⟨BitVec.ofNat 32 p.1, st⟩)

/-- R113: element j of an image of registers. -/
def imageElem (bits : Nat) (rs : List Reg) (j : Nat) : Reg × Nat :=
  let r := (rs[j / (32 / bits)]?).getD Reg.zero
  (r, bitsN r.val.toNat (bits * (j % (32 / bits))) bits)

/-- R132: QBLK. -/
def execQblk (f : ArithF) (s : State) : Host.Outcome State Fault Refusal :=
  onSlot f.g s fun x s => lanewise x s f.d fun fb =>
    let src := fb.run f.a 32
    let q := quantTx (txOf f.ty) f.rm f.sub.toNat (src.map fun r => decodeF (fmtOf .f32) r.val.toNat)
    { regs := blockImage (txOf f.ty).bits q.2.2.1 (q.1 + 256 * q.2.1) (olderAll x.h (src.map fun r => r.st)), exc := q.2.2.2 }

/-- A block expanded element by element (R133, R135). -/
def expand (x : Ctx) (f : ArithF) (bits : Nat) (value : Nat → Nat → FV) (wordBits : Nat) (fb : Fibre) : LaneOut :=
  let rs := fb.run f.a (bits + 1)
  let w := (rs[bits]?).getD Reg.zero
  let outs := (List.range 32).map fun j =>
    let e := imageElem bits rs j
    let r := cvtV (fmtOf f.ty) f.rm (value (bitsN w.val.toNat 0 wordBits) e.2)
    ((fpRegs f.ty r.1 (older x.h e.1.st w.st)).map fun p => (p.1 + f.ty.regs * j, p.2), r.2)
  { regs := outs.flatMap fun o => o.1, exc := outs.foldl (fun m o => m ||| o.2) 0 }

/-- R133: DQBLK. -/
def execDqblk (f : ArithF) (s : State) : Host.Outcome State Fault Refusal :=
  onSlot f.g s fun x s => lanewise x s f.d
    (expand x f (txOf (tyOf f.sub)).bits (txValue (txOf (tyOf f.sub))) 16)

/-- R134: MXQ. -/
def execMxq (f : ArithF) (s : State) : Host.Outcome State Fault Refusal :=
  onSlot f.g s fun x s => lanewise x s f.d fun fb =>
    let src := fb.run f.a 32
    let q := quantMx f.rm (src.map fun r => decodeF (fmtOf .f32) r.val.toNat)
    { regs := blockImage 8 q.2.1 q.1 (olderAll x.h (src.map fun r => r.st)), exc := q.2.2 }

/-- R135: MXDQ. -/
def execMxdq (f : ArithF) (s : State) : Host.Outcome State Fault Refusal :=
  onSlot f.g s fun x s => lanewise x s f.d (expand x f 8 mxValue 8)

/-- R136: PACK. -/
def execPack (f : ArithF) (s : State) : Host.Outcome State Fault Refusal :=
  onSlot f.g s fun x s => lanewise x s f.d fun fb =>
    let a := x.read fb .f32 f.imm f.a
    let b := x.read fb .f32 f.imm f.b
    let ra := cvtCode f.ty .f32 f.rm a.val
    let rb := cvtCode f.ty .f32 f.rm b.val
    if f.ty.bits = 16 then fpOut x .b32 (ra.1 + rb.1 * 2 ^ 16, ra.2 ||| rb.2) [a, b]
    else
      let old := x.read fb .b32 f.imm f.d
      let two := ra.1 + rb.1 * 2 ^ 8
      let v := if f.sub = 1 then bitsN old.val 0 16 + two * 2 ^ 16 else old.val / 2 ^ 16 * 2 ^ 16 + two
      fpOut x .b32 (v, ra.2 ||| rb.2) [a, b, old]

/-- R137: UNPACK. -/
def execUnpack (f : ArithF) (s : State) : Host.Outcome State Fault Refusal :=
  onSlot f.g s fun x s => lanewise x s f.d fun fb =>
    let a := x.read fb .b32 f.imm f.a
    fpOut x .f32 (cvtV (fmtOf .f32) .rne (decodeF (fmtOf f.ty) (bitsN a.val (f.ty.bits * f.sub.toNat) f.ty.bits))) [a]

end Sys2Proof.Machine
end

