-- ==== Sys2Proof/Machine/Memory.lean ====
section
/-!
DEFINITION. Loads, stores, prefetch, cache control, banks and the write log, LD to WLOG, with the steps in which their data
arrives or is applied (R165 to R186).
-/
namespace Sys2Proof.Machine

/-! ### Addresses and bounds -/

/-- R176: base + sext(idx) × 2^SCALE + sext(OFFSET), modulo 2^64. -/
def effAddr (base : DWord) (idx : Int) (e : Ext) : DWord :=
  base + BitVec.ofInt 64 (idx * (2 ^ e.scale.toNat : Nat)) + e.off.signExtend 64

def Ctx.idx (x : Ctx) (fb : Fibre) (sp : Spec) : Int := sextN 32 (x.read fb .i32 0 sp).val

def Ctx.ea (x : Ctx) (f : MemF) (fb : Fibre) : DWord := effAddr (x.pair fb f.a) (x.idx fb f.b) f.ext

/-- R182: the team-window offset, modulo 2^32, as the generic address it stands for. -/
def Ctx.eaTeam (x : Ctx) (f : MemF) (fb : Fibre) : DWord :=
  0xFF80000000000000 + ((effAddr ((x.read32 fb 0 f.a).val : DWord) (x.idx fb f.b) f.ext).truncate 32).zeroExtend 64

/-- R144: the bound that SRCC names; a load that the groom replays keeps the one it had (R149). -/
def Ctx.bound (x : Ctx) (f : MemF) (fb : Fibre) : Option Word :=
  match x.c.bounds.find? fun b => b.1 == fb.lane with
  | some b => some b.2
  | none => match f.c with
  | .imm => some (f.ext.maxage.zeroExtend 32)
  | .vec _ | .scl _ => some (BitVec.ofNat 32 (x.read32 fb 0 f.c).val)
  | _ => none

/-- R177: the cause, the address and, where the groom serves it, the pages of the lanes that met a cause. -/
def missCause (ms : List LaneMiss) : Option (Nat × DWord × Option Serve) :=
  match ms with
  | [] => none
  | m :: rest =>
    let m := rest.foldl (fun b n => if n.lane < b.lane then n else b) m
    let absent := ms.filter fun n => n.cause == 0x043
    let serve := if m.cause = 0x043 && absent.all fun n => n.groom then
        some (Serve.pages ((absent.map fun n => groomPage n.va.toNat).eraseDups))
      else none
    some (m.cause, m.va, serve)

def Miss.lane (m : Miss) (lane : Nat) (va : DWord) : LaneMiss := ⟨lane, m.cause, m.groom, va⟩

/-! ### Loads -/

/-- What a lane of a load is to read: its units, and for LDE the exponent word, the format and the nibble. -/
structure LanePlan where
  units : List ReadUnit
  expo : Option ReadUnit := none
  fmt : Nat := 0
  nib : Nat := 0
  deriving DecidableEq, Repr

def Page.unit (pg : Page) (k n : Nat) : ReadUnit := ⟨k, from_ pg.loc n, pg.timeless, pg.rdidx⟩

/-- Ask another device for the granules of a lane's units that lie there (R174); 0x180 where every route is down. -/
def State.askRemote (s : State) (p : Nat) (grans : List (Nat × List Nat)) : Option (List (Nat × Nat) × State) :=
  match grans with
  | [] => some ([], s)
  | (gr, locs) :: rest =>
    let a := gr * 32
    let en := (from_ a 32).map fun b => locs.contains b
    match s.request p (remoteDev a) 0 (remoteOff a) 0 [] [] en with
    | none => none
    | some (tag, s) => (s.askRemote p rest).map fun r => ((gr, tag) :: r.1, r.2)

/-- Granules at other devices that a lane has still to ask for (R174). -/
def LaneRead.unasked (r : LaneRead) : List (Nat × List Nat) :=
  let far := (r.units.flatMap fun u => u.locs).filter isRemote
  ((granulesOf far).filter fun gr => !(r.waits.any fun w => w.1 == gr) && (aget? r.gotSt gr).isNone).map fun gr =>
    (gr, far.filter fun a => a / 32 == gr)

/-- A lane asks for what lies at other devices, once the writes there that are hb it are acknowledged (R245, R308): asked, or to ask
later, or 0x180 where every route is down. -/
def State.askLane (s : State) (p : Nat) (r : LaneRead) : Option (LaneRead × State) :=
  match r.unasked with
  | [] => some (r, s)
  | gs => if s.farHeld (gs.flatMap fun g => g.2) r.know [] then some (r, s)
    else (s.askRemote p gs).map fun q => ({ r with waits := r.waits ++ q.1 }, q.2)

/-- Start the reads of some lanes as one operation counted in `ld` (R176, R235): lanes that met a cause are kept for the
trap of R177. When no lane reads, that trap is raised at once. -/
def State.startLoad (s : State) (x : Ctx) (i : Instr) (f : MemF) (plans : List (Nat × Nat × DWord × Except Miss LanePlan)) : State :=
  let step (acc : List LaneRead × List LaneMiss × State) (p : Nat × Nat × DWord × Except Miss LanePlan) :=
    let (reads, ms, s) := acc
    let (lane, fid, va, pl) := p
    match pl with
    | .error m => (reads, ms ++ [m.lane lane va], s)
    | .ok pl =>
      let fb := s.fibre fid
      let r : LaneRead := { lane, fibre := fid, va, units := pl.units, bound := x.bound f fb, expo := pl.expo, fmt := pl.fmt
                            nib := pl.nib, know := fb.vec.know, waits := [], got := [], gotSt := [] }
      match s.askLane x.l.part r with
      | none => (reads, ms ++ [⟨lane, 0x180, false, va⟩], s)
      | some (r, s) => (reads ++ [r], ms, s)
  let (reads, ms, s) := plans.foldl step ([], [], s)
  match reads with
  | [] => match missCause ms with
    | none => s.advance x
    | some (c, va, serve) =>
      let lm := ms.map fun m => m.lane
      s.raise x.c.g { x.trap c .partly lm lm with addr := va } serve
  | _ =>
    let op := s.uid
    let s := s.startOp x .ld (.load i reads ms)
    let s := reads.foldl (fun s r => s.modFibre r.fibre fun fb => { fb with after := union fb.after [readId op r.lane] }) s
    s.advance x

/-- Plans of a load whose lanes each read one value of the instruction's type. -/
def loadPlans (x : Ctx) (s : State) (f : MemF) (ea : Fibre → DWord) : List (Nat × Nat × DWord × Except Miss LanePlan) :=
  (x.runLanes f.d).map fun a =>
    let va := ea (s.fibre a.2)
    (a.1, a.2, va, match s.placeBytes (x.who s) .load va f.ty.bytes with
      | .ok pg => .ok { units := [pg.unit 0 f.ty.bytes] }
      | .error m => .error m)

/-- R176: LD. -/
def execLd (f : MemF) (s : State) : Host.Outcome State Fault Refusal :=
  onSlot f.g s fun x s => s.startLoad x (.ld f) f (loadPlans x s f (x.ea f))

/-- R176: LDG. -/
def execLdg (f : MemF) (s : State) : Host.Outcome State Fault Refusal :=
  onSlot f.g s fun x s => s.startLoad x (.ldg f) f (loadPlans x s f (x.ea f))

/-- R167: bytes of an element and of a block; block formats have 4 or 8 bits to an element. -/
def fmtElem (fmt : Nat) : Nat := match fmt with
  | 1 => 8 | 2 => 4 | 3 => 2 | 4 => 2 | _ => 1
def fmtBlock (fmt : Nat) : Nat := if fmt = 7 then 16 else if fmt = 8 || fmt = 9 then 32 else fmtElem fmt
def fmtTy (fmt : Nat) : Ty := match fmt with
  | 1 => .f64 | 2 => .f32 | 3 => .f16 | 4 => .bf16 | 5 => .e4m3 | 6 => .e5m2 | 7 => .tx4 | 8 => .tx8 | _ => .mx8

/-- The exponent word of the block that holds a byte of a block-format page (R167). -/
def Page.expoLoc (pg : Page) : Nat := pg.frame + 2 * ((pg.loc - pg.base) / fmtBlock pg.fmt)

/-- R171, R180: the origin of an LDE does not lie at a block of its page, of which the entry alone gives the format. -/
def State.ldeSkewed (s : State) (w : Who) (origin : DWord) : Bool :=
  match s.pageEntry w.part (bitsN origin.toNat 0 (if regionOf origin.toNat = 1 then 47 else 55)) with
  | some (_, _, e) => origin.toNat % fmtBlock (bitsN e 56 4) != 0
  | none => false

/-- R180: what one lane of LDE reads. -/
def State.planLde (s : State) (w : Who) (f : MemF) (origin : DWord) (k : Int) : DWord × Except Miss LanePlan :=
  let page (v : DWord) : Nat := v.toNat / 65536 * 65536
  match s.placeBytes w .load origin 1 with
  | .error m =>
    (origin, .error (if (m.cause = 0x044 || m.cause = 0x04D) && s.ldeSkewed w origin then ⟨0x042, false, page origin⟩ else m))
  | .ok og =>
    let z := fmtElem og.fmt
    if og.fmt = 0 then (origin, .error ⟨0x046, false, page origin⟩)
    else if origin.toNat % fmtBlock og.fmt ≠ 0 then (origin, .error ⟨0x042, false, page origin⟩)
    else
      let byte := origin + BitVec.ofInt 64 (if og.fmt = 7 then k / 2 else k * z)
      match s.placeBytes w .load byte 1 with
      | .error m => (byte, .error m)
      | .ok pg =>
        if pg.fmt ≠ og.fmt || (pg.fmt = 1 && f.ty = .f32) then (byte, .error ⟨0x046, false, page byte⟩)
        else
          let expo := if isBlockFmt pg.fmt then some ⟨0, from_ pg.expoLoc 2, pg.timeless, pg.rdidx⟩ else none
          (byte, .ok { units := [pg.unit 0 z], expo, fmt := pg.fmt, nib := (k % 2).toNat })

/-- R180: LDE. -/
def execLde (f : MemF) (s : State) : Host.Outcome State Fault Refusal :=
  onSlot f.g s fun x s => s.startLoad x (.lde f) f (x.act.map fun a =>
    let fb := s.fibre a.2
    let p := s.planLde (x.who s) f (x.pair fb f.a + f.ext.off.signExtend 64) (x.idx fb f.b)
    (a.1, a.2, p.1, p.2))

/-- R181: the elements lane `i` of an LDT reads: place in the run, row and byte column in the tile. -/
def ldtElems (layout e i : Nat) : List (Nat × Nat × Nat) :=
  match layout with
  | 0 => if i < 32 then (List.range 32).map fun c => (c * e, i, c * e) else []
  | 1 => if i < 32 then (List.range 32).map fun r => (r * e, r, i * e) else []
  | _ => if i < 16 * e then
      (List.range (64 / e)).map fun n =>
        let o := 64 * i + n * e
        (n * e, o / (32 * e), o % (32 * e))
    else []

/-- R181: what one lane of LDT reads, and the cause of the first byte that it needs; origin and pitch are the whole instruction's. -/
def State.planLdt (s : State) (w : Who) (f : MemF) (origin : DWord) (pitch : Nat) (i : Nat) : DWord × Except Miss LanePlan :=
  let e := f.ty.bytes
  let bad (c : Nat) (va : DWord) : DWord × Except Miss LanePlan := (va, .error ⟨c, false, va.toNat / 65536 * 65536⟩)
  let els := (if f.ext.layout = 3 then [] else ldtElems f.ext.layout.toNat e i).map fun el =>
    (el.1, origin + BitVec.ofNat 64 (el.2.1 * pitch + el.2.2))
  match els.find? fun el => !canonical el.2 with
  | some el => bad 0x040 el.2
  | none => match els.find? fun el => s.badRegion w false el.2.toNat with
    | some el => bad 0x041 el.2
    | none =>
      if origin.toNat % (32 * e) ≠ 0 || pitch % (32 * e) ≠ 0 then bad 0x042 origin
      else if f.ext.layout = 3 then bad 0x04C origin
      else els.foldl (fun acc el => match acc.2 with
        | .error _ => acc
        | .ok pl => match s.placeBytes w .load el.2 e with
          | .error m => (el.2, .error m)
          | .ok pg => (acc.1, .ok { pl with units := pl.units ++ [pg.unit el.1 e] })) (origin, .ok { units := [] })

/-- R181: LDT. Lanes that the layout does not name read and write nothing. -/
def execLdt (f : MemF) (s : State) : Host.Outcome State Fault Refusal :=
  onSlot f.g s fun x s =>
    let plans := x.act.map fun a =>
      let fb := s.fibre a.2
      let pitch := (x.read32 fb 0 f.b).val * 2 ^ f.ext.scale.toNat
      let p := s.planLdt (x.who s) f (x.pair fb f.a + f.ext.off.signExtend 64) pitch a.1
      (a.1, a.2, p.1, p.2)
    s.startLoad x (.ldt f) f (plans.filter fun p => match p.2.2.2 with
      | .ok pl => !pl.units.isEmpty
      | .error _ => true)

/-! ### Chutes (R170) -/

/-- The chute that every active lane of an LDS or STS names, if one of them names a chute: its index, or cause 0x047. -/
def chuteOf (ty : Ty) (places : List (Except Miss Target)) : Option (Except Nat Nat) :=
  let cs := places.filterMap fun p => match p with
    | .ok (.chute c) => some c
    | _ => none
  match cs with
  | [] => none
  | c :: _ =>
    if (ty = .b32 || ty = .b64) && cs.length == places.length && cs.all fun d => d == c then some (.ok c) else some (.error 0x047)

/-- Places of the lanes of an LDS or STS. -/
def teamPlaces (x : Ctx) (s : State) (f : MemF) (acc : Acc) : List (Nat × Nat × DWord × Except Miss Target) :=
  (x.runLanes f.d).map fun a =>
    let va := x.eaTeam f (s.fibre a.2)
    (a.1, a.2, va, s.place (x.who s) acc va f.ty.bytes true)

/-- A team's chute on core `core`, keyed by half and index. -/
def chuteKey (t : Team) (core c : Nat) : Nat := 8 * (core - t.core) + c
def Team.chuteAt (t : Team) (core c : Nat) : List ChuteEntry := (aget? t.chutes (chuteKey t core c)).getD []

/-- R170: is the chute ready for an LDS or STS of `n` lanes? -/
def chuteReady (push : Bool) (entries : List ChuteEntry) (n : Nat) : Bool :=
  if push then decide (entries.length + n ≤ Config.chuteEntries) else decide (n ≤ entries.length)

/-- A cause that a lane's chute place is replaced by. -/
def chuteMiss (c : Nat) (p : Except Miss Target) (va : DWord) : Except Miss Target :=
  match p with
  | .ok (.chute _) => .error ⟨c, false, va.toNat / 65536 * 65536⟩
  | p => p

/-- A bound that fails in some lanes: the cause, the lowest lane of that cause with its stamp and bound, and every failing
lane (R145, R146). -/
structure StaleTrap where
  cause : Nat
  lane : Nat
  va : DWord
  stamp : Stamp
  bound : Word
  rdidx : Nat
  lanes : List Nat
  /-- every failing page names a descriptor (R149) -/
  refire : Bool
  deriving DecidableEq, Repr

/-- A failing lane: lane, cause, stamp, bound, descriptor, address. -/
structure StaleLane where
  lane : Nat
  cause : Nat
  stamp : Stamp
  bound : Word
  rdidx : Nat
  va : DWord
  deriving DecidableEq, Repr

/-- R145: one fault for all failing lanes: 0x084 when some lane meets a future stamp. -/
def staleTrap (old : Nat) (ls : List StaleLane) : Option StaleTrap :=
  let cause := if ls.any fun l => l.cause == 0x084 then 0x084 else if ls.any fun l => l.cause == old then old else 0x083
  match ls.filter fun l => l.cause == cause with
  | [] => none
  | l :: _ => some { cause, lane := l.lane, va := l.va, stamp := l.stamp, bound := l.bound, rdidx := l.rdidx
                     lanes := ls.map fun l => l.lane, refire := ls.all fun l => l.rdidx != 0 }

/-- The bound check of one lane over the stamps of its registers. -/
def staleOf (hh : Nat) (h : Word) (bound : Option Word) (old : Nat) (sts : List (Stamp × Nat)) (lane : Nat) (va : DWord) : Option StaleLane :=
  let bad := sts.filterMap fun st => (boundCause hh h bound old st.1).map fun c => (c, st)
  let pick := match bad.find? fun b => b.1 == 0x084 with
    | some b => some b
    | none => bad.head?
  pick.map fun b => { lane, cause := b.1, stamp := b.2.1, bound := bound.getD 0, rdidx := b.2.2, va }

/-- Pop `n` entries of a chute for the lanes of an LDS. -/
def State.popChute (s : State) (x : Ctx) (f : MemF) (c : Nat) : State :=
  let t := s.team x.sl.team
  let key := chuteKey t (coreOf x.c.g) c
  let entries := t.chuteAt (coreOf x.c.g) c
  let lanes := x.runLanes f.d
  if !chuteReady false entries lanes.length then s
  else
    let took := lanes.zip entries
    let stale := took.filterMap fun p =>
      staleOf x.hh x.h (x.bound f (s.fibre p.1.2)) 0x080 [(p.2.st, 0)] p.1.1 (x.eaTeam f (s.fibre p.1.2))
    match staleTrap 0x080 stale with
    | some tr =>
      s.raise x.c.g { x.trap tr.cause .precise tr.lanes x.lanesOf with
        addr := tr.va, stamp := tr.stamp, bound := tr.bound, hzn := x.h } none
    | none =>
      let s := s.modTeam x.sl.team fun t => { t with chutes := aset t.chutes key (entries.drop lanes.length) }
      let s := took.foldl (fun s p =>
        let regs := resultRegs f.ty ((p.2.val.toNat % 2 ^ f.ty.bits : Nat) : Int) p.2.st p.2.st
        let s := s.writeDst x.c.g p.1.2 f.d regs
        s.modFibre p.1.2 fun fb => { (fb.learn .vec p.2.carry) with after := union fb.after p.2.after, refires := 0 }) s
      s.advance x

/-- R182, R170: LDS. -/
def execLds (f : MemF) (s : State) : Host.Outcome State Fault Refusal :=
  onSlot f.g s fun x s =>
    let ps := teamPlaces x s f .load
    match chuteOf f.ty (ps.map fun p => p.2.2.2) with
    | some (.ok c) => s.popChute x f c
    | r => s.startLoad x (.lds f) f (ps.map fun p =>
        let q := match r with
          | some (.error c) => chuteMiss c p.2.2.2 p.2.2.1
          | _ => p.2.2.2
        (p.1, p.2.1, p.2.2.1, match q with
          | .ok (.bytes pg) => .ok { units := [pg.unit 0 f.ty.bytes] }
          | .ok (.chute _) => .error ⟨0x047, false, 0⟩
          | .error m => .error m))

/-! ### Stores -/

/-- The data of a store in one lane: its bytes with the stamps of the registers they come from. -/
def dataBytes (o : Opnd) (ty : Ty) : List (Byte × Stamp) :=
  (bytesLE ty.bytes o.val).zipIdx.map fun b => (b.1, if b.2 < 4 then o.lo else o.hi)

/-- A lane of a store after its checks. -/
structure StoreLane where
  lane : Nat
  fibre : Nat
  va : DWord
  pg : Page
  data : Opnd
  deriving DecidableEq, Repr

/-- Keep a store operation, or end it once nothing of it is left. -/
def State.keepStore (s : State) (o : Nat) (h : OpHead) (ws : List LaneWrite) : State :=
  let ws := ws.filter fun w => !w.bytes.isEmpty
  if ws = [] then s.endOp o h else s.setOp o ⟨h, .store ws⟩

/-- The bytes that a lane of a store writes in a granule. -/
def LaneWrite.inGran (w : LaneWrite) (gran : Nat) : List (Nat × (Byte × Stamp)) := w.bytes.filter fun b => b.1 / 32 == gran

/-- R147: the stamp of a lane of a store that the egress bound of its port keeps back as it is about to leave. -/
def State.egressBad (s : State) (p : Nat) (bs : List (Nat × (Byte × Stamp))) : Option Stamp :=
  (bs.find? fun b => match s.egressPort p b.1 with
    | none => false
    | some port => !s.egressOk p port b.2.2).map fun b => b.2.2

/-- R147: the egress bound of the port of a location. -/
def State.egMax (s : State) (p loc : Nat) : Word :=
  BitVec.ofNat 32 (((s.egressPort p loc).map fun port => (mget PortStamp.zero (s.part p).ports port).egmax).getD 0)

/-- R147: lanes `now` of a store are about to leave through a port: those that its bound keeps back are not sent, and raise 0x083,
late. `none` where it lets all of them pass. -/
def State.turnBack (s : State) (o : Nat) (h : OpHead) (ws now : List LaneWrite) : Option State :=
  match now.filterMap fun w => (s.egressBad h.part w.bytes).map fun st => (w, st) with
  | [] => none
  | (w, st) :: rest =>
    let bad := (w, st) :: rest
    some ((s.keepStore o h (ws.filter fun v => !(bad.any fun b => b.1.id == v.id))).raiseLate h
      { h.trap 0x083 .late (bad.map fun b => b.1.lane) [] w.va with
        stamp := st, hzn := tstamp (s.part h.part).time, bound := s.egMax h.part ((w.bytes.head?.map fun b => b.1).getD 0) })

/-- The bytes of a store that lie in a granule at another device leave in one flit (R308), once the writes that are hb them allow it
and the bound of the port does (R147); 0x180, late, where every route is down. -/
def State.sendGran (s : State) (o : Nat) (h : OpHead) (ws : List LaneWrite) (gran : Nat) : State :=
  let now := ws.filter fun w => w.remote.isNone && w.inGran gran ≠ []
  let bs := now.flatMap fun w => w.inGran gran
  let locs := bs.map fun b => b.1
  if now = [] || s.farHeld locs (now.flatMap fun w => w.preds) (now.flatMap fun w => w.carry)
      || s.heldBack locs [] [] (now.flatMap fun w => w.after) then s
  else if let some t := s.turnBack o h ws now then t
  else
    let cells := bs.map fun b => (b.1, b.2.1)
    let st := olderAll (tstamp (s.part h.part).time) (bs.map fun b => b.2.2)
    let mine (w : LaneWrite) : Bool := now.any fun v => v.id == w.id
    match s.request h.part (remoteDev (gran * 32)) 2 (remoteOff (gran * 32)) 0 (granPayload cells gran) [st] (granEnables cells gran) with
    | none => (s.keepStore o h (ws.filter fun w => !mine w)).raiseLate h
        (h.trap 0x180 .late (now.map fun w => w.lane) [] ((now.head?.map fun w => w.va).getD 0))
    | some (tag, s) =>
      let s := now.foldl (fun s w => s.noteFar ⟨w.id, false, (w.inGran gran).map (fun b => (b.1, b.2.1)), w.carry⟩) s
      s.setOp o ⟨h, .store (ws.map fun w => if mine w then { w with remote := some tag } else w)⟩

/-- Write the lanes of a store that passed (R165, R166, R176): one operation counted in `st`. A FENCE with `.rel` before it makes it a
release too (R254, R290). -/
def State.startStore (s : State) (x : Ctx) (ty : Ty) (rel : Bool) (sys : Bool) (ok : List StoreLane) : State :=
  let step (acc : List LaneWrite × State) (l : StoreLane) :=
    let (p, s) := acc.2.newWrite l.fibre .vec rel
    (acc.1 ++ [{ lane := l.lane, fibre := l.fibre, va := l.va, id := p.id
                 bytes := (from_ l.pg.loc ty.bytes).zip (dataBytes l.data ty), preds := p.preds, carry := p.carry
                 after := p.after, timeless := l.pg.timeless, swm := l.pg.swm, remote := none }], s)
  let (ws, s) := ok.foldl step ([], s)
  let ws := (survivors ws).filter fun w => !w.bytes.isEmpty
  let far := granulesOf ((ws.flatMap fun w => w.bytes.map fun b => b.1).filter isRemote)
  let s := if rel && sys then { s with sysKnow := ws.foldl (fun m w => union m w.carry) s.sysKnow } else s
  let pub := (ok ≠ [] && (rel || ws.any fun w => w.carry ≠ [])) || ok.any fun l => l.pg.swm || (s.egressPort x.l.part l.pg.loc).isSome
  let s := if pub then s.modTeam x.sl.team fun t => { t with published := true } else s
  if ws = [] then s
  else
    let op := s.uid
    far.foldl (fun s gr => match aget? s.ops op with
      | some ⟨h, .store ws⟩ => s.sendGran op h ws gr
      | _ => s) (s.startOp x .st (.store ws))

/-- R176, R177, R146: the course of ST, SCT and STS to bytes. A cause of R171 in some lane stops every lane (R283). -/
def State.storeLanes (s : State) (x : Ctx) (f : MemF) (ps : List (Nat × Nat × DWord × Except Miss Target)) : State :=
  let ms := ps.filterMap fun p => match p.2.2.2 with
    | .error m => some (m.lane p.1 p.2.2.1)
    | _ => none
  match missCause ms with
  | some (c, va, serve) => s.raise x.c.g { x.trap c .precise x.lanesOf x.lanesOf with addr := va } serve
  | none =>
    let ls : List StoreLane := ps.filterMap fun p => match p.2.2.2 with
      | .ok (.bytes pg) => some { lane := p.1, fibre := p.2.1, va := p.2.2.1, pg, data := x.read (s.fibre p.2.1) f.ty 0 f.d }
      | _ => none
    let check (l : StoreLane) : Option StaleLane :=
      let sts := if f.ty.wide then [(l.data.lo, 0), (l.data.hi, 0)] else [(l.data.lo, 0)]
      match staleOf x.hh x.h (x.bound f (s.fibre l.fibre)) 0x081 sts l.lane l.va with
      | some b => some b
      | none => match s.egressPort x.l.part l.pg.loc with
        | none => none
        | some port => (sts.find? fun st => !s.egressOk x.l.part port st.1).map fun st =>
            { lane := l.lane, cause := 0x083, stamp := st.1, bound := s.egMax x.l.part l.pg.loc, rdidx := 0, va := l.va }
    let stale := ls.filterMap check
    let ok := ls.filter fun l => (check l).isNone
    let s := s.startStore x f.ty (f.ord = .rel) (f.scope = .sys) ok
    match staleTrap 0x081 stale with
    | some tr => s.raise x.c.g { x.trap tr.cause .partly tr.lanes tr.lanes with
        addr := tr.va, stamp := tr.stamp, bound := tr.bound
        hzn := if tr.cause = 0x083 then tstamp (s.part x.l.part).time else x.h } none
    | none => s.advance x

/-- R176: ST. -/
def execSt (f : MemF) (s : State) : Host.Outcome State Fault Refusal :=
  onSlot f.g s fun x s => s.storeLanes x f ((x.runLanes f.d).map fun a =>
    let va := x.ea f (s.fibre a.2)
    (a.1, a.2, va, s.place (x.who s) .store va f.ty.bytes false))

/-- R176: SCT. -/
def execSct (f : MemF) (s : State) : Host.Outcome State Fault Refusal :=
  onSlot f.g s fun x s => s.storeLanes x f ((x.runLanes f.d).map fun a =>
    let va := x.ea f (s.fibre a.2)
    (a.1, a.2, va, s.place (x.who s) .store va f.ty.bytes false))

/-- R170: push one entry for each lane; a release, by `.rel` or by a FENCE before it, publishes (R254, R290). -/
def State.pushChute (s : State) (x : Ctx) (f : MemF) (c : Nat) : State :=
  let t := s.team x.sl.team
  let key := chuteKey t (coreOf x.c.g) c
  let entries := t.chuteAt (coreOf x.c.g) c
  let lanes := x.runLanes f.d
  if !chuteReady true entries lanes.length then s
  else
    let data := lanes.map fun a => (a, x.read (s.fibre a.2) f.ty 0 f.d)
    let stale := data.filterMap fun p =>
      staleOf x.hh x.h (x.bound f (s.fibre p.1.2)) 0x081 (if f.ty.wide then [(p.2.lo, 0), (p.2.hi, 0)] else [(p.2.lo, 0)]) p.1.1
        (x.eaTeam f (s.fibre p.1.2))
    match staleTrap 0x081 stale with
    | some tr =>
      s.raise x.c.g { x.trap tr.cause .precise tr.lanes x.lanesOf with
        addr := tr.va, stamp := tr.stamp, bound := tr.bound, hzn := x.h } none
    | none =>
      let new := data.map fun p =>
        { val := BitVec.ofNat 64 p.2.val, st := older x.h p.2.lo p.2.hi, carry := (s.fibre p.1.2).vec.know, after := (s.fibre p.1.2).after : ChuteEntry }
      (s.modTeam x.sl.team fun t =>
        { t with chutes := aset t.chutes key (entries ++ new), published := t.published || (new ≠ [] && (f.ord == .rel || lanes.any fun a => (s.fibre a.2).relFence.isSome)) }).advance x

/-- R182, R170: STS. -/
def execSts (f : MemF) (s : State) : Host.Outcome State Fault Refusal :=
  onSlot f.g s fun x s =>
    let ps := teamPlaces x s f .store
    match chuteOf f.ty (ps.map fun p => p.2.2.2) with
    | some (.ok c) => s.pushChute x f c
    | some (.error c) => s.storeLanes x f (ps.map fun p => (p.1, p.2.1, p.2.2.1, chuteMiss c p.2.2.2 p.2.2.1))
    | none => s.storeLanes x f ps

/-! ### Prefetch, cache control, banks, write log -/

/-- R183: PREF has no effect on any value or stamp and raises no cause. -/
def execPref (f : MemF) (s : State) : Host.Outcome State Fault Refusal :=
  onSlot f.g s fun x s => s.advance x

/-- R184: the course of CCTL: lines of the lanes whose address meets no cause; counted in `st`. -/
def State.cctl (s : State) (x : Ctx) (f : MemF) (lu : Bool) : State :=
  let ps := x.act.map fun a =>
    let va := x.ea f (s.fibre a.2)
    (a.1, va, s.placeBytes (x.who s) .cctl va 1)
  let ms := ps.filterMap fun p => match p.2.2 with
    | .error m => some (m.lane p.1 p.2.1)
    | .ok _ => none
  let lines := (ps.filterMap fun p => match p.2.2 with
    | .ok pg => if pg.loc < 2 ^ 60 then some (pg.loc / 128) else none
    | .error _ => none).eraseDups
  let op := s.uid
  let s := if lines = [] then s else s.startOp x .st (.cctl lines lu (f.scope = .sys))
  let s := if lu && lines ≠ [] then
      x.act.foldl (fun s a => s.modFibre a.2 fun fb => { fb with after := union fb.after [readId op a.1] }) s
    else s
  match missCause ms with
  | some (c, va, serve) =>
    let lm := ms.map fun m => m.lane
    s.raise x.c.g { x.trap c .partly lm lm with addr := va } serve
  | none => s.advance x

/-- R184: CCTL.wb. -/
def execCctlWb (f : MemF) (s : State) : Host.Outcome State Fault Refusal :=
  onSlot f.g s fun x s => s.cctl x f false

/-- R184: CCTL.inv; dropping the clean copy changes no value that a load may return (R168). -/
def execCctlInv (f : MemF) (s : State) : Host.Outcome State Fault Refusal :=
  onSlot f.g s fun x s => s.cctl x f false

/-- R184: CCTL.lu. -/
def execCctlLu (f : MemF) (s : State) : Host.Outcome State Fault Refusal :=
  onSlot f.g s fun x s => s.cctl x f true

/-- Teams whose resources stand on a cluster. -/
def State.teamsOn (s : State) (cl : Nat) : List Team :=
  (s.teams.map fun x => x.2).filter fun t => t.state.isPlaced && clusterOf t.core == cl

/-- R284: the groom's reserved team: on local core 15 of every die of a partition, with one weave of 16 lanes and 64
registers in each quarter and 16 units of scratch, taken before any other team. -/
def State.groomOn (s : State) (core : Nat) : Bool :=
  core % 16 == 15 && s.parts.any fun p => p.2.dies.getLsbD (dieOf core)

/-- Units of a bank that teams hold, and whether it is a chute bank (R34, R35). -/
def State.bankUnits (s : State) (cl bank : Nat) : Nat :=
  (if bank = 0 && s.groomOn (4 * cl + 3) then 16 else 0) + ((s.teamsOn cl).map fun t => ((t.units.filter fun u => u.1 == bank).map fun u => u.2).sum).sum
def State.isChuteBank (s : State) (cl bank : Nat) : Bool :=
  (s.teamsOn cl).any fun t => t.chuteBanks.any fun h => h.2.contains bank

def State.cluster (s : State) (cl : Nat) : Cluster := (aget? s.clusters cl).getD Cluster.zero
def State.setCluster (s : State) (cl : Nat) (x : Cluster) : State := { s with clusters := mset Cluster.zero s.clusters cl x }
def Cluster.mode (c : Cluster) (bank : Nat) : BankMode := mget .cache c.modes bank
def Cluster.setMode (c : Cluster) (bank : Nat) (m : BankMode) : Cluster := { c with modes := mset .cache c.modes bank m }

/-- R185: BANKCFG. A bank put in cache mode is not lent (R34); a bank that was a lent one stays in cache mode and is not counted as
changed. A bank on its way to scratch drains first, and the slot waits until every drain has finished. -/
def execBankcfg (f : MemF) (s : State) : Host.Outcome State Fault Refusal :=
  onSlot f.g s fun x s =>
    if x.act = [] then s.advance x
    else
      let fb := x.first s
      let cl := clusterOf (coreOf x.c.g)
      let c := s.cluster cl
      let free := (bitList 32 (x.read fb .b32 0 f.a).val).filter fun b => s.bankUnits cl b == 0 && !s.isChuteBank cl b
      if f.ext.maxage = 0 then
        let back := free.filter fun b => c.mode b == .scratch || c.mode b == .lent
        let s := s.setCluster cl (free.foldl (fun c b => c.setMode b .kept) c)
        (s.writeDst x.c.g 0 f.d [(0, ⟨BitVec.ofNat 32 (laneMask back), 0⟩)]).advance x
      else
        let out := free.filter fun b => c.mode b != .scratch
        let mask : Word := BitVec.ofNat 32 (laneMask out)
        if out = [] then (s.writeDst x.c.g 0 f.d [(0, ⟨mask, 0⟩)]).advance x
        else
          let s := s.setCluster cl { c with draining := union c.draining out }
          (s.advance x).modSlot x.c.g fun sl => { sl with wait := .banks out f.d mask }

/-- A team all of whose banks have drained starts, unless it waits for its coresident launch (R35, R36). -/
def State.startDrained (s : State) (cl : Nat) : State :=
  let c := s.cluster cl
  { s with teams := s.teams.map fun (t : Nat × Team) =>
      let mine := t.2.units.map (fun u => u.1) ++ t.2.chuteBanks.flatMap fun h => h.2
      if t.2.state = .held && clusterOf t.2.core = cl && !(s.launch t.2.launch).coresident
          && mine.all fun b => !c.draining.contains b then
        (t.1, { t.2 with state := .running })
      else t }

/-- R35, R185: the drain of a bank finishes: a slot that waits in BANKCFG sets the bank's mode, and goes on after the last. -/
def execBankDrainDone (cl bank : Nat) (s : State) : Host.Outcome State Fault Refusal :=
  let c := s.cluster cl
  if !c.draining.contains bank then .next s
  else
    let cfg := s.slots.any fun x => clusterOf (coreOf x.1) == cl && (match x.2.wait with
      | .banks left _ _ => left.contains bank
      | _ => false)
    let c := { c with draining := c.draining.filter fun b => b != bank }
    let s := s.setCluster cl (if cfg then c.setMode bank .scratch else c)
    let step (x : Nat × Slot) : Nat × Slot := match x.2.wait with
      | .banks left d mask =>
        if clusterOf (coreOf x.1) = cl && left.contains bank then
          let left := left.filter fun b => b != bank
          if left = [] then
            let sl := { x.2 with wait := .none }
            (x.1, match d with
              | .scl n => sl.write n.toNat [(0, ⟨mask, 0⟩)]
              | _ => sl)
          else (x.1, { x.2 with wait := .banks left d mask })
        else x
      | _ => x
    .next ({ s with slots := s.slots.map step }.startDrained cl)

/-- R186: WLOG: a marker, written after the records of the weave's earlier stores; counted in `st`. -/
def execWlog (f : MemF) (s : State) : Host.Outcome State Fault Refusal :=
  onSlot f.g s fun x s =>
    if x.act = [] then s.advance x
    else (s.startOp x .st (.wlog (BitVec.ofNat 32 (x.read (x.first s) .b32 0 f.a).val))).advance x

/-! ### Data arrives -/

/-- What one lane of a load gives when its data arrives. -/
inductive LaneArr where
  | miss (m : LaneMiss)
  | stale (l : StaleLane)
  | data (regs : List (Nat × Reg)) (exc : Flags) (src : List WEv)
  deriving DecidableEq, Repr

/-- Read the units of a lane at their homes, or from what another device sent. `none`: nothing may be returned yet. -/
def State.readUnits (s : State) (r : LaneRead) (rd : Reader) : List ReadUnit → Option (List (Nat × ReadOut × Nat) × State)
  | [] => some ([], s)
  | u :: us =>
    let one : Option (ReadOut × State) :=
      if u.locs.any isRemote then
        some ({ bytes := u.locs.map fun a => (aget? r.got a).getD (Config.undefByte a)
                stamps := u.locs.map fun a => (aget? r.gotSt (a / 32)).getD (Config.undefStamp (a / 32))
                src := s.farSrc r.got }, s)
      else s.readUnit rd u.timeless u.locs
    match one with
    | none => none
    | some (o, s) => (s.readUnits r rd us).map fun q => ((u.k, o, u.rdidx) :: q.1, q.2)

/-- R180: the value of an element under its format. -/
def ldeValue (fmt nib : Nat) (elem expo : Nat) : FV :=
  match fmt with
  | 7 => txValue (txOf .tx4) expo (bitsN elem (4 * nib) 4)
  | 8 => txValue (txOf .tx8) expo elem
  | 9 => mxValue (expo % 256) elem
  | _ => decodeF (fmtOf (fmtTy fmt)) elem

/-- The registers that a lane's data gives, each with the descriptor of a page it came from, and the exceptions (R93, R176,
R180, R181). -/
def loadRegs (i : Instr) (h : Word) (r : LaneRead) (outs : List (Nat × ReadOut × Nat)) (expo : ReadOut) : List (Nat × Reg × Nat) × Flags :=
  let rd := (outs.head?.map fun o => o.2.2).getD 0
  let bytes := outs.flatMap fun o => o.2.1.bytes
  let st := olderAll h ((outs.flatMap fun o => o.2.1.stamps) ++ expo.stamps)
  match i with
  | .lde f =>
    let v := cvtV (fmtOf f.ty) .rne (ldeValue r.fmt r.nib (leNat bytes) (leNat expo.bytes))
    ((fpRegs f.ty v.1 st).map fun p => (p.1, p.2, rd), v.2)
  | .ldt _ =>
    let cells := outs.flatMap fun o => (o.2.1.bytes.zip o.2.1.stamps).zipIdx.map fun b => (o.1 + b.2, b.1, o.2.2)
    let last := cells.foldl (fun m c => max m (c.1 / 4)) 0
    ((List.range (last + 1)).map fun k =>
      let mine := cells.filter fun c => c.1 / 4 == k
      let val := mine.foldl (fun v c => v + c.2.1.1.toNat * 2 ^ (8 * (c.1 % 4))) 0
      (k, ⟨BitVec.ofNat 32 val, olderAll h (mine.map fun c => c.2.1.2)⟩, (mine.head?.map fun c => c.2.2).getD 0), 0)
  | .ld f | .ldg f | .lds f => ((resultRegs f.ty (leNat bytes : Int) st st).map fun p => (p.1, p.2, rd), 0)
  | _ => ([], 0)

def memFOf : Instr → Option MemF
  | .ld f | .ldg f | .lde f | .ldt f | .lds f => some f
  | _ => none

/-- One lane's data arrives: its home's causes, then its values, then its bound (R145). -/
def State.arriveLane (s : State) (h : OpHead) (o : Nat) (i : Instr) (r : LaneRead) : Option (LaneArr × State) :=
  let us := r.units ++ r.expo.toList
  match firstSome (fun a => if isRemote a then none else s.homeCause true a 1) (us.flatMap fun u => u.locs) with
  | some c => some (.miss ⟨r.lane, c, false, r.va⟩, s)
  | none =>
    let rd : Reader := { rid := readId o r.lane, know := r.know, seen := (s.fibre r.fibre).vec.seen, issuedAt := h.issuedAt }
    match s.readUnits r rd r.units with
    | none => none
    | some (outs, s) =>
      match s.readUnits r rd r.expo.toList with
      | none => none
      | some (ex, s) =>
        let hz := s.hz h.core
        let expo := ex.foldl (fun m o => m.append o.2.1) ReadOut.empty
        let (regs, exc) := loadRegs i hz r outs expo
        match staleOf (s.part h.part).interval hz r.bound 0x080 (regs.map fun g => (g.2.1.st, g.2.2)) r.lane r.va with
        | some b => some (.stale b, s)
        | none => some (.data (regs.map fun g => (g.1, g.2.1)) exc ((outs.flatMap fun o => o.2.1.src) ++ expo.src), s)

/-- All lanes, lowest first. -/
def State.arriveLanes (s : State) (h : OpHead) (o : Nat) (i : Instr) : List LaneRead → Option (List (LaneRead × LaneArr) × State)
  | [] => some ([], s)
  | r :: rs => match s.arriveLane h o i r with
    | none => none
    | some (a, s) => (s.arriveLanes h o i rs).map fun q => ((r, a) :: q.1, q.2)

/-- A line has been dropped by the reads `rids`, as event `id`: what stands after one of them comes after the drop. -/
def State.noteDrop (s : State) (rids : List Nat) (id : Nat) : State :=
  -- a list of what is hb an event, of which `aft` lists the reads in flight before it
  let note (aft l : List Nat) : List Nat := if (aft ++ l).any fun r => rids.contains r then union l [id] else l
  let noteF (f : Fibre) : Fibre :=
    let v (p : Path) (f : Fibre) : Fibre := f.setView p { f.view p with know := note (if p = .vec then f.after else []) (f.view p).know }
    { (v .coll (v .vp (v .mx (v .cp (v .vec f))))) with pendAcq := note [] f.pendAcq, relFence := f.relFence.map (note []) }
  let noteR (r : Rec) : Rec := { r with know := note r.after r.know }
  let noteL (m : List (Nat × List Nat)) (aft : Nat → List Nat) : List (Nat × List Nat) := m.map fun (x : Nat × List Nat) => (x.1, note (aft x.1) x.2)
  let noteB : OpBody → OpBody
    | .store ws => .store (ws.map fun w => { w with preds := note w.after w.preds, carry := note [] w.carry })
    | .atomic i ls m => .atomic i (ls.map fun l => { l with preds := note l.after l.preds, carry := note [] l.carry }) m
    | .append ls => .append (ls.map fun l => { l with know := note l.after l.know, carry := note [] l.carry })
    | .load i rs m => .load i (rs.map fun r => { r with know := note [] r.know }) m
    | b => b
  { s with
    fibres := s.fibres.map fun (f : Nat × Fibre) => (f.1, noteF f.2)
    hist := s.hist.map fun (w : WEv) => { w with preds := note w.after w.preds, carry := note [] w.carry }
    ops := s.ops.map fun (o : Nat × Op) =>
      (o.1, { o.2 with head := { o.2.head with know := note o.2.head.after o.2.head.know }, body := noteB o.2.body })
    teams := s.teams.map fun (t : Nat × Team) => (t.1, { t.2 with
      know := note [] t.2.know, gone := note [] t.2.gone
      savedRecs := t.2.savedRecs.map fun (r : Nat × Rec) => (r.1, noteR r.2)
      chutes := t.2.chutes.map fun (c : Nat × List ChuteEntry) => (c.1, c.2.map fun e => { e with carry := note e.after e.carry }) })
    quarters := s.quarters.map fun (q : Nat × Quarter) => (q.1, { q.2 with recs := q.2.recs.map noteR })
    chunks := s.chunks.map fun (c : Nat × Chunk) => (c.1, { c.2 with recs := c.2.recs.map noteR })
    launches := s.launches.map fun (l : Nat × Launch) => (l.1, { l.2 with know := note [] l.2.know, out := note [] l.2.out })
    runs := s.runs.map fun (r : Nat × Run) => (r.1, { r.2 with
      know := note r.2.after r.2.know
      nodes := r.2.nodes.map fun (n : Nat × NodeState) => (n.1, { n.2 with carry := note [] n.2.carry }) })
    graphs := s.graphs.map fun (g : Nat × Graph) => (g.1, { g.2 with carry := noteL g.2.carry fun _ => [] })
    trees := s.trees.map fun (t : Nat × Tree) => (t.1, { t.2 with
      know := noteL t.2.know fun n => mget [] t.2.after n
      part := t.2.part.map fun (a : Nat × Arrivals) => (a.1, { a.2 with know := note a.2.after a.2.know }) })
    scSet := note [] s.scSet, sysKnow := note [] s.sysKnow, hostKnow := note [] s.hostKnow
    farKnow := note [] s.farKnow, farRel := s.farRel.map fun (r : FarRel) => { r with carry := note [] r.carry } }

/-- R172, R184: a line is dropped without write-back, by the reads `rids`: its bytes and stamps are undefined until a later write. A
write that one of the reads stands before is not lost; an unordered one made earlier is. -/
def State.dropLine (s : State) (rids : List Nat) (line : Nat) : State :=
  let lo := line * 128
  let keeps (a : Nat) : Bool := s.hist.any fun w => w.touches a && w.after.any fun r => rids.contains r
  let byte (a : Nat) : Byte := BitVec.ofNat 8 ((Config.freeValue (s.free + a % 128 / 8)).toNat / 2 ^ (8 * (a % 8)))
  let locs := (from_ lo 128).filter fun a => !keeps a
  let now := (from_ lo 128).zip (memRun s.mem lo 128)
  let after : List (Nat × Stamp) := (granulesOf locs).map fun g => (g, Config.freeStamp (s.free + g % 4))
  let ev : WEv :=
    { id := s.uid, bytes := locs.map fun a => (a, byte a), old := now.filter fun c => locs.contains c.1, gAfter := after
      gBefore := after.map fun g => (g.1, stampRead s.stamps g.1)
      preds := (s.hist.filter fun w => w.bytes.any fun b => b.1 / 128 == line).map fun w => w.id
      carry := [], after := [], clk := s.clock }
  let t : State :=
    { s with uid := s.uid + 1, free := s.free + 16, mem := memFill s.mem lo (now.map fun c => if locs.contains c.1 then byte c.1 else c.2)
             stamps := after.foldl (fun m x => aset m x.1 x.2) s.stamps, hist := s.hist ++ [ev] }
  t.noteDrop rids ev.id

/-- Every unit that a lane reads, its exponent word among them. -/
def LaneRead.all (r : LaneRead) : List ReadUnit := r.units ++ r.expo.toList

/-- An earlier read of one of the operation's fibres that shares a location with it has not returned (V3 of R245). -/
def State.blockedLoad (s : State) (o : Nat) (reads : List LaneRead) : Bool :=
  let shares (fid : Nat) (locs : List Nat) : Bool :=
    reads.any fun r => r.fibre == fid && r.all.any fun v => v.locs.any fun a => locs.contains a
  s.ops.any fun p => p.1 < o && (match p.2.body with
    | .load _ rs _ => rs.any fun q => q.all.any fun u => shares q.fibre u.locs
    | .atomic i ls _ => ls.any fun l => !(l.result.isSome || l.lost.isSome) && shares l.fibre (from_ l.loc (atomBytes i))
    | _ => false)

/-- The bounds of some lanes, which a re-fired load keeps (R149). -/
def boundsOf (reads : List LaneRead) (lanes : List Nat) : List (Nat × Word) :=
  (reads.filter fun r => lanes.contains r.lane).filterMap fun r => r.bound.map fun b => (r.lane, b)

/-- R177, R145: the one trap of a load, for the lanes that were not committed, and what the groom is to serve. -/
def loadTrap (h : OpHead) (hz : Word) (refire : Bool) (reads : List LaneRead) (ms : List LaneMiss) (stale : List StaleLane) : Option (TrapInfo × Option Serve) :=
  let lm := (List.range 64).filter fun i => (ms.any fun m => m.lane == i) || stale.any fun l => l.lane == i
  match missCause ms with
  | some (c, va, serve) => some (h.trap c .partly lm lm va, serve)
  | none => (staleTrap 0x080 stale).map fun tr =>
      let again := refire && tr.cause == 0x080 && tr.refire
      ({ h.trap tr.cause .partly lm lm tr.va with
           stamp := tr.stamp, bound := tr.bound, hzn := hz, bounds := if again then boundsOf reads lm else [] },
       if again then some (.refireNew tr.rdidx) else none)

/-- A load asks for what still lies at other devices (R174): one lane of it. -/
def State.askOn (s : State) (o : Nat) (h : OpHead) (i : Instr) (reads : List LaneRead) (ms : List LaneMiss) (r : LaneRead) : State :=
  match s.askLane h.part r with
  | none => s.setOp o ⟨h, .load i (reads.filter fun q => q.lane != r.lane) (ms ++ [⟨r.lane, 0x180, false, r.va⟩])⟩
  | some (q, s) => s.setOp o ⟨h, .load i (reads.map fun v => if v.lane = r.lane then q else v) ms⟩

/-- R145, R176, R177, R180, R181: the data of a load arrives. -/
def execLoadDataArrive (o : Nat) (s : State) : Host.Outcome State Fault Refusal :=
  match aget? s.ops o with
  | some ⟨h, .load i reads ms⟩ =>
    match memFOf i with
    | none => .next s
    | some f =>
      match reads.find? fun r => r.unasked ≠ [] with
      | some r => .next (s.askOn o h i reads ms r)
      | none =>
      if (reads.any fun r => !r.waits.isEmpty) || s.blockedLoad o reads
          || s.farOpen ((reads.flatMap fun r => r.units).flatMap fun u => u.locs) then .next s
      else match s.arriveLanes h o i reads with
        | none => .next s
        | some (arr, s) =>
          let hz := s.hz h.core
          let ms := ms ++ arr.filterMap fun a => match a.2 with
            | .miss m => some m
            | _ => none
          let stale := arr.filterMap fun a => match a.2 with
            | .stale l => some l
            | _ => none
          let data := arr.filterMap fun a => match a.2 with
            | .data regs exc src => some (a.1, regs, exc, src)
            | _ => none
          let exc := data.foldl (fun m d => m ||| d.2.2.1) (0 : Flags)
          let en := match firstFlag (exc &&& (s.slot h.g).fmask) with
            | some k => if (s.slot h.g).team = h.team then some k else none
            | none => none
          let trap := match en with
            | none => loadTrap h hz f.ext.refire reads ms stale
            | some (k, bit) =>
              let all := reads.map fun r => r.lane
              if ms = [] && stale = [] then
                some (h.trap (0x0C0 + k) .precise ((data.filter fun d => d.2.2.1 &&& bit != 0).map fun d => d.1.lane) all 0, none)
              else (loadTrap h hz f.ext.refire reads ms stale).map fun t =>
                ({ t.1 with lmask := all, rmask := all }, t.2)
          let write := if en.isSome then [] else data
          let s := write.foldl (fun s d =>
            (s.opWrite h d.1.fibre f.d d.2.1).modFibre d.1.fibre fun fb => { fb with refires := 0 }) s
          let s := if en.isSome then s
            else s.modSlot h.g fun sl => if sl.team = h.team then { sl with fflags := sl.fflags ||| exc } else sl
          let read := arr.filter fun a => match a.2 with
            | .miss _ => false
            | _ => true
          let lines := ((read.flatMap fun a => (a.1.units ++ a.1.expo.toList).flatMap fun u => u.locs).filter fun a => a < 2 ^ 60).map (· / 128)
          let s := if f.lu then lines.eraseDups.foldl (fun s l => s.dropLine (reads.map fun r => readId o r.lane) l) s else s
          let s := data.foldl (fun s d => s.receive d.1.fibre .vec (f.ord = .acq) d.2.2.2) s
          let s := data.foldl (fun s d =>
            s.settle (readId o d.1.lane) (d.2.2.2.foldl (fun m w => union m w.after) [])) s
          let s := reads.foldl (fun s r => s.settle (readId o r.lane) []) s
          let s := s.endOp o h
          .next (match trap with
            | some (t, serve) => s.queueTrap h t serve
            | none => s)
  | _ => .next s

/-! ### Stores are applied -/

/-- An earlier store of the same slot is still to be applied (R186). -/
def State.earlierStore (s : State) (o : Nat) (h : OpHead) : Bool :=
  (s.opsOf h.g h.team).any fun p => p.1 < o && (match p.2.body with
    | .store _ | .atomic .. | .cctl .. | .wlog _ => true
    | _ => false)

/-- R147, R165, R178, R179, R186: the home applies the bytes of a store that fall in one granule. -/
def State.applyStore (s : State) (o : Nat) (h : OpHead) (ws : List LaneWrite) (gran : Nat) : State :=
  let mine (w : LaneWrite) : List (Nat × (Byte × Stamp)) := w.inGran gran
  let now := ws.filter fun w => w.remote.isNone && mine w ≠ []
  let locs := now.flatMap fun w => (mine w).map fun b => b.1
  if now = [] || s.heldBack locs (now.flatMap fun w => w.preds) (now.flatMap fun w => w.carry) (now.flatMap fun w => w.after) then s
  else
    let left := ws.map fun w => { w with bytes := w.bytes.filter fun b => b.1 / 32 != gran }
    let late (s : State) (c : Nat) : State :=
      s.raiseLate h (h.trap c .late (now.map fun w => w.lane) [] ((now.head?.map fun w => w.va).getD 0))
    if let some t := s.turnBack o h ws now then t
    else match s.writeCause (gran * 32) 1 (now.flatMap mine) with
    | some c => late (s.keepStore o h left) c
    | none =>
      let s := now.foldl (fun s w => if w.swm then s.logLine h.part w.va.toNat (gran * 32) else s) s
      let s := s.commit h.core (now.any fun w => w.timeless)
        (now.map fun w => { id := w.id, bytes := mine w, preds := w.preds, carry := w.carry, after := w.after })
      s.keepStore o h left

/-- A write into one of a CCTL's lines that is hb it, of whichever fibre, is still to be applied (R241, R264). -/
def State.earlierIn (s : State) (h : OpHead) (lines : List Nat) : Bool :=
  s.pending.any fun p => h.know.contains p.1 && p.2.1.any fun a => lines.contains (a / 128)

/-- STORE_APPLY: a store at its home (R165), or on its way to another device (R174); a CCTL whose effect has reached its scope (R184);
a marker of WLOG (R186). -/
def execStoreApply (o gran : Nat) (s : State) : Host.Outcome State Fault Refusal :=
  match aget? s.ops o with
  | some ⟨h, .store ws⟩ => .next (if isRemote (gran * 32) then s.sendGran o h ws gran else s.applyStore o h ws gran)
  | some ⟨h, .cctl lines lu sys⟩ =>
    if s.earlierIn h lines then .next s
    else
    let s := if lu then
        let s := lines.foldl (fun s l => s.dropLine (h.lanes.map fun a => readId o a.1) l) s
        h.lanes.foldl (fun s a => s.settle (readId o a.1) []) s
      else if sys then
        let ids := s.writersOf (lines.flatMap fun l => from_ (l * 128) 128)
        let s := { s with sysKnow := union s.sysKnow ids }
        s.modPart h.part fun p => { p with wlogged := p.wlogged.filter fun l => !lines.contains l }
      else s
    .next (s.endOp o h)
  | some ⟨h, .wlog mark⟩ =>
    if s.earlierStore o h then .next s
    else
      let s := if (s.part h.part).wlogOn then (s.logRecord h.part (2 * 2 ^ 62 + h.core * 2 ^ 40 + mark.toNat)).2 else s
      .next (s.endOp o h)
  | _ => .next s

end Sys2Proof.Machine
end

