-- ==== Sys2Proof/Machine/Control.lean ====
section
/-!
DEFINITION. Control, barriers and phases: NOP to TRAP, BAR and PHASE, with the steps of the weave former (R43, R67 to R79,
R257 to R260).
-/
namespace Sys2Proof.Machine

/-! ### Code lines as a transfer sees them (R39, R43) -/

def parity (n w : Nat) : Bool := (bitList w n).length % 2 == 1

/-- R39, R40: the fields of a line word. -/
def lineCount (w : Nat) : Nat := bitsN w 14 3
def lineTgt (w slot : Nat) : Bool := w.testBit (27 + slot)
def linePair (w slot : Nat) : Bool := w.testBit (23 + slot)
def lineSpar (w slot : Nat) : Bool := w.testBit (18 + slot)

/-- R40, R59: the cause of a line word, in the order of R59. -/
def lineCause (w : Nat) : Option Nat :=
  if parity w 32 then some 0x006
  else if bitsN w 0 14 != 0 then some 0x009
  else if lineCount w = 0 || 5 < lineCount w then some 0x008
  else none

/-- The contents of a granule: the current ones, or with the first `k` of its writes `ws` applied. -/
def State.granuleAfter (s : State) (ws : List WEv) (gr k : Nat) : List (Option WEv × Byte) :=
  (from_ (gr * 32) 32).map fun a =>
    let c := ((ws.take k).filter fun w => w.touches a).getLast?
    (c, match c, ws.find? fun w => w.touches a with
      | some w, _ => (w.at? a).getD 0
      | none, some w => (aget? w.old a).getD 0
      | none, none => s.byteAt a)

/-- Does an instruction acquire (R241)? -/
def isAcquire : Instr → Bool
  | .ld f | .lde f | .ldg f | .ldt f | .lds f => f.ord == .acq
  | .atom f | .atomf f | .cas f | .red f => f.ord == .acq || f.ord == .ar
  | _ => false

/-- R241: a load or atomic of the slot, or of a fibre that it holds now, with `.acq` is in flight. -/
def State.acquiring (s : State) (g : Nat) (sl : Slot) : Bool :=
  (s.opsHere g sl).any fun o => match o.2.body with
    | .load i .. | .atomic i .. => isAcquire i
    | _ => false

/-- A load of some of these fibres, still to arrive, reads bytes of a granule (V3 of R245). -/
def State.loadingFrom (s : State) (fids : List Nat) (gr : Nat) : Bool :=
  s.ops.any fun o => match o.2.body with
    | .load _ rs _ => rs.any fun r => fids.contains r.fibre && (r.units ++ r.expo.toList).any fun u => u.locs.any fun a => a / 32 == gr
    | _ => false

/-- R25, R239, R240: the fetch of a granule by slot `g`, an event of its fibres on path `vec`: contents as the read of R24 found
them or later ones, which the rules of R245 let those fibres see; after an acquire that is still in flight, the latest. `none` while
there are none, and while an earlier load of those fibres there is in flight (V3). -/
def State.fetchGranule (s : State) (g : Nat) (sl : Slot) (seen : List Nat) (gr : Nat) : Option (List Byte × List WEv) :=
  let ws := s.hist.filter fun w => w.bytes.any fun b => b.1 / 32 == gr
  let pend := s.pending.filter fun p => p.2.1.any fun a => a / 32 == gr
  if ws = [] && pend = [] then some (s.bytesAt (gr * 32) 32, [])
  else if s.loadingFrom sl.fids gr then none
  else
    let views := sl.fids.map fun f => (s.fibre f).vec
    let r : Reader := { rid := 0, know := views.foldl (fun m v => union m v.know) [], seen := views.foldl (fun m v => union m v.seen) []
                        issuedAt := s.clock }
    let first := ws.length - (ws.reverse.takeWhile fun w => !seen.contains w.id).length
    let first := if s.acquiring g sl then ws.length else first
    let ks := (from_ first (ws.length + 1 - first)).filter fun k => (s.granuleAfter ws gr k).zipIdx.all fun c =>
      let a := gr * 32 + c.2
      allowed r (ws.filter fun w => w.touches a) ((pend.filter fun p => p.2.1.contains a).map fun p => (p.1, p.2.2)) c.1.1
        ((ws.drop k).filter fun w => w.touches a)
    match ks[Config.pickCode s.clock (g * 2 ^ 64 + gr) % ks.length]? with
    | none => none
    | some k =>
      let bs := s.granuleAfter ws gr k
      some (bs.map fun b => b.2, (bs.filterMap fun b => b.1).eraseDups)

/-- What the fetch of a line gave. -/
inductive Line where
  /-- its 64 bytes, and the writes that they come from -/
  | bytes (bs : List Byte) (src : List WEv)
  | miss (m : Miss)
  /-- a write of the slot's own fibres is still on its way to it (R245) -/
  | later
  deriving DecidableEq, Repr

/-- The fetch of the line at a line address for slot `g` (R40, R163, R179). -/
def State.fetchLine (s : State) (g : Nat) (sl : Slot) (va : DWord) : Line :=
  let l := s.launch (s.team sl.team).launch
  if !canonical va then .miss ⟨0x040, false, 0⟩
  else if bitsN va.toNat 55 2 != 0 && !inFrames va.toNat then .miss ⟨0x041, false, 0⟩
  else match s.translate l.part .fetch va with
    | .error m => .miss m
    | .ok pg => match s.homeCause true pg.loc 64 with
      | some c => .miss ⟨c, false, pg.vbase⟩
      | none => match s.fetchGranule g sl l.codeSeen (pg.loc / 32), s.fetchGranule g sl l.codeSeen (pg.loc / 32 + 1) with
        | some a, some b => .bytes (a.1 ++ b.1) (a.2 ++ b.2)
        | _, _ => .later

/-- A cause of a transfer, an entry or a resumption: its address, and the page that the groom serves for it. -/
structure FlowCause where
  cause : Nat
  addr : DWord
  page : Option Nat
  deriving DecidableEq, Repr

/-- R43: the tests of a line's word for slot `slot`, whatever else R40 finds in the word; a line that cannot be read gives the
cause of its read (log 31). -/
def State.slotTest (s : State) (g : Nat) (sl : Slot) (pc line : DWord) (slot : Nat) (tgt : Bool) : Option FlowCause :=
  match s.fetchLine g sl line with
  | .later => none
  | .miss m => some ⟨m.cause, line, if m.groom then some m.page else none⟩
  | .bytes bs _ =>
    let w := leNat (bs.take 4)
    if lineCount w ≤ slot || (tgt && !lineTgt w slot) then some ⟨0x00A, pc, none⟩ else none

/-- R43: the cause of a transfer to a line and slot; `tgt` asks for the TGT bit. -/
def State.targetCause (s : State) (g : Nat) (sl : Slot) (l : Launch) (tgt : Bool) (line : Int) (slot : Nat) : Option FlowCause :=
  let pc := l.pcAt line slot
  if 5 ≤ slot then some ⟨0x00A, pc, none⟩
  else if line < 0 || (l.codelines : Int) ≤ line then some ⟨0x00B, pc, none⟩
  else s.slotTest g sl pc (l.pcAt line 0) slot tgt

/-- The writes that the test of a target's line returned (R239). -/
def State.targetSrc (s : State) (g : Nat) (sl : Slot) (l : Launch) (line : Int) (slot : Nat) : List WEv :=
  if slot < 5 && decide (0 ≤ line) && decide (line < (l.codelines : Int)) then
    match s.fetchLine g sl (l.pcAt line 0) with
    | .bytes _ src => src
    | _ => []
  else []

/-- R239: the fibres of a transfer receive what the tests of their targets have read. -/
def State.receiveTargets (s : State) (x : Ctx) (ts : List (Nat × Nat × Int × Nat)) : State :=
  (ts.map fun t => (t.2.1, s.targetSrc x.c.g x.sl x.l t.2.2.1 t.2.2.2)).foldl (fun (s : State) (t : Nat × List WEv) =>
    if t.2 = [] then s else s.receive t.1 .vec false t.2) s

/-- A target whose line may not be read yet (R245). -/
def State.targetLater (s : State) (g : Nat) (sl : Slot) (l : Launch) (line : Int) : Bool :=
  decide (0 ≤ line) && decide (line < (l.codelines : Int)) && s.fetchLine g sl (l.pcAt line 0) == .later

/-! ### Parting (R67) -/

/-- The fibres of `ps` under each PC, the PCs in order of their lowest lane. -/
def groupsOf (ps : List (Nat × Nat × DWord)) : List (DWord × List (Nat × Nat)) :=
  ((ps.map fun p => p.2.2).eraseDups).map fun pc => (pc, (ps.filter fun p => p.2.2 == pc).map fun p => (p.1, p.2.1))

/-- The group that stays: the largest, on a tie the one with the lowest lane. -/
def stays (gs : List (DWord × List (Nat × Nat))) : Option (DWord × List (Nat × Nat)) :=
  gs.foldl (fun best g => match best with
    | none => some g
    | some b => if b.2.length < g.2.length then some g else best) none

/-- A KIND 0 record of a fibre that leaves slot `g` for `pc` (R67 to R69). -/
def State.leaveRec (s : State) (g : Nat) (sl : Slot) (pc : DWord) (lane fid : Nat) : Rec :=
  { team := sl.team
    word := recWord false sl.role lane ((s.launch (s.team sl.team).launch).packPc pc) (s.fibre fid).preds (s.fibre fid).home 0
    ue := false, ops := (s.opsHere g sl).map fun o => o.1, know := [], after := [], since := s.clock }

def State.fileRecs (s : State) (g : Nat) (rs : List Rec) : State :=
  let q := s.quarterAt (qkeyOf g)
  s.setQuarter (qkeyOf g) { q with recs := q.recs ++ rs }

/-- R67: the fibres of slot `g` go to their next PCs, `ps` in ascending lane order: the largest group stays, the others
become records, lowest lane first. Within a handler, parting is a trap (R278). `taken` are the lanes that a transfer moved. -/
def State.part_ (s : State) (g : Nat) (ps : List (Nat × Nat × DWord)) (taken : List Nat) (trap : TrapInfo) : State :=
  match stays (groupsOf ps) with
  | none => s
  | some (pc, keep) =>
    let sl := s.slot g
    let gone := ps.filter fun p => p.2.2 != pc
    if gone ≠ [] && sl.handler then s.killTeam g { trap with cause := 0x1C5 }
    else
      let recs := gone.map fun p => s.leaveRec g sl p.2.2 p.1 p.2.1
      (s.fileRecs g recs).modSlot g fun x =>
        { x with pc, arrive := if keep.any fun a => taken.contains a.1 then .target else .flow, lanes := keep, replay := none }

/-! ### Transfers (R74) -/

/-- Lanes that take part in this issue (R279). -/
def Ctx.takingPart (x : Ctx) : List (Nat × Nat) := x.sl.lanes.filter fun a => x.c.part.contains a.1

/-- The trap of lanes that meet a cause of a transfer: cause and address of the lowest; RMASK every active lane (R74). The groom serves
it where it can serve every failing lane (R273). -/
def State.flowTrap (s : State) (x : Ctx) (kind : Kind) (bad : List (Nat × FlowCause)) : State :=
  match bad with
  | [] => s
  | (_, c) :: _ =>
    s.raise x.c.g { x.trap c.cause kind (bad.map fun b => b.1) x.lanesOf with addr := c.addr }
      ((allSome (fun (b : Nat × FlowCause) => b.2.page) bad).map fun ps => .pages ps.eraseDups)

/-- R74: the course of a transfer: targets of the active lanes as line and slot; `tgt` for the TGT test, `link` for the
register that receives the return point. -/
def State.transfer (s : State) (x : Ctx) (tgt uniform : Bool) (link : Option Spec) (ts : List (Nat × Nat × Int × Nat)) : State :=
  let bad := ts.filterMap fun t => (s.targetCause x.c.g x.sl x.l tgt t.2.2.1 t.2.2.2).map fun c => (t.1, c)
  let s := s.receiveTargets x ts
  if bad ≠ [] then s.flowTrap x .precise bad
  else if uniform && !ts.isEmpty && ts.length != x.takingPart.length then s.trapPrecise x 0x140 x.lanesOf
  else
    let s := match link with
      | some d => ts.foldl (fun (s : State) (t : Nat × Nat × Int × Nat) => s.writeDst x.c.g t.2.1 d [(0, ⟨x.l.packPc x.next, 0⟩)]) s
      | none => s
    let ps := x.sl.lanes.map fun a => match ts.find? fun t => t.1 == a.1 with
      | some t => (a.1, a.2, x.l.pcAt t.2.2.1 t.2.2.2)
      | none => (a.1, a.2, x.next)
    s.part_ x.c.g ps (ts.map fun t => t.1) (x.trap 0 .precise x.lanesOf x.lanesOf)

/-- R73: a displacement in lines from the instruction's own line, and a slot. -/
def Ctx.nearTarget (x : Ctx) (imm : BitVec 32) : Int × Nat := (x.l.lineOf x.sl.pc + sextN 29 (imm.toNat / 8), imm.toNat % 8)

def Ctx.nearTargets (x : Ctx) (f : CtrlF) : List (Nat × Nat × Int × Nat) :=
  x.act.map fun a => (a.1, a.2, (x.nearTarget f.imm).1, (x.nearTarget f.imm).2)

/-- R74: a line index and slot held in a register. -/
def Ctx.farTargets (x : Ctx) (s : State) (f : CtrlF) : List (Nat × Nat × Int × Nat) :=
  x.act.map fun a =>
    let v := (x.read32 (s.fibre a.2) 0 f.a).val
    (a.1, a.2, ((v / 8 : Nat) : Int), v % 8)

/-- R78: NOP. -/
def execNop (f : CtrlF) (s : State) : Host.Outcome State Fault Refusal := onSlot f.g s fun x s => s.advance x

/-- R74: BRA. -/
def execBra (f : CtrlF) (s : State) : Host.Outcome State Fault Refusal :=
  onSlot f.g s fun x s => s.transfer x true false none (x.nearTargets f)

/-- R74: BRX. -/
def execBrx (f : CtrlF) (s : State) : Host.Outcome State Fault Refusal :=
  onSlot f.g s fun x s => s.transfer x true false none (x.farTargets s f)

/-- R74: JMP; a guard that differs among the slot's fibres raises 0x140. -/
def execJmp (f : CtrlF) (s : State) : Host.Outcome State Fault Refusal :=
  onSlot f.g s fun x s => s.transfer x true true none (x.nearTargets f)

/-- R74: CALL. -/
def execCall (f : CtrlF) (s : State) : Host.Outcome State Fault Refusal :=
  onSlot f.g s fun x s => s.transfer x true false (some f.d) (x.nearTargets f)

/-- R74: CALLX. -/
def execCallx (f : CtrlF) (s : State) : Host.Outcome State Fault Refusal :=
  onSlot f.g s fun x s => s.transfer x true false (some f.d) (x.farTargets s f)

/-- R74: RET, without the TGT test. -/
def execRet (f : CtrlF) (s : State) : Host.Outcome State Fault Refusal :=
  onSlot f.g s fun x s => s.transfer x false false none (x.farTargets s f)

/-! ### JOIN (R75) -/

/-- Records of a team in the quarter of slot `g`. -/
def State.recsHere (s : State) (g t : Nat) : List Rec := (s.quarterAt (qkeyOf g)).recs.filter fun r => r.team == t

/-- R75: the team has no record in this quarter and no other slot there holds a fibre of its role. Records that have been spilled
are in no quarter and do not count (log 71). -/
def State.nothingToJoin (s : State) (g : Nat) (sl : Slot) : Bool :=
  (s.recsHere g sl.team).isEmpty
    && !(s.slots.any fun x => x.1 != g && qkeyOf x.1 == qkeyOf g && x.2.team == sl.team && x.2.role == sl.role && !x.2.lanes.isEmpty)

/-- R75: JOIN holds the slot at the instruction. -/
def execJoin (f : CtrlF) (s : State) : Host.Outcome State Fault Refusal :=
  onSlot f.g s fun x s =>
    if x.act = [] then s.advance x
    else s.modSlot x.c.g fun sl => { sl with wait := .join (s.clock + f.imm.toNat) x.next, replay := none }

/-- No cause that waits for the slot's next issue makes an instruction issue again (R177, R279). -/
def Slot.settled (sl : Slot) : Bool := sl.replay.isNone && sl.late.all fun c => !c.1.kind.replays

/-- R75: does the wait of a JOIN end now? -/
def State.joinOver (s : State) (g : Nat) (sl : Slot) (till : Nat) : Bool :=
  sl.lanes.length == (s.launch (s.team sl.team).launch).width || s.nothingToJoin g sl || decide (till ≤ s.clock)

/-- Waits that stay with a slot when its fibres leave it: those for a service or a drain that goes on (log 71). -/
def Wait.stays : Wait → Bool
  | .kcall _ | .banks .. => true
  | _ => false

/-- Waits in which a slot stands between issues (R69, R75). -/
def Wait.between : Wait → Bool
  | .none | .sleep _ | .yield _ _ | .join _ _ | .bar _ => true
  | _ => false

/-- The next PC of a slot that may lose its fibres or gain some: after the JOIN it waits in, or where it stands. -/
def Slot.nextAt (sl : Slot) : DWord := match sl.wait with
  | .join _ next => next
  | _ => sl.pc

/-- A cause that waits for the slot's next issue and takes its lanes back to the instruction that met it (R177, R279). -/
def TrapInfo.goesBack (t : TrapInfo) : Bool := t.kind.replays && t.kind != .engine

/-- The PC at which the fibre in a lane goes on when its slot is emptied: where a fault is to be replayed, parked or waiting, its lanes
go back to that instruction and the others to the one after it (R279, log 71). -/
def Slot.leavesFor (sl : Slot) (lane : Nat) : DWord :=
  let due := sl.late.filter fun c => c.1.goesBack
  match sl.wait, sl.replay, due.find? fun c => c.1.rmask.contains lane, due.getLast? with
  | .park p, _, _, _ => if p.trap.rmask.contains lane then p.trap.pc else p.trap.next
  | _, some r, _, _ => if r.lanes.contains lane then sl.pc else r.thenPc.getD r.next
  | _, none, some c, _ => c.1.pc
  | _, none, none, some c => c.1.next
  | _, none, none, none => sl.nextAt

/-- R70, R75: the fibres of slot `g` become records under their next PCs; the slot is empty. Faults that they will meet afresh leave
with them; other causes stay with the slot. Checks of an entry or a resumption that the slot still had to make do not follow
them (log 71). -/
def State.emptySlot (s : State) (g : Nat) : State :=
  let sl := s.slot g
  let recs := sl.lanes.map fun a => s.leaveRec g sl (sl.leavesFor a.1) a.1 a.2
  (s.fileRecs g recs).modSlot g fun x =>
    { x with
      lanes := [], replay := none, pc := x.nextAt, wait := if x.wait.stays then x.wait else .none
      late := x.late.filter fun c => !c.1.goesBack }

/-- R75: the wait ends. -/
def execJoinRelease (g : Nat) (s : State) : Host.Outcome State Fault Refusal :=
  match aget? s.slots g with
  | none => .next s
  | some sl =>
    match sl.wait with
    | .join till next =>
      let full := sl.lanes.length == (s.launch (s.team sl.team).launch).width
      let here := (s.launch (s.team sl.team).launch).packPc next
      if !s.joinOver g sl till then .next s
      else if !full && !s.nothingToJoin g sl && !sl.handler && (s.recsHere g sl.team).any fun r => r.pc != here then
        .next ((s.emptySlot g).modSlot g fun x => { x with arrive := .flow })
      else .next (s.modSlot g fun x => { x with wait := .none, pc := next, arrive := .flow })
    | _ => .next s

/-! ### The weave former (R69, R70) -/

/-- Has a record waited for the operations of its former slot (R69)? -/
def State.recReady (s : State) (r : Rec) : Bool := r.kind1 || !(r.ops.any fun o => (aget? s.ops o).isSome)

/-- Does an operation in flight still write registers of a fibre (R94)? -/
def Op.writesTo (o : Op) (fid : Nat) : Bool :=
  match o.body with
  | .load _ rs _ => rs.any fun r => r.fibre == fid
  | .atomic _ ls _ => ls.any fun l => l.fibre == fid
  | .time _ _ => o.head.lanes.any fun a => a.2 == fid
  | .tile (.trd _) .. => o.head.lanes.any fun a => a.2 == fid
  | _ => false

/-- R69, R77, R94: the free window of a role in a lane column with the lowest w in this quarter: no live fibre, and nothing in
flight that still writes it. -/
def State.freeWindow (s : State) (g t role lane : Nat) : Option (Nat × Fibre) :=
  s.fibres.find? fun f => f.2.team == t && f.2.role == role && f.2.lane == lane && !f.2.alive
    && 4 * f.2.core + f.2.q == qkeyOf g && !(s.ops.any fun o => o.2.writesTo f.1)

/-- What a fibre has received and done on all its paths, and its reads in flight. -/
def Fibre.allKnow (f : Fibre) : List Nat :=
  [f.vec, f.cp, f.mx, f.vp, f.coll].foldl (fun m v => union m v.know) f.after

/-- R69: a spawned fibre takes its window. -/
def Fibre.spawned (f : Fibre) (r : Rec) : Fibre :=
  { f with
    alive := true, win := mset Reg.zero [] 0 ⟨r.arg, r.argst⟩, ue := [], preds := r.preds ||| 0x8000, refires := 0, arrived := 0, gen := 0
    phase := none, vec := ⟨r.know, []⟩, cp := .empty, mx := .empty, vp := .empty, coll := .empty, pendAcq := []
    relFence := none, after := r.after }

/-- Place one record in slot `g` if its column is free: the state, and whether it was placed. Every placement renews the time at
which the slot was filled (log 71). -/
def State.placeRec (s : State) (g : Nat) (r : Rec) : State × Bool :=
  let sl := s.slot g
  if sl.lanes.any fun a => a.1 == r.lane then (s, false)
  else
    let seat (s : State) (fid : Nat) : State :=
      s.modSlot g fun x => { x with lanes := aset x.lanes r.lane fid, lastFill := s.clock }
    if r.kind1 then
      match s.freeWindow g r.team r.role r.lane with
      | none => (s, false)
      | some (fid, fb) =>
        let s := s.modTeam r.team fun tm => { tm with gone := union tm.gone fb.allKnow }
        (seat (s.setFibre fid (fb.spawned r)) fid, true)
    else (seat s r.fibre, true)

/-- Place the records of one bucket, oldest first, at most one for each column and at most `room`. -/
def State.placeBucket (s : State) (g : Nat) (pc : Word) (role room : Nat) : List Rec → State × List Rec
  | [] => (s, [])
  | r :: rs =>
    if room ≠ 0 && r.team == (s.slot g).team && r.pc == pc && r.role == role && s.recReady r then
      let (s, ok) := s.placeRec g r
      let (s, left) := s.placeBucket g pc role (if ok then room - 1 else room) rs
      (s, if ok then left else r :: left)
    else
      let (s, left) := s.placeBucket g pc role room rs
      (s, r :: left)

/-- R294: the spawn record that the former is to place holds an uncorrectable error: the team ends. -/
def State.badRecord (s : State) (g : Nat) (pc : Word) (role : Nat) : Bool :=
  (s.quarterAt (qkeyOf g)).recs.any fun r => r.team == (s.slot g).team && r.pc == pc && r.role == role && s.recReady r && r.ue

/-- R294: 0x1C2 in the error record, and the team ends. -/
def State.coreError (s : State) (t : Nat) : State :=
  let tm := s.team t
  (s.recordError tm.launch { TrapInfo.zero with cause := 0x1C2 } false tm.index 0 tm.core).endTeam t

/-- R69: fill slot `g` with the records under `pc`, up to 64 in a clock; an empty slot takes the role and PC of the bucket. -/
def State.fillSlot (s : State) (g : Nat) (pc : Word) (role : Nat) : State :=
  let q := s.quarterAt (qkeyOf g)
  let l := s.launch (s.team (s.slot g).team).launch
  if s.badRecord g pc role then s.coreError (s.slot g).team
  else
    let s' := if (s.slot g).lanes.isEmpty then
        s.modSlot g fun x => { x with role, pc := l.pcAt (pc.toNat / 8 : Nat) (pc.toNat % 8), arrive := .flow }
      else s
    let (s', left) := s'.placeBucket g pc role (64 - q.placed) q.recs
    let n := q.recs.length - left.length
    if n = 0 then s else s'.setQuarter (qkeyOf g) { s'.quarterAt (qkeyOf g) with recs := left, placed := q.placed + n }

/-- R75: the fibres of any other slot of the team and role with the same next PC move in where the columns are disjoint. -/
def State.gather (s : State) (g : Nat) (next : DWord) : State :=
  let sl := s.slot g
  s.slots.foldl (fun s x =>
    let me := s.slot g
    if x.1 != g && qkeyOf x.1 == qkeyOf g && x.2.team == sl.team && x.2.role == sl.role && !x.2.lanes.isEmpty
        && (x.2.lanes.all fun a => x.2.leavesFor a.1 == next) && x.2.wait.between && x.2.replay.isNone && !x.2.handler
        && !(x.2.lanes.any fun a => me.lanes.any fun b => b.1 == a.1) then
      (s.modSlot g fun y => { y with lanes := x.2.lanes.foldl (fun m a => aset m a.1 a.2) y.lanes, lastFill := s.clock }).modSlot x.1
        fun y => { y with lanes := [], wait := .none, pc := next, late := y.late.filter fun c => !c.1.goesBack }
    else s) s

/-- R69, R75: the former places records into slot `g`: a slot between issues at the records' PC, a slot that waits at JOIN,
or an empty slot, which takes the bucket of the team's oldest record that can be placed (log 71). No slot in its handler takes any
(R278), and none whose next PC a replay will change. -/
def execWeaveFormerPlace (g : Nat) (s : State) : Host.Outcome State Fault Refusal :=
  match aget? s.slots g with
  | none => .next s
  | some sl =>
    let l := s.launch (s.team sl.team).launch
    if sl.handler || !(s.team sl.team).state.issues then .next s
    else if sl.lanes.isEmpty then
      match (s.recsHere g sl.team).find? fun r => s.recReady r
          && (!r.kind1 || (s.freeWindow g r.team r.role r.lane).isSome) with
      | none => .next s
      | some r => .next ((s.fillSlot g r.pc r.role).modSlot g fun x => { x with wait := if x.wait.stays then x.wait else .none })
    else if !sl.settled then .next s
    else match sl.wait with
      | .join _ next => .next ((s.fillSlot g (l.packPc next) sl.role).gather g next)
      | .none | .sleep _ | .yield _ _ => .next (s.fillSlot g (l.packPc sl.pc) sl.role)
      | .bar _ =>
        let t := s.fillSlot g (l.packPc sl.pc) sl.role
        .next (if (t.slot g).lanes = sl.lanes then t else t.modSlot g fun x => { x with wait := .none })
      | _ => .next s

/-- May R70 empty the slot? Not while it is in its handler (R278). -/
def Slot.canEmpty (sl : Slot) : Bool := !sl.handler && !sl.lanes.isEmpty

/-- R70: the slot of the team in this quarter that was filled least recently; on a tie the lowest (log 71). -/
def State.leastFilled (s : State) (key t : Nat) : Option (Nat × Slot) :=
  (s.slots.filter fun x => qkeyOf x.1 == key && x.2.team == t && x.2.canEmpty).foldl
    (fun (best : Option (Nat × Slot)) (x : Nat × Slot) => match best with
      | none => some x
      | some b => if x.2.lastFill < b.2.lastFill then some x else best) none

/-- The oldest KIND 0 record of a quarter, if it has waited 2,048 clocks (R70). -/
def State.longWaiting (s : State) (key : Nat) : Option Rec :=
  match (s.quarterAt key).recs.find? fun r => !r.kind1 with
  | none => none
  | some r => if r.since + 2048 ≤ s.clock && (s.team r.team).state.issues then some r else none

/-- A slot of the team in this quarter without fibres. -/
def State.emptyOf (s : State) (key t : Nat) : Option (Nat × Slot) :=
  s.slots.find? fun x => qkeyOf x.1 == key && x.2.team == t && !x.2.handler && x.2.lanes.isEmpty

/-- R70: a record that still has no place after a turn of R70 begins another wait of 2,048 clocks (log 71). -/
def Quarter.waitOn (q : Quarter) (r : Rec) (clock : Nat) : Quarter :=
  { q with recs := q.recs.map fun x => if x = r then { x with since := clock } else x }

/-- R70: the oldest KIND 0 record of the quarter has waited 2,048 clocks: the slot of its team filled least recently is emptied into
records under its next PC, unless the team has an empty slot there (log 71), and the empty slot is filled under R69. -/
def execFormerEmptySlot (core q : Nat) (s : State) : Host.Outcome State Fault Refusal :=
  let key := 4 * core + q
  match s.longWaiting key with
  | none => .next s
  | some r =>
    let go (g : Nat) (s : State) : Host.Outcome State Fault Refusal :=
      match execWeaveFormerPlace g s with
      | .next s => .next (s.setQuarter key ((s.quarterAt key).waitOn r s.clock))
      | o => o
    match s.emptyOf key r.team, s.leastFilled key r.team with
    | some (g, _), _ => go g s
    | none, some (g, _) => go g (s.emptySlot g)
    | none, none => .next s

/-! ### FSPAWN (R71, R76) -/

/-- The free chunk of a launch with the lowest index (R71). -/
def State.freeChunk (s : State) (lid : Nat) : Option Nat :=
  (List.range (s.launch lid).spillsz).find? fun i => !(s.chunks.any fun c => c.2.launch == lid && c.2.index == i)

/-- The youngest chunk of a team and quarter, whose NEXT is to name the new one. -/
def State.lastChunk (s : State) (team core q : Nat) : Option (Nat × Chunk) :=
  (s.chunks.filter fun c => c.2.team == team && c.2.core == core && c.2.q == q).getLast?

/-- R71: put records into the free chunk with the lowest index. -/
def State.spillInto (s : State) (of team core q : Nat) (rs : List Rec) : Except Miss State :=
  let lid := s.root of
  match s.freeChunk lid with
  | none => .error ⟨0x1C9, false, 0⟩
  | some i => match s.chunkBase lid i with
    | .error m => .error m
    | .ok _ =>
      let c : Chunk := ⟨lid, i, team, core, q, 0, rs⟩
      let s := match s.lastChunk team core q with
        | none => s
        | some (k, old) =>
          let old := { old with next := i + 1 }
          { s with chunks := aset s.chunks k old }.layChunk old false
      .ok ({ s with chunks := aset s.chunks s.uid c, uid := s.uid + 1 }.layChunk c true)

/-- R71: write one KIND 1 record, spilling where the spawn memory is full. -/
def State.writeSpawn (s : State) (g lid : Nat) (r : Rec) : Except Miss State :=
  let key := qkeyOf g
  let q := s.quarterAt key
  if q.recs.length < Config.spawnRecords then .ok (s.setQuarter key { q with recs := q.recs ++ [r] })
  else
    let mine := q.recs.zipIdx.filter fun p => p.1.kind1 && p.1.team == r.team
    if mine = [] then s.spillInto lid r.team (coreOf g) (quarterOf g) [r]
    else
      let young := mine.drop (mine.length - min mine.length 4095)
      match s.spillInto lid r.team (coreOf g) (quarterOf g) (young.map fun p => p.1) with
      | .error m => .error m
      | .ok s =>
        let left := (q.recs.zipIdx.filter fun p => !(young.any fun y => y.2 == p.2)).map fun p => p.1
        .ok (s.setQuarter key { q with recs := left ++ [r] })

/-- R76: FSPAWN, a release at team scope. -/
def execFspawn (f : CtrlF) (s : State) : Host.Outcome State Fault Refusal :=
  onSlot f.g s fun x s =>
    let t := x.nearTarget f.imm
    match (if x.act = [] then none else s.targetCause x.c.g x.sl x.l true t.1 t.2) with
    | some c => (s.receiveTargets x (x.nearTargets f)).flowTrap x .precise (x.lanesOf.map fun i => (i, c))
    | none =>
      let s := s.receiveTargets x (x.nearTargets f)
      let lid := (s.team x.sl.team).launch
      let step (acc : State × List LaneMiss) (a : Nat × Nat) : State × List LaneMiss :=
        let s := acc.1
        let fb := s.fibre a.2
        let o := x.read32 fb 0 f.a
        let r : Rec := { team := x.sl.team
                         word := recWord true x.sl.role a.1 (x.l.packPc (x.l.pcAt t.1 t.2)) 0 o.val o.lo
                         ue := false, ops := [], know := fb.vec.know, after := s.vecReads fb.after, since := s.clock }
        match s.writeSpawn x.c.g lid r with
        | .ok s => (s, acc.2)
        | .error m => (s, acc.2 ++ [⟨a.1, m.cause, m.groom, if m.cause = 0x1C9 then x.l.spilla else BitVec.ofNat 64 m.page⟩])
      let (s, ms) := x.act.foldl step (s, [])
      let s := if x.act.length = ms.length then s else s.modTeam x.sl.team fun tm => { tm with published := true }
      match missCause ms with
      | none => s.advance x
      | some (c, va, serve) =>
        let lm := ms.map fun m => m.lane
        s.raise x.c.g { x.trap c .partly lm lm with addr := va } serve

/-- The oldest chunk of a quarter. -/
def State.oldestChunk (s : State) (core q : Nat) : Option (Nat × Chunk) :=
  let age (c : Nat × Chunk) : Nat := (c.2.recs.head?.map fun r => r.since).getD 0
  (s.chunks.filter fun c => c.2.core == core && c.2.q == q).foldl (fun (best : Option (Nat × Chunk)) (c : Nat × Chunk) =>
    match best with
    | none => some c
    | some b => if age c < age b then some c else best) none

/-- R71: the oldest spilled record of a quarter returns once its spawn memory holds fewer than 3,072 records; it stands there as
the youngest (log 71). A page of the chunk that the groom has written out must come back first; an uncorrectable error there makes
the record uncorrectable (R294). -/
def execSpillReturn (core q : Nat) (s : State) : Host.Outcome State Fault Refusal :=
  let key := 4 * core + q
  if 3072 ≤ (s.quarterAt key).recs.length then .next s
  else match s.oldestChunk core q with
    | none => .next s
    | some (k, c) => match c.recs with
      | [] => .next { s with chunks := adel s.chunks k }
      | r :: rs => match s.chunkBase c.launch c.index with
        | .error m => .next (if m.groom then s.modLaunch c.launch fun l => { l with want := union l.want [m.page] } else s)
        | .ok base =>
          let bad := s.ue.contains ((base + 16 * c.recs.length) / 32)
          let qt := s.quarterAt key
          let s := s.setQuarter key { qt with recs := qt.recs ++ [{ r with ue := r.ue || bad }] }
          let c := { c with recs := rs }
          .next ({ s with chunks := if rs = [] then adel s.chunks k else aset s.chunks k c }.layChunk c false)

/-! ### Endings (R77) -/

/-- R77: FEND. -/
def execFend (f : CtrlF) (s : State) : Host.Outcome State Fault Refusal :=
  onSlot f.g s fun x s =>
    let s := x.act.foldl (fun s a => s.modFibre a.2 fun fb => { fb with alive := false }) s
    let s := (s.advance x).modSlot x.c.g fun sl => { sl with lanes := sl.lanes.filter fun a => !(x.act.any fun b => b.1 == a.1) }
    if x.act = [] then s else ((s.emptied x.c.g).afterEnd x.sl.team).retireIfDone x.sl.team

/-- R77: EXIT, when its guard holds in any fibre. -/
def execExit (f : CtrlF) (s : State) : Host.Outcome State Fault Refusal :=
  onSlot f.g s fun x s => if x.act = [] then s.advance x else s.endTeam x.sl.team

/-! ### Waiting by one's own choice (R78) -/

/-- R78: YIELD. -/
def execYield (f : CtrlF) (s : State) : Host.Outcome State Fault Refusal :=
  onSlot f.g s fun x s =>
    let s := s.advance x
    if x.act = [] then s else s.modSlot x.c.g fun sl => { sl with wait := .yield x.c.peers (s.clock + 64) }

/-- R78: every other slot that was eligible has issued, or 64 clocks have passed. -/
def execYieldRelease (g : Nat) (s : State) : Host.Outcome State Fault Refusal :=
  match (s.slot g).wait with
  | .yield others till => if others = [] || till ≤ s.clock then .next (s.modSlot g fun x => { x with wait := .none }) else .next s
  | _ => .next s

/-- R78: SLEEP. -/
def execSleep (f : CtrlF) (s : State) : Host.Outcome State Fault Refusal :=
  onSlot f.g s fun x s =>
    let n := min 1048575 (x.read32 (x.first s) f.imm f.a).val
    let s := s.advance x
    if x.act = [] then s else s.modSlot x.c.g fun sl => { sl with wait := .sleep (s.clock + n) }

def execSleepExpire (g : Nat) (s : State) : Host.Outcome State Fault Refusal :=
  match (s.slot g).wait with
  | .sleep till => if till ≤ s.clock then .next (s.modSlot g fun x => { x with wait := .none }) else .next s
  | _ => .next s

/-! ### Traps asked for (R79) -/

/-- R79: BRK. -/
def execBrk (f : CtrlF) (s : State) : Host.Outcome State Fault Refusal :=
  onSlot f.g s fun x s =>
    if x.act = [] then s.advance x
    else s.raise x.c.g { x.trap 0x1C8 .after x.lanesOf [] with pc := x.next, addr := f.imm.zeroExtend 64, info := f.imm } none

/-- R79: TRAP. -/
def execTrap (f : CtrlF) (s : State) : Host.Outcome State Fault Refusal :=
  onSlot f.g s fun x s =>
    if x.act = [] then s.advance x
    else s.raise x.c.g { x.trap (0x1E0 + f.imm.toNat % 32) .after x.lanesOf [] with pc := x.next } none

/-! ### BAR and PHASE (R257 to R260) -/

/-- A cause of BAR or PHASE: 0x142 is not replayable (R261), so the slot goes on after the instruction (log 31); the others are. -/
def State.trapSync (s : State) (x : Ctx) (c : Nat) : State :=
  if c = 0x142 then s.raise x.c.g (x.trap c .after x.lanesOf []) none else s.trapPrecise x c x.lanesOf

/-- R258: BAR. -/
def execBar (f : SyncF) (s : State) : Host.Outcome State Fault Refusal :=
  onSlot f.g s fun x s =>
    let id := f.imm.toNat % 16
    let t := x.sl.team
    if x.act = [] then s.advance x
    else if x.act.length != x.takingPart.length then s.trapPrecise x 0x141 x.lanesOf
    else if 12 ≤ id && !x.l.coresident then s.trapSync x 0x142
    else
      let fresh := x.act.filter fun a => !(s.fibre a.2).arrived.getLsbD id
      let gen := (s.team t).gens.getLsbD id
      let s := fresh.foldl (fun s a => s.modFibre a.2 fun fb =>
        { fb with arrived := setBit16 fb.arrived id true, gen := setBit16 fb.gen id gen }) s
      let s := s.modTeam t fun tm => { tm with counts := mset 0 tm.counts id (mget 0 tm.counts id + fresh.length), published := true }
      let s := s.barCheck t id
      let gen := (s.team t).gens.getLsbD id
      let passes (fid : Nat) : Bool := (s.fibre fid).gen.getLsbD id != gen
      let ps := x.sl.lanes.map fun a =>
        (a.1, a.2, if x.act.contains a && !passes a.2 then x.sl.pc else x.next)
      let s := (x.act.filter fun a => passes a.2).foldl (fun s a => s.modFibre a.2 fun fb =>
        { fb with arrived := setBit16 fb.arrived id false }) s
      let s := s.part_ x.c.g ps [] (x.trap 0 .precise x.lanesOf x.lanesOf)
      s.modSlot x.c.g fun sl => if sl.pc = x.sl.pc then { sl with wait := .bar id } else sl

/-- R260: the checks common to both forms: a tree, or its cause. -/
def State.phaseTree (s : State) (x : Ctx) : Except Nat Nat :=
  if !x.l.coresident then .error 0x142
  else match s.treeOf (s.team x.sl.team).launch with
    | none => .error 0x143
    | some k => .ok k

/-- R260: some active fibre has already arrived in the open phase: the slot waits. -/
def State.arriveWaits (s : State) (x : Ctx) : Bool :=
  match s.phaseTree x with
  | .error _ => false
  | .ok k => x.act.any fun a => (s.fibre a.2).phase == some (s.tree k (s.team x.sl.team).launch).c

/-- R260: PHASE.arrive. -/
def execPhaseArrive (f : SyncF) (s : State) : Host.Outcome State Fault Refusal :=
  onSlot f.g s fun x s =>
    if x.act = [] then s.advance x
    else match s.phaseTree x with
      | .error c => s.trapSync x c
      | .ok k =>
        if s.arriveWaits x then s
        else
          let lid := (s.team x.sl.team).launch
          let s := s.takeTree lid k
          let tr := s.tree k lid
          let a0 := (aget? tr.part x.sl.team).getD ⟨[], []⟩
          let a : Arrivals := { know := x.act.foldl (fun m a => union m (s.fibre a.2).vec.know) a0.know
                                after := x.act.foldl (fun m a => union m (s.vecReads (s.fibre a.2).after)) a0.after }
          let s := { s with trees := aset s.trees k { tr with part := aset tr.part x.sl.team a } }
          let s := x.act.foldl (fun s a => s.modFibre a.2 fun fb => { fb with phase := some tr.c }) s
          let s := s.modTeam x.sl.team fun tm => { tm with published := true }
          ((s.writeDst x.c.g 0 f.d [(0, ⟨tr.c, 0⟩)]).phaseCheck lid).advance x

/-- R260: where PHASE.wait n stands: a cause, waiting, or passing on tree `k`. -/
inductive PhaseWait where
  | cause (c : Nat) | waits (k : Nat) | passes (k : Nat)
  deriving DecidableEq, Repr

def State.phaseWait (s : State) (x : Ctx) (f : SyncF) : PhaseWait :=
  match s.phaseTree x with
  | .error c => .cause c
  | .ok k =>
    let n : Word := BitVec.ofNat 32 (x.read32 (x.first s) f.imm f.a).val
    let c := (s.tree k (s.team x.sl.team).launch).c
    if 0 < (n - c).toInt then .cause 0x146 else if 0 < (c - n).toInt then .passes k else .waits k

/-- R260: PHASE.wait. -/
def execPhaseWait (f : SyncF) (s : State) : Host.Outcome State Fault Refusal :=
  onSlot f.g s fun x s =>
    if x.act = [] then s.advance x
    else match s.phaseWait x f with
      | .cause c => s.trapSync x c
      | .waits k => s.takeTree (s.team x.sl.team).launch k
      | .passes k =>
        let lid := (s.team x.sl.team).launch
        let n := (x.read32 (x.first s) f.imm f.a).val
        let tr := s.tree k lid
        let s := x.act.foldl (fun s a => s.modFibre a.2 fun fb =>
          { (fb.learn .vec (mget [] tr.know n)) with after := union fb.after (mget [] tr.after n) }) s
        (s.takeTree lid k).advance x

end Sys2Proof.Machine
end

