-- ==== Sys2Proof/Machine/Atomics.lean ====
section
/-!
DEFINITION. Atomics and fences, ATOM to XFENCE, with the steps in which an atomic's home applies it or its answer is lost
(R250 to R256).
-/
namespace Sys2Proof.Machine

/-! ### Forming the request (R250, R251) -/

/-- An atomic instruction's fields, and its operation. -/
inductive AtomKind where
  | atom | atomf | cas | red
  deriving DecidableEq, Repr

def atomOf : Instr → Option (AtomF × AtomKind)
  | .atom f => some (f, .atom)
  | .atomf f => some (f, .atomf)
  | .cas f => some (f, .cas)
  | .red f => some (f, .red)
  | _ => none

/-- R251: the operations, on codes of a type. -/
def atomOp (ty : Ty) (aop old b : Nat) : Nat :=
  match aop with
  | 0 => (old + b) % 2 ^ ty.bits
  | 1 => if numOf ty b < numOf ty old then b else old
  | 2 => if numOf ty old < numOf ty b then b else old
  | 3 => old &&& b
  | 4 => old ||| b
  | 5 => old ^^^ b
  | _ => b

/-- R251: the float operations, with their exceptions. -/
def atomFop (ty : Ty) (aop old b : Nat) : Nat × Flags :=
  match aop with
  | 0 => addV (fmtOf ty) .rne (decodeF (fmtOf ty) old) (decodeF (fmtOf ty) b)
  | 1 => minMaxF (fmtOf ty) false old b
  | _ => minMaxF (fmtOf ty) true old b

/-- R251: the new value, `none` for a CAS that fails, and the exceptions. -/
def atomNew (k : AtomKind) (ty : Ty) (aop old b expect : Nat) : Option Nat × Flags :=
  match k with
  | .cas => (if old = expect then some b else none, 0)
  | .atom => (some (atomOp ty aop old b), 0)
  | .atomf | .red =>
    if tysFloat.contains ty then
      let r := atomFop ty aop old b
      (some r.1, r.2)
    else (some (atomOp ty aop old b), 0)

def ordAcq : MemOrd → Bool
  | .acq | .ar => true
  | _ => false
def ordRel : MemOrd → Bool
  | .rel | .ar => true
  | _ => false

/-- R308: AUX of an atomic request: AOP, TYPE and ORD, at the places that they have in MOD of the SYNC layout counted from its bit 32
(log 45). -/
def atomAux (ty : Ty) (ord : MemOrd) (aop : Nat) : Nat := (tyCode ty).toNat * 2 ^ 8 + (ordCode ord).toNat * 2 ^ 3 + aop

/-- Send one lane's request to another device: operand and, for CAS, the expected value in a second granule. -/
def State.askAtom (s : State) (p : Nat) (f : AtomF) (k : AtomKind) (loc b expect : Nat) (st : Stamp) : Option (Nat × State) :=
  let cells (v : Nat) : List (Nat × Byte) := (from_ loc f.ty.bytes).zip (bytesLE f.ty.bytes v)
  let gr := loc / 32
  let pay := granPayload (cells b) gr ++ (if k = .cas then granPayload (cells expect) gr else [])
  s.request p (remoteDev loc) 4 (remoteOff (gr * 32)) (atomAux f.ty f.ord f.aop.toNat) pay (if k = .cas then [st, 0] else [st]) (granEnables (cells b) gr)

/-- R147: the operand of an atomic is old for the port through which it would leave: cause 0x083. -/
def State.atomEgress (s : State) (p loc : Nat) (st : Stamp) : Option Nat :=
  match s.egressPort p loc with
  | none => none
  | some port => if s.egressOk p port st then none else some port

/-- R147: a lane of an atomic that the egress bound of its port keeps back as it is about to leave. -/
def State.turnedBack (s : State) (p : Nat) (l : AtomLane) : AtomLane := { l with lost := some 0x083, hzn := tstamp (s.part p).time }

/-- One lane's request leaves for another device, once the writes that are hb it allow it and no lower lane of the same address waits
for its answer (R251, R308), if the bound of the port lets it (R147); cause 0x180 where every route is down (R309). -/
def State.sendAtom (s : State) (o : Nat) (h : OpHead) (i : Instr) (f : AtomF) (k : AtomKind) (ls : List AtomLane) (ms : List LaneMiss)
    (l : AtomLane) : State :=
  let locs := from_ l.loc f.ty.bytes
  if s.farHeld locs l.preds l.carry || s.heldBack locs [] [] l.after || ls.any fun m =>
      m.loc == l.loc && decide (m.lane < l.lane) && !(m.result.isSome || m.lost.isSome) then s
  else if (s.atomEgress h.part l.loc l.opst).isSome then
    s.setOp o ⟨h, .atomic i (ls.map fun m => if m.lane = l.lane then s.turnedBack h.part m else m) ms⟩
  else match s.askAtom h.part f k l.loc l.opnd.toNat l.expect.toNat l.opst with
    | none => s.setOp o ⟨h, .atomic i (ls.map fun m => if m.lane = l.lane then { m with lost := some 0x180 } else m) ms⟩
    | some (tag, s) =>
      (s.noteFar ⟨l.id, true, locs.map fun a => (a, 0), l.carry⟩).setOp o
        ⟨h, .atomic i (ls.map fun m => if m.lane = l.lane then { m with remote := some tag } else m) ms⟩

/-- R251: the course of an atomic at issue: lanes that met a cause raise it at once, the others are on their way. For RED, 0x180 is a
late cause of its own (R309). -/
def State.startAtom (s : State) (x : Ctx) (i : Instr) (f : AtomF) (k : AtomKind) : State :=
  let rel := (ordRel f.ord)
  let step (acc : List AtomLane × List LaneMiss × State) (a : Nat × Nat) : List AtomLane × List LaneMiss × State :=
    let (ls, ms, s) := acc
    let fb := s.fibre a.2
    let va := effAddr (x.pair fb f.a) (x.idx fb f.b) f.ext
    match s.placeBytes (x.who s) .atomic va f.ty.bytes with
    | .error m => (ls, ms ++ [m.lane a.1 va], s)
    | .ok pg =>
      let b := x.read fb f.ty 0 f.c
      let e := if k = .cas then (x.read fb f.ty 0 f.d).val else 0
      let st := older x.h b.lo b.hi
      if isRemote pg.loc && (s.route x.l.part (remoteDev pg.loc)).isNone then (ls, ms ++ [⟨a.1, 0x180, false, va⟩], s)
      else if (s.atomEgress x.l.part pg.loc st).isSome then (ls, ms ++ [⟨a.1, 0x083, false, va⟩], s)
      else
        let (p, s) := s.newWrite a.2 .vec rel
        (ls ++ [{ lane := a.1, fibre := a.2, va, loc := pg.loc, timeless := pg.timeless, swm := pg.swm, id := p.id, preds := p.preds
                  carry := p.carry, after := p.after, opnd := BitVec.ofNat 64 b.val, opst := st, expect := BitVec.ofNat 64 e
                  remote := none, result := none, lost := none }], ms, s)
  let (ls, ms, s) := (x.runLanes f.d).foldl step ([], [], s)
  let s := if ls = [] then s else
    let op := s.uid
    let s := s.modTeam x.sl.team fun t => { t with published := true }
    let s := s.startOp x (if k = .red then .st else .ld) (.atomic i ls [])
    let s := ls.foldl (fun s l => s.modFibre l.fibre fun fb => { fb with after := union fb.after [readId op l.lane] }) s
    (ls.filter fun l => isRemote l.loc).foldl (fun s l => match aget? s.ops op with
      | some ⟨h, .atomic i ls ms⟩ => s.sendAtom op h i f k ls ms l
      | _ => s) s
  let s := if rel && f.scope == .sys then { s with sysKnow := ls.foldl (fun m l => union m l.carry) s.sysKnow } else s
  let down := if k = .red then ms.filter fun m => m.cause == 0x180 else []
  let ms := if k = .red then ms.filter fun m => m.cause != 0x180 else ms
  let s := match down with
    | [] => s
    | d :: _ =>
      let h := s.head x .st
      s.raiseLate h (h.trap 0x180 .late (down.map fun m : LaneMiss => m.lane) [] d.va)
  match missCause ms with
  | some (c, va, serve) =>
    let lm := ms.map fun m => m.lane
    let t := { x.trap c .partly lm lm with addr := va }
    let t := if c ≠ 0x083 then t
      else match ms.foldl (fun (b : Option LaneMiss) m => if b.any fun n => decide (n.lane < m.lane) then b else some m) none with
        | none => t
        | some m => match (x.runLanes f.d).find? fun a => a.1 == m.lane with
          | none => t
          | some a =>
            let b := x.read (s.fibre a.2) f.ty 0 f.c
            let bound := match s.placeBytes (x.who s) .atomic m.va f.ty.bytes with
              | .ok pg => s.egMax x.l.part pg.loc
              | .error _ => 0
            { t with stamp := older x.h b.lo b.hi, bound, hzn := tstamp (s.part x.l.part).time }
    s.raise x.c.g t serve
  | none => s.advance x

/-- R251: ATOM. -/
def execAtom (f : AtomF) (s : State) : Host.Outcome State Fault Refusal :=
  onSlot f.g s fun x s => s.startAtom x (.atom f) f .atom

/-- R251: ATOMF. -/
def execAtomf (f : AtomF) (s : State) : Host.Outcome State Fault Refusal :=
  onSlot f.g s fun x s => s.startAtom x (.atomf f) f .atomf

/-- R251: CAS. -/
def execCas (f : AtomF) (s : State) : Host.Outcome State Fault Refusal :=
  onSlot f.g s fun x s => s.startAtom x (.cas f) f .cas

/-- R251: RED. -/
def execRed (f : AtomF) (s : State) : Host.Outcome State Fault Refusal :=
  onSlot f.g s fun x s => s.startAtom x (.red f) f .red

/-! ### The home's step -/

/-- The last applied writes at some bytes: what an atomic's read part returns (R245). -/
def State.lastWrites (s : State) (locs : List Nat) : List WEv :=
  (locs.filterMap fun a => (s.writesAt a).getLast?).eraseDups

/-- One atomic step at a home (R251): the old value, its stamp, the exceptions, and the new state. A write that follows only
atomics passes on what the release before them carries (R241, item 4). -/
def State.atomStep (s : State) (core : Nat) (k : AtomKind) (ty : Ty) (aop loc : Nat) (timeless : Bool) (b expect : Nat) (bst : Stamp)
    (p : WritePass) : Nat × Stamp × Flags × List WEv × State :=
  let locs := from_ loc ty.bytes
  let old := s.natAt loc ty.bytes
  let so := if timeless then 0 else s.stampAt loc
  let src := s.lastWrites locs
  let r := atomNew k ty aop old b expect
  let s := match r.1 with
    | none => s
    | some v =>
      let inherit := src.foldl (fun m w => union m w.carry) []
      s.commit core timeless [{ id := p.id, bytes := locs.zip ((bytesLE ty.bytes v).map fun y => (y, bst))
                                preds := p.preds, carry := union p.carry inherit
                                after := src.foldl (fun m w => union m w.after) p.after }]
  (old, so, r.2, src, s)

/-- A lane's answer reaches the core: its register, its exceptions, and what it receives (R241, R251). -/
def State.atomAnswer (s : State) (h : OpHead) (o : Nat) (f : AtomF) (k : AtomKind) (l : AtomLane) (old : Nat) (so : Stamp) (exc : Flags)
    (src : List WEv) : State :=
  let s := if k = .red then s else s.opWrite h l.fibre f.d (resultRegs f.ty (old : Int) so so)
  let s := s.modSlot h.g fun sl => if sl.team = h.team then { sl with fflags := sl.fflags ||| exc } else sl
  let s := s.receive l.fibre .vec (ordAcq f.ord) src
  s.settle (readId o l.lane) (src.foldl (fun m w => union m w.after) [])

/-- R252: a lane without an answer: its destination is undefined, with an undefined stamp. -/
def State.atomUndef (s : State) (h : OpHead) (f : AtomF) (k : AtomKind) (l : AtomLane) : State :=
  if k = .red then s
  else
    let v := Config.freeValue s.free
    let st := Config.freeStamp s.free
    { s.opWrite h l.fibre f.d (resultRegs f.ty (v.toNat : Int) st st) with free := s.free + 1 }

/-- Has a lane its answer, or its loss? -/
def AtomLane.done (l : AtomLane) : Bool := l.result.isSome || l.lost.isSome

/-- R252, R309: a lane failed in such a way that its step may have taken place: its answer was lost, or it had been sent when the last
port towards its home went down. -/
def AtomLane.unsure (l : AtomLane) : Bool := l.lost == some 0x144 || l.lost == some 0x145 || (l.lost.isSome && l.remote.isSome)

/-- R251, R252: when every lane is done the operation ends, and lanes that failed raise their causes: causes of a home are partial,
and issue again; those of R252 stand after the instruction, late where the slot no longer holds the fibre (R283), and for RED. -/
def State.keepAtom (s : State) (o : Nat) (h : OpHead) (i : Instr) (k : AtomKind) (ls : List AtomLane) : State :=
  if ls.all AtomLane.done then
    let s := ls.foldl (fun s l => s.settle (readId o l.lane) []) s
    let s := s.endOp o h
    let lost := ls.filter fun l => l.lost.isSome
    let here (l : AtomLane) : Bool := s.holds h && (s.slot h.g).lanes.contains (l.lane, l.fibre)
    let report (s : State) (kind : Kind) (bad : List AtomLane) : State :=
      match bad with
      | [] => s
      | l :: _ =>
        let kind := if k = .red then .late else kind
        let lm := bad.map fun b => b.lane
        let t := h.trap (l.lost.getD 0) kind lm (if kind = .partly then lm else []) l.va
        let t := if l.hzn = 0 then t else { t with stamp := l.opst, hzn := l.hzn, bound := s.egMax h.part l.loc }
        if kind = .late then s.raiseLate h t else s.queueTrap h t none
    let s := report s .partly (lost.filter fun l => !l.unsure)
    let s := report s .after (lost.filter fun l => l.unsure && here l)
    report s .late (lost.filter fun l => l.unsure && !here l)
  else s.setOp o ⟨h, .atomic i ls []⟩

/-- The lanes of an operation that take this turn: the lowest lane that is not done, if it is `lane`, and every further lane
at the same address (R251). -/
def turnOf (ls : List AtomLane) (lane : Nat) : List AtomLane :=
  match ls.find? fun l => !l.done with
  | some l => if l.lane = lane then ls.filter fun m => !m.done && m.loc == l.loc else []
  | none => []

/-- The home's step for one lane, with its answer or without (`lost`). -/
def State.applyLane (s : State) (h : OpHead) (o : Nat) (f : AtomF) (k : AtomKind) (lost : Option Nat) (l : AtomLane) : AtomLane × State :=
  if (s.atomEgress h.part l.loc l.opst).isSome then (s.turnedBack h.part l, s)
  else match s.homeCause true l.loc f.ty.bytes with
  | some c => ({ l with lost := some c }, s)
  | none =>
    let s := if l.swm then s.logLine h.part l.va.toNat l.loc else s
    let (old, so, exc, src, s) := s.atomStep h.core k f.ty f.aop.toNat l.loc l.timeless l.opnd.toNat l.expect.toNat l.opst
      { id := l.id, preds := l.preds, carry := l.carry, after := l.after }
    match lost with
    | some c => ({ l with lost := some c }, s.atomUndef h f k l)
    | none => ({ l with result := some (BitVec.ofNat 64 old, so, exc) }, s.atomAnswer h o f k l old so exc src)

/-- The lanes of a turn at this device, once the writes that are hb them allow it (R244). -/
def State.turnReady (s : State) (f : AtomF) (ls : List AtomLane) (lane : Nat) : List AtomLane :=
  let turn := (turnOf ls lane).filter fun l => !isRemote l.loc
  if s.heldBack (turn.flatMap fun l => from_ l.loc f.ty.bytes) (turn.flatMap fun l => l.preds)
      (turn.flatMap fun l => l.carry) (turn.flatMap fun l => l.after) then []
  else turn

/-- Run a turn. -/
def State.atomTurn (s : State) (o : Nat) (h : OpHead) (i : Instr) (ls : List AtomLane) (lane : Nat) (lost : Option Nat) : State :=
  match atomOf i with
  | none => s
  | some (f, k) =>
    let turn := s.turnReady f ls lane
    if turn = [] then s
    else
      let turn := if lost.isSome then turn.take 1 else turn
      let (new, s) := turn.foldl (fun (acc : List AtomLane × State) l =>
        let r := acc.2.applyLane h o f k lost l
        (acc.1 ++ [r.1], r.2)) ([], s)
      s.keepAtom o h i k (ls.map fun l => (new.find? fun n => n.lane == l.lane).getD l)

/-- A lane whose request is still to leave for another device. -/
def AtomLane.unsent (l : AtomLane) : Bool := isRemote l.loc && l.remote.isNone && !l.done

/-- A lane's request leaves now, if it may; where every route is down the lane ends with 0x180. -/
def State.sendLane (s : State) (o : Nat) (h : OpHead) (i : Instr) (ls : List AtomLane) (ms : List LaneMiss) (l : AtomLane) : State :=
  match atomOf i with
  | none => s
  | some (f, k) =>
    let s := s.sendAtom o h i f k ls ms l
    match aget? s.ops o with
    | some ⟨h, .atomic i ls _⟩ => if ls.all AtomLane.done then s.keepAtom o h i k ls else s
    | _ => s

/-- R251: the home applies a lane's step and the answer arrives; at another device, the request leaves. -/
def execAtomicApply (o lane : Nat) (s : State) : Host.Outcome State Fault Refusal :=
  match aget? s.ops o with
  | some ⟨h, .atomic i ls ms⟩ => match ls.find? fun l => l.lane == lane && l.unsent with
    | some l => .next (s.sendLane o h i ls ms l)
    | none => .next (s.atomTurn o h i ls lane none)
  | _ => .next s

/-- A lane of which nothing will be heard: its cause is kept, and its destination is undefined (R252). -/
def State.atomLost (s : State) (o : Nat) (h : OpHead) (i : Instr) (ls : List AtomLane) (lane c : Nat) : State :=
  match atomOf i, ls.find? fun l => l.lane == lane && !l.done with
  | some (f, k), some l =>
    (s.atomUndef h f k l).keepAtom o h i k (ls.map fun m => if m.lane = lane then { m with lost := some c } else m)
  | _, _ => s

/-- R252: the home has applied the step, but the answer does not reach the core: over the link, or over CXL. -/
def execAtomicResponseLost (o lane : Nat) (s : State) : Host.Outcome State Fault Refusal :=
  match aget? s.ops o with
  | some ⟨h, .atomic i ls _⟩ => match ls.find? fun l => l.lane == lane && !l.done with
    | none => .next s
    | some l =>
      if l.remote.isSome then .next (s.atomLost o h i ls lane 0x144)
      else if Config.cxlBase ≤ l.loc && l.loc < 2 ^ 60 then .next (s.atomTurn o h i ls lane (some 0x144))
      else .next s
  | _ => .next s

/-- R252: no answer within 2^22 clocks: the step may or may not have taken place; it has not where its home could not take it yet. -/
def execAtomicTimeout (o lane : Nat) (s : State) : Host.Outcome State Fault Refusal :=
  match aget? s.ops o with
  | some ⟨h, .atomic i ls _⟩ =>
    if s.clock < h.issuedAt + 2 ^ 22 then .next s
    else match ls.find? fun l => l.lane == lane && !l.done with
      | none => .next s
      | some _ =>
        let (k, s) := s.choose 2
        let turn := match atomOf i with
          | some (f, _) => s.turnReady f ls lane
          | none => []
        if k = 0 || turn = [] then .next (s.atomLost o h i ls lane 0x145)
        else .next (s.atomTurn o h i ls lane (some 0x145))
  | _ => .next s

/-! ### Fences (R253 to R256) -/

/-- Loads and atomics of the slot in flight, which a fence with `.acq` waits for (R254). -/
def State.readsInFlight (s : State) (g : Nat) (sl : Slot) : Bool :=
  (s.opsHere g sl).any fun o => match o.2.body with
    | .load .. | .atomic .. => true
    | _ => false

/-- May the fence issue? -/
def State.fenceReady (s : State) (x : Ctx) (f : SyncF) : Bool := f.ord == .rel || !s.readsInFlight x.c.g x.sl

/-- R254, R255: one fibre's fence: what is hb it, reads in flight among it, passes on. -/
def State.fenceFibre (s : State) (f : SyncF) (fid : Nat) : State :=
  let sc := f.ord == .plain
  let acq := sc || (ordAcq f.ord)
  let rel := sc || (ordRel f.ord)
  let s := if acq then s.modFibre fid fun fb => fb.learn .vec fb.pendAcq else s
  let s := if sc then s.learn [fid] .vec s.scSet else s
  let know := union (s.fibre fid).vec.know (s.fibre fid).after
  let s := if sc then { s with scSet := union s.scSet know } else s
  let s := if rel && f.scope == .sys then { s with sysKnow := union s.sysKnow know } else s
  if rel then s.modFibre fid fun fb => { fb with relFence := some (union (fb.relFence.getD []) know) } else s

/-- R254, R255: FENCE. -/
def execFence (f : SyncF) (s : State) : Host.Outcome State Fault Refusal :=
  onSlot f.g s fun x s =>
    if x.act ≠ [] && !s.fenceReady x f then s
    else (x.act.foldl (fun s a => s.fenceFibre f a.2) s).advance x

/-- R253: the paths of a mask. -/
def maskPaths (m : BitVec 5) : List Path :=
  [(0, Path.vec), (1, .cp), (2, .mx), (3, .vp), (4, .coll)].filterMap fun p => if m.getLsbD p.1 then some p.2 else none

/-- The path of an operation in flight (R240). -/
def OpBody.path : OpBody → Option Path
  | .load .. | .store _ | .atomic .. => some .vec
  | .append _ => some .coll
  | .copy .. => some .cp
  | .tile .. => some .mx
  | .proj .. => some .vp
  | _ => none

/-- R256: every operation that the slot issued before, on a path of the mask, has completed. -/
def State.xfenceReady (s : State) (x : Ctx) (m : BitVec 5) : Bool :=
  !((s.opsHere x.c.g x.sl).any fun o => match o.2.body.path with
      | some p => (maskPaths m).contains p
      | none => false)
  && !((maskPaths m).contains .coll && s.runs.any fun r => r.2.state != .complete && x.sl.lanes.any fun a => a.2 == r.2.fibre)

/-- R256: XFENCE: what a fibre knows on the paths of the mask it knows on each of them. -/
def execXfence (f : SyncF) (s : State) : Host.Outcome State Fault Refusal :=
  onSlot f.g s fun x s =>
    if x.act ≠ [] && !s.xfenceReady x f.mask then s
    else
      let ps := maskPaths f.mask
      let s := x.act.foldl (fun s a =>
        let fb := s.fibre a.2
        let know := ps.foldl (fun m p => union m (fb.view p).know) []
        ps.foldl (fun s p => s.learn [a.2] p know) s) s
      s.advance x

end Sys2Proof.Machine
end

