-- ==== Sys2Proof/Machine/Matrix.lean ====
section
/-!
DEFINITION. The matrix engine: MMA, TZERO, TLDM, TRD, TWR and TSCL, with the steps of the engine (R188 to R210).
-/
namespace Sys2Proof.Machine

/-! ### Tile runs (R188) -/

/-- R188: tiles of a run under an accumulator. -/
def accTiles (acc : Nat) : Nat := if acc = 0 then 1 else if acc = 1 then 2 else 4

/-- R188: cause 0x102. -/
def badTile (l : Launch) (acc t : Nat) : Bool := t % accTiles acc != 0 || decide (l.tiles < t + accTiles acc)

def tileKey (half t : Nat) : Nat := 32 * half + t

/-- The half of a paired team that a core is. -/
def Team.halfOf (t : Team) (core : Nat) : Nat := core - t.core

/-- A run that nothing has written under `acc` since it was last written under another accumulator: undefined. -/
def Tile.undef (acc seed : Nat) (flags : Flags) : Tile := { acc, elems := [], stamps := [], flags, seed, ue := [] }

/-- A run read under `acc` (R188): its flags stand with its first tile. -/
def Team.run (t : Team) (half acc i : Nat) : Tile :=
  match aget? t.tiles (tileKey half i) with
  | some x => if x.acc = acc then x else Tile.undef acc (1 + 4096 * t.scrId + tileKey half i) x.flags
  | none => Tile.undef acc (1 + 4096 * t.scrId + tileKey half i) 0

/-- Write a run: other runs that share a tile with it lose their values and stamps, not the flags that stand with their first tile. -/
def Team.setRun (t : Team) (half i : Nat) (x : Tile) : Team :=
  let n := accTiles x.acc
  let lost (y : Nat × Tile) : Bool := y.1 / 32 == half && overlaps (y.1 % 32) (accTiles y.2.acc) i n
  let tiles := t.tiles.map fun (y : Nat × Tile) => if lost y then (y.1, Tile.undef y.2.acc (1 + 4096 * t.scrId + y.1) y.2.flags) else y
  { t with tiles := aset tiles (tileKey half i) x }

/-- An element and its stamp. -/
def Tile.elem (x : Tile) (r c : Nat) : Nat :=
  match aget? x.elems (64 * r + c) with
  | some v => v.toNat
  | none =>
    if x.seed = 0 then 0
    else
      let hi := (Config.undefTile x.seed (64 * r + c)).toNat
      let lo := (Config.undefTile x.seed (4096 + 64 * r + c)).toNat
      match x.acc with
      | 0 => hi % 2 ^ 32
      | 1 => hi
      | _ => hi + lo * 2 ^ 64

def Tile.stamp (x : Tile) (r c : Nat) : Stamp :=
  match aget? x.stamps (64 * r + c) with
  | some v => v
  | none => if x.seed = 0 then 0 else Config.undefTileStamp x.seed (64 * r + c)

def Tile.put (x : Tile) (r c v : Nat) (st : Stamp) : Tile :=
  { x with elems := aset x.elems (64 * r + c) (BitVec.ofNat 128 v), stamps := aset x.stamps (64 * r + c) st
           ue := x.ue.filter fun e => e != 64 * r + c }

def accFmt (acc : Nat) : Fmt := fmtOf (if acc = 0 then .f32 else .f64)

/-- The terms that an element stands for: one value, or hi and a non-zero lo. -/
def accTerms (acc v : Nat) : List FV :=
  if acc = 2 then
    let lo := decodeF (fmtOf .f64) (v / 2 ^ 64)
    decodeF (fmtOf .f64) (v % 2 ^ 64) :: (if lo.isZero then [] else [lo])
  else [decodeF (accFmt acc) v]

/-! ### Exact sums (R199, R200) -/

/-- A product of two finite values, with the sign of a zero. -/
def prodDy (a b : FV) : Dy := a.dy.mul b.dy
def prodNegZero (a b : FV) : Bool := (a.isZero || b.isZero) && xor a.isNeg b.isNeg

/-- R199: an exact sum rounded into hi and lo. -/
def splitWide (zneg : Bool) (x : Dy) : Nat × Flags :=
  let f := fmtOf .f64
  let hi := roundDy f .rne zneg x
  match decodeF f hi.1 with
  | .inf _ => (hi.1, hi.2)
  | v =>
    let lo := roundDy f .rne false (x.add v.dy.neg)
    (hi.1 + lo.1 * 2 ^ 64, lo.2)

/-- R199, R200: the sum of the products of `as` and `bs` and of the terms `is`, rounded into the accumulator. -/
def sumAcc (acc : Nat) (rm : RM) (as bs is : List FV) : Nat × Flags :=
  let f := accFmt acc
  let ps := as.zip bs
  let zeroInf := ps.any fun p => (p.1.isZero && p.2.isInf) || (p.1.isInf && p.2.isZero)
  let ops := as ++ bs ++ is
  match ops.find? FV.isNaN with
  | some v => (quietF f v, if zeroInf || ops.any FV.isSig then NV else 0)
  | none =>
    let infs := (ps.filterMap fun p => if p.1.isInf || p.2.isInf then some (xor p.1.isNeg p.2.isNeg) else none)
      ++ is.filterMap fun v => if v.isInf then some v.isNeg else none
    if zeroInf || (infs.contains true && infs.contains false) then (canonNaN f, NV)
    else match infs with
      | n :: _ => (infF f n, 0)
      | [] =>
        let total := is.foldl (fun t v => t.add v.dy) (ps.foldl (fun t p => t.add (prodDy p.1 p.2)) Dy.zero)
        let zneg := rm == .rdn || ((ps.all fun p => prodNegZero p.1 p.2) && is.all fun v => v.isZero && v.isNeg)
        if acc = 2 then splitWide zneg total else roundDy f rm zneg total

/-! ### Issue (R191 to R196) -/

/-- The parameter block (R193), from the captured scalars. -/
structure MmaParam where
  baddr : DWord
  pitch : Nat
  ct : Nat
  dt : Nat
  mrows : Nat
  ksteps : Nat
  rsv : Bool
  deriving DecidableEq, Repr

def mmaParam (r : Nat → Word) : MmaParam :=
  let w := (r 3).toNat
  { baddr := BitVec.ofNat 64 ((r 0).toNat + (r 1).toNat * 2 ^ 32), pitch := (r 2).toNat, ct := bitsN w 0 5, dt := bitsN w 8 5
    mrows := bitsN w 13 7, ksteps := bitsN w 20 4 + 1, rsv := bitsN w 5 3 != 0 || bitsN w 24 8 != 0 }

/-- The register number of a spec. -/
def specNum : Spec → Nat
  | .vec n => n.toNat
  | .scl n => n.toNat
  | _ => 0

/-- R194: bits of an A element and the depth of a step. -/
def mmaBits (t : Ty) : Nat := match t with
  | .tx4 => 4
  | .tx8 | .mx8 => 8
  | _ => t.bits
def mmaK (t : Ty) : Nat := 512 / mmaBits t
/-- R195: exponent registers for each step. -/
def mmaExpo (t : Ty) : Nat := if t = .tx4 then 2 else if t = .tx8 || t = .mx8 then 1 else 0

/-- The keys under which an engine instruction holds its operands: a lane's register, or a scalar of its run. -/
def opKey (lane k : Nat) : Nat := lane * 1024 + k
def sclKey (k : Nat) : Nat := 2 ^ 20 + k
def opReg (opnds : List (Nat × Reg)) (k : Nat) : Reg := mget Reg.zero opnds k

/-- Registers `a` to `a + n - 1` of every fibre of the slot. -/
def laneRuns (s : State) (lanes : List (Nat × Nat)) (sp : Spec) (n : Nat) : List (Nat × Reg) :=
  lanes.flatMap fun a => (List.range n).map fun k => (opKey a.1 k, (s.fibre a.2).reg (specNum sp + k))

def Ctx.sclRun (x : Ctx) (sp : Spec) (n : Nat) : List (Nat × Reg) :=
  (List.range n).map fun k => (sclKey k, x.sl.reg (specNum sp + k))

/-- Tiles that an instruction names, as first tile and count (R189). -/
def tileRuns (i : Instr) (opnds : List (Nat × Reg)) : List (Nat × Nat) :=
  match i with
  | .mma f =>
    let p := mmaParam fun k => (opReg opnds (sclKey k)).val
    [(p.ct, accTiles f.acc), (p.dt, accTiles f.acc)]
  | .tzero f | .tldm f | .trd f | .twr f => [(bitsN f.imm.toNat 0 5, accTiles f.acc)]
  | .tscl f => [(bitsN f.imm.toNat 0 5, accTiles f.acc), (bitsN f.imm.toNat 5 5, accTiles f.acc)]
  | _ => []

/-- R189: a tile instruction of the core that names a tile of these runs has not retired. -/
def State.tileBusy (s : State) (team core : Nat) (runs : List (Nat × Nat)) : Bool :=
  s.ops.any fun o => o.2.head.team == team && o.2.head.core == core && (match o.2.body with
    | .tile i _ _ _ opnds _ _ _ => (tileRuns i opnds).any fun a => runs.any fun b => overlaps a.1 a.2 b.1 b.2
    | .proj (.vprojb _) _ _ d _ _ => runs.any fun b => overlaps (bitsN d.param 384 5) 1 b.1 b.2
    | _ => false)

/-- May a tile instruction issue (R189)? -/
def State.tileReady (s : State) (x : Ctx) (i : Instr) : Bool :=
  let opnds := match i with
    | .mma f => x.sclRun f.b 4
    | _ => []
  !s.tileBusy x.sl.team (coreOf x.c.g) (tileRuns i opnds)

/-- R191: the course of an instruction that one fibre issues for the weave: `check` gives its precise cause, `opnds` what it
holds. An unmet interlock leaves it waiting, whatever the guards and causes (R189). -/
def State.startTile (s : State) (x : Ctx) (i : Instr) (t : Nat) (check : Option Nat) (opnds : List (Nat × Reg)) : State :=
  if !s.tileReady x i then s
  else match x.act with
    | [] => s.advance x
    | [a] => match check with
      | some c => s.trapPrecise x c x.lanesOf
      | none => (s.startOp x .tl (.tile i t a.2 a.1 opnds (x.c.rstep.getD 0) [] x.c.rstep.isSome)).advance x
    | _ => s.trapPrecise x 0x100 x.lanesOf

/-- The first cause of a list of tests. -/
def firstOf (l : List (Bool × Nat)) : Option Nat := (l.find? fun p => p.1).map fun p => p.2

/-- R193, R195: the causes of MMA at issue. -/
def mmaCheck (x : Ctx) (f : EngF) : Option Nat :=
  let p := mmaParam fun k => x.sl.reg (specNum f.b + k) |>.val
  let n := (16 + mmaExpo f.ty) * p.ksteps
  firstOf [(specNum f.b % 4 != 0 || p.rsv || p.mrows == 0 || decide (64 < p.mrows) || decide (x.l.width < p.mrows) || !canonical p.baddr, 0x103),
    (p.baddr.toNat % 32 != 0 || p.pitch % 32 != 0, 0x104), (badTile x.l f.acc p.ct || badTile x.l f.acc p.dt, 0x102),
    (decide (x.l.allot x.sl.role < specNum f.a + n), 0x004)]

/-- R193 to R196: MMA. -/
def execMma (f : EngF) (s : State) : Host.Outcome State Fault Refusal :=
  onSlot f.g s fun x s =>
    let p := mmaParam fun k => (x.sl.reg (specNum f.b + k)).val
    s.startTile x (.mma f) p.dt (mmaCheck x f)
      (laneRuns s x.sl.lanes f.a ((16 + mmaExpo f.ty) * p.ksteps) ++ x.sclRun f.b 4)

def immTile (f : EngF) : Nat := bitsN f.imm.toNat 0 5

/-- R206: TZERO. -/
def execTzero (f : EngF) (s : State) : Host.Outcome State Fault Refusal :=
  onSlot f.g s fun x s => s.startTile x (.tzero f) (immTile f) (firstOf [(badTile x.l f.acc (immTile f), 0x102)]) []

/-- Bytes of an element in memory (R207). -/
def accBytes (acc : Nat) : Nat := if acc = 0 then 4 else 8

/-- R207: TLDM. -/
def execTldm (f : EngF) (s : State) : Host.Outcome State Fault Refusal :=
  onSlot f.g s fun x s =>
    let w := accBytes f.acc
    let base := x.pair (x.first s) f.a
    let pitch := (x.sl.reg (specNum f.b)).val.toNat
    s.startTile x (.tldm f) (immTile f)
      (firstOf [(base.toNat % w != 0 || pitch % w != 0, 0x104), (badTile x.l f.acc (immTile f), 0x102)])
      (x.sclRun f.a 2 ++ [(sclKey 2, x.sl.reg (specNum f.b))])

def immRow (f : EngF) : Nat := bitsN f.imm.toNat 5 6
def immCol (f : EngF) : Nat := bitsN f.imm.toNat 11 6
def immN (f : EngF) : Nat := bitsN f.imm.toNat 17 6 + 1

/-- R208: the causes of TRD and TWR at issue. -/
def rowCheck (x : Ctx) (f : EngF) : Option Nat :=
  firstOf [(badTile x.l f.acc (immTile f), 0x102),
    (decide (64 < immRow f + x.l.width) || decide (64 < immCol f + immN f), 0x105)]

/-- R208: the course of TRD and TWR at issue: they act for every active lane. -/
def State.startRows (s : State) (x : Ctx) (i : Instr) (f : EngF) (opnds : List (Nat × Reg)) : State :=
  if !s.tileReady x i then s
  else match x.act with
    | [] => s.advance x
    | a :: _ => match rowCheck x f with
      | some c => s.trapPrecise x c x.lanesOf
      | none => (s.startOp x .tl (.tile i (immTile f) a.2 a.1 opnds 0 [] false)).advance x

/-- R208: TRD. -/
def execTrd (f : EngF) (s : State) : Host.Outcome State Fault Refusal :=
  onSlot f.g s fun x s => s.startRows x (.trd f) f []

/-- R208: TWR. -/
def execTwr (f : EngF) (s : State) : Host.Outcome State Fault Refusal :=
  onSlot f.g s fun x s => s.startRows x (.twr f) f (laneRuns s x.act f.a (immN f * (if f.acc = 0 then 1 else 2)))

/-- R209: TSCL. -/
def execTscl (f : EngF) (s : State) : Host.Outcome State Fault Refusal :=
  onSlot f.g s fun x s => s.startTile x (.tscl f) (immTile f)
    (firstOf [(badTile x.l f.acc (immTile f) || badTile x.l f.acc (bitsN f.imm.toNat 5 5), 0x102)])
    (x.sclRun f.a (if f.acc = 0 then 1 else 2))

/-! ### Engine reads (R203, R246) -/

/-- A byte that an engine reads: its location and whether its page is timeless. -/
structure EByte where
  loc : Nat
  timeless : Bool
  deriving DecidableEq, Repr

/-- Bytes read by an engine, by location: the byte and the stamp of its granule. -/
abbrev EMem := List (Nat × (Byte × Stamp))

/-- Bytes that lie at another device: as its answers brought them; for a read at issue, values that this device does not
decide (log 13). -/
def State.readFar (s : State) (rid : Nat) (locs : List Nat) : EMem × State :=
  match aget? s.far rid with
  | some f => (locs.map fun a => (a, ((aget? f.got a).getD (Config.undefByte a), (aget? f.gotSt (a / 32)).getD (Config.undefStamp (a / 32)))), s)
  | none => (locs.zipIdx.map fun a => (a.1, ((Config.freeValue (s.free + a.2)).truncate 8, Config.freeStamp s.free)),
      { s with free := s.free + locs.length })

/-- The answers to a read at other devices have been used, or are not wanted. -/
def State.dropFar (s : State) (rid : Nat) : State := { s with far := adel s.far rid }

/-- R246: read an element on an engine's path: from one write where every byte has the same candidates, else each aligned word of
4 bytes on its own. The bytes come word by word. -/
def State.readElem (s : State) (rd : Reader) (locs : List Nat) : Option (List Nat × ReadOut × State) :=
  let ids (a : Nat) : List (Option Nat) := (s.cands rd a).map fun c => c.map fun w => w.id
  if locs.all fun b => decide (ids b = ids (locs.headD 0)) then (s.readUnit rd false locs).map fun o => (locs, o)
  else
    let halves := (locs.map (· / 4)).eraseDups.map fun k => locs.filter fun a => a / 4 == k
    halves.foldl (fun acc half => match acc with
      | none => none
      | some (ls, out, s) => (s.readUnit rd false half).map fun o => (ls ++ half, out.append o.1, o.2)) (some ([], .empty, s))

/-- Read some bytes on an engine's path, aligned element by element of `unit` bytes (R246). `none` while nothing may be returned. -/
def State.readEngine (s : State) (rd : Reader) (unit : Nat) (bs : List EByte) : Option (EMem × List WEv × State) :=
  let words := (bs.map fun b => b.loc / unit).eraseDups
  words.foldl (fun acc w => match acc with
    | none => none
    | some (m, src, s) =>
      let mine := bs.filter fun b => b.loc / unit == w
      let locs := (mine.map fun b => b.loc).eraseDups
      if locs.any isRemote then
        let r := s.readFar rd.rid locs
        some (r.1 ++ m, src, r.2)
      else match s.readElem rd locs with
      | none => none
      | some (locs, o, s) =>
        let cells := (locs.zip (o.bytes.zip o.stamps)).map fun c =>
          (c.1, (c.2.1, if mine.any fun b => b.loc == c.1 && b.timeless then (0 : Stamp) else c.2.2))
        some (cells ++ m, src ++ o.src, s)) (some ([], [], s))

def emByte (m : EMem) (loc : Nat) : Byte := ((m.find? fun c => c.1 == loc).map fun c => c.2.1).getD 0
def emNat (m : EMem) (loc n : Nat) : Nat := leNat ((from_ loc n).map (emByte m))
def emStamp (m : EMem) (loc : Nat) : Stamp := ((m.find? fun c => c.1 == loc).map fun c => c.2.2).getD 0

/-- The writes that the earlier operations of an engine have made: an operation follows those that touch its bytes, whoever issued
them: on `cp` its team's, on `vp` those of its core (R229, R220). -/
def State.engineMade (s : State) (h : OpHead) : Path → List Nat
  | .cp => (s.team h.team).cpMade
  | .vp => s.teams.flatMap fun t => (t.2.vpMade.filter fun w => w.1 == h.core).map fun w => w.2
  | _ => []

def State.engineReader (s : State) (o : Nat) (h : OpHead) (fid lane : Nat) (path : Path) : Reader :=
  { rid := readId o lane, know := union h.know (s.engineMade h path), seen := ((s.fibre fid).view path).seen, issuedAt := h.issuedAt }

/-- What an engine has read on a path: its fibre receives it, and the reads before the writes it returned stand where its own read does
(V4 of R245). -/
def State.engineGot (s : State) (o : Nat) (fid lane : Nat) (path : Path) (src : List WEv) : State :=
  let rid := readId o lane
  (s.receive fid path false src).settle rid (union [rid] (src.foldl (fun m w => union m w.after) []))

/-- A cause met by an engine: the groom holds the operation (R204) for the page of an address, or the cause is delivered. -/
inductive EMiss where
  | hold (va : Nat)
  | cause (c : Nat) (addr : DWord)
  deriving DecidableEq, Repr

def Miss.engine (m : Miss) (va : DWord) : EMiss := if m.groom then .hold va.toNat else .cause m.cause va

/-- Where an engine's read at other devices stands. -/
inductive FarTurn where
  | ready
  | wait (s : State)
  | miss (m : EMiss) (s : State)
  deriving DecidableEq, Repr

/-- R174: an engine asks other devices for the granules of a read that lie there, once the writes there that are hb the read are
acknowledged (R245, R308), and goes on when all have come back. A cause that came back, or 0x180 where every route is down, ends the
read. -/
def State.farTurn (s : State) (part : Nat) (rd : Reader) (bs : List EByte) : FarTurn :=
  let rid := rd.rid
  match (bs.map fun b => b.loc).filter fun a => isRemote a && reachable a with
  | [] => .ready
  | a :: as =>
    let far := a :: as
    let f := mget FarRead.zero s.far rid
    match f.lost with
    | some (gr, c) => .miss (.cause c (windowVa ((far.find? fun x => x / 32 == gr).getD (gr * 32)))) (s.dropFar rid)
    | none =>
      if f.asks ≠ [] then .wait s
      else match (granulesOf far).filter fun gr => (aget? f.gotSt gr).isNone with
        | [] => .ready
        | g :: gs => if s.farHeld far rd.know [] then .wait s else match s.askRemote part ((g :: gs).map fun gr => (gr, far.filter fun x => x / 32 == gr)) with
          | none => .miss (.cause 0x180 (windowVa a)) (s.dropFar rid)
          | some (asks, s) => .wait { s with far := aset s.far rid { f with asks } }

/-- An engine element: the byte place where it begins, that of its bytes 4 to 7 where they lie on another page, with whether that is
timeless, its nibble, and the exponent word's location for a block format. -/
structure ElemAt where
  loc : Nat
  hi : Option (Nat × Bool) := none
  nib : Nat
  expo : Option Nat
  timeless : Bool
  deriving DecidableEq, Repr

/-- The places of a block element's or scalar element's bytes. -/
def ElemAt.places (e : ElemAt) (z : Nat) : List EByte :=
  match e.hi with
  | some (a, t) => (from_ e.loc 4).map (fun b => ⟨b, e.timeless⟩) ++ (from_ a 4).map fun b => ⟨b, t⟩
  | none => (from_ e.loc z).map fun a => ⟨a, e.timeless⟩

def ElemAt.bytes (e : ElemAt) (z : Nat) : List EByte :=
  e.places z ++ (match e.expo with
    | some x => [⟨x, e.timeless⟩, ⟨x + 1, e.timeless⟩]
    | none => [])

def ElemAt.value (e : ElemAt) (m : EMem) (fmt : Nat) : FV :=
  ldeValue fmt e.nib (leNat ((e.places (fmtElem fmt)).map fun b => emByte m b.loc)) (match e.expo with | some x => emNat m x 2 | none => 0)

def ElemAt.stamps (e : ElemAt) (m : EMem) (z : Nat) : List Stamp :=
  ((e.places z).map fun b => emStamp m b.loc) ++ (match e.expo with | some x => [emStamp m x] | none => [])

def tyFmt : Ty → Nat
  | .f64 => 1 | .f32 => 2 | .f16 => 3 | .bf16 => 4 | .e4m3 => 5 | .e5m2 => 6 | .tx4 => 7 | .tx8 => 8 | .mx8 => 9 | _ => 0

/-- R197: where element (k, c) of B lies. -/
def bAddr (pg : Page) (baddr : DWord) (pitch k c : Nat) : DWord × Nat :=
  if isBlockFmt pg.fmt && pg.geom = 1 then
    let b := baddr + BitVec.ofNat 64 (k / 32 * pitch + c * fmtBlock pg.fmt)
    if pg.fmt = 7 then (b + BitVec.ofNat 64 (k % 32 / 2), k % 2) else (b + BitVec.ofNat 64 (k % 32), 0)
  else
    let b := baddr + BitVec.ofNat 64 (k * pitch)
    if pg.fmt = 7 then (b + BitVec.ofNat 64 (c / 2), c % 2) else (b + BitVec.ofNat 64 (c * fmtElem pg.fmt), 0)

/-- An element of a formatted page, translated and checked (R197, R215): every page as the first one. -/
def State.elemAt (s : State) (w : Who) (first : Page) (va : DWord) (nib : Nat) : Except EMiss ElemAt :=
  match s.placeBytes w .load va 1 with
  | .error m => .error (m.engine va)
  | .ok pg =>
    if pg.fmt ≠ first.fmt || pg.geom ≠ first.geom then .error (.cause 0x101 va)
    else match firstSome (fun a => s.homeCause true a 1) (from_ pg.loc (fmtElem pg.fmt) ++ (if isBlockFmt pg.fmt then [pg.expoLoc, pg.expoLoc + 1] else [])) with
      | some c => .error (.cause c va)
      | none => .ok { loc := pg.loc, nib, expo := if isBlockFmt pg.fmt then some pg.expoLoc else none, timeless := pg.timeless }

/-- Map a fallible function over a list, stopping at the first cause. -/
def mapE {α β : Type} (f : α → Except EMiss β) : List α → Except EMiss (List β)
  | [] => .ok []
  | a :: as => match f a with
    | .error m => .error m
    | .ok b => match mapE f as with
      | .error m => .error m
      | .ok bs => .ok (b :: bs)

/-- R195: element j of the 64-byte image of lane r at step s, and its exponent word's block. -/
def aValue (f : EngF) (opnds : List (Nat × Reg)) (ksteps s r j : Nat) : FV :=
  let b := mmaBits f.ty
  let img := leNat ((List.range 16).flatMap fun k => bytesLE 4 (opReg opnds (opKey r (16 * s + k))).val.toNat)
  let code := bitsN img (b * j) b
  let blk := j / 32
  let w := (opReg opnds (opKey r (16 * ksteps + mmaExpo f.ty * s + blk / 2))).val.toNat
  let word := bitsN w (16 * (blk % 2)) 16
  match f.ty with
  | .tx4 | .tx8 => txValue (txOf f.ty) word code
  | .mx8 => mxValue (word % 256) code
  | _ => decodeF (fmtOf f.ty) code

/-- R201: the stamp of the registers that step s reads of lane r. -/
def aStamp (h : Word) (f : EngF) (opnds : List (Nat × Reg)) (ksteps s r : Nat) : Stamp :=
  olderAll h (((List.range 16).map fun k => (opReg opnds (opKey r (16 * s + k))).st)
    ++ (List.range (mmaExpo f.ty)).map fun k => (opReg opnds (opKey r (16 * ksteps + mmaExpo f.ty * s + k))).st)

/-! ### Steps of the engine -/

/-- R205, R221: engines of a team that is saved, flushed or ended stand still. -/
def State.engineOn (s : State) (h : OpHead) : Bool := (s.team h.team).state.isPlaced

/-- Deliver an engine fault (R204): the operation retires, the cause waits for the slot, and a return resumes at `step`. -/
def State.engineFault (s : State) (o : Nat) (h : OpHead) (lane step c : Nat) (addr : DWord) : State :=
  (s.endOp o h).raiseLate h { h.trap c .engine [lane] [lane] addr with rstep := step }

/-- R294: TRD or TWR meets elements with an uncorrectable error: it retires without effect, names the lanes that read one, and issues
again for every lane in which it acted (log 71). -/
def State.rowsFault (s : State) (o : Nat) (h : OpHead) (bad : List Nat) : State :=
  (s.endOp o h).raiseLate h (h.trap 0x1C2 .engine bad (h.lanes.map fun a => a.1) 0)

/-- Where `n` bytes from an address on lie, by both ends; nothing where the address leads nowhere. -/
def State.spanOf (s : State) (w : Who) (va : DWord) (n : Nat) : List (Nat × Nat) :=
  let side (a : DWord) (back : Nat) : List (Nat × Nat) := match s.placeBytes w .load a 1 with
    | .ok pg => [(pg.loc - back, n)]
    | .error _ => []
  side va 0 ++ side (va + BitVec.ofNat 64 (n - 1)) (n - 1)

/-- What rows `lo` to `hi` − 1 of an array of format `fmt` with 64 columns take in (R197). -/
def State.rowSpans (s : State) (w : Who) (fmt : Nat) (base : DWord) (pitch cols lo hi : Nat) : List (Nat × Nat) :=
  match s.placeBytes w .load base 1 with
  | .error _ => []
  | .ok pg =>
    let n := if isBlockFmt fmt && pg.geom = 1 then cols * fmtBlock fmt else if fmt = 7 then (cols + 1) / 2 else cols * fmtElem fmt
    let starts := (from_ lo (hi - lo)).map fun k =>
      if isBlockFmt fmt && pg.geom = 1 then base + BitVec.ofNat 64 (k / 32 * pitch) else base + BitVec.ofNat 64 (k * pitch)
    starts.eraseDups.flatMap fun a => s.spanOf w a n

/-- TLDM's base address and pitch (R207), from the captured scalars. -/
def tldmBase (opnds : List (Nat × Reg)) : DWord :=
  BitVec.ofNat 64 ((opReg opnds (sclKey 0)).val.toNat + (opReg opnds (sclKey 1)).val.toNat * 2 ^ 32)
def tldmPitch (opnds : List (Nat × Reg)) : Nat := (opReg opnds (sclKey 2)).val.toNat

/-- What a tile operation has still to read in memory. -/
def State.tileSpans (s : State) (h : OpHead) (i : Instr) (opnds : List (Nat × Reg)) (st : Nat) : List (Nat × Nat) :=
  match i with
  | .mma f =>
    let p := mmaParam fun k => (opReg opnds (sclKey k)).val
    s.rowSpans h.who (tyFmt f.ty) p.baddr p.pitch 64 (st * mmaK f.ty) (p.ksteps * mmaK f.ty)
  | .tldm f => (from_ st (64 - st)).flatMap fun r => s.spanOf h.who (tldmBase opnds + BitVec.ofNat 64 (r * tldmPitch opnds)) (64 * accBytes f.acc)
  | _ => []

def spansMeet (a b : List (Nat × Nat)) : Bool := a.any fun x => b.any fun y => overlaps x.1 x.2 y.1 y.2

/-- An earlier matrix operation of the same fibre has still to read a byte that this one reads (V3 of R245). -/
def State.tileBlocked (s : State) (o : Nat) (h : OpHead) (i : Instr) (fid : Nat) (opnds : List (Nat × Reg)) (st : Nat) : Bool :=
  s.ops.any fun p => p.1 < o && (match p.2.body with
    | .tile j _ f _ ops k _ _ => f == fid && spansMeet (s.tileSpans p.2.head j ops k) (s.tileSpans h i opnds st)
    | _ => false)

/-- One step's values (R199): the new D run from the source run, A and B. -/
def mmaCompute (h : Word) (f : EngF) (p : MmaParam) (opnds : List (Nat × Reg)) (st : Nat) (src d : Tile)
    (m : EMem) (bs : List (List ElemAt)) : Tile :=
  let k := mmaK f.ty
  let z := fmtElem (tyFmt f.ty)
  let cols := bs.map fun col => (col.map fun e => e.value m (tyFmt f.ty), olderAll h (col.flatMap fun e => e.stamps m z))
  let rows := (List.range p.mrows).map fun r =>
    ((List.range k).map fun j => aValue f opnds p.ksteps st r j, aStamp h f opnds p.ksteps st r)
  let res := rows.zipIdx.flatMap fun row => cols.zipIdx.map fun col =>
    let v := sumAcc f.acc f.rm row.1.1 col.1.1 (accTerms f.acc (src.elem row.2 col.2))
    (row.2, col.2, v, olderAll h [src.stamp row.2 col.2, row.1.2, col.1.2])
  let d := res.foldl (fun d e => d.put e.1 e.2.1 e.2.2.1.1 e.2.2.2) d
  { d with flags := res.foldl (fun m e => m ||| e.2.2.1.2) src.flags }

/-- R199: one step of an MMA commits; a cause of B holds the operation or retires it (R204). -/
def execMmaStep (o : Nat) (s : State) : Host.Outcome State Fault Refusal :=
  match aget? s.ops o with
  | some ⟨h, .tile (.mma f) t fid lane opnds st [] resumed⟩ =>
    let p := mmaParam fun k => (opReg opnds (sclKey k)).val
    if p.ksteps ≤ st || !s.engineOn h || s.tileBlocked o h (.mma f) fid opnds st then .next s
    else
      let w := h.who
      let hold (va : Nat) : State := s.setOp o ⟨h, .tile (.mma f) t fid lane opnds st [va] resumed⟩
      match s.placeBytes w .load p.baddr 1 with
      | .error m => match m.engine p.baddr with
        | .hold va => .next (hold va)
        | .cause c a => .next (s.engineFault o h lane st c a)
      | .ok first =>
        if first.fmt ≠ tyFmt f.ty then .next (s.engineFault o h lane st 0x101 p.baddr)
        else
          let k := mmaK f.ty
          match mapE (fun j => mapE (fun c =>
              let a := bAddr first p.baddr p.pitch (st * k + j) c
              s.elemAt w first a.1 a.2) (List.range 64)) (List.range k) with
          | .error (.hold va) => .next (hold va)
          | .error (.cause c a) => .next (s.engineFault o h lane st c a)
          | .ok rows =>
            let z := fmtElem first.fmt
            let team := s.team h.team
            let half := team.halfOf h.core
            let d := team.run half f.acc p.dt
            let src := if st = 0 && !resumed then team.run half f.acc p.ct else d
            if src.ue.any fun e => e / 64 < p.mrows then .next (s.engineFault o h lane st 0x1C2 0)
            else
              match s.farTurn h.part (s.engineReader o h fid lane .mx) (rows.flatMap fun r => r.flatMap fun e => e.bytes z) with
              | .wait s => .next s
              | .miss (.hold va) s => .next (s.setOp o ⟨h, .tile (.mma f) t fid lane opnds st [va] resumed⟩)
              | .miss (.cause c a) s => .next (s.engineFault o h lane st c a)
              | .ready =>
              match s.readEngine (s.engineReader o h fid lane .mx) (if z = 8 then 8 else 4) (rows.flatMap fun r => r.flatMap fun e => e.bytes z) with
              | none => .next s
              | some (m, got, s) =>
                let s := s.dropFar (readId o lane)
                let cols := (List.range 64).map fun c => rows.filterMap fun r => r[c]?
                let d := mmaCompute (s.hz h.core) f p opnds st src d m cols
                let s := s.modTeam h.team fun x => x.setRun half p.dt d
                let s := s.engineGot o fid lane .mx got
                .next (s.setOp o ⟨h, .tile (.mma f) t fid lane opnds (st + 1) [] resumed⟩)
  | _ => .next s

/-- R207: one row of TLDM. -/
def State.loadRow (s : State) (o : Nat) (h : OpHead) (f : EngF) (t fid lane : Nat) (opnds : List (Nat × Reg)) (row : Nat) (resumed : Bool) : State :=
  let w := accBytes f.acc
  let at_ (c : Nat) : Except EMiss ElemAt :=
    let va := tldmBase opnds + BitVec.ofNat 64 (row * tldmPitch opnds + c * w)
    match s.placeBytes h.who .load va w with
    | .error m => .error (m.engine va)
    | .ok pg => match s.homeCause true pg.loc w with
      | some e => .error (.cause e va)
      | none => .ok { loc := pg.loc, nib := 0, expo := none, timeless := pg.timeless }
  match mapE at_ (List.range 64) with
  | .error (.hold va) => s.setOp o ⟨h, .tile (.tldm f) t fid lane opnds row [va] resumed⟩
  | .error (.cause c a) => s.engineFault o h lane row c a
  | .ok es => match s.farTurn h.part (s.engineReader o h fid lane .mx) (es.flatMap fun e => e.bytes w) with
    | .wait s => s
    | .miss (.hold va) s => s.setOp o ⟨h, .tile (.tldm f) t fid lane opnds row [va] resumed⟩
    | .miss (.cause c a) s => s.engineFault o h lane row c a
    | .ready => match s.readEngine (s.engineReader o h fid lane .mx) w (es.flatMap fun e => e.bytes w) with
    | none => s
    | some (m, got, s) =>
      let s := s.dropFar (readId o lane)
      let team := s.team h.team
      let half := team.halfOf h.core
      let d := team.run half f.acc t
      let d := if row = 0 then { d with flags := 0 } else d
      let d := es.zipIdx.foldl (fun d e => d.put row e.2 (emNat m e.1.loc w) (olderAll (s.hz h.core) (e.1.stamps m w))) d
      let s := (s.modTeam h.team fun x => x.setRun half t d).engineGot o fid lane .mx got
      s.setOp o ⟨h, .tile (.tldm f) t fid lane opnds (row + 1) [] resumed⟩

/-- R208: round(hi + lo), a zero lo taking part in the sum. -/
def roundWide (rm : RM) (v : Nat) : Nat × Flags :=
  addV (fmtOf .f64) rm (decodeF (fmtOf .f64) (v % 2 ^ 64)) (decodeF (fmtOf .f64) (v / 2 ^ 64))

/-- R208: what TRD gives in one lane, and the exceptions of its rounding. -/
def trdLane (f : EngF) (x : Tile) (lane : Nat) : List (Nat × Reg) × Flags :=
  let outs := (List.range (immN f)).map fun j =>
    let v := x.elem (immRow f + lane) (immCol f + j)
    let st := x.stamp (immRow f + lane) (immCol f + j)
    let r : Nat × Flags := match f.acc, f.part with
      | 2, 0 => roundWide f.rm v
      | 2, 1 => (v % 2 ^ 64, 0)
      | 2, _ => (v / 2 ^ 64, 0)
      | _, _ => (v, 0)
    if f.acc = 0 then ([(j, (⟨BitVec.ofNat 32 r.1, st⟩ : Reg))], r.2)
    else ([(2 * j, ⟨BitVec.ofNat 32 r.1, st⟩), (2 * j + 1, ⟨BitVec.ofNat 32 (r.1 / 2 ^ 32), st⟩)], r.2)
  (outs.flatMap fun o => o.1, outs.foldl (fun m o => m ||| o.2) 0)

/-- R208: what TWR writes for one lane. -/
def twrLane (h : Word) (f : EngF) (opnds : List (Nat × Reg)) (x : Tile) (lane : Nat) : Tile :=
  (List.range (immN f)).foldl (fun x j =>
    let y := immRow f + lane
    let c := immCol f + j
    if f.acc = 0 then
      let r := opReg opnds (opKey lane j)
      x.put y c r.val.toNat r.st
    else
      let lo := opReg opnds (opKey lane (2 * j))
      let hi := opReg opnds (opKey lane (2 * j + 1))
      let v := lo.val.toNat + hi.val.toNat * 2 ^ 32
      let st := older h lo.st hi.st
      let old := x.elem y c
      match f.acc, f.part with
      | 2, 1 => x.put y c (v + old / 2 ^ 64 * 2 ^ 64) (older h (x.stamp y c) st)
      | 2, 2 => x.put y c (old % 2 ^ 64 + v * 2 ^ 64) (older h (x.stamp y c) st)
      | _, _ => x.put y c v st) x

/-- R209: the run that TSCL makes. -/
def tsclRun (h : Word) (f : EngF) (opnds : List (Nat × Reg)) (c d : Tile) : Tile :=
  let lo := opReg opnds (sclKey 0)
  let hi := opReg opnds (sclKey 1)
  let xv := decodeF (accFmt f.acc) (if f.acc = 0 then lo.val.toNat else lo.val.toNat + hi.val.toNat * 2 ^ 32)
  let st := if f.acc = 0 then lo.st else older h lo.st hi.st
  let cells := (List.range 64).flatMap fun r => (List.range 64).map fun k =>
    let terms := accTerms f.acc (c.elem r k)
    let v := if f.acc = 2 then sumAcc 2 .rne terms (terms.map fun _ => xv) []
      else mulV (accFmt f.acc) f.rm (terms.headD (.zero false)) xv
    (r, k, v, older h (c.stamp r k) st)
  let d := cells.foldl (fun d e => d.put e.1 e.2.1 e.2.2.1.1 e.2.2.2) d
  { d with flags := cells.foldl (fun m e => m ||| e.2.2.1.2) c.flags }

/-- R208, R294: the lanes of TRD or TWR whose elements hold an uncorrectable error. -/
def Tile.badLanes (x : Tile) (f : EngF) (h : OpHead) : List Nat :=
  (h.lanes.map fun a => a.1).filter fun i =>
    x.ue.any fun e => e / 64 == immRow f + i && decide (immCol f ≤ e % 64) && decide (e % 64 < immCol f + immN f)

/-- R190: a tile instruction retires, with all its effects; TLDM loads its rows one by one before it. -/
def State.retireTile (s : State) (o : Nat) : State :=
  match aget? s.ops o with
  | some ⟨h, .tile i t fid lane opnds st [] resumed⟩ =>
    let team := s.team h.team
    let half := team.halfOf h.core
    let hz := s.hz h.core
    let fin (s : State) : State := s.endOp o h
    let put (i : Nat) (x : Tile) : State := s.modTeam h.team fun y => y.setRun half i x
    match i with
    | .mma _ =>
      let p := mmaParam fun k => (opReg opnds (sclKey k)).val
      if p.ksteps ≤ st then fin s else s
    | .tzero f => (fin (put t { acc := f.acc, elems := [], stamps := [], flags := 0, seed := 0, ue := [] }))
    | .tldm f => if 64 ≤ st then (fin s) else if s.tileBlocked o h i fid opnds st then s else (s.loadRow o h f t fid lane opnds st resumed)
    | .trd f =>
      let x := team.run half f.acc t
      if x.badLanes f h ≠ [] then s.rowsFault o h (x.badLanes f h)
      else
        let s := h.lanes.foldl (fun s a => if (s.fibre a.2).alive then s.opWrite h a.2 f.d (trdLane f x a.1).1 else s) s
        let exc := h.lanes.foldl (fun m a => m ||| (trdLane f x a.1).2) x.flags
        (fin (s.modSlot h.g fun sl => if sl.team = h.team then { sl with fflags := sl.fflags ||| exc } else sl))
    | .twr f =>
      if f.part ≠ 0 && (team.run half f.acc t).badLanes f h ≠ [] then s.rowsFault o h ((team.run half f.acc t).badLanes f h)
      else (fin (put t (h.lanes.foldl (fun x a => twrLane hz f opnds x a.1) (team.run half f.acc t))))
    | .tscl f =>
      let c := team.run half f.acc (bitsN f.imm.toNat 5 5)
      if c.ue ≠ [] then (s.engineFault o h lane 0 0x1C2 0)
      else (fin (put t (tsclRun hz f opnds c (team.run half f.acc t))))
    | _ => s
  | _ => s

end Sys2Proof.Machine
end

