-- ==== Sys2Proof/Machine/Project.lean ====
section
/-!
DEFINITION. The vocabulary projection: VPROJ, VPROJB, VMERGE and VRSET, their chunks, and the retirement of engine
instructions (R211 to R226).
-/
namespace Sys2Proof.Machine

/-! ### Records (R211) -/

/-- The fields of a record. The heap and the targets are pairs of index and logit. -/
structure VRec where
  nan : Bool
  pinf : Bool
  part : Bool
  spill : Bool
  fx : Flags
  rm : Nat
  tpres : Nat
  kcap : Nat
  vcount : Nat
  e : Nat
  l : Nat
  tgts : List (Nat × Nat)
  heap : List (Nat × Nat)
  deriving DecidableEq, Repr

/-- Bytes of a record of heap capacity `k`. -/
def recSize (k : Nat) : Nat := 64 + 64 * ((k + 7) / 8)

def negInf32 : Nat := 0xFF800000

/-- The empty record of R216. -/
def VRec.empty (k rm : Nat) (tgts : List Nat) : VRec :=
  { nan := false, pinf := false, part := false, spill := false, fx := 0, rm, tpres := 0, kcap := k, vcount := 0
    e := negInf32, l := 0, tgts := tgts.map fun i => (i, 0), heap := [] }

def VRec.decode (n : Nat) : VRec :=
  { nan := n.testBit 0, pinf := n.testBit 1, part := n.testBit 2, spill := n.testBit 3, fx := BitVec.ofNat 5 (bitsN n 4 5)
    rm := bitsN n 9 3, tpres := bitsN n 12 4, kcap := bitsN n 32 8, vcount := bitsN n 128 32, e := bitsN n 160 32
    l := bitsN n 192 64, tgts := (List.range 4).map fun t => (bitsN n (288 + 64 * t) 32, bitsN n (256 + 64 * t) 32)
    heap := (List.range (min 64 (bitsN n 48 8))).map fun i => (bitsN n (544 + 64 * i) 32, bitsN n (512 + 64 * i) 32) }

/-- Heap entries as they lie in memory, unused ones included. -/
def heapWords (k : Nat) (heap : List (Nat × Nat)) : Nat :=
  (List.range (8 * ((k + 7) / 8))).foldl (fun n i =>
    let x := (heap[i]?).getD (0xFFFFFFFF, 0)
    n + (x.2 + x.1 * 2 ^ 32) * 2 ^ (64 * i)) 0

def VRec.encode (r : VRec) : Nat :=
  let b (x : Bool) : Nat := if x then 1 else 0
  b r.nan + 2 * b r.pinf + 4 * b r.part + 8 * b r.spill + 16 * r.fx.toNat + r.rm * 2 ^ 9 + r.tpres * 2 ^ 12 + r.kcap * 2 ^ 32
    + r.heap.length * 2 ^ 48 + r.vcount * 2 ^ 128 + r.e * 2 ^ 160 + r.l * 2 ^ 192
    + r.tgts.zipIdx.foldl (fun n t => n + (t.1.2 + t.1.1 * 2 ^ 32) * 2 ^ (256 + 64 * t.2)) 0
    + heapWords r.kcap r.heap * 2 ^ 512

/-- R211: is a record consistent? -/
def recConsistent (n : Nat) : Bool :=
  let k := bitsN n 32 8
  let e := decodeF (fmtOf .f32) (bitsN n 160 32)
  let l := bitsN n 192 64
  bitsN n 56 72 == 0 && bitsN n 40 8 == 0 && bitsN n 16 16 == 0 && decide (1 ≤ k) && decide (k ≤ 64) && decide (bitsN n 48 8 ≤ k)
    && decide (bitsN n 9 3 ≤ 3)
    && (match e with | .inf true => l == 0 | .zero _ => true | .fin .. => e.dy.isInt | _ => false)
    && decide (l < 0x7FF0000000000000)

/-- R212: the key of a logit: NaNs above numbers, −0 equal to +0. -/
def logitKey (z : Nat) : Int :=
  let m : Nat := z % 2 ^ 31
  if 0x7F800000 < m then (2 ^ 40 : Int) else if z < 2 ^ 31 then (m : Int) else -(m : Int)

/-- R212: does entry `a` rank strictly before entry `b`? -/
def ranksBefore (a b : Nat × Nat) : Bool :=
  decide (logitKey b.2 < logitKey a.2) || (logitKey a.2 == logitKey b.2 && decide (a.1 < b.1))

/-- Offer an entry to a heap that is in rank order: it stands after the entries that it does not precede. -/
def offer (x : Nat × Nat) : List (Nat × Nat) → List (Nat × Nat)
  | [] => [x]
  | y :: ys => if ranksBefore x y then x :: y :: ys else y :: offer x ys

def offerAll (k : Nat) (heap xs : List (Nat × Nat)) : List (Nat × Nat) := xs.foldl (fun h x => (offer x h).take k) heap

/-- R212: the k best of the entries offered: those that a record holds, in whatever order they lie there, and then others. -/
def bestOf (k : Nat) (held xs : List (Nat × Nat)) : List (Nat × Nat) := offerAll k [] (held ++ xs)

/-! ### The normaliser (R217) -/

def Dy.ceil (x : Dy) : Int :=
  if 0 ≤ x.e then x.n * 2 ^ x.e.toNat else -((-x.n).fdiv (2 ^ (-x.e).toNat : Nat))

/-- The reference exponent of a record, `none` for −∞. -/
def refExp (e : Nat) : Option Int :=
  match decodeF (fmtOf .f32) e with
  | .inf _ => none
  | v => some v.dy.ceil

def codeOfExp (e : Int) : Nat := (roundDy (fmtOf .f32) .rne false ⟨e, 0⟩).1

/-- A term scaled by 2^d, d ≤ 0: beyond the least exponent any smaller value rounds alike. -/
def scaleTerm (l : Dy) (d : Int) : Dy := l.scale (max d (-4000))

def f64V (c : Nat) : FV := decodeF (fmtOf .f64) c
def f32V (c : Nat) : FV := decodeF (fmtOf .f32) c

def FV.isFinite : FV → Bool
  | .zero _ | .fin .. => true
  | _ => false

/-- t(z) of R217. -/
def expTerm (z : FV) (e : Int) : Nat × Flags :=
  let x := z.dy.add ⟨-e, 0⟩
  fnV (fmtOf .f64) .rne .exp2 (if x.n = 0 then .zero false else .fin (decide (x.n < 0)) x.n.natAbs x.e)

/-- R217: E, L and the flags absorb the logits of a chunk. -/
def VRec.absorb (r : VRec) (zs : List Nat) : VRec :=
  let vs := zs.map f32V
  let fin := vs.filter FV.isFinite
  let r := { r with nan := r.nan || vs.any FV.isNaN, pinf := r.pinf || vs.any fun v => v.isInf && !v.isNeg }
  let top := fin.foldl (fun m v => some (match m with | none => v.dy.ceil | some e => max e v.dy.ceil)) (refExp r.e)
  match top with
  | none => r
  | some e =>
    let old := match refExp r.e with
      | none => Dy.zero
      | some e0 => scaleTerm (f64V r.l).dy (e0 - e)
    let ts := fin.map fun v => expTerm v e
    let total := ts.foldl (fun a t => a.add (f64V t.1).dy) old
    let l := roundDy (fmtOf .f64) .rne false total
    { r with l := l.1, fx := ts.foldl (fun m t => m ||| t.2) (r.fx ||| l.2), e := if refExp r.e = some e then r.e else codeOfExp e }

/-- R216: one chunk of one row: logits `zs` with their indices and exceptions. -/
def VRec.chunk (r : VRec) (zs : List (Nat × Nat × Flags)) (vcount : Nat) : VRec :=
  let es : List (Nat × Nat) := zs.map fun (z : Nat × Nat × Flags) => (z.1, z.2.1)
  let hit (i : Nat) : Option Nat := (es.find? fun z => z.1 == i).map fun z => z.2
  let tp := r.tgts.zipIdx.foldl (fun (m : Nat) (t : (Nat × Nat) × Nat) => if (hit t.1.1).isSome && !m.testBit t.2 then m + 2 ^ t.2 else m) r.tpres
  let r := { r with fx := zs.foldl (fun (m : Flags) (z : Nat × Nat × Flags) => m ||| z.2.2) r.fx, heap := bestOf r.kcap r.heap es, tpres := tp
                    tgts := r.tgts.map fun (t : Nat × Nat) => (t.1, (hit t.1).getD t.2), vcount }
  r.absorb (es.map fun (z : Nat × Nat) => z.2)

/-- R223: L of a merged record, with the exceptions of its rounding; the reference exponent is the greater of the two. -/
def mergeTop (d s : VRec) : Option Int :=
  match refExp d.e, refExp s.e with
  | none, x => x
  | x, none => x
  | some a, some b => some (max a b)
def mergeL (d s : VRec) : Nat × Flags :=
  let c (r : VRec) (e : Int) : Dy := match refExp r.e with
    | none => Dy.zero
    | some x => scaleTerm (f64V r.l).dy (x - e)
  match mergeTop d s with
  | none => (d.l, 0)
  | some e => roundDy (fmtOf .f64) .rne false ((c d e).add (c s e))

/-- R223: the merge of a source record into a destination record. -/
def VRec.merge (d s : VRec) : VRec :=
  let l := mergeL d s
  { d with
    heap := bestOf d.kcap d.heap s.heap, l := l.1
    e := if mergeTop d s = refExp d.e then d.e else s.e
    nan := d.nan || s.nan, pinf := d.pinf || s.pinf, spill := d.spill || s.spill, fx := d.fx ||| s.fx ||| l.2
    tgts := (d.tgts.zip s.tgts).zipIdx.map fun t => if !d.tpres.testBit t.2 && s.tpres.testBit t.2 then t.1.2 else t.1.1
    tpres := d.tpres ||| s.tpres, vcount := min (d.vcount + s.vcount) 0xFFFFFFFF }

/-! ### The gradient (R222) -/

/-- round(2^x / L − y, f32, RM), correctly rounded, for finite x and positive L. -/
def gradRound (rm : RM) (x l : Dy) (y : Bool) : Nat × Flags :=
  let f := fmtOf .f32
  let ln := l.n.toNat
  if x.lt ⟨-5000, 0⟩ then
    (if y then roundF f rm true ⟨2 ^ 200 - 1, -200, true⟩ else roundF f rm false ⟨1, -3900, true⟩)
  else if Dy.lt ⟨5000, 0⟩ x then roundF f rm false ⟨1, 3900, true⟩
  else if x.isInt then
    let a := (roundInt .rtz x).1 - l.e
    let num := 2 ^ a.toNat
    let den := ln * 2 ^ (-a).toNat
    let d : Int := (num : Int) - (if y then (den : Int) else 0)
    if d = 0 then (zeroF f (rm == .rdn), 0)
    else
      let q := ratMag d.natAbs den (64 + Nat.log2 den)
      roundF f rm (decide (d < 0)) q
  else
    let k := (-x.e).toNat
    let whole : Int := x.n.fdiv (2 ^ k : Nat)
    let frac := (x.n - whole * (2 ^ k : Nat)).toNat
    let t := Nat.log2 ln
    let sc : Int := whole - l.e - t
    let ratio (n : Nat) : Enc := (expEnc n ((Enc.rat n frac (2 ^ k)).mul n (ln2Enc n))).div n (Enc.rat n ln (2 ^ t))
    if !y then zivRound f rm false ratio sc precisions
    else if sc < -300 then roundF f rm true ⟨2 ^ 200 - 1, -200, true⟩
    else if 300 < sc then roundF f rm false ⟨1, 3900, true⟩
    else
      let v (n : Nat) : Enc :=
        let r := ratio n
        if 0 ≤ sc then r.mulN (2 ^ sc.toNat) else r.divN (2 ^ (-sc).toNat)
      if (v 3072).hi < 2 ^ 3072 then zivRound f rm true (fun n => (Enc.one n).sub (v n)) 0 precisions
      else zivRound f rm false (fun n => (v n).sub (Enc.one n)) 0 precisions

/-- R222: G(r, c) for a logit `z` and whether its index is the label. -/
def gradOf (rm : RM) (r : VRec) (z : Nat) (y : Bool) : Nat × Flags :=
  let f := fmtOf .f32
  let v := f32V z
  match v with
  | .nan .. => (quietF f v, if v.isSig then NV else 0)
  | _ =>
    if r.nan || r.pinf then (canonNaN f, NV)
    else match v with
      | .inf true => if y then (0xBF800000, 0) else (0, 0)
      | .inf false => (canonNaN f, NV)
      | _ => match refExp r.e with
        | none => (canonNaN f, NV)
        | some e => if (f64V r.l).isZero then (canonNaN f, NV) else gradRound rm (v.dy.add ⟨-e, 0⟩) (f64V r.l).dy y

/-! ### Parameters (R215, R225) -/

/-- The parameter block. -/
structure VParam where
  vaddr : DWord
  vpitch : Nat
  vn : Nat
  vbase : Nat
  hoff : Nat
  hpitch : Nat
  ksteps : Nat
  mrows : Nat
  k : Nat
  spok : Bool
  init : Bool
  raddr : DWord
  taddr : DWord
  dt : Nat
  deriving DecidableEq, Repr

def vparam (n : Nat) : VParam :=
  { vaddr := BitVec.ofNat 64 (bitsN n 0 64), vpitch := bitsN n 64 32, vn := bitsN n 96 32, vbase := bitsN n 128 32
    hoff := bitsN n 160 32, hpitch := bitsN n 192 32, ksteps := bitsN n 224 10 + 1, mrows := bitsN n 234 7
    k := bitsN n 241 6 + 1, spok := n.testBit 247, init := n.testBit 248, raddr := BitVec.ofNat 64 (bitsN n 256 64)
    taddr := BitVec.ofNat 64 (bitsN n 320 64), dt := bitsN n 384 5 }

/-- Bytes of a hidden row's image (R215). -/
def hidBytes (ty : Ty) (ksteps : Nat) : Nat := (64 + 4 * mmaExpo ty) * ksteps

/-- R215: a breach of the table, VPROJ (`fwd`) or VPROJB. -/
def vparamBad (ty : Ty) (fwd : Bool) (n : Nat) : Bool :=
  let p := vparam n
  let r0 (a : DWord) : Bool := regionOf a.toNat == 0
  bitsN n 389 123 != 0 || bitsN n 249 7 != 0 || !canonical p.vaddr || p.vaddr.toNat % 32 != 0 || p.vpitch % 32 != 0
    || p.vn == 0 || decide (0xFFFFFFFE < p.vbase + p.vn - 1) || p.hoff % 64 != 0 || p.hpitch % 64 != 0
    || decide (p.hpitch < hidBytes ty p.ksteps) || p.mrows == 0 || decide (64 < p.mrows) || p.raddr.toNat % 64 != 0
    || !r0 p.raddr
    || (if fwd then p.dt != 0 || (if p.init then p.taddr.toNat % 16 != 0 || !r0 p.taddr else p.taddr != 0)
        else decide (64 < p.vn) || p.init || p.spok || p.k != 1 || p.taddr != 0)

/-- Sixteen scalar registers as one number. -/
def Slot.block (sl : Slot) (p : Nat) : Nat := leNat ((List.range 16).flatMap fun k => bytesLE 4 (sl.reg (p + k)).val.toNat)

/-! ### Arrays in memory -/

/-- A cause met by an array at issue: the cause, whether the groom serves it, and the address. -/
structure VMiss where
  cause : Nat
  groom : Bool
  va : DWord
  deriving DecidableEq, Repr

/-- `n` pieces of `size` bytes from `va` on, translated and checked (R163, R171). -/
def State.piecesOf (s : State) (w : Who) (acc : Acc) (va : DWord) (size : Nat) : Nat → Except VMiss (List ELoc)
  | 0 => .ok []
  | n + 1 =>
    match s.placeBytes w acc va 1 with
    | .error m => .error ⟨m.cause, m.groom, va⟩
    | .ok pg => match s.homeCause (acc != .store) pg.loc size with
      | some c => .error ⟨c, false, va⟩
      | none => (s.piecesOf w acc (va + BitVec.ofNat 64 size) size n).map fun r =>
          { loc := pg.loc, va := va.toNat, timeless := pg.timeless, swm := pg.swm } :: r

/-- Split a list into pieces of `k`. -/
def piecesBy {α : Type} (k : Nat) : Nat → List α → List (List α)
  | 0, _ => []
  | n + 1, l => l.take k :: piecesBy k n (l.drop k)

/-- The granules of `rows` records of heap capacity `k`. -/
def State.recordLocs (s : State) (w : Who) (acc : Acc) (va : DWord) (k rows : Nat) : Except VMiss (List (List ELoc)) :=
  let n := recSize k / 32
  (s.piecesOf w acc va 32 (n * rows)).map (piecesBy n rows)

def ELoc.bytes (size : Nat) (e : ELoc) : List EByte := (from_ e.loc size).map fun a => ⟨a, e.timeless⟩

/-- Values and stamps of pieces that have been read, row by row. -/
def rowNat (m : EMem) (size : Nat) (row : List ELoc) : Nat :=
  leNat (row.flatMap fun e => (from_ e.loc size).map (emByte m))
def rowStamps (m : EMem) (row : List ELoc) : List Stamp := row.map fun e => emStamp m e.loc

/-- What reading an array gave: nothing may be returned yet, a cause, or its rows. -/
inductive ArrayRead where
  | wait (s : State)
  | miss (m : VMiss) (s : State)
  | rows (locs : List (List ELoc)) (recs : List Nat) (sts : List (List Stamp)) (src : List WEv) (s : State)
  deriving DecidableEq, Repr

/-- With the writes that the read of its header returned. -/
def ArrayRead.with (src0 : List WEv) : ArrayRead → ArrayRead
  | .rows locs recs sts src s => .rows locs recs sts (src0 ++ src) s
  | r => r

/-- Read records whose places are known, some of which may lie at another device (R174). -/
def State.readRows (s : State) (part : Nat) (rd : Reader) (locs : List (List ELoc)) : ArrayRead :=
  let bs := (locs.flatMap id).flatMap (ELoc.bytes 32)
  match s.farTurn part rd bs with
  | .wait s => .wait s
  | .miss (.hold a) s => .miss ⟨0x043, true, BitVec.ofNat 64 a⟩ s
  | .miss (.cause c a) s => .miss ⟨c, false, a⟩ s
  | .ready => match s.readEngine rd 4 bs with
    | none => .wait s
    | some (m, src, s) => .rows locs (locs.map (rowNat m 32)) (locs.map (rowStamps m)) src s

/-- R220: an earlier projection instruction of the core works on one of these granules. -/
def State.projBusy (s : State) (core : Nat) (locs : List (List ELoc)) : Bool :=
  s.ops.any fun o => o.2.head.core == core && (match o.2.body with
    | .proj _ _ _ d _ _ => (d.dst ++ d.src).any fun r => r.any fun a => locs.any fun q => q.any fun b => a.loc / 32 == b.loc / 32
    | _ => false)

/-- R220, R222, R223: read an array whose stride is that of its row 0, once no earlier projection instruction of the core works
on it. A KCAP outside 1 to 64 is cause 0x108. -/
def State.readArray (s : State) (w : Who) (acc : Acc) (rd : Reader) (va : DWord) (rows : Nat) : ArrayRead :=
  match s.piecesOf w acc va 32 2 with
  | .error m => .miss m s
  | .ok hdr => if s.projBusy w.core [hdr] then .wait s else match s.readRows w.part rd [hdr] with
    | .rows _ recs _ src t =>
      let k := bitsN (recs.headD 0) 32 8
      if k = 0 || 64 < k then .miss ⟨0x108, false, 0⟩ t
      else match s.recordLocs w acc va k rows with
        | .error m => .miss m t
        | .ok locs => if s.projBusy w.core locs then .wait s else (s.readRows w.part rd locs).with src
    | r => r

/-- Raise a cause of an array at issue (R216): precise; the groom serves it where R163 says so. -/
def State.projMiss (s : State) (x : Ctx) (m : VMiss) : State :=
  s.raise x.c.g { x.trap m.cause .precise x.lanesOf x.lanesOf with addr := m.va }
    (if m.groom then some (.pages [groomPage m.va.toNat]) else none)

/-- The course of a projection instruction at issue (R191, R214). -/
def State.projIssue (s : State) (x : Ctx) (check : Option Nat) (go : Nat × Nat → State) : State :=
  match x.act with
  | [] => s.advance x
  | [a] => match check with
    | some c => s.trapPrecise x c x.lanesOf
    | none => go a
  | _ => s.trapPrecise x 0x100 x.lanesOf

def State.startProj (s : State) (x : Ctx) (i : Instr) (a : Nat × Nat) (d : ProjData) (chunk : Nat := 0) : State :=
  ((s.dropIssue x.c.g).startOp x .tl (.proj i a.2 a.1 d chunk [])).advance x

def ProjData.zero : ProjData :=
  { param := 0, rows := 0, dst := [], recs := [], recSt := [], src := [], srcs := [], srcSt := [], tgt := [], hidden := []
    hidSt := [], wSt := [], bad := [], out := none }

/-! ### Hidden rows (R215, R220) -/

/-- R220: the reader of the hidden rows: every scratch store of the slot comes before. -/
def State.slotReader (s : State) (x : Ctx) (a : Nat × Nat) : Reader :=
  { rid := readId s.uid a.1, know := x.sl.lanes.foldl (fun m l => union m (s.fibre l.2).vec.know) []
    seen := (s.fibre a.2).vec.seen, issuedAt := s.clock }

/-- The locations of hidden row `r` (R215). -/
def State.hidLocs (s : State) (x : Ctx) (ty : Ty) (p : VParam) (r : Nat) : List Nat :=
  from_ (scratchLoc (s.team x.sl.team).scrId (p.hoff + r * p.hpitch)) (hidBytes ty p.ksteps)

/-- R187: the cause of reading the hidden rows, with the generic address of its granule. -/
def State.hiddenCause (s : State) (x : Ctx) (ty : Ty) (p : VParam) : Option VMiss :=
  let base := scratchLoc (s.team x.sl.team).scrId 0
  firstSome (fun r => firstSome (fun g => (s.homeCause true (32 * g) 32).map fun c =>
    ⟨c, false, 0xFF80000000000000 + BitVec.ofNat 64 (32 * g - base)⟩) (granulesOf (s.hidLocs x ty p r))) (List.range p.mrows)

/-- The images of the hidden rows and the stamps of their granules. An earlier load of the fibre there comes first (V3 of R245). -/
def State.readHidden (s : State) (x : Ctx) (a : Nat × Nat) (ty : Ty) (p : VParam) :
    Option (List (List Byte) × List (List Stamp) × State) :=
  let row := s.hidLocs x ty p
  if (granulesOf ((List.range p.mrows).flatMap row)).any fun gr => s.loadingFrom [a.2] gr then none
  else match s.readEngine (s.slotReader x a) 4 ((List.range p.mrows).flatMap fun r => (row r).map fun l => ⟨l, false⟩) with
  | none => none
  | some (m, src, s) =>
    let rows := (List.range p.mrows).map row
    some (rows.map fun r => r.map (emByte m), rows.map fun r => ((granulesOf r).map fun g => emStamp m (max (g * 32) (r.headD 0))),
      s.receive a.2 .vec false src)

/-- Element j of step s of a hidden row (R195, R215). -/
def hidValue (ty : Ty) (ksteps : Nat) (row : List Byte) (s j : Nat) : FV :=
  let b := mmaBits ty
  let code := bitsN (leNat ((row.drop (64 * s + j * b / 8)).take (max 1 (b / 8)))) (j * b % 8) b
  let blk := j / 32
  let word := leNat ((row.drop (64 * ksteps + 4 * mmaExpo ty * s + 2 * blk)).take 2)
  match ty with
  | .tx4 | .tx8 => txValue (txOf ty) word code
  | .mx8 => mxValue (word % 256) code
  | _ => decodeF (fmtOf ty) code

def hidRow (ty : Ty) (ksteps : Nat) (row : List Byte) : List FV :=
  (List.range ksteps).flatMap fun s => (List.range (mmaK ty)).map fun j => hidValue ty ksteps row s j

/-- R215: a row reaches beyond the team's scratch. -/
def hidBeyond (l : Launch) (p : VParam) : Bool := decide (l.scratch * 4096 < p.hoff + p.mrows * p.hpitch)

/-! ### Issue -/

/-- The reader of records at issue, on path `vp` (R220). -/
def State.vpReader (s : State) (x : Ctx) (a : Nat × Nat) : Reader :=
  { s.engineReader s.uid { s.head x .tl with know := (s.fibre a.2).vp.know } a.2 a.1 .vp with rid := farIssue x.c.g }

/-- R187, R216: the cause of reading records whose places have been checked for a write. -/
def State.recordCause (s : State) (locs : List (List ELoc)) : Option VMiss :=
  firstSome (fun (e : ELoc) => (s.homeCause true e.loc 32).map fun c => ⟨c, false, BitVec.ofNat 64 e.va⟩) (locs.flatMap id)

/-- A cause met by an array that is read at issue. -/
def State.arrayMiss (s : State) (x : Ctx) (m : VMiss) : State :=
  if m.cause = 0x108 then s.trapPrecise x 0x108 x.lanesOf else s.projMiss x m

/-- R216: the records of VPROJ when INIT is 0, or is taken as 0 by a resumption (R221). -/
def vprojOk (p : VParam) (rm : Nat) (recs : List Nat) : Bool :=
  let v0 := (VRec.decode (recs.headD 0)).vcount
  recs.all fun n =>
    let r := VRec.decode n
    recConsistent n && r.part && r.kcap == p.k && r.rm == rm && r.vcount == v0 && v0 % 64 == 0 && decide (v0 < p.vn)

/-- R216: VPROJ. -/
def execVproj (f : EngF) (s : State) : Host.Outcome State Fault Refusal :=
  onSlot f.g s fun x s =>
    let n := x.sl.block (specNum f.b)
    let p := vparam n
    let w := x.who s
    s.projIssue x (firstOf [(specNum f.b % 16 != 0 || vparamBad f.ty true n, 0x106),
        (decide (Config.heapEntries < p.mrows * p.k) && !p.spok, 0x107), (hidBeyond x.l p, 0x047)]) fun a =>
      match s.recordLocs w .store p.raddr p.k p.mrows with
      | .error m => s.projMiss x m
      | .ok locs =>
        let init := p.init && x.c.rstep.isNone
        match if init && p.taddr != 0 then s.piecesOf w .load p.taddr 16 p.mrows else .ok [] with
        | .error m => s.projMiss x m
        | .ok tgt =>
          if s.projBusy (coreOf x.c.g) (tgt :: locs) then s
          else match (if init then none else s.recordCause locs).or (s.hiddenCause x f.ty p) with
          | some m => s.projMiss x m
          | none => match s.readHidden x a f.ty p with
            | none => s
            | some (hid, hidSt, s1) =>
              let d : ProjData := { ProjData.zero with param := n, rows := p.mrows, dst := locs, tgt, hidden := hid, hidSt }
              if init then s1.startProj x (.vproj f) a d
              else match s1.readRows w.part (s1.vpReader x a) locs with
                | .rows _ recs recSt src s2 =>
                  if vprojOk p (rmCode f.rm).toNat recs then
                    (s2.receive a.2 .vp false src).startProj x (.vproj f) a { d with recs, recSt }
                      ((VRec.decode (recs.headD 0)).vcount / 64)
                  else s.trapPrecise x 0x108 x.lanesOf
                | _ => s

/-- R189, R214: VPROJB names a tile, on which an earlier instruction has not retired. -/
def State.projTileBusy (s : State) (x : Ctx) (f : EngF) : Bool :=
  s.tileBusy x.sl.team (coreOf x.c.g) [((vparam (x.sl.block (specNum f.b))).dt, 1)]

/-- R222: VPROJB. -/
def execVprojb (f : EngF) (s : State) : Host.Outcome State Fault Refusal :=
  onSlot f.g s fun x s =>
    let n := x.sl.block (specNum f.b)
    let p := vparam n
    if s.projTileBusy x f then s
    else s.projIssue x (firstOf [(specNum f.b % 16 != 0 || vparamBad f.ty false n, 0x106), (badTile x.l 0 p.dt, 0x102),
        (hidBeyond x.l p, 0x047)]) fun a =>
      match s.readArray (x.who s) .load (s.vpReader x a) p.raddr p.mrows with
      | .wait s => s
      | .miss m s => s.arrayMiss x m
      | .rows locs recs recSt src s1 =>
        if !(recs.all fun r => recConsistent r && !(VRec.decode r).part) then s.trapPrecise x 0x108 x.lanesOf
        else match s.hiddenCause x f.ty p with
        | some m => s.projMiss x m
        | none => match s1.readHidden x a f.ty p with
          | none => s
          | some (hid, hidSt, s2) =>
            (s2.receive a.2 .vp false src).startProj x (.vprojb f) a
              { ProjData.zero with param := n, rows := p.mrows, src := locs, recs, recSt, hidden := hid, hidSt }

/-- R223: the records of two arrays may merge. -/
def vmergeOk (ds ss : List Nat) (dl sl : List (List ELoc)) : Bool :=
  let k0 (l : List Nat) : Nat := (VRec.decode (l.headD 0)).kcap
  (ds ++ ss).all (fun n => recConsistent n && !(VRec.decode n).part)
    && ds.all (fun n => (VRec.decode n).kcap == k0 ds) && ss.all (fun n => (VRec.decode n).kcap == k0 ss)
    && (ds.zip ss).all (fun p => (VRec.decode p.1).rm == (VRec.decode p.2).rm
        && (VRec.decode p.1).tgts.map (fun t => t.1) == (VRec.decode p.2).tgts.map fun t => t.1)
    && !(dl.any fun r => r.any fun a => sl.any fun q => q.any fun b => a.loc == b.loc)

/-- R171: an address that is not a multiple of 64, unless 0x040 or 0x041 comes first. -/
def State.arrayAlign (s : State) (w : Who) (va : DWord) : Option VMiss :=
  if !canonical va then some ⟨0x040, false, va⟩
  else if s.badRegion w false va.toNat then some ⟨0x041, false, va⟩
  else if va.toNat % 64 ≠ 0 then some ⟨0x042, false, va⟩
  else none

/-- R223: VMERGE. -/
def execVmerge (f : EngF) (s : State) : Host.Outcome State Fault Refusal :=
  onSlot f.g s fun x s =>
    let rows := bitsN f.imm.toNat 0 7
    let da := x.pair (x.first s) f.a
    let sa := x.pair (x.first s) f.b
    let w := x.who s
    s.projIssue x none fun a =>
      let rd := s.vpReader x a
      match firstSome (s.arrayAlign w) [da, sa] with
      | some m => s.projMiss x m
      | none => match s.readArray w .atomic rd da rows with
        | .wait s => s
        | .miss m s => s.arrayMiss x m
        | .rows dl ds recSt src1 s1 => match s1.readArray w .load rd sa rows with
          | .wait s => s
          | .miss m s => s.arrayMiss x m
          | .rows sl ss srcSt src2 s2 =>
            if !vmergeOk ds ss dl sl then s.trapPrecise x 0x108 x.lanesOf
            else (s2.receive a.2 .vp false (src1 ++ src2)).startProj x (.vmerge f) a
                { ProjData.zero with rows, dst := dl, recs := ds, recSt, src := sl, srcs := ss, srcSt }

/-- R225: VRSET. -/
def execVrset (f : EngF) (s : State) : Host.Outcome State Fault Refusal :=
  onSlot f.g s fun x s =>
    let n := (x.sl.reg (specNum f.b)).val.toNat
    let ra := x.pair (x.first s) f.a
    let ta : DWord := if f.c = .zero then 0 else x.pair (x.first s) f.c
    let k := bitsN n 0 6 + 1
    let rows := bitsN n 6 7
    let bad := bitsN n 16 16 != 0 || rows == 0 || decide (64 < rows) || decide (3 < bitsN n 13 3) || ra.toNat % 64 != 0
      || regionOf ra.toNat != 0 || ta.toNat % 16 != 0 || regionOf ta.toNat != 0
    let w := x.who s
    s.projIssue x (firstOf [(bad, 0x106)]) fun a =>
      match s.recordLocs w .store ra k rows with
      | .error m => s.projMiss x m
      | .ok locs => match if f.c = .zero then .ok [] else s.piecesOf w .load ta 16 rows with
        | .error m => s.projMiss x m
        | .ok tgt =>
          if s.projBusy (coreOf x.c.g) (tgt :: locs) then s
          else s.startProj x (.vrset f) a { ProjData.zero with param := n, rows, dst := locs, tgt }

/-! ### Writing (R219) -/

/-- Bytes of one granule that an engine writes, from a location upward, with their data stamps. -/
abbrev ECell := ELoc × List (Byte × Stamp)

def ECell.cells (c : ECell) : List (Nat × (Byte × Stamp)) := (from_ c.1.loc c.2.length).zip c.2

/-- The cause for which the write of a cell is not made: its home is down, or its port refuses its age (R147). -/
def State.cellCause (s : State) (h : OpHead) (c : ECell) : Option Nat :=
  match s.egressPort h.part c.1.loc with
  | some port =>
    if s.egressOk h.part port (olderAll (tstamp (s.part h.part).time) (c.2.map fun b => b.2)) then none else some 0x083
  | none => s.homeCause false c.1.loc 1

/-- Send cells that lie at other devices, a flit for each: causes, TAGs and the state. -/
def State.sendCells (s : State) (h : OpHead) : List ECell → List (Nat × ELoc) × List (Nat × DWord) × State
  | [] => ([], [], s)
  | c :: cs =>
    let gr := c.1.loc / 32
    let bs := c.cells.map fun b => (b.1, b.2.1)
    let st := olderAll (tstamp (s.part h.part).time) (c.2.map fun b => b.2)
    match s.request h.part (remoteDev c.1.loc) 2 (remoteOff (gr * 32)) 0 (granPayload bs gr) [st] (granEnables bs gr) with
    | some (tag, s) => let r := s.sendCells h cs
                       (r.1, (tag, BitVec.ofNat 64 c.1.va) :: r.2.1, r.2.2)
    | none => let r := s.sendCells h cs
              ((0x180, c.1) :: r.1, r.2.1, r.2.2)

/-- R244, R308: what an engine is about to write waits for the writes that are hb it. -/
def State.engineHeld (s : State) (h : OpHead) (path : Path) (locs : List Nat) : Bool :=
  let preds := union h.know (s.engineMade h path)
  s.heldBack (locs.filter fun a => !isRemote a) preds [] h.after || s.farHeld (locs.filter isRemote) preds []

/-- A write that an engine makes for a fibre on one of its paths: at its homes, or as flits for other devices. Cells that are
not written come back with their causes (0x04A where one leaves part of a granule with an uncorrectable error, R179); then the TAGs of
the flits with the address of each. -/
def State.engineWrite (s : State) (h : OpHead) (fid : Nat) (path : Path) (cells : List ECell) : List (Nat × ELoc) × List (Nat × DWord) × State :=
  let hit := s.ueHit (cells.flatMap ECell.cells)
  let cause (c : ECell) : Option Nat := (s.cellCause h c).or (if hit.contains (c.1.loc / 32) then some 0x04A else none)
  let bad := cells.filterMap fun c => (cause c).map fun e => (e, c.1)
  let ok := cells.filter fun c => (cause c).isNone
  let (p, s) := s.newWrite fid path false
  let p := { p with preds := union h.know (s.engineMade h path), after := h.after }
  let near := ok.filter fun c => !isRemote c.1.loc
  let s := near.foldl (fun s c => if c.1.swm then s.logLine h.part c.1.va c.1.loc else s) s
  let put (s : State) (t : Bool) : State :=
    let bs := (near.filter fun c => c.1.timeless == t).flatMap ECell.cells
    if bs = [] then s else s.writeNow h.core t p bs
  let s := put (put s true) false
  let s := s.modTeam h.team fun t => match path with
    | .cp => { t with cpMade := union t.cpMade [p.id] }
    | .vp => { t with vpMade := t.vpMade ++ [(h.core, p.id)] }
    | _ => t
  let s := if ok.any fun c => c.1.swm || (s.egressPort h.part c.1.loc).isSome then
      s.modTeam h.team fun t => { t with published := true }
    else s
  let (down, tags, s) := s.sendCells h (ok.filter fun c => isRemote c.1.loc && reachable c.1.loc)
  (bad ++ down, tags, s)

/-- The horizon at which a granule takes the `older` of a write (R141): that of its home; for another device, this one's time. -/
def State.writeHz (s : State) (h : OpHead) (loc : Nat) : Word :=
  if isRemote loc then tstamp (s.part h.part).time else s.homeHz h.core loc

/-- R219: write records, each granule with the `older` of its record's stamps; what stands in the rows `undef` is undefined. -/
def State.putRecords (s : State) (h : OpHead) (fid : Nat) (rows : List (List ELoc)) (recs : List Nat) (sts : List (List Stamp)) (undef : List Nat) :
    List (Nat × ELoc) × List (Nat × DWord) × State :=
  let cells := (rows.zip (recs.zip sts)).zipIdx.flatMap fun r =>
    let bytes : List Byte := if undef.contains r.2 then
        (List.range (32 * r.1.1.length)).map fun k => (Config.freeValue (s.free + 1024 * r.2 + k)).truncate 8
      else bytesLE (32 * r.1.1.length) r.1.2.1
    (r.1.1.zip (piecesBy 32 r.1.1.length bytes)).map fun c =>
      let st := olderAll (s.writeHz h c.1.loc) r.1.2.2
      (c.1, c.2.map fun b => (b, st))
  let s := if undef = [] then s else { s with free := s.free + 65536 }
  s.engineWrite h fid .vp cells

/-- R219, R221: write records with their stamps: the TAGs of what has left for other devices. A cause met there makes its record
undefined, and is a late fault; the rows `bad` are undefined already. -/
def State.writeRecords (s : State) (h : OpHead) (fid lane : Nat) (rows : List (List ELoc)) (recs : List Nat) (sts : List (List Stamp))
    (bad : List Nat) : List (Nat × DWord) × State :=
  let (miss, tags, s) := s.putRecords h fid rows recs sts bad
  match miss with
  | [] => (tags, s)
  | (c, e) :: _ =>
    let fails (a : ELoc) : Bool := miss.any fun m => m.2.loc == a.loc
    let lost := (rows.zip (recs.zip sts)).filter fun r => r.1.any fails
    let (_, more, s) := s.putRecords h fid (lost.map fun r => r.1.filter fun a => !fails a) (lost.map fun r => r.2.1) (lost.map fun r => r.2.2)
      (List.range lost.length)
    (tags ++ more, s.raiseLate h (h.trap c .late [lane] [] (BitVec.ofNat 64 e.va)))

/-- The locations of records. -/
def recLocs (rows : List (List ELoc)) : List Nat := (rows.flatMap id).flatMap fun e => from_ e.loc 32

/-- R219: the stamps that the records of VPROJ come from. -/
def ProjData.stamps (d : ProjData) : List (List Stamp) :=
  (List.range d.rows).map fun r => (d.recSt[r]?).getD [] ++ (d.hidSt[r]?).getD [] ++ d.wSt

/-! ### Chunks -/

/-- Column v of W (R215): its elements, translated and checked. -/
def State.wColumn (s : State) (w : Who) (first : Page) (p : VParam) (depth v : Nat) : Except EMiss (List ElemAt) :=
  mapE (fun k => let a := bAddr first p.vaddr p.vpitch k v
                 s.elemAt w first a.1 a.2) (List.range depth)

/-- What reading chunk j of W gave. -/
inductive WRead where
  | wait (s : State)
  | miss (m : EMiss) (s : State)
  | cols (vs : List (Nat × List FV × List Stamp)) (src : List WEv) (s : State)
  deriving DecidableEq, Repr

/-- Read columns `lo` to `hi` − 1 of W. -/
def State.readW (s : State) (o : Nat) (h : OpHead) (ty : Ty) (p : VParam) (fid lane lo hi : Nat) : WRead :=
  match s.placeBytes h.who .load p.vaddr 1 with
  | .error m => .miss (m.engine p.vaddr) s
  | .ok first =>
    if first.fmt ≠ tyFmt ty then .miss (.cause 0x101 p.vaddr) s
    else match mapE (s.wColumn h.who first p (p.ksteps * mmaK ty)) (from_ lo (hi - lo)) with
      | .error m => .miss m s
      | .ok cols =>
        let z := fmtElem first.fmt
        match s.farTurn h.part (s.engineReader o h fid lane .vp) (cols.flatMap fun c => c.flatMap fun e => e.bytes z) with
        | .wait s => .wait s
        | .miss m s => .miss m s
        | .ready => match s.readEngine (s.engineReader o h fid lane .vp) 4 (cols.flatMap fun c => c.flatMap fun e => e.bytes z) with
        | none => .wait s
        | some (m, src, s) =>
          .cols ((from_ lo (hi - lo)).zip cols |>.map fun c =>
            (c.1, c.2.map fun e => e.value m first.fmt, (c.2.flatMap fun e => e.stamps m z).eraseDups)) src (s.dropFar (readId o lane))

/-- What a projection instruction has still to read of W, from chunk `j` on. -/
def State.projSpans (s : State) (h : OpHead) (i : Instr) (d : ProjData) (j : Nat) : List (Nat × Nat) :=
  let span (ty : Ty) : List (Nat × Nat) :=
    let p := vparam d.param
    let fmt := tyFmt ty
    match s.placeBytes h.who .load p.vaddr 1 with
    | .error _ => []
    | .ok pg =>
      let off := if isBlockFmt fmt && pg.geom = 1 then 64 * j * fmtBlock fmt else if fmt = 7 then 32 * j else 64 * j * fmtElem fmt
      s.rowSpans h.who fmt (p.vaddr + BitVec.ofNat 64 off) p.vpitch (p.vn - 64 * j) 0 (p.ksteps * mmaK ty)
  match i with
  | .vproj f => span f.ty
  | .vprojb f => span f.ty
  | _ => []

/-- An earlier projection instruction of the same fibre has still to read a byte of W that this one reads (V3 of R245), or has still to
write a record there (R241, item 2). -/
def State.projBlocked (s : State) (o : Nat) (h : OpHead) (i : Instr) (fid : Nat) (d : ProjData) (j : Nat) : Bool :=
  s.ops.any fun p => p.1 < o && (match p.2.body with
    | .proj k f _ e m _ =>
      f == fid && spansMeet (s.projSpans p.2.head k e m ++ (e.dst.flatMap id).map fun a => (a.loc, 32)) (s.projSpans h i d j)
    | _ => false)

/-- Logits of a row against columns of W (R216). -/
def logits (rm : RM) (row : List FV) (cols : List (Nat × List FV × List Stamp)) : List (Nat × Nat × Flags) :=
  cols.map fun c => (c.1, sumAcc 0 rm row c.2.1 [])

/-- Retire VPROJ with the records of the chunks done (R221) and deliver a cause; VPROJB retires with no effect. -/
def State.projFault (s : State) (o : Nat) (h : OpHead) (i : Instr) (fid lane : Nat) (d : ProjData) (j c : Nat) (addr : DWord) : State :=
  match i with
  | .vproj _ =>
    if s.engineHeld h .vp (recLocs d.dst) then s
    else
      let recs := d.recs.map fun n => { VRec.decode n with part := true, vcount := 64 * j : VRec }.encode
      (s.writeRecords h fid lane d.dst recs d.stamps d.bad).2.engineFault o h lane j c addr
  | _ => s.engineFault o h lane 0 c addr

/-- What reading target words gave: the words and stamps of each row; and the rows whose words met a cause at their home. -/
structure TargetRead where
  words : List (List Nat)
  sts : List (List Stamp)
  bad : List Nat
  deriving DecidableEq, Repr

/-- Read target words: four for each row, none of them used without an array (R216, R225). A cause met at their home makes the row's
record undefined and is a late fault, as one met on the record itself (R221, R226, log 71). -/
def State.readTargets (s : State) (o : Nat) (h : OpHead) (fid lane rows : Nat) (tgt : List ELoc) : Option (TargetRead × State) :=
  if tgt = [] then
    some (⟨(List.range rows).map fun _ => [0xFFFFFFFF, 0xFFFFFFFF, 0xFFFFFFFF, 0xFFFFFFFF], (List.range rows).map fun _ => [], []⟩, s)
  else match s.readEngine (s.engineReader o h fid lane .vp) 4 (tgt.flatMap (ELoc.bytes 16)) with
    | none => none
    | some (m, src, t) =>
      let bad := tgt.zipIdx.filterMap fun e => (s.homeCause true e.1.loc 16).map fun c => (e.2, c, e.1.va)
      let t := t.engineGot o fid lane .vp src
      let t := match bad with
        | [] => t
        | b :: _ => t.raiseLate h (h.trap b.2.1 .late [lane] [] (BitVec.ofNat 64 b.2.2))
      some (⟨tgt.map fun e => (List.range 4).map fun k => emNat m (e.loc + 4 * k) 4, tgt.map fun e => [emStamp m e.loc], bad.map fun b => b.1⟩, t)

/-- R216, R217, R218: chunk j of VPROJ on records that stand in `d`. -/
def State.projChunk (s : State) (o : Nat) (h : OpHead) (f : EngF) (fid lane : Nat) (d : ProjData) (j : Nat) : State :=
  let p := vparam d.param
  let hi := min (64 * j + 64) p.vn
  let s0 := s
  let made := (s.team h.team).vpMade.length
  match s.readW o h f.ty p fid lane (64 * j) hi with
  | .wait s => s
  | .miss (.hold va) s => s.setOp o ⟨h, .proj (.vproj f) fid lane d j [va]⟩
  | .miss (.cause c a) s => s.projFault o h (.vproj f) fid lane d j c a
  | .cols cols src s =>
    let spill := decide (Config.heapEntries < p.mrows * p.k)
    let last := decide (p.vn ≤ hi)
    if spill && !last && s.engineHeld h .vp (recLocs d.dst) then s0
    else
      -- a spilled heap is read back from the records (R218); an error there makes its record undefined (R221)
      let reread := spill && 0 < j && d.wSt ≠ []
      let lost : List (Nat × VMiss) := if !reread then [] else d.dst.zipIdx.filterMap fun r =>
        if d.bad.contains r.2 then none else (s.recordCause [r.1]).map fun m => (r.2, m)
      let d : ProjData := { d with bad := d.bad ++ lost.map fun l => l.1 }
      match (if reread then s.readRows h.part (s.engineReader o h fid lane .vp) d.dst else .rows d.dst d.recs [] [] s) with
      | .rows _ held _ src2 s =>
        let s := match lost with
          | [] => s
          | l :: _ => s.raiseLate h (h.trap l.2.cause .late [lane] [] l.2.va)
        let rows := (d.hidden.map (hidRow f.ty p.ksteps)).zip (d.recs.zip held)
        let recs := rows.map fun r =>
          let zs := (logits f.rm r.1 cols).map fun z => (p.vbase + z.1, z.2)
          let rec0 : VRec := { VRec.decode r.2.1 with heap := (VRec.decode r.2.2).heap, part := spill, spill }
          (rec0.chunk zs hi).encode
        let d := { d with recs, wSt := (d.wSt ++ cols.flatMap fun c => c.2.2).eraseDups }
        let s := s.engineGot o fid lane .vp (src ++ src2)
        let s := if spill && !last then (s.writeRecords h fid lane d.dst recs d.stamps d.bad).2 else s
        -- what it writes at a chunk boundary it reads again at the next, on whichever core (R218, R221)
        let h := { h with know := union h.know (((s.team h.team).vpMade.drop made).map fun w => w.2) }
        s.setOp o ⟨h, .proj (.vproj f) fid lane d (j + 1) []⟩
      | _ => s0

/-- R216, R221: one chunk of a VPROJ. -/
def execVprojChunk (o : Nat) (s : State) : Host.Outcome State Fault Refusal :=
  match aget? s.ops o with
  | some ⟨h, .proj (.vproj f) fid lane d j []⟩ =>
    let p := vparam d.param
    if !s.engineOn h || p.vn ≤ 64 * j || s.projBlocked o h (.vproj f) fid d j then .next s
    else if d.recs = [] then
      match s.readTargets o h fid lane p.mrows d.tgt with
      | none => .next s
      | some (ts, s) =>
        let d := { d with recs := ts.words.map fun t => (VRec.empty p.k (rmCode f.rm).toNat t).encode, recSt := ts.sts, bad := d.bad ++ ts.bad }
        .next (s.projChunk o h f fid lane d j)
    else .next (s.projChunk o h f fid lane d j)
  | _ => .next s

/-! ### Retirement -/

/-- R222: VPROJB writes its tile. -/
def State.retireGrad (s : State) (o : Nat) (h : OpHead) (f : EngF) (fid lane : Nat) (d : ProjData) : State :=
  let p := vparam d.param
  match s.readW o h f.ty p fid lane 0 p.vn with
  | .wait s => s
  | .miss (.hold va) s => s.setOp o ⟨h, .proj (.vprojb f) fid lane d 0 [va]⟩
  | .miss (.cause c a) s => s.projFault o h (.vprojb f) fid lane d 0 c a
  | .cols cols src s =>
    let hz := s.hz h.core
    let team := s.team h.team
    let half := team.halfOf h.core
    let rows := (d.hidden.zip d.recs).zipIdx.flatMap fun r =>
      let vr := VRec.decode r.1.2
      let y0 := (vr.tgts.headD (0, 0)).1
      let z := logits (rmOf (BitVec.ofNat 3 vr.rm)) (hidRow f.ty p.ksteps r.1.1) cols
      (z.zip cols).map fun e =>
        let g := gradOf f.rm vr e.1.2.1 (p.vbase + e.1.1 == y0)
        (r.2, e.1.1, g.1, e.1.2.2 ||| g.2, olderAll hz ((d.recSt[r.2]?).getD [] ++ (d.hidSt[r.2]?).getD [] ++ e.2.2.2))
    let t := team.run half 0 p.dt
    let blank := (List.range p.mrows).foldl (fun t r => (from_ p.vn (64 - p.vn)).foldl (fun t c => t.put r c 0 0) t) t
    let t' := rows.foldl (fun t e => t.put e.1 e.2.1 e.2.2.1 e.2.2.2.2) blank
    let t' := { t' with flags := rows.foldl (fun m e => m ||| e.2.2.2.1) t.flags }
    let s := (s.modTeam h.team fun x => x.setRun half p.dt t').engineGot o fid lane .vp src
    s.endOp o h

/-- R219: the records of a projection instruction are written, once what is hb the write allows it; what has left for other devices must
be answered before it retires, and the operation keeps what it wrote until then. -/
def State.finishRecords (s : State) (o : Nat) (h : OpHead) (i : Instr) (fid lane j : Nat) (d : ProjData) (recs : List Nat) (sts : List (List Stamp)) : State :=
  if s.engineHeld h .vp (recLocs d.dst) then s
  else
    let (tags, s) := s.writeRecords h fid lane d.dst recs sts d.bad
    if tags = [] then s.endOp o h else s.setOp o ⟨h, .proj i fid lane { d with out := some tags, recs, recSt := sts } j []⟩

/-- R216 to R225: a projection instruction retires, with its effects. -/
def State.retireProj (s : State) (o : Nat) : State :=
  match aget? s.ops o with
  | some ⟨h, .proj i fid lane d j []⟩ =>
    if let some tags := d.out then (if tags = [] then s.endOp o h else s)
    else match i with
    | .vproj _ =>
      if (vparam d.param).vn ≤ 64 * j then
        s.finishRecords o h i fid lane j d (d.recs.map fun n => { VRec.decode n with part := false : VRec }.encode) d.stamps
      else s
    | .vprojb f => if s.projBlocked o h i fid d j then s else s.retireGrad o h f fid lane d
    | .vmerge _ =>
      s.finishRecords o h i fid lane j d ((d.recs.zip d.srcs).map fun r => ((VRec.decode r.1).merge (VRec.decode r.2)).encode)
        ((d.recSt.zip d.srcSt).map fun t => t.1 ++ t.2)
    | .vrset _ =>
      match s.readTargets o h fid lane d.rows d.tgt with
      | none => s
      | some (ts, t) =>
        if s.engineHeld h .vp (recLocs d.dst) then s
        else t.finishRecords o h i fid lane j { d with bad := d.bad ++ ts.bad }
          (ts.words.map fun t => (VRec.empty (bitsN d.param 0 6 + 1) (bitsN d.param 13 3) t).encode) ts.sts
    | _ => s
  | _ => s

/-- R190: an engine instruction retires, with all its effects; TLDM loads its rows one by one before it. -/
def execTileRetire (o : Nat) (s : State) : Host.Outcome State Fault Refusal :=
  match aget? s.ops o with
  | some ⟨h, .tile ..⟩ => .next (if s.engineOn h then s.retireTile o else s)
  | some ⟨h, .proj ..⟩ => .next (if s.engineOn h then s.retireProj o else s)
  | _ => .next s

end Sys2Proof.Machine
end

