-- ==== Sys2Proof/Machine/Copy.lean ====
section
/-!
DEFINITION. The copy engine: XCOPY with its chute forms, XFILL and XCONV, and the completion of chain entries (R227 to R238).
-/
namespace Sys2Proof.Machine

/-! ### Appending an entry (R227, R228, R233) -/

/-- R227: entries in the chain store of a cluster. -/
def State.chainCount (s : State) (cl : Nat) : Nat :=
  (s.ops.filter fun o => clusterOf o.2.head.core == cl && (match o.2.body with
    | .copy .. => true
    | _ => false)).length

/-- R227: can the copy engine of a core's cluster take an entry? -/
def State.chainReady (s : State) (core : Nat) : Bool := decide (s.chainCount (clusterOf core) < Config.chainEntries)

/-- R232: a count of a scalar or of IMM. -/
def Ctx.count (x : Ctx) (s : State) (f : EngF) : Nat := (x.read32 (x.first s) f.imm f.c).val

def copyLimit : Nat := 2 ^ 24

/-- R233: count 0 or above the limit. -/
def badCount (n : Nat) : Bool := n == 0 || decide (copyLimit < n)

/-- R228, R232: append an entry; DST takes its sequence number, timeless. -/
def State.appendCopy (s : State) (x : Ctx) (i : Instr) (f : EngF) (check : Option Nat) (d : CopyData) : State :=
  match x.act with
  | [] => s.advance x
  | [a] => match check with
    | some c => s.trapPrecise x c x.lanesOf
    | none =>
      if !s.chainReady (coreOf x.c.g) then s
      else
        let seq := (s.team x.sl.team).issued + 1
        let s := s.startOp x .cp (.copy i a.2 a.1 { d with seq })
        let s := s.modTeam x.sl.team fun t => { t with issued := seq }
        (s.writeDst x.c.g a.2 f.d [(0, ⟨seq, 0⟩)]).advance x
  | _ => s.trapPrecise x 0x100 x.lanesOf

def CopyData.zero : CopyData :=
  { seq := 0, dst := 0, src := 0, cnt := 0, pat := 0, patSt := 0, pos := 0, buf := [], held := [], failed := none, waits := [], hz := none, ue := false }

def misaligned4 (l : List Nat) : Bool := l.any fun n => n % 4 != 0

/-- R233, R234: XCOPY. -/
def execXcopy (f : EngF) (s : State) : Host.Outcome State Fault Refusal :=
  onSlot f.g s fun x s =>
    let dst := x.pair (x.first s) f.a
    let src := x.pair (x.first s) f.b
    let n := x.count s f
    s.appendCopy x (.xcopy f) f
      (firstOf [(badCount n || overlaps dst.toNat n src.toNat n, 0x10A), (misaligned4 [dst.toNat, src.toNat, n], 0x042)])
      { CopyData.zero with dst, src, cnt := n }

/-- R233, R234: XCOPY.push, from memory to a chute. -/
def execXcopyPush (f : EngF) (s : State) : Host.Outcome State Fault Refusal :=
  onSlot f.g s fun x s =>
    let c := (x.sl.reg (specNum f.a)).val.toNat
    let src := x.pair (x.first s) f.b
    let n := x.count s f
    s.appendCopy x (.xcopyPush f) f
      (firstOf [(badCount n || n % 8 != 0, 0x10A), (misaligned4 [src.toNat, n], 0x042), (decide (x.l.chutes ≤ c), 0x047)])
      { CopyData.zero with dst := BitVec.ofNat 64 c, src, cnt := n }

/-- R233, R234: XCOPY.pop, from a chute to memory. -/
def execXcopyPop (f : EngF) (s : State) : Host.Outcome State Fault Refusal :=
  onSlot f.g s fun x s =>
    let dst := x.pair (x.first s) f.a
    let c := (x.sl.reg (specNum f.b)).val.toNat
    let n := x.count s f
    s.appendCopy x (.xcopyPop f) f
      (firstOf [(badCount n || n % 8 != 0, 0x10A), (misaligned4 [dst.toNat, n], 0x042), (decide (x.l.chutes ≤ c), 0x047)])
      { CopyData.zero with dst, src := BitVec.ofNat 64 c, cnt := n }

/-- R233, R234: XFILL. -/
def execXfill (f : EngF) (s : State) : Host.Outcome State Fault Refusal :=
  onSlot f.g s fun x s =>
    let dst := x.pair (x.first s) f.a
    let p := x.read32 (x.first s) f.imm f.b
    let n := x.count s f
    s.appendCopy x (.xfill f) f (firstOf [(badCount n, 0x10A), (misaligned4 [dst.toNat, n], 0x042)])
      { CopyData.zero with dst, cnt := n, pat := BitVec.ofNat 32 p.val, patSt := p.lo }

/-- Bytes of `n` elements of a format. -/
def extentOf (fmt n : Nat) : Nat := if fmt = 7 then n / 2 else n * fmtElem fmt

/-- R233, R234: the causes of XCONV at issue for a source format; format 0 leaves the source to the entry. -/
def xconvCheck (f : EngF) (dst src : DWord) (n sf : Nat) : Option Nat :=
  let df := tyFmt f.ty
  let db := extentOf df n
  let sb := if sf = 0 then 0 else extentOf sf n
  firstOf [
    (badCount n || overlaps dst.toNat db src.toNat sb || (isBlockFmt df && (n % 32 != 0 || dst.toNat % fmtBlock df != 0))
      || (isBlockFmt sf && (n % 32 != 0 || src.toNat % fmtBlock sf != 0)), 0x10A),
    (misaligned4 ([dst.toNat, db, src.toNat] ++ [sb]), 0x042)]

/-- R233, R234: XCONV. The source page's format is read at issue where the page is present. -/
def execXconv (f : EngF) (s : State) : Host.Outcome State Fault Refusal :=
  onSlot f.g s fun x s =>
    let dst := x.pair (x.first s) f.a
    let src := x.pair (x.first s) f.b
    let n := x.count s f
    let sf := match s.placeBytes (x.who s) .load src 1 with
      | .ok pg => pg.fmt
      | .error _ => 0
    s.appendCopy x (.xconv f) f (xconvCheck f dst src n sf) { CopyData.zero with dst, src, cnt := n }

/-! ### Carrying out an entry (R229, R231, R234) -/

/-- Bytes that one unit of an entry makes, and the number of its units. -/
def unitBytes : Instr → Nat
  | .xcopy _ | .xfill _ => 4
  | .xconv f => if isBlockFmt (tyFmt f.ty) then fmtBlock (tyFmt f.ty) else fmtElem (tyFmt f.ty)
  | _ => 8

def CopyData.units (d : CopyData) (i : Instr) : Nat :=
  match i with
  | .xcopy _ | .xfill _ => d.cnt / 4
  | .xconv f => if isBlockFmt (tyFmt f.ty) then d.cnt / 32 else d.cnt
  | _ => d.cnt / 8

/-- Bytes of destination memory already written, and in all. -/
def CopyData.done (d : CopyData) (i : Instr) : Nat := d.pos * unitBytes i - d.buf.length
def CopyData.total (d : CopyData) (i : Instr) : Nat := d.units i * unitBytes i

/-- Has every unit been moved? -/
def CopyData.moved (d : CopyData) (i : Instr) : Bool := decide (d.units i ≤ d.pos) && d.buf.isEmpty

/-- Byte ranges of an entry in memory, its source first, and its chute. -/
def copySrc (i : Instr) (d : CopyData) : Option (Nat × Nat) :=
  match i with
  | .xcopy _ | .xcopyPush _ => some (d.src.toNat, d.cnt)
  | .xconv _ => some (d.src.toNat, d.cnt * 8)
  | _ => none
def copyDst (i : Instr) (d : CopyData) : Option (Nat × Nat) :=
  match i with
  | .xcopyPush _ => none
  | i => some (d.dst.toNat, d.total i)
def copyChute (i : Instr) (d : CopyData) : Option Nat :=
  match i with
  | .xcopyPush _ => some d.dst.toNat
  | .xcopyPop _ => some d.src.toNat
  | _ => none

def meets (a b : Option (Nat × Nat)) : Bool := match a, b with
  | some x, some y => overlaps x.1 x.2 y.1 y.2
  | _, _ => false

/-- R229: must entry `b` wait for the earlier entry `a` of its chain? The chutes of a pair's two cores are different ones. -/
def chainOrder (sameCore : Bool) (i : Instr) (a : CopyData) (j : Instr) (b : CopyData) : Bool :=
  meets (copyDst i a) (copySrc j b) || meets (copyDst i a) (copyDst j b) || meets (copySrc i a) (copyDst j b)
    || (sameCore && match copyChute i a, copyChute j b with
        | some x, some y => x == y
        | _, _ => false)

/-- An earlier entry of the chain that this one must follow has not been carried out (R229), or one of the same fibre has still to read
from the same source (V3 of R245). -/
def State.chainBlocked (s : State) (o : Nat) (h : OpHead) (i : Instr) (fid : Nat) (d : CopyData) : Bool :=
  s.ops.any fun p => p.1 < o && p.2.head.team == h.team && (match p.2.body with
    | .copy j f _ e => e.failed.isNone
        && (((!e.moved j || e.waits ≠ []) && chainOrder (p.2.head.core == h.core) j e i d)
            || (!e.moved j && f == fid && meets (copySrc j e) (copySrc i d)))
    | _ => false)

/-- Units made for a piece: bytes with their data stamps, frame words with theirs, exceptions, and the state. -/
structure Made where
  bytes : List (Byte × Stamp)
  words : List (ELoc × List (Byte × Stamp))
  exc : Flags
  src : List WEv
  deriving DecidableEq, Repr

/-- What making units gave. -/
inductive MakeOut where
  | wait (s : State)
  | miss (m : EMiss) (s : State)
  | made (m : Made) (s : State)
  deriving DecidableEq, Repr

/-- `n` pieces of 4 bytes of memory from `va` on, for a load or a store. -/
def State.wordsAt (s : State) (w : Who) (acc : Acc) (va : DWord) (n : Nat) : Except EMiss (List ELoc) :=
  mapE (fun k =>
    let a := va + BitVec.ofNat 64 (4 * k)
    match s.placeBytes w acc a 1 with
    | .error m => .error (m.engine a)
    | .ok pg => match (if isRemote pg.loc then none else s.homeCause (acc != .store) pg.loc 4) with
      | some c => .error (.cause c a)
      | none => .ok { loc := pg.loc, va := a.toNat, timeless := pg.timeless, swm := pg.swm }) (List.range n)

/-- Bytes read with the stamps of their granules, taken out of an engine's reading. -/
def readCells (m : EMem) (ls : List ELoc) : List (Byte × Stamp) :=
  ls.flatMap fun e => (from_ e.loc 4).map fun a => (emByte m a, emStamp m a)

/-- R234: units of memory read as they stand. -/
def State.makeCopy (s : State) (o : Nat) (h : OpHead) (fid lane : Nat) (va : DWord) (n : Nat) : MakeOut :=
  match s.wordsAt h.who .load va n with
  | .error m => .miss m s
  | .ok ls => match s.farTurn h.part (s.engineReader o h fid lane .cp) (ls.flatMap (ELoc.bytes 4)) with
    | .wait s => .wait s
    | .miss m s => .miss m s
    | .ready => match s.readEngine (s.engineReader o h fid lane .cp) 4 (ls.flatMap (ELoc.bytes 4)) with
      | none => .wait s
      | some (m, src, s) => .made ⟨readCells m ls, [], 0, src⟩ (s.dropFar (readId o lane))

/-- R234: an element of the source of XCONV. -/
def State.convElem (s : State) (w : Who) (d : CopyData) (sf j : Nat) : Except EMiss ElemAt :=
  let va := d.src + BitVec.ofNat 64 (extentOf sf j)
  match s.placeBytes w .load va 1 with
  | .error m => .error (m.engine va)
  | .ok pg =>
    if pg.fmt ≠ sf then .error (.cause 0x046 va)
    else
      let home (hi : Option (Nat × Bool)) : Except EMiss ElemAt :=
        let e : ElemAt := { loc := pg.loc, hi, nib := j % 2, expo := if isBlockFmt sf then some pg.expoLoc else none, timeless := pg.timeless }
        match firstSome (fun (b : EByte) => if isRemote b.loc then none else s.homeCause true b.loc 1) (e.bytes (fmtElem sf)) with
        | some c => .error (.cause c va)
        | none => .ok e
      if sf ≠ 1 then home none
      else
        let vb := va + 4
        match s.placeBytes w .load vb 1 with
        | .error m => .error (m.engine vb)
        | .ok ph => if ph.fmt ≠ sf then .error (.cause 0x046 vb) else home (if ph.loc = pg.loc + 4 then none else some (ph.loc, ph.timeless))

/-- The frame word of the block that begins at a destination byte (R167). -/
def State.frameWord (s : State) (w : Who) (va : DWord) : Except EMiss ELoc :=
  match s.placeBytes w .store va 1 with
  | .error m => .error (m.engine va)
  | .ok pg => .ok { loc := pg.expoLoc, va := va.toNat, timeless := pg.timeless, swm := pg.swm }

/-- R234: a block of destination elements from 32 values: element bytes, the frame word, and the exceptions. -/
def convBlock (f : EngF) (vs : List FV) : List Byte × Nat × Flags :=
  if f.ty = .mx8 then
    let q := quantMx f.rm vs
    (q.2.1.map fun c => BitVec.ofNat 8 c, q.1, q.2.2)
  else
    let q := quantTx (txOf f.ty) f.rm f.flags.toNat vs
    let bits := (txOf f.ty).bits
    (bytesLE (4 * bits) (q.2.2.1.foldr (fun c n => c + n * 2 ^ bits) 0), q.1 + 256 * q.2.1, q.2.2.2)

/-- R234: units `lo` to `lo + n` − 1 of XCONV. -/
def State.makeConv (s : State) (o : Nat) (h : OpHead) (f : EngF) (fid lane : Nat) (d : CopyData) (lo n : Nat) : MakeOut :=
  let df := tyFmt f.ty
  let per := if isBlockFmt df then 32 else 1
  match s.placeBytes h.who .load d.src 1 with
  | .error m => .miss (m.engine d.src) s
  | .ok pg =>
    let sf := pg.fmt
    if sf = 0 then .miss (.cause 0x046 d.src) s
    else match xconvCheck f d.dst d.src d.cnt sf with
    | some c => .miss (.cause c d.src) s
    | none => match mapE (s.convElem h.who d sf) (from_ (lo * per) (n * per)) with
      | .error m => .miss m s
      | .ok es =>
        let z := fmtElem sf
        match s.farTurn h.part (s.engineReader o h fid lane .cp) (es.flatMap fun e => e.bytes z) with
        | .wait s => .wait s
        | .miss m s => .miss m s
        | .ready => match s.readEngine (s.engineReader o h fid lane .cp) (if z = 8 then 8 else 4) (es.flatMap fun e => e.bytes z) with
        | none => .wait s
        | some (m, src, s) =>
          let s := s.dropFar (readId o lane)
          let hz := d.hz.getD (s.hz h.core)
          let st (l : List ElemAt) : Stamp := olderAll hz (l.flatMap fun e => e.stamps m z)
          if per = 1 then
            let outs := es.map fun e => (cvtV (fmtOf f.ty) f.rm (e.value m sf), st [e])
            .made ⟨outs.flatMap fun v => (bytesLE (fmtElem df) v.1.1).map fun b => (b, v.2), [],
              outs.foldl (fun x v => x ||| v.1.2) 0, src⟩ s
          else
            let blocks := piecesBy 32 n es
            match mapE (fun k => s.frameWord h.who (d.dst + BitVec.ofNat 64 ((lo + k) * fmtBlock df))) (List.range n) with
            | .error m => .miss m s
            | .ok ws =>
              let outs := blocks.map fun b => (convBlock f (b.map fun e => e.value m sf), st b)
              .made ⟨outs.flatMap fun v => v.1.1.map fun b => (b, v.2),
                (ws.zip outs).map fun w => (w.1, (bytesLE 2 w.2.1.2.1).map fun b => (b, w.2.2)),
                outs.foldl (fun x v => x ||| v.1.2.2) 0, src⟩ s

/-- R234: up to `n` units that stand in a chute are popped: what their pushes carry reaches the entry (R170). -/
def State.popUnits (s : State) (h : OpHead) (fid : Nat) (d : CopyData) (n : Nat) : CopyData × State :=
  let t := s.team h.team
  let entries := t.chuteAt h.core d.src.toNat
  let took := entries.take n
  let s := s.modTeam h.team fun t => { t with chutes := aset t.chutes (chuteKey t h.core d.src.toNat) (entries.drop n) }
  let s := (s.learn [fid] .cp (took.foldl (fun m e => union m e.carry) [])).modFibre fid fun f =>
    { f with after := took.foldl (fun m e => union m e.after) f.after }
  ({ d with pos := d.pos + took.length, buf := d.buf ++ took.flatMap fun e => (bytesLE 8 e.val.toNat).map fun b => (b, e.st) }, s)

/-- Units `d.pos` to `d.pos + n` − 1 of an entry. -/
def State.makeUnits (s : State) (o : Nat) (h : OpHead) (i : Instr) (fid lane : Nat) (d : CopyData) (n : Nat) : MakeOut :=
  if n = 0 then .made ⟨[], [], 0, []⟩ s
  else match i with
  | .xfill _ => .made ⟨((List.range n).flatMap fun _ => bytesLE 4 d.pat.toNat).map fun b => (b, d.patSt), [], 0, []⟩ s
  | .xconv f => s.makeConv o h f fid lane d d.pos n
  | .xcopyPop _ => .made ⟨[], [], 0, []⟩ s
  | _ => s.makeCopy o h fid lane (d.src + BitVec.ofNat 64 (4 * d.pos)) n

/-- R237: where a piece of the destination ends: at a multiple of 128 bytes, or of the bytes that share a granule of frame
words. -/
def pieceSize : Instr → Nat
  | .xconv f => if isBlockFmt (tyFmt f.ty) then 16 * fmtBlock (tyFmt f.ty) else 128
  | _ => 128

/-- Bytes cut where granules end, as cells for some destination words of 4 bytes. -/
def cellsOf (ls : List ELoc) (bs : List (Byte × Stamp)) : List ECell :=
  let words := (ls.zip (piecesBy 4 ls.length bs))
  words.foldr (fun w acc => match acc with
    | (e, b) :: rest => if w.1.loc / 32 == e.loc / 32 && w.1.loc + 4 == e.loc then (w.1, w.2 ++ b) :: rest else w :: acc
    | [] => [w]) []

/-- The destination page's format must be that of XCONV (R234). -/
def State.dstFmtBad (s : State) (w : Who) (i : Instr) (va : DWord) (n : Nat) : Bool :=
  match i with
  | .xconv f => (List.range n).any fun k => match s.placeBytes w .store (va + BitVec.ofNat 64 (4 * k)) 1 with
    | .ok pg => pg.fmt != tyFmt f.ty
    | .error _ => false
  | _ => false

/-- One piece of an entry has been made: write it (R231). -/
def State.writePiece (s : State) (o : Nat) (h : OpHead) (fid lane : Nat) (d : CopyData) (ls : List ELoc) (m : Made) (n units : Nat) : CopyData × State :=
  let bytes := d.buf ++ m.bytes
  let (bad, tags, s) := s.engineWrite h fid .cp (cellsOf ls (bytes.take n) ++ m.words)
  let s := (s.engineGot o fid lane .cp m.src).modTeam h.team fun t => { t with fx := t.fx ||| m.exc }
  ({ d with pos := d.pos + units, buf := bytes.drop n, waits := d.waits ++ tags
            failed := (bad.head?).map fun e => (e.1, BitVec.ofNat 64 e.2.va) }, s)

/-- R172, R234: `.lu` drops a line of the source once its last byte in the source has been read: the lines that end within bytes `lo` to
`hi` − 1 of the source. -/
def State.dropRead (s : State) (o : Nat) (h : OpHead) (i : Instr) (lane : Nat) (d : CopyData) (lo hi : Nat) : State :=
  let lu := match i with
    | .xcopy f | .xcopyPush f => f.flags.getLsbD 2
    | _ => false
  if !lu then s
  else
    let src := d.src.toNat
    let lines := ((List.range ((hi - lo) / 128 + 2)).map fun k => (src + lo) / 128 + k).filter fun l =>
      let e := min (128 * l + 128) (src + d.cnt)
      decide (src + lo < e) && decide (e ≤ src + hi)
    lines.foldl (fun s l => match s.placeBytes h.who .load (BitVec.ofNat 64 (128 * l)) 1 with
      | .ok pg =>
        if pg.loc < 2 ^ 60 then
          let id := s.uid
          (s.dropLine [readId o lane] (pg.loc / 128)).modTeam h.team fun t => { t with cpMade := union t.cpMade [id] }
        else s
      | .error _ => s) s

/-- Places of a piece of the destination: its words, and the frame words of a block format. -/
def State.pieceLocs (s : State) (w : Who) (i : Instr) (va : DWord) (n : Nat) (ls : List ELoc) : List Nat :=
  let words := match i with
    | .xconv f => if isBlockFmt (tyFmt f.ty) then
        (List.range (n / fmtBlock (tyFmt f.ty))).flatMap fun k => match s.frameWord w (va + BitVec.ofNat 64 (k * fmtBlock (tyFmt f.ty))) with
          | .ok e => from_ e.loc 2
          | .error _ => []
      else []
    | _ => []
  (ls.flatMap fun e => from_ e.loc 4) ++ words

/-- Move the next piece of an entry; no entry where nothing moved. -/
def State.movePiece (s : State) (o : Nat) (h : OpHead) (i : Instr) (fid lane : Nat) (d : CopyData) : Option CopyData × State :=
  match i with
  | .xcopyPush _ =>
    -- one unit of 8 bytes enters the chute
    let t := s.team h.team
    let entries := t.chuteAt h.core d.dst.toNat
    if Config.chuteEntries ≤ entries.length then (none, s)
    else match s.makeCopy o h fid lane (d.src + BitVec.ofNat 64 (8 * d.pos)) 2 with
      | .wait s => (none, s)
      | .miss (.hold a) s => (some { d with held := [a] }, s)
      | .miss (.cause c a) s => (some { d with failed := some (c, a) }, s)
      | .made m s =>
        let e : ChuteEntry :=
          { val := BitVec.ofNat 64 (leNat (m.bytes.map fun b => b.1)), st := olderAll (s.hz h.core) (m.bytes.map fun b => b.2)
            carry := union h.know (s.engineMade h .cp), after := h.after }
        let s := (s.engineGot o fid lane .cp m.src).modTeam h.team fun t =>
          { t with chutes := aset t.chutes (chuteKey t h.core d.dst.toNat) (t.chuteAt h.core d.dst.toNat ++ [e]) }
        (some { d with pos := d.pos + 1 }, s.dropRead o h i lane d (8 * d.pos) (8 * d.pos + 8))
  | i =>
    let at_ := d.dst.toNat + d.done i
    let n := min (d.total i - d.done i) (pieceSize i - at_ % pieceSize i)
    let units := (n - d.buf.length + unitBytes i - 1) / unitBytes i
    let va : DWord := BitVec.ofNat 64 at_
    match s.wordsAt h.who .store va ((n + 3) / 4) with
    | .error (.hold a) => (some { d with held := [a] }, s)
    | .error (.cause c a) => (some { d with failed := some (c, a) }, s)
    | .ok ls =>
      if s.dstFmtBad h.who i va ((n + 3) / 4) then (some { d with failed := some (0x046, va) }, s)
      else
        let held := s.engineHeld h .cp (s.pieceLocs h.who i va n ls)
        match i with
        | .xcopyPop _ =>
          -- units enter the buffer as they stand in the chute
          let (e, s) := s.popUnits h fid d units
          if e.buf.length < n || held then (if e.pos = d.pos then (none, s) else (some e, s))
          else
            let r := s.writePiece o h fid lane e ls ⟨[], [], 0, []⟩ n 0
            (some r.1, r.2)
        | _ =>
          if held then (none, s)
          else match s.makeUnits o h i fid lane d units with
            | .wait s => (none, s)
            | .miss (.hold a) s => (some { d with held := [a] }, s)
            | .miss (.cause c a) s => (some { d with failed := some (c, a) }, s)
            | .made m s =>
              let r := s.writePiece o h fid lane d ls m n units
              (some r.1, r.2.dropRead o h i lane d (4 * d.pos) (4 * (d.pos + units)))

/-- Up to `n` pieces. -/
def State.movePieces (s : State) (o : Nat) (h : OpHead) (i : Instr) (fid lane : Nat) : Nat → CopyData → CopyData × State
  | 0, d => (d, s)
  | n + 1, d =>
    if d.moved i || d.failed.isSome || d.held ≠ [] then (d, s)
    else match s.movePiece o h i fid lane d with
      | (none, s) => (d, s)
      | (some d, s) => s.movePieces o h i fid lane n d

/-- R228, R233: an entry whose turn it is completes, with its cause if it has one. -/
def State.completeCopy (s : State) (o : Nat) (h : OpHead) (i : Instr) (fid lane : Nat) (d : CopyData) : State :=
  if !((d.moved i && d.waits.isEmpty) || d.failed.isSome) || (s.team h.team).done + 1 ≠ d.seq then s.setOp o ⟨h, .copy i fid lane d⟩
  else
    let s := (s.modTeam h.team fun t => { t with done := d.seq, errs := if d.failed.isSome then min 255 (t.errs + 1) else t.errs })
    match d.failed with
    | none => s.endOp o h
    | some (c, a) => (s.endOp o h).raiseLate h (h.trap c .late [lane] [] a)

/-- COPY_ENTRY_COMPLETE: the engine carries an entry further, a freely chosen number of pieces (R230), and completes it once
nothing of it is left and its turn has come. One with an uncorrectable error is not carried out: the team ends (R294). -/
def execCopyEntryComplete (o : Nat) (s : State) : Host.Outcome State Fault Refusal :=
  match aget? s.ops o with
  | some ⟨h, .copy i fid lane d⟩ =>
    if !s.engineOn h || d.held ≠ [] then .next s
    else if d.ue then .next ((s.setOp o ⟨h, .copy i fid lane { d with ue := false, cnt := 0 }⟩).coreError h.team)
    else if s.chainBlocked o h i fid d then .next s
    else
      let d := { d with hz := some (d.hz.getD (s.hz h.core)) }
      let left := if d.moved i then 0 else d.total i / 128 + d.units i + 2
      let (k, s) := s.choose left
      let (d, s) := s.movePieces o h i fid lane (k + 1) d
      .next (s.completeCopy o h i fid lane d)
  | _ => .next s

end Sys2Proof.Machine
end

