-- ==== Sys2Proof/Machine/Waits.lean ====
section
/-!
DEFINITION. Waiting for operations in flight: WAIT, WAITSEQ and SEQRD (R235, R236).
-/
namespace Sys2Proof.Machine

/-- R236: is each counter of the slot at or below its field of a WAIT? -/
def Slot.waitOk (sl : Slot) (imm : BitVec 32) : Bool :=
  decide (sl.ld ≤ bitsN imm.toNat 0 6) && decide (sl.st ≤ bitsN imm.toNat 6 6) && decide (sl.cp ≤ bitsN imm.toNat 12 6)
    && decide (sl.tl ≤ bitsN imm.toNat 18 6)

/-- R236: WAIT issues once every counter is low enough, and has no further effect. -/
def execWait (f : EngF) (s : State) : Host.Outcome State Fault Refusal :=
  onSlot f.g s fun x s => if x.act ≠ [] && !x.sl.waitOk f.imm then s else s.advance x

/-- R228: the signed difference of two sequence values. -/
def seqDiff (x y : Word) : Int := (x - y).toInt

/-- R236: WAITSEQ. -/
def execWaitseq (f : EngF) (s : State) : Host.Outcome State Fault Refusal :=
  onSlot f.g s fun x s =>
    if x.act = [] then s.advance x
    else
      let n : Word := BitVec.ofNat 32 (x.read32 (x.first s) f.imm f.a).val
      let t := s.team x.sl.team
      if seqDiff t.issued n < 0 then s.trapPrecise x 0x109 x.lanesOf
      else if seqDiff t.done n < 0 then s
      else s.advance x

/-- R236: the status word. -/
def Team.status (t : Team) : Word := BitVec.ofNat 32 (t.errs * 2 ^ 8 + t.fx.toNat)

/-- R236: SEQRD. -/
def execSeqrd (f : EngF) (s : State) : Host.Outcome State Fault Refusal :=
  onSlot f.g s fun x s =>
    if x.act = [] then s.advance x
    else
      let t := s.team x.sl.team
      let v := match bitsN f.flags.toNat 0 2 with
        | 0 => t.done
        | 1 => t.issued
        | _ => t.status
      let s := s.writeDst x.c.g 0 f.d [(0, ⟨v, 0⟩)]
      let s := if bitsN f.flags.toNat 2 1 = 1 then s.modTeam x.sl.team fun t => { t with fx := 0, errs := 0 } else s
      s.advance x

end Sys2Proof.Machine
end

