-- ==== Sys2Proof/Machine/Launching.lean ====
section
/-!
DEFINITION. Launching and placement: the tail word, the checks of R24 and R31, the resource check and the placement of
teams, coresident starts, watchdogs, the end of teams and the completion of launches (R20 to R38, R304 to R307).
-/
namespace Sys2Proof.Machine

/-! ### Reads of the device that the groom may have to serve first -/

/-- What such a read gave. -/
inductive GRead where
  | ok (bs : List Byte)
  | wait (page : Nat)
  | fail
  deriving DecidableEq, Repr

/-- Read `n` bytes for partition `p`; `noPages` are pages that the groom could not bring. -/
def State.groomRead (s : State) (p : Nat) (va : DWord) (n : Nat) (noPages : List Nat) : GRead :=
  match s.devRead p .load va n with
  | .ok bs => .ok bs
  | .error m => if m.groom && !noPages.contains m.page then .wait m.page else .fail

/-! ### The image (R14 to R17, R24, R340) -/

/-- The image as read: its bytes from byte 0 to the end of its code. -/
def State.readImage (s : State) (p : Nat) (kimg : DWord) (noPages : List Nat) : GRead :=
  match s.groomRead p kimg 128 noPages with
  | .ok hd => match s.groomRead p (kimg + 128) (64 * bitsN (leNat hd) 96 32) noPages with
    | .ok code => .ok (hd ++ code)
    | r => r
  | r => r

/-- R340: the tag of an image under a session's binding secret, with BINDTAG (bytes 32 to 47) taken as 0. -/
def imageDigest (img : List Byte) : BitVec 512 :=
  Config.sha512 (img.take 32 ++ List.replicate 16 0 ++ img.drop 48)
def bindTag (secret : BitVec 256) (img : List Byte) : Nat :=
  (Config.sha512 (bytesLE 32 secret.toNat ++ bytesLE 64 (imageDigest img).toNat)).toNat % 2 ^ 128

/-- R12: weaves of a team on its first core. -/
def Launch.firstHalf (l : Launch) : Nat := if l.paired then (l.nweave + 1) / 2 else l.nweave

/-- The core half and the number there of weave `w` (R12, R34). -/
def Launch.halfOf (l : Launch) (w : Nat) : Nat := if w < l.firstHalf then 0 else 1
def Launch.localOf (l : Launch) (w : Nat) : Nat := if w < l.firstHalf then w else w - l.firstHalf
def Launch.halves (l : Launch) : List Nat := if l.paired then [0, 1] else [0]

/-- The weaves of a half, in quarter `q`. -/
def Launch.weavesIn (l : Launch) (half q : Nat) : List Nat :=
  (List.range l.nweave).filter fun w => l.halfOf w == half && l.localOf w % 4 == q

/-- R24, reasons 3 and 4: a wrong entry. -/
def Launch.badEntry (l : Launch) (e : Nat) : Bool := decide (5 ≤ e % 8) || decide (l.codelines ≤ e / 8)

/-- R17: the register and column demands. -/
def Launch.overDemand (l : Launch) : Bool :=
  decide ((if l.paired then 128 else 64) < l.nweave)
    || l.halves.any fun h =>
      decide (2 * 2 ^ 20 < (((List.range l.nweave).filter fun w => l.halfOf w == h).map fun w => l.width * l.allot (l.roleOf w) * 4).sum)
        || (List.range 4).any fun q => decide (Config.columnRegs < ((l.weavesIn h q).map fun w => l.allot (l.roleOf w)).sum)

/-- R24: reasons 1 (MAGIC) to 6 as far as the image decides them. -/
def Launch.imageReason (l : Launch) : Option Nat :=
  let roles := List.range l.nroles
  firstOf [
    (l.hdr 0 32 != 0x4B54574C, 1),
    (l.encv == 0 || decide (3 < l.encv), 2),
    (l.codelines == 0 || roles.any fun j => l.weaves j == 0 || l.allot j == 0 || decide (256 < l.allot j) || l.badEntry (l.entry j), 3),
    ((if l.trapp then l.badEntry l.trapent else l.trapent != 0) || (if l.contp then l.badEntry l.content else l.content != 0), 4),
    (decide (1024 < l.scratch) || decide (32 < l.tiles) || decide (8 < l.chutes) || l.overDemand, 5),
    (l.hdr 384 128 != 0 || l.hdr 192 64 != 0 || l.hdr 85 11 != 0 || l.hdr 46 18 != 0 || l.hdr 768 256 != 0
      || roles.any fun j => l.hdr (560 + 64 * j) 16 != 0, 6)]

/-- R24: reasons 6 and 7 as far as the launch block decides them. -/
def Launch.blockReserved (l : Launch) : Bool :=
  l.blk 884 140 != 0 || (List.range 4).any fun i => bitsN (l.preq i) 62 1 != 0 || bitsN (l.preq i) 48 8 != 0
def Launch.badAddress (l : Launch) : Bool :=
  !canonical l.kimg || !canonical (BitVec.ofNat 64 l.argp) || !canonical l.erra || !canonical l.compa || !canonical l.spilla
    || l.kimg.toNat % 64 != 0 || l.erra.toNat % 64 != 0 || l.compa.toNat % 8 != 0 || l.spilla.toNat % 65536 != 0
    || l.spillsz == 0 || l.nteam == 0

/-- R24: reasons 8 and 9. -/
def State.sessionReason (s : State) (l : Launch) (img : List Byte) : Option Nat :=
  match (s.part l.part).session with
  | none => some 8
  | some se => firstOf [(bitsN (leNat (img.take 48)) 256 128 != bindTag se.secret img, 8), (l.stauth && !se.stampAuth, 9)]

/-! ### The resource check (R34) -/

/-- Teams whose resources stand on a core. -/
def Team.onCore (t : Team) (paired : Bool) (core : Nat) : Bool := t.core == core || (paired && t.core + 1 == core)

def State.teamsAt (s : State) (core : Nat) : List (Nat × Team) :=
  s.teams.filter fun t => t.2.state.isPlaced && t.2.onCore (s.launch t.2.launch).paired core

/-- R304: does a load of the window still run? -/
def State.loadsInto (s : State) (fid : Nat) : Bool :=
  s.ops.any fun o => match o.2.body with
    | .load _ rs _ => rs.any fun r => r.fibre == fid
    | _ => false

/-- R304: is a window still in its column? -/
def State.windowHeld (s : State) (f : Nat × Fibre) : Bool :=
  match (s.team f.2.team).state with
  | .retiring => s.loadsInto f.1
  | st => st.isPlaced

/-- Register runs that are taken in a lane column of a quarter. -/
def State.colTaken (s : State) (core q c : Nat) : List (Nat × Nat) :=
  (if s.groomOn core && decide (c < 16) then [(0, 64)] else [])
    ++ (s.fibres.filter fun f => f.2.core == core && f.2.q == q && f.2.lane == c && s.windowHeld f).map fun f => (f.2.base, f.2.size)

/-- The lowest base of a free run of `size` registers (the choice is the model's, log 14). -/
def firstFit (taken : List (Nat × Nat)) (size : Nat) : Option Nat :=
  ((0 :: taken.map fun t => t.1 + t.2).filter fun b =>
    decide (b + size ≤ Config.columnRegs) && !(taken.any fun t => overlaps b size t.1 t.2)).foldl (fun m b =>
      match m with
      | none => some b
      | some x => some (min x b)) none

/-- Bases for the windows of some weaves in one column, in weave order. -/
def fitColumn (l : Launch) (taken : List (Nat × Nat)) : List Nat → Option (List (Nat × Nat))
  | [] => some []
  | w :: ws => match firstFit taken (l.allot (l.roleOf w)) with
    | none => none
    | some b => (fitColumn l ((b, l.allot (l.roleOf w)) :: taken) ws).map fun r => (w, b) :: r

/-- Windows of a team on the half at `core`: weave, lane and base. -/
def State.fitWindows (s : State) (l : Launch) (core half : Nat) : Option (List (Nat × Nat × Nat)) :=
  (allSome (fun qc => (fitColumn l (s.colTaken core qc.1 qc.2) (l.weavesIn half qc.1)).map fun r => r.map fun p => (p.1, qc.2, p.2))
    ((List.range 4).flatMap fun q => (List.range l.width).map fun c => (q, c))).map fun r => r.flatMap id

/-- Slots of a quarter that some team or the groom holds. -/
def State.slotTaken (s : State) (core q n : Nat) : Bool :=
  (n == 0 && s.groomOn core) || (aget? s.slots (256 * core + 64 * q + n)).isSome

def State.freeSlots (s : State) (core q : Nat) : List Nat := (List.range 64).filter fun n => !s.slotTaken core q n

/-- R304: tiles that a team holds on a core. -/
def State.tilesHeld (s : State) (t : Nat × Team) : Nat :=
  if t.2.state = .retiring && !(s.ops.any fun o => o.2.head.team == t.1 && (match o.2.body with | .tile .. => true | _ => false)) then 0
  else (s.launch t.2.launch).tiles

/-- R34, step 2 on one core. -/
def State.coreFits (s : State) (l : Launch) (core half : Nat) : Option (List (Nat × Nat × Nat)) :=
  if ((List.range 4).all fun q => decide ((l.weavesIn half q).length ≤ (s.freeSlots core q).length))
      && decide (((s.teamsAt core).map s.tilesHeld).sum + l.tiles ≤ Config.tilesPerCore)
      && !((s.teamsAt core).any fun t => match t.2.state with | .draining _ => true | _ => false) then
    s.fitWindows l core half
  else none

/-- Free scratch units of a bank (R34, step 3). -/
def State.bankFree (s : State) (cl b : Nat) : Nat :=
  if s.isChuteBank cl b then 0 else Config.unitsPerBank - s.bankUnits cl b

/-- R34, steps 3 and 5: scratch units from scratch-mode banks first, then from lent banks in ascending order. -/
def State.takeUnits (s : State) (cl n : Nat) : Option (List (Nat × Nat)) :=
  let c := s.cluster cl
  let order := ((List.range Config.banksPerCluster).filter fun b => c.mode b == .scratch)
    ++ (List.range Config.banksPerCluster).filter fun b => c.mode b == .cache || c.mode b == .lent
  let r := order.foldl (fun (acc : Nat × List (Nat × Nat)) b =>
    let k := min acc.1 (s.bankFree cl b)
    if k = 0 then acc else (acc.1 - k, acc.2 ++ [(b, k)])) (n, [])
  if r.1 = 0 then some r.2 else none

/-- R34, step 5: chute banks from the highest-numbered free banks in cache mode. -/
def State.takeChutes (s : State) (cl : Nat) (units : List (Nat × Nat)) (n : Nat) : Option (List Nat) :=
  let c := s.cluster cl
  let free := ((List.range Config.banksPerCluster).reverse).filter fun b =>
    c.mode b != .scratch && s.bankUnits cl b == 0 && !s.isChuteBank cl b && !(units.any fun u => u.1 == b)
  if n ≤ free.length then some (free.take n) else none

/-- What R34 allots to a team. -/
structure Alloc where
  wins : List (Nat × Nat × Nat)
  units : List (Nat × Nat)
  chuteBanks : List (Nat × List Nat)
  deriving DecidableEq, Repr

/-- R34, steps 2 and 3 for a team of `l` at `core`. -/
def State.fits (s : State) (l : Launch) (core : Nat) : Option Alloc :=
  if l.paired && core % 2 != 0 then none
  else match allSome (fun h => s.coreFits l (core + h) h) l.halves with
    | none => none
    | some wins =>
      let cl := clusterOf core
      match s.takeUnits cl l.scratch with
      | none => none
      | some units => match s.takeChutes cl units (l.chutes * l.halves.length) with
        | none => none
        | some bs => some { wins := wins.flatMap id, units, chuteBanks := l.halves.map fun h => (h, (bs.drop (h * l.chutes)).take l.chutes) }

/-- R34, step 1: the first core of a die that passes, from the pointer on. -/
def State.findCore (s : State) (l : Launch) (die : Nat) : Option (Nat × Alloc) :=
  firstSome (fun k =>
    let core := 16 * die + ((s.die die).robin + k) % 16
    (s.fits l core).map fun a => (core, a)) (List.range 16)

/-! ### Placing a team (R21, R34, R35, R63) -/

/-- R21: the scalar registers at the start. -/
def Launch.startRegs (l : Launch) : List (Nat × Reg) :=
  let put (m : List (Nat × Reg)) (k : Nat) (v : Word) := mset Reg.zero m k ⟨v, 0⟩
  let m := (List.range 8).foldl (fun m i => put m i (l.arg i)) []
  put (put m 8 (BitVec.ofNat 32 l.argp)) 9 (BitVec.ofNat 32 (l.argp / 2 ^ 32))

/-- R35: banks that leave the cache for a team drain first. -/
def State.lendBanks (s : State) (cl : Nat) (banks : List Nat) : State :=
  let c := s.cluster cl
  let out := banks.filter fun b => c.mode b == .cache || c.mode b == .kept
  s.setCluster cl (out.foldl (fun c b => { c.setMode b .lent with draining := union c.draining [b] }) c)

/-- Windows and fibres of a team from its allotment. -/
def State.seatFibres (s : State) (tid : Nat) (l : Launch) (core : Nat) (wins : List (Nat × Nat × Nat)) (know : List Nat) : State :=
  wins.foldl (fun s w =>
    let role := l.roleOf w.1
    let v : View := ⟨know, []⟩
    s.setFibre (fibreKey tid w.1 w.2.1) { Fibre.zero with
      team := tid, w := w.1, lane := w.2.1, role, core := core + l.halfOf w.1, q := l.localOf w.1 % 4, base := w.2.2
      size := l.allot role, alive := true, vec := v, cp := v, mx := v, vp := v, coll := v }) s

/-- R63: each weave takes the lowest-numbered free slot of its quarter, in ascending order; `make` gives the slot's state. -/
def State.seatSlots (s : State) (l : Launch) (core : Nat) (make : Nat → Slot) : State :=
  (List.range l.nweave).foldl (fun s w =>
    let c := core + l.halfOf w
    let q := l.localOf w % 4
    match (s.freeSlots c q).head? with
    | none => s
    | some n => s.setSlot (256 * c + 64 * q + n) (make w)) s

/-- R21: the slot of weave `w` at the start. -/
def Launch.startSlot (l : Launch) (tid w clock : Nat) (sregs : List (Nat × Reg)) : Slot :=
  let role := l.roleOf w
  { Slot.zero with team := tid, w, role, pc := l.pcAt (l.entry role / 8 : Nat) (l.entry role % 8)
                   lanes := (List.range l.width).map fun c => (c, fibreKey tid w c), sregs, lastFill := clock }

/-- May a team's weaves start: has every bank drained (R35)? -/
def State.banksDrained (s : State) (t : Team) : Bool :=
  let c := s.cluster (clusterOf t.core)
  (t.units.map (fun u => u.1) ++ t.chuteBanks.flatMap fun h => h.2).all fun b => !c.draining.contains b

/-- Place a team with a given `%team` on a core that passed (R34, steps 5 to 7). -/
def State.placeTeam (s : State) (lid core : Nat) (a : Alloc) (index : Word) (sregs : List (Nat × Reg)) (node : Option (Nat × Nat))
    (know : List Nat) : State :=
  let l := s.launch lid
  let tid := s.uid
  let s := s.bump.lendBanks (clusterOf core) (a.units.map (fun u => u.1) ++ a.chuteBanks.flatMap fun h => h.2)
  let t : Team := { Team.zero with launch := lid, index, die := dieOf core, core, state := .held, placedAt := s.clock, scrId := tid
                                   units := a.units, chuteBanks := a.chuteBanks, node, know }
  let s := s.setTeam tid { t with state := if l.coresident || !s.banksDrained t then .held else .running }
  let s := s.seatFibres tid l core a.wins know
  s.seatSlots l core fun w => l.startSlot tid w s.clock sregs

/-- R33: the effective priority of a launch (R18). -/
def State.prioOf (s : State) (l : Launch) : Nat := min l.prio (s.queue l.queue).qprio

/-- Is a launch the last that left its queue? -/
def State.isCurrent (s : State) (lid : Nat) (l : Launch) : Bool :=
  !(s.launches.any fun x => x.1 != lid && x.2.queue == l.queue && decide (l.seq < x.2.seq) && x.2.state != .queued)

/-- R33, R36: launches of a partition that still have unclaimed teams, as the processors find them at the start of the clock (R32). -/
def State.claimers (s : State) (p : Nat) : List (Nat × Launch) :=
  let open_ := s.launches.filter fun x => x.2.part == p && x.2.state == .claiming && x.2.ending.isNone && s.isCurrent x.1 x.2
    && (decide ((s.queue x.2.queue).ticket < x.2.nteam) || (s.queue x.2.queue).filledAt == s.clock + 1)
  open_.filter fun x => !x.2.coresident || !(open_.any fun y =>
    y.1 != x.1 && y.2.coresident && decide (0 < (s.queue y.2.queue).ticket))

/-- The partition that holds a die. -/
def State.partOfDie (s : State) (die : Nat) : Option Nat := (s.parts.find? fun p => p.2.dies.getLsbD die).map fun p => p.1

/-- R33: does launch `a` come before launch `b` on a processor whose rotation pointer is `rot`? -/
def State.claimBefore (s : State) (rot : Nat) (a b : Launch) : Bool :=
  decide (s.prioOf b < s.prioOf a)
    || (s.prioOf a == s.prioOf b && decide ((a.queue + 64 - rot) % 64 < (b.queue + 64 - rot) % 64))

def insertBy {α : Type} (lt : α → α → Bool) (x : α) : List α → List α
  | [] => [x]
  | y :: ys => if lt x y then x :: y :: ys else y :: insertBy lt x ys

def State.claimOrder (s : State) (die : Nat) (ls : List (Nat × Launch)) : List (Nat × Launch) :=
  ls.foldl (fun acc x => insertBy (fun a b => s.claimBefore (s.die die).rotation a.2 b.2) x acc) []

/-- R33: the first launch in order that some core of the die can hold. -/
def State.firstHeld (s : State) (die : Nat) (ls : List (Nat × Launch)) : Option (Nat × Launch × Nat × Alloc) :=
  firstSome (fun x => (s.findCore x.2 die).map fun c => (x.1, x.2, c.1, c.2)) ls

/-- R33: has a launch found no core on this die for 2^20 clocks? -/
def State.starved (s : State) (die : Nat) (l : Launch) : Bool := (aget? l.starving die).any fun c => decide (c + 2 ^ 20 ≤ s.clock)

/-- R33: launches to work on: none that comes later than one that has found no core for 2^20 clocks. -/
def State.workList (s : State) (die : Nat) : List (Nat × Launch) → List (Nat × Launch)
  | [] => []
  | x :: xs => if s.starved die x.2 then [x] else x :: s.workList die xs

/-- R292: a team that waits to be placed again, and may be. -/
def Team.waits (t : Team) : Bool :=
  match t.state with
  | .saved | .flushed => true
  | _ => false

/-- R292: some team that waits on this die comes before a launch of effective priority `p` and fits. -/
def State.restoreFirst (s : State) (die p : Nat) : Bool :=
  s.teams.any fun t => t.2.die == die && t.2.waits && !(s.part (s.launch t.2.launch).part).suspended
    && decide (p ≤ s.prioOf (s.launch t.2.launch)) && (s.findCore (s.launch t.2.launch) die).isSome

/-- R33: note since when the first launch has found no core on this die; the count ends where it finds one or is no longer the
first, but not once it has reached 2^20. -/
def State.noteStarving (s : State) (die : Nat) (ls : List (Nat × Launch)) : State :=
  ls.zipIdx.foldl (fun s x =>
    let l := x.1.2
    if s.starved die l then s
    else if x.2 = 0 && (s.findCore l die).isNone then
      if (aget? l.starving die).isSome then s else s.modLaunch x.1.1 fun l => { l with starving := aset l.starving die s.clock }
    else if (aget? l.starving die).isSome then s.modLaunch x.1.1 fun l => { l with starving := adel l.starving die }
    else s) s

/-! ### Reduce teams (R318) -/

/-- The launch record of a reduce team of `g`: the issuing launch's block with the kernel image REDK and one team. -/
def Launch.reduce (l : Launch) (lid : Nat) (g : Graph) : Launch :=
  let redk := bitsN g.header.toNat 320 64
  let b := l.block.toNat - l.kimg.toNat + redk
  let b := b - l.nteam * 2 ^ 832 + 2 ^ 832
  { l with block := BitVec.ofNat 1024 b, image := g.redImage, state := .complete, tree := none, parent := some lid, first := none
           errcnt := 0, late := 0, recDue := [], stage := 0, waits := [], want := [], ending := none }

/-- A node of a run that has not acted and whose turn it is. -/
def NodeState.ready (n : NodeState) : Bool := n.deps == 0 && !n.acted && !n.failed

def State.graph (s : State) (k : Nat) : Graph :=
  (aget? s.graphs k).getD { part := 0, header := 0, nodes := [], redImage := 0, issued := 0, done := 0, carry := [] }

/-- R318: a TEAM node of the partition waits for a core, and this die has one. -/
def State.reduceWaits (s : State) (p die : Nat) : Bool :=
  s.runs.any fun r => r.2.part == p && r.2.state == .started && !r.2.aborted && r.2.nodes.any fun n =>
    n.2.ready && n.2.team.isNone && bitsN (((s.graph r.2.slot).nodes[n.1]?).getD 0).toNat 68 4 == 5
      && (s.findCore ((s.launch r.2.launch).reduce r.2.launch (s.graph r.2.slot)) die).isSome

/-- R32: a processor with a higher number has drawn in this clock: the draws are served in ascending die order. -/
def State.turnPassed (s : State) (die : Nat) : Bool := s.dies.any fun d => decide (die < d.1) && d.2.drew == s.clock + 1

/-- R32 to R35: a processor draws a ticket for the first launch that a core of its die can hold, and places the team. A draw that
finds the counter at NTEAM claims nothing. -/
def execPlaceTeam (die : Nat) (s : State) : Host.Outcome State Fault Refusal :=
  match s.partOfDie die with
  | none => .next s
  | some p =>
    if (s.part p).suspended || (s.die die).drew = s.clock + 1 || s.turnPassed die then .next s
    else
      let ls := s.claimOrder die (s.claimers p)
      let s := s.noteStarving die ls
      match s.firstHeld die (s.workList die ls) with
      | none => .next s
      | some (lid, l, core, a) =>
        if s.restoreFirst die (s.prioOf l) || s.reduceWaits p die then .next s
        else
          let q := s.queue l.queue
          let d := s.die die
          if l.nteam ≤ q.ticket then .next (s.setDie die { d with drew := s.clock + 1 })
          else
            let s := s.placeTeam lid core a (BitVec.ofNat 32 q.ticket) l.startRegs none l.know
            let s := s.setQueue l.queue { q with ticket := q.ticket + 1, filledAt := if q.ticket + 1 = l.nteam then s.clock + 1 else q.filledAt }
            let s := s.modLaunch lid fun l => { l with starving := adel l.starving die }
            .next (s.setDie die { d with rotation := (l.queue + 1) % 64, robin := (core % 16 + l.halves.length) % 16, drew := s.clock + 1 })

/-- R33: after 2^20 clocks without a core the first launch keeps later ones off the die; the clock at which it first found
none is noted here too. -/
def execPlacementStarvation (die : Nat) (s : State) : Host.Outcome State Fault Refusal :=
  match s.partOfDie die with
  | none => .next s
  | some p => .next (s.noteStarving die (s.claimOrder die (s.claimers p)))

/-- R36: all weaves of a coresident launch start together, in the clock after its last team was placed. -/
def execCoresidentStart (lid : Nat) (s : State) : Host.Outcome State Fault Refusal :=
  let l := s.launch lid
  let ts := s.teams.filter fun t => t.2.launch == lid && t.2.node.isNone && t.2.state != .ended
  if l.coresident && l.state = .claiming && l.ending.isNone && decide (l.nteam ≤ (s.teams.filter fun t => t.2.launch == lid && t.2.node.isNone).length)
      && ts ≠ [] && ts.all fun t => (t.2.state == .held || t.2.state == .retiring || t.2.state == .running) && decide (t.2.placedAt < s.clock)
        && s.banksDrained t.2 then
    .next { s with teams := s.teams.map fun (t : Nat × Team) =>
      if t.2.launch == lid && t.2.state == .held then (t.1, { t.2 with state := .running }) else t }
  else .next s

/-- R36, reason 10: teams that a cluster with no work could hold. -/
def State.clusterHolds (s : State) (lid cl : Nat) : Nat → Nat
  | 0 => 0
  | n + 1 =>
    let l := s.launch lid
    match firstSome (fun k => (s.fits l (4 * cl + k)).map fun a => (4 * cl + k, a)) (List.range 4) with
    | none => 0
    | some (core, a) => 1 + (s.placeTeam lid core a 0 [] none []).clusterHolds lid cl n

/-- R36: the sum of the capacities of the partition's clusters on which no work stands. -/
def State.capacity (s : State) (lid : Nat) : Nat :=
  let l := s.launch lid
  let cls := (List.range 32).filter fun cl => (s.part l.part).dies.getLsbD (cl / 4) && (s.teamsOn cl).isEmpty
  (cls.map fun cl => s.clusterHolds lid cl 256).sum

/-! ### Completion (R20, R26, R306, R307) -/

/-- R26: CSEQ advances over a contiguous run of complete launches. -/
def advanceSeq (q : Queue) : Nat → Queue
  | 0 => q
  | n + 1 => if q.doneSeqs.contains (q.cseq + 1) then
      advanceSeq { q with cseq := q.cseq + 1, doneSeqs := q.doneSeqs.filter fun x => x != q.cseq + 1 } n
    else q

/-- R37: launches of a queue that have left queued and are not complete. -/
def State.busyQueue (s : State) (q : Nat) : Bool := s.launches.any fun x => x.2.queue == q && x.2.state == .claiming

/-- The page that the groom must still bring before the `n` bytes at an address that is to be a multiple of `n` can be written, if any
(R20). -/
def State.storeWaits (s : State) (l : Launch) (va : DWord) (n : Nat) : Option Nat :=
  if va.toNat % n ≠ 0 then none
  else match s.devLocs l.part .store (ownVa va) n with
  | .error m => if m.groom && !l.noPages.contains m.page then some m.page else none
  | .ok _ => none

/-- The status and the reason that a launch completes with (R22, R23). -/
def Launch.finalStatus (l : Launch) : Nat × Nat :=
  match l.ending with
  | some (st, reason, _) => (st, reason)
  | none => (if l.errcnt = 0 then 0 else 1, 0)

/-- A host interrupt (R331). -/
def State.interrupt (s : State) (vector : Nat) : State :=
  { s with module := { s.module with interrupts := s.module.interrupts ++ [vector] } }

/-- The places of a part of the error record (R22): the first-error fields with the counts and the reserved fields, the counts
alone, and STATUS with REASON. Each place is a write of its own (log 75). -/
def recordPart (k : Nat) : List (Nat × Nat) := if k = 0 then [(2, 62)] else if k = 1 then [(4, 4), (32, 4)] else [(0, 2)]

/-- One write of the device for a launch, within the `size` bytes at `base`, which is a multiple of `size` (0x042): what it carries is
kept for the completion, and a cause drops it (R20). Each call counts as one write for WFAIL (log 75). -/
def State.launchWrite (s : State) (lid : Nat) (base : DWord) (size off : Nat) (bs : List Byte) (carry : List Nat) : State :=
  let l := s.launch lid
  if base.toNat % size ≠ 0 then s.wfail l.queue
  else match s.vecWrite l.part (base + BitVec.ofNat 64 off) bs carry with
  | .ok o => o.state.modLaunch lid fun l => { l with out := union l.out o.ids, waits := l.waits ++ o.tags }
  | .error _ => s.wfail l.queue

/-- Write one part of a launch's error record as it now stands. -/
def State.writePart (s : State) (lid k : Nat) : State :=
  (recordPart k).foldl (fun s r =>
    let l := s.launch lid
    s.launchWrite lid l.erra 64 r.1 (((bytesLE 64 l.errorRecord).drop r.1).take r.2) []) s

/-- R22: the parts of the error record that are due are written, once the groom has brought the page; none after the completion word
(R37). -/
def State.flushRecord (s : State) (lid : Nat) : State :=
  let l := s.launch lid
  if l.recDue = [] || l.state = .complete || l.stage = 2 then s
  else match s.storeWaits l l.erra 64 with
    | some page => s.modLaunch lid fun l => { l with want := union l.want [page] }
    | none => (l.recDue.foldl (fun s k => s.writePart lid k) s).modLaunch lid fun l => { l with recDue := [] }

/-- R306: STATUS and REASON. -/
def State.writeStatus (s : State) (lid : Nat) : State :=
  let (st, reason) := (s.launch lid).finalStatus
  let s := (s.modLaunch lid fun l => { l with status := st + 256 * reason }).flushRecord lid
  (s.writePart lid 2).modLaunch lid fun l => { l with recDue := [], stage := 1 }

/-- R20: the completion word, a release at system scope. -/
def State.writeCompletion (s : State) (lid : Nat) : State :=
  let l := s.launch lid
  let (st, reason) := l.finalStatus
  (s.launchWrite lid l.compa 8 0 (bytesLE 8 (st * 2 ^ 56 + reason * 2 ^ 48 + l.seq)) l.out).modLaunch lid fun l => { l with stage := 2 }

/-- R26, R306: CSEQ and the host interrupt, after the completion word; the launch's phase tree is free again (R260). -/
def State.closeLaunch (s : State) (lid : Nat) : State :=
  let l := s.launch lid
  let s := s.modLaunch lid fun l => { l with state := .complete, tree := none }
  let s := { s with sysKnow := union s.sysKnow l.out, trees := s.trees.filter fun t => t.2.launch != lid }
  let q := s.queue l.queue
  let q := advanceSeq { q with doneSeqs := q.doneSeqs ++ [l.seq] } (q.doneSeqs.length + 1)
  let s := s.setQueue l.queue { q with wdSince := if s.busyQueue l.queue then some s.clock else none }
  if l.notify then s.interrupt l.queue else s

/-- R20, R306: the error record, the completion word, CSEQ, and the host interrupt. -/
def State.completeLaunch (s : State) (lid : Nat) : State := ((s.writeStatus lid).writeCompletion lid).closeLaunch lid

/-- R20, R244, R335: the completion word, a release, waits for a write hb it that has not been acknowledged by another device where it
goes to one itself, or has not reached its expander. -/
def State.wordHeld (s : State) (l : Launch) : Bool :=
  s.heldBack [] l.out l.out [] || (regionOf (ownVa l.compa).toNat == 1 && s.farHeld [] l.out l.out)

/-- What is left of a completion once STATUS is written: each write to another device is answered before the next step. -/
def State.finishOn (s : State) (lid : Nat) : State :=
  let l := s.launch lid
  if l.waits ≠ [] || (l.stage = 1 && s.wordHeld l) then s
  else if l.stage = 1 then
    let s := s.writeCompletion lid
    if (s.launch lid).waits = [] then s.closeLaunch lid else s
  else if l.stage = 2 then s.closeLaunch lid
  else s

/-- The page that the groom must bring before a launch can complete, if any (R20). -/
def State.endWaits (s : State) (l : Launch) : Option Nat := (s.storeWaits l l.erra 64).or (s.storeWaits l l.compa 8)

/-- The same, once the groom has brought the pages it needs (R20). -/
def State.finishLaunch (s : State) (lid : Nat) : State :=
  let l := s.launch lid
  if l.stage ≠ 0 then s.finishOn lid
  else match s.endWaits l with
    | some page => s.modLaunch lid fun l => { l with want := union l.want [page] }
    | none => (s.writeStatus lid).finishOn lid

/-- The answer to a write of a launch's error record or completion word at another device; a cause drops the write (R20). -/
def State.launchAnswer (s : State) (tag : Nat) (ok : Bool) : State :=
  s.launches.foldl (fun (s : State) (x : Nat × Launch) =>
    if x.2.waits.contains tag then
      let s := s.modLaunch x.1 fun l => { l with waits := l.waits.filter fun t => t != tag }
      if ok then s else s.wfail x.2.queue
    else s) s

/-- R24, R31: a launch that has been rejected and whose completion word is still to be written: it passes from queued directly to
complete (R9). -/
def Launch.rejected (l : Launch) : Bool := l.state == .queued && l.ending.isSome

/-- R306: may a launch complete? -/
def State.launchDone (s : State) (lid : Nat) (l : Launch) : Bool :=
  let ts := s.teams.filter fun t => s.root t.2.launch == lid
  l.state == .claiming && (l.ending.isSome || decide (l.nteam ≤ (ts.filter fun t => t.2.node.isNone).length))
    && ts.all (fun t => t.2.state == .ended) && !(s.ops.any fun o => s.root o.2.head.launch == lid)
    && !(s.runs.any fun r => s.root r.2.launch == lid && r.2.state != .complete)

/-- R37: completion words of terminated launches are written in ascending sequence order. -/
def State.earlierEnding (s : State) (l : Launch) : Bool :=
  l.ending.isSome && s.launches.any fun x => x.2.queue == l.queue && x.2.state == .claiming && x.2.ending.isSome && decide (x.2.seq < l.seq)

/-- R306: a launch completes. -/
def execLaunchComplete (lid : Nat) (s : State) : Host.Outcome State Fault Refusal :=
  match aget? s.launches lid with
  | none => .next s
  | some l => if l.rejected || (s.launchDone lid l && !s.earlierEnding l) then .next (s.finishLaunch lid) else .next s

/-! ### Teams end (R35, R304) -/

/-- R35: banks that no team holds any more return to the cache. -/
def State.returnBanks (s : State) (cl : Nat) (banks : List Nat) : State :=
  let c := s.cluster cl
  s.setCluster cl (banks.foldl (fun c b =>
    if c.mode b == .lent && s.bankUnits cl b == 0 && !s.isChuteBank cl b then
      { c.setMode b .cache with draining := c.draining.filter fun x => x != b }
    else c) c)

/-- All that the fibres of a team have written or learnt, with those whose windows others have taken. -/
def State.teamKnow (s : State) (t : Nat) : List Nat :=
  (s.fibres.filter fun f => f.2.team == t).foldl (fun m f => union m f.2.allKnow) (s.team t).gone

/-- Release a team's core resources; what it has still to say stays in `launch` and `node`. -/
def State.freeTeam (s : State) (t : Nat) (st : TeamState) : State :=
  let tm := s.team t
  let banks := tm.units.map (fun u => u.1) ++ tm.chuteBanks.flatMap fun h => h.2
  let s := s.modTeam t fun x => { x with state := st }
  let s := s.dropSlots t
  s.returnBanks (clusterOf tm.core) banks

/-- R304: nothing of a retiring team is in flight. -/
def State.teamIdle (s : State) (t : Nat) : Bool := !(s.ops.any fun o => o.2.head.team == t)

/-- R304: a team leaves retiring and has ended. -/
def execTeamEnd (t : Nat) (s : State) : Host.Outcome State Fault Refusal :=
  match aget? s.teams t with
  | none => .next s
  | some tm =>
    if tm.state = .retiring && s.teamIdle t then
      let know := s.teamKnow t
      let s := s.modLaunch (s.root tm.launch) fun l => { l with out := union l.out know }
      let s := match tm.node with
        | none => s
        | some (r, n) => { s with runs := aupd s.runs r fun x => { x with nodes := aupd x.nodes n fun m => { m with carry := union m.carry know } } }
      let s := s.freeTeam t .ended
      let s := s.modTeam t fun x => { x with units := [], chuteBanks := [], chutes := [], tiles := [] }
      .next ({ s with fibres := s.fibres.filter fun f => f.2.team != t }.afterEnd t)
    else .next s

/-! ### Termination (R37) -/

/-- TAGs of the writes that an operation has sent to other devices and that have no answer yet. -/
def OpBody.sent : OpBody → List Nat
  | .store ws => ws.filterMap fun w => w.remote
  | .atomic _ ls _ => ls.filterMap fun l => l.remote
  | .append ls => ls.flatMap fun l => l.remote.toList ++ l.waits.map fun w => w.1
  | .copy _ _ _ d => d.waits.map fun w => w.1
  | .proj _ _ _ d _ _ => (d.out.getD []).map fun w => w.1
  | _ => []

/-- Flits with some TAGs are not sent again: the operations that sent them have been discarded (R37, R346). -/
def State.dropFlits (s : State) (tags : List Nat) : State :=
  { s with ports := s.ports.map fun (p : Nat × Port) =>
      (p.1, { p.2 with unacked := p.2.unacked.filter fun u => !([2, 4, 6].contains u.1.kind.toNat && tags.contains u.1.tag.toNat) }) }

/-- R37: an operation of a terminated launch is discarded at once (engines), or completes, or is discarded, as the device
chooses; what has left for another device completes. -/
def State.dropOps (s : State) (lid : Nat) : State :=
  s.ops.foldl (fun s o =>
    if s.root o.2.head.launch != lid then s
    else match o.2.body with
      | .tile .. | .proj .. | .time .. | .kcall .. => (s.dropFlits o.2.body.sent).delOp o.1
      | _ => let (k, s) := s.choose 2
             if k = 0 || o.2.body.sent ≠ [] then s else s.delOp o.1) s

/-- R282: the cause that stands for a status of termination. -/
def endCause (status : Nat) : Nat := if status = 3 then 0x1C3 else if status = 4 then 0x1C7 else 0x1CA

/-- R37, R282: terminate a launch with a status. A STATUS that stands already is written anew. -/
def State.terminate (s : State) (lid status : Nat) : State :=
  let s := s.recordError lid { TrapInfo.zero with cause := endCause status } false 0 0 0
  let ts := s.teams.filter fun t => s.root t.2.launch == lid && t.2.state != .ended
  let s := s.modLaunch lid fun l => { l with ending := some (status, 0, s.clock), stage := 0 }
  let s := s.dropOps lid
  ts.foldl (fun s t =>
    match t.2.state with
    | .saved | .flushed => (s.modTeam t.1 fun x =>
        { x with state := .retiring, units := [], chuteBanks := [], savedSlots := [], savedRecs := [], savedFrames := [] }).dropChunks t.1
    | _ => ((s.endTeam t.1).modTeam t.1 fun x => { x with state := .retiring }).dropSlots t.1) s

/-- R37, R38: the launches of a queue that have left queued and are not complete are terminated, but for one whose completion word is
written. -/
def State.terminateQueue (s : State) (q status : Nat) : State :=
  s.launches.foldl (fun s x =>
    if x.2.queue == q && x.2.state == .claiming && x.2.stage != 2 && x.2.ending.all (fun e => e.1 != status) then s.terminate x.1 status else s) s

/-- R37: has the watchdog of a queue reached its limit? It counts from its last reset, also where WDOG was 0 in between (log 37). -/
def State.watchdogDue (s : State) (q : Nat) : Bool :=
  let x := s.queue q
  x.wdog != 0 && (match x.wdSince with
    | some c => decide (c + x.wdog * 65536 ≤ s.clock)
    | none => false)

/-- R37: the watchdog fires. -/
def execWatchdogFire (q : Nat) (s : State) : Host.Outcome State Fault Refusal :=
  if s.watchdogDue q then
    let s := s.terminateQueue q 3
    .next (s.setQueue q { s.queue q with halt := true, herr := 4, wdSince := none })
  else .next s

/-! ### The tail word (R27, R28) -/

def State.haltQueue (s : State) (q herr : Nat) : State := s.setQueue q { s.queue q with halt := true, herr }

/-- R27: read newly appended blocks up to `n`, from the lowest on; an unreadable slot halts the queue (R28). -/
def State.readBlocks (s : State) (q : Nat) (know : List Nat) : Nat → State
  | 0 => s
  | k + 1 =>
    let x := s.queue q
    let n := x.read + 1
    let va := x.ringa + BitVec.ofNat 64 (128 * ((n - 1) % 2 ^ x.logn))
    match s.devRead x.part .load va 128 with
    | .error _ => s.haltQueue q 3
    | .ok bs =>
      let l : Launch := { Launch.zero with queue := q, seq := n, part := x.part, block := BitVec.ofNat 1024 (leNat bs), state := .queued, know }
      (({ s with launches := aset s.launches s.uid l, uid := s.uid + 1 }).setQueue q { x with read := n }).readBlocks q know k

/-- R28: the queue unit observes value `v` in the tail word. -/
def State.observeTail (s : State) (q v : Nat) (know : List Nat) : State :=
  let x := s.queue q
  if 2 ^ 48 ≤ v || v < x.tail then s.haltQueue q 1
  else
    let s := s.setQueue q { x with tail := v }
    let top := x.cseq + 2 ^ x.logn
    let s := s.readBlocks q know (min v top - x.read)
    if top < v && !(s.queue q).halt then s.haltQueue q 2 else s

/-- The value of the tail word after the first `n` writes of it, and what its last write carries. -/
def State.tailAfter (s : State) (loc : Nat) (ws : List WEv) : Nat × List Nat :=
  let byte (a : Nat) : Byte := match (ws.filter fun w => w.touches a).getLast? with
    | some w => (w.at? a).getD 0
    | none => s.candByte none a
  (leNat ((from_ loc 8).map byte), (ws.getLast?.map fun w => w.carry).getD [])

/-- The writes of a queue's tail word, in home order, and its location. -/
def State.tailWrites (s : State) (x : Queue) : Option (Nat × List WEv) :=
  match s.devLocs x.part .load x.taila 8 with
  | .ok ((loc, _) :: _) => some (loc, s.hist.filter fun w => (from_ loc 8).any w.touches)
  | _ => none

/-- Observe the writes `ws`, after those of `seen`, until the queue halts. -/
def State.observeEach (s : State) (q loc : Nat) (seen : List WEv) : List WEv → State
  | [] => s
  | w :: ws =>
    if (s.queue q).halt then s
    else
      let (v, know) := s.tailAfter loc (seen ++ [w])
      let s := s.observeTail q v know
      (s.setQueue q { s.queue q with tailSeen := some w.id }).observeEach q loc (seen ++ [w]) ws

/-- The writes of the tail word that the queue unit has observed, and those it has not. -/
def Queue.splitSeen (x : Queue) (ws : List WEv) : List WEv × List WEv :=
  match x.tailSeen with
  | none => ([], ws)
  | some id =>
    let new := (ws.reverse.takeWhile fun w => w.id != id).reverse
    (ws.take (ws.length - new.length), new)

/-- From now on only later writes of the tail word are observed. -/
def State.seenAll (s : State) (q : Nat) : State :=
  match s.tailWrites (s.queue q) with
  | none => s
  | some (loc, ws) =>
    let x := s.queue q
    s.setQueue q { x with tailAt := loc + 1, tailSeen := (ws.getLast?.map fun w => w.id).or x.tailSeen }

/-- R28: after HALT is cleared the queue re-reads the tail word; earlier writes are not observed one by one. -/
def State.rereadTail (s : State) (q : Nat) : State :=
  match s.tailWrites (s.queue q) with
  | none => s
  | some (loc, ws) =>
    let s := s.seenAll q
    let (v, know) := s.tailAfter loc ws
    (s.setQueue q { s.queue q with reread := false }).observeTail q v know

/-- R27, R28: the queue unit observes the writes of a queue's tail word, and reads the newly appended slots. A tail word that the
groom has brought to another physical page is read afresh. -/
def execTailWrite (q : Nat) (s : State) : Host.Outcome State Fault Refusal :=
  let x := s.queue q
  if !(x.granted && x.enable) || x.halt then .next s
  else match s.tailWrites x with
    | none => .next s
    | some (loc, ws) =>
      if x.reread || x.tailAt ≠ loc + 1 then .next (s.rereadTail q)
      else .next (s.observeEach q loc (x.splitSeen ws).1 (x.splitSeen ws).2)

/-- Every queue observes its tail word now: before what it holds is moved, and after. -/
def State.observeTails (s : State) : State :=
  (s.queues.map fun q => q.1).foldl (fun s q => match execTailWrite q s with
    | .next t => t
    | _ => s) s

/-! ### Launches start (R29 to R31) -/

/-- The queued launch with the lowest sequence number of a queue. -/
def State.headLaunch (s : State) (q : Nat) : Option (Nat × Launch) :=
  (s.launches.filter fun x => x.2.queue == q && x.2.state == .queued && x.2.ending.isNone).foldl (fun (best : Option (Nat × Launch)) x =>
    match best with
    | none => some x
    | some b => if x.2.seq < b.2.seq then some x else best) none

/-- R29, step 2. -/
def State.prevClaimed (s : State) (l : Launch) : Bool :=
  match s.launches.find? fun x => x.2.queue == l.queue && x.2.seq + 1 == l.seq with
  | none => true
  | some (_, p) => p.state == .complete || p.rejected
      || (p.state == .claiming && decide (p.nteam ≤ (s.queue l.queue).ticket) && (s.queue l.queue).filledAt != s.clock + 1)

/-- Valid prerequisites: queue and sequence number (R19). -/
def Launch.preqs (l : Launch) : List (Nat × Nat) :=
  ((List.range 4).filter fun i => (l.preq i).testBit 63).map fun i => (bitsN (l.preq i) 56 6, bitsN (l.preq i) 0 48)

/-- R31. -/
def State.preqReason (s : State) (l : Launch) : Option Nat :=
  firstOf [(l.preqs.any fun p => p.1 == l.queue && decide (l.seq ≤ p.2), 11),
    (l.preqs.any fun p => !(s.queue p.1).granted || (s.queue p.1).part != (s.queue l.queue).part, 12)]

def State.preqsMet (s : State) (l : Launch) : Bool := l.preqs.all fun p => decide (p.2 ≤ (s.queue p.1).cseq)

/-- R30: what the named completions carry. -/
def State.preqKnow (s : State) (l : Launch) : List Nat :=
  l.preqs.foldl (fun m p => (s.launches.filter fun x => x.2.queue == p.1 && decide (x.2.seq ≤ p.2)).foldl (fun m x => union m x.2.out) m) l.know

/-- R24, R31: a launch is rejected with a reason, and completes. -/
def State.rejectLaunch (s : State) (lid reason : Nat) : State :=
  let s := s.modLaunch lid fun l => { l with ending := some (2, reason, s.clock) }
  s.finishLaunch lid

/-- R24: the first failing reason, or the image; or the page that the groom must bring first. -/
def State.validate (s : State) (lid : Nat) : Except (Nat ⊕ Nat) Launch :=
  let l := s.launch lid
  match s.readImage l.part l.kimg l.noPages with
  | .wait page => .error (.inl page)
  | .fail => .error (.inr 1)
  | .ok bs =>
    let l := { l with image := BitVec.ofNat 1024 (leNat (bs.take 128)) }
    let reserved := if l.blockReserved then some 6 else none
    let addr := if l.badAddress then some 7 else none
    let cap := if l.coresident && decide ((s.setLaunch lid l).capacity lid < l.nteam) then some 10 else none
    match l.imageReason.or (reserved.or (addr.or ((s.sessionReason l bs).or cap))) with
    | some r => .error (.inr r)
    | none => .ok l

/-- The writes that the read of R24 found in the image's code (R25). -/
def State.codeWriters (s : State) (l : Launch) : List Nat :=
  let pages := (List.range ((l.kimg.toNat % 65536 + 128 + 64 * l.codelines + 65535) / 65536)).filterMap fun k =>
    match s.translate l.part .load (BitVec.ofNat 64 ((l.kimg.toNat / 65536 + k) * 65536)) with
    | .ok pg => some pg.loc
    | .error _ => none
  (s.hist.filter fun w => w.bytes.any fun b => pages.any fun p => decide (p ≤ b.1) && decide (b.1 < p + 65536)).map fun w => w.id

/-- R29: the launch at the head of a queue leaves queued. -/
def execLaunchStart (q : Nat) (s : State) : Host.Outcome State Fault Refusal :=
  let x := s.queue q
  if !x.enable || x.halt then .next s
  else match s.headLaunch q with
    | none => .next s
    | some (lid, l) =>
      if !s.prevClaimed l then .next s
      else match s.preqReason l with
        | some r => .next (s.rejectLaunch lid r)
        | none =>
          if !s.preqsMet l then .next s
          else match s.validate lid with
            | .error (.inl page) => .next (s.modLaunch lid fun l => { l with want := union l.want [page] })
            | .error (.inr r) => .next (s.rejectLaunch lid r)
            | .ok l =>
              let busy := s.busyQueue q
              let s := s.setLaunch lid { l with state := .claiming, know := s.preqKnow l, want := [], codeSeen := s.codeWriters l }
              let x := s.queue q
              .next (s.setQueue q { x with ticket := 0, filledAt := 0, wdSince := if busy then x.wdSince else some s.clock })

end Sys2Proof.Machine
end

