-- ==== Sys2Proof/Machine/Collective.lean ====
section
/-!
DEFINITION. Graph slots and appends: CGLOAD, CGRUN, CGSTAT, CGFREE and CAPPEND, with the home's step of an append
(R311 to R314, R321 to R325).
-/
namespace Sys2Proof.Machine

/-! ### Bytes that an engine reaches, cut where granules end -/

/-- `n` bytes from `va` on as pieces within granules: address and length. -/
def spans (va n : Nat) : List (Nat × Nat) :=
  (List.range ((va % 32 + n + 31) / 32)).map fun i =>
    let lo := if i = 0 then va else (va / 32 + i) * 32
    (lo, min (va + n) ((va / 32 + i + 1) * 32) - lo)

/-- The pieces of `n` bytes from `va` on, translated and checked (R163, R171). -/
def State.spanLocs (s : State) (w : Who) (acc : Acc) (va : DWord) (n : Nat) : Except EMiss (List (ELoc × Nat)) :=
  mapE (fun p =>
    let a : DWord := BitVec.ofNat 64 p.1
    match s.placeBytes w acc a 1 with
    | .error m => .error (m.engine a)
    | .ok pg => match (if isRemote pg.loc then none else s.homeCause (acc != .store) pg.loc p.2) with
      | some c => .error (.cause c a)
      | none => .ok ({ loc := pg.loc, va := a.toNat, timeless := pg.timeless, swm := pg.swm }, p.2)) (spans va.toNat n)

/-- The bytes of such pieces, as an engine reads them. -/
def spanBytes (ls : List (ELoc × Nat)) : List EByte := ls.flatMap fun p => p.1.bytes p.2
def spanCells (m : EMem) (ls : List (ELoc × Nat)) : List (Byte × Stamp) :=
  ls.flatMap fun p => (from_ p.1.loc p.2).map fun a => (emByte m a, emStamp m a)

/-- Cells that lay some bytes on such pieces. -/
def cellsOn : List (ELoc × Nat) → List (Byte × Stamp) → List ECell
  | [], _ => []
  | p :: ps, bs => (p.1, bs.take p.2) :: cellsOn ps (bs.drop p.2)

/-! ### Graph images (R312, R313) -/

def graphMagic : Nat := 0x47435846

/-- A node. -/
structure GNode where
  doff : Nat
  soff : Nat
  n : Nat
  succ : List Nat
  deps : Nat
  pair : Nat
  peer : Nat
  dbuf : Nat
  sbuf : Nat
  op : Nat
  rop : Nat
  st : Ty
  wt : Ty
  dt : Ty
  rm : Nat
  rsv : Nat
  deriving DecidableEq, Repr

def gnode (b : BitVec 256) : GNode :=
  let f (lo w : Nat) : Nat := bitsN b.toNat lo w
  { doff := f 208 48, soff := f 160 48, n := f 136 24 + 1, succ := [f 112 12, f 124 12].filterMap fun x => if x = 0 then none else some (x - 1)
    deps := f 100 12, pair := f 88 12, peer := f 80 8, dbuf := f 76 4, sbuf := f 72 4, op := f 68 4, rop := f 66 2
    st := tyOf (BitVec.ofNat 5 (f 61 5)), wt := tyOf (BitVec.ofNat 5 (f 56 5)), dt := tyOf (BitVec.ofNat 5 (f 51 5)), rm := f 48 3
    rsv := f 0 48 }

/-- Bytes of an element of a node; .mx8 elements have one byte beside the scale of their block. -/
def gsize : Ty → Nat
  | .f64 => 8 | .f32 | .i32 | .n32 => 4 | .bf16 => 2 | .b8 | .mx8 => 1 | _ => 0

def gFloat (t : Ty) : Bool := [Ty.f64, .f32, .bf16].contains t
def gSource (t : Ty) : Bool := gFloat t || [Ty.i32, .n32, .b8].contains t

/-- R313: the types that each OP accepts. -/
def GNode.typesOk (x : GNode) : Bool :=
  match x.op with
  | 0 => gSource x.st && x.dt == .none && (x.wt == x.st || (x.wt == .f64 && (x.st == .f32 || x.st == .bf16)) || (x.wt == .mx8 && x.st == .f32))
  | 1 => x.st == .none && (gSource x.wt || x.wt == .mx8)
      && (x.dt == x.wt || ((x.dt == .f32 || x.dt == .f64) && (gFloat x.wt || x.wt == .mx8)))
  | 2 => if x.st == .i32 || x.st == .n32 then x.wt == x.st && x.dt == x.st
      else gFloat x.st && (gFloat x.wt || x.wt == .mx8) && gFloat x.dt
  | 3 => gSource x.st && x.wt == .none && (x.dt == x.st || (gFloat x.st && gFloat x.dt))
  | _ => x.st == .none && x.wt == .none && x.dt == .none

/-- Bytes that a node reaches from an offset of a buffer, as far as the image says. -/
def GNode.reach (x : GNode) (t : Ty) : Nat := if x.op = 4 then 128 * x.n else max 1 (x.n * gsize t)

/-- R313, R324: INFO 3. -/
def GNode.bad (x : GNode) (nnodes nstage : Nat) : Bool :=
  let rmMax := if x.op = 0 || x.op = 1 || x.op = 3 then 4 else if x.op = 2 then 3 else 0
  let beyond (buf off : Nat) (t : Ty) : Bool := buf == 8 && decide (65536 * nstage < off + x.reach t)
  decide (6 < x.op) || x.rsv != 0 || decide (8 < x.dbuf) || decide (8 < x.sbuf) || x.succ.any (fun k => decide (nnodes ≤ k))
    || !x.typesOk || decide (rmMax < x.rm) || (x.rop != 0 && x.op != 2) || x.rop == 3 || (x.pair != 0 && x.op != 0)
    || (x.peer != 0 && !(x.op == 0 || x.op == 1 || x.op == 2)) || (x.op == 4 && decide (64 < x.n))
    || beyond x.dbuf x.doff x.dt || beyond x.sbuf x.soff x.st

/-- Header fields. -/
def Graph.f (g : Graph) (lo w : Nat) : Nat := bitsN g.header.toNat lo w
def Graph.redk (g : Graph) : DWord := BitVec.ofNat 64 (g.f 320 64)
def Graph.collid (g : Graph) : BitVec 32 := BitVec.ofNat 32 (g.f 288 32)
def Graph.coord (g : Graph) : Nat := g.f 280 8
def Graph.ndev (g : Graph) : Nat := g.f 272 8 + 1
def Graph.nstage (g : Graph) : Nat := g.f 263 9
def Graph.node (g : Graph) (i : Nat) : GNode := gnode ((g.nodes[i]?).getD 0)

/-- R312, R324: INFO 1 and 2. -/
def headerInfo (h : Nat) : Option Nat :=
  firstOf [(bitsN h 0 32 != graphMagic, 1),
    (bitsN h 384 128 != 0 || bitsN h 256 7 != 0 || bitsN h 32 212 != 0 || bitsN h 244 12 == 0 || decide (256 < bitsN h 263 9), 2)]

/-- Arcs into node `k`. -/
def arcsInto (xs : List GNode) (k : Nat) : Nat := (xs.map fun x => (x.succ.filter fun j => j == k).length).sum

/-- Take nodes without open arcs away, one after the other; `counts` are the open arcs. The number taken. -/
def takeNodes (xs : List GNode) : Nat → List Nat → List (Nat × Nat) → Nat
  | 0, _, _ => 0
  | _, [], _ => 0
  | fuel + 1, i :: queue, counts =>
    let succ := ((xs[i]?).map fun x => x.succ).getD []
    let r := succ.foldl (fun (acc : List Nat × List (Nat × Nat)) k =>
      let c := (aget? acc.2 k).getD 0 - 1
      (if c = 0 then acc.1 ++ [k] else acc.1, aset acc.2 k c)) (queue, counts)
    1 + takeNodes xs fuel r.1 r.2

/-- R324: INFO 5 and 6. -/
def arcsInfo (xs : List GNode) : Option Nat :=
  let counts := (List.range xs.length).map fun k => (k, arcsInto xs k)
  let start := (counts.filter fun c => c.2 == 0).map fun c => c.1
  firstOf [(takeNodes xs xs.length start counts != xs.length, 5),
    ((xs.zip counts).any fun p => p.1.deps != p.2.2 + (if p.1.op = 1 || p.1.op = 2 then 1 else 0), 6)]

/-! ### The order of a fibre's events on path coll (R241, item 2) -/

/-- R314: a base table's buffers. -/
def tableBuf (t : Nat) (j : Nat) : DWord := BitVec.ofNat 64 (bitsN t (64 * j) 64)

/-- Bytes of the base table's buffers that a node reaches. A reduce team may reach any. -/
def Run.reaches (r : Run) (x : GNode) : List (Nat × Nat) :=
  let part (buf off n : Nat) : List (Nat × Nat) := if buf = 8 then [] else [((tableBuf r.table.toNat buf).toNat + off, n)]
  let src (z : Nat) : List (Nat × Nat) := part x.sbuf x.soff (x.n * z)
  let dst (z : Nat) : List (Nat × Nat) := part x.dbuf x.doff (x.n * z)
  match x.op with
  | 0 => src (gsize x.st)
  | 1 => dst (gsize x.dt)
  | 2 | 3 => src (gsize x.st) ++ dst (gsize x.dt)
  | 4 => src (recSize 64) ++ dst (recSize 64)
  | 5 => [(0, 2 ^ 64)]
  | _ => []

/-- R321: a descriptor. -/
structure AppendDesc where
  rows : DWord
  cap : Nat
  rowb : Nat
  drops : Nat
  done : Nat
  tail : Nat
  deriving DecidableEq, Repr

def appendDesc (n : Nat) : AppendDesc :=
  { rows := BitVec.ofNat 64 (bitsN n 192 64), cap := bitsN n 160 32, rowb := bitsN n 128 32, drops := bitsN n 96 32
    done := bitsN n 32 32, tail := bitsN n 0 32 }

/-- R321, R322: cause 0x185. -/
def AppendDesc.broken (d : AppendDesc) : Bool := d.rowb % 32 != 0 || d.rowb == 0 || decide (4096 < d.rowb)

/-- Bytes that an append reaches: its descriptor, its row, and the rows of the queue, as far as the descriptor is known here. -/
def State.appendReaches (s : State) (w : Who) (l : AppendLane) : List (Nat × Nat) :=
  let known : Option (AppendDesc × Nat) := match s.placeBytes w .atomic l.desc 32 with
    | .error _ => none
    | .ok pg =>
      if isRemote pg.loc then l.dsc.map fun n => (appendDesc n, (windowVa (remoteLoc (remoteDev pg.loc) ((appendDesc n).rows.toNat % 2 ^ 47))).toNat)
      else some (appendDesc (s.natAt pg.loc 32), (ownVa (appendDesc (s.natAt pg.loc 32)).rows).toNat)
  ((ownVa l.desc).toNat, 32) :: (match known with
    | some (d, rows) => if d.broken then [] else [((ownVa l.row).toNat, d.rowb), (rows, d.cap * d.rowb)]
    | none => [((ownVa l.row).toNat, 32)])

/-- What earlier events of fibre `fid` on path `coll` carry that meet the bytes `mine`, before operation or run `k`; `none` while some
of them are still to come: nodes of runs, and appends. -/
def State.collEarlier (s : State) (k fid : Nat) (mine : List (Nat × Nat)) : Option (List Nat) :=
  let hit := (s.runs.filter fun y => y.1 < k && y.2.fibre == fid).flatMap fun y =>
    (y.2.nodes.filter fun n => spansMeet (y.2.reaches (gnode (((s.graph y.2.slot).nodes[n.1]?).getD 0))) mine).map fun n => (y.2, n.2)
  let appends := s.ops.any fun p => p.1 < k && (match p.2.body with
    | .append ls => ls.any fun l => l.fibre == fid && spansMeet (s.appendReaches p.2.head.who l) mine
    | _ => false)
  if appends || hit.any fun p => !(p.2.acted || p.2.failed || p.1.aborted || p.1.state == .complete) then none
  else
    let own := (s.fibre fid).coll.know
    let made := s.hist.filter fun w => own.contains w.id && w.bytes.any fun b => mine.any fun m => overlaps b.1 1 m.1 m.2
    some (hit.foldl (fun m p => union m p.2.carry) (made.map fun w => w.id))

/-! ### Reads of a slot instruction on path coll (R323, R324) -/

/-- What such a read gave. -/
inductive CollRead where
  | wait (s : State)
  | miss (m : VMiss) (s : State)
  | got (n : Nat) (src : List WEv) (s : State)
  deriving DecidableEq, Repr

def State.collReader (s : State) (x : Ctx) (a : Nat × Nat) : Reader :=
  { s.engineReader s.uid { s.head x .none with know := (s.fibre a.2).coll.know } a.2 a.1 .coll with rid := farIssue x.c.g }

/-- Read `n` granules from `va` on, here or at another device (R174), after what the fibre does there on path `coll` before. -/
def State.collRead (s : State) (x : Ctx) (a : Nat × Nat) (va : DWord) (n : Nat) : CollRead :=
  match s.piecesOf (x.who s) .load va 32 n with
  | .error m => .miss m s
  | .ok ls => if (s.collEarlier s.uid a.2 [((ownVa va).toNat, 32 * n)]).isNone then .wait s else match s.readRows x.l.part (s.collReader x a) [ls] with
    | .wait s => .wait s
    | .miss m s => .miss m s
    | .rows _ recs _ src s => .got (recs.headD 0) src s

/-- R312: a cause that the read meets is raised as for a load. -/
def State.collMiss (s : State) (x : Ctx) (m : VMiss) : State :=
  s.raise x.c.g { x.trap m.cause .precise x.lanesOf x.lanesOf with addr := m.va }
    (if m.groom then some (.pages [groomPage m.va.toNat]) else none)

/-- A precise cause with an address or INFO. -/
def State.trapAt (s : State) (x : Ctx) (cause : Nat) (va : DWord) : State :=
  s.raise x.c.g { x.trap cause .precise x.lanesOf x.lanesOf with addr := va } none
def State.trapInfo (s : State) (x : Ctx) (cause info : Nat) : State :=
  s.raise x.c.g { x.trap cause .precise x.lanesOf x.lanesOf with info := BitVec.ofNat 32 info } none

/-- What the check of REDK gave: the image's first 128 bytes, a page to wait for, or a failure. -/
inductive RedCheck where
  | ok (image : BitVec 1024)
  | wait (page : Nat)
  | fail
  deriving DecidableEq, Repr

/-- R324: REDK against R24, with CORES and PAIRED 0. -/
def State.redCheck (s : State) (p : Nat) (redk : DWord) (teams : Bool) : RedCheck :=
  if redk = 0 then (if teams then .fail else .ok 0)
  else if !canonical redk || redk.toNat % 64 != 0 then .fail
  else match s.readImage p redk [] with
    | .wait page => .wait page
    | .fail => .fail
    | .ok bs =>
      let l := { Launch.zero with part := p, image := BitVec.ofNat 1024 (leNat (bs.take 128)) }
      if (l.imageReason.or (s.sessionReason l bs)).isSome || l.coresident || l.paired then .fail else .ok l.image

/-- R311: the lowest-numbered free graph slot. -/
def State.freeGraph (s : State) : Option Nat := (List.range Config.graphSlots).find? fun n => (aget? s.graphs n).isNone

/-- R324: CGLOAD with its image read. -/
def State.loadGraph (s : State) (x : Ctx) (f : EngF) (a : Nat × Nat) (hd : Nat) (nodes : List (BitVec 256)) : State :=
  let xs := nodes.map gnode
  if xs.any fun n => n.bad xs.length (bitsN hd 263 9) then s.trapInfo x 0x182 3
  else match s.redCheck x.l.part (BitVec.ofNat 64 (bitsN hd 320 64)) (xs.any fun n => n.op == 5) with
    | .wait page => s.collMiss x ⟨0x043, true, BitVec.ofNat 64 page⟩
    | .fail => s.trapInfo x 0x182 4
    | .ok image => match arcsInfo xs with
      | some n => s.trapInfo x 0x182 n
      | none => match s.freeGraph with
        | none => s.trapPrecise x 0x181 x.lanesOf
        | some k =>
          let g : Graph := { part := x.l.part, header := BitVec.ofNat 512 hd, nodes, redImage := image, issued := 0, done := 0, carry := [] }
          (({ s with graphs := aset s.graphs k g }.dropIssue x.c.g).writeDst x.c.g a.2 f.d [(0, ⟨BitVec.ofNat 32 k, 0⟩)]).advance x

/-- R312, R324: CGLOAD. -/
def execCgload (f : EngF) (s : State) : Host.Outcome State Fault Refusal :=
  onSlot f.g s fun x s =>
    let va := x.pair (x.first s) f.a
    s.projIssue x none fun a =>
      if va.toNat % 64 ≠ 0 then s.trapAt x 0x042 va
      else match s.collRead x a va 2 with
        | .wait s => s
        | .miss m s => s.collMiss x m
        | .got hd src s1 => match headerInfo hd with
          | some n => s.trapInfo x 0x182 n
          | none =>
            let n := bitsN hd 244 12
            match s1.collRead x a (va + 64) n with
            | .wait s => s
            | .miss m s => s.collMiss x m
            | .got body src2 s2 =>
              (s2.receive a.2 .coll false (src ++ src2)).loadGraph x f a hd
                ((List.range n).map fun i => BitVec.ofNat 256 (bitsN body (256 * i) 256))

/-- R323: the slot that an instruction names. -/
def Ctx.graphSlot (x : Ctx) (s : State) (f : EngF) : Nat := (x.read32 (x.first s) f.imm f.a).val

/-- R324: the graph in a slot, where it is the partition's own. -/
def State.graphAt (s : State) (p n : Nat) : Option Graph :=
  match aget? s.graphs n with
  | some g => if n < Config.graphSlots && g.part == p then some g else none
  | none => none

/-- R314: a base table's record address, and its causes in order: the cause and the address. -/
def tableReca (t : Nat) : DWord := tableBuf t 8
def tableCause (t : Nat) : Option (Nat × DWord) :=
  let as := (List.range 9).map (tableBuf t)
  if (tableReca t).toNat % 64 ≠ 0 then some (0x042, tableReca t)
  else match as.find? fun a => !canonical a with
    | some a => some (0x040, a)
    | none => (as.find? fun a => regionOf a.toNat != 0).map fun a => (0x041, a)

/-- The states of a run's nodes before any has acted. -/
def Graph.freshNodes (g : Graph) : List (Nat × NodeState) :=
  g.nodes.zipIdx.map fun n =>
    (n.2, { deps := (gnode n.1).deps, acted := false, failed := false, cause := 0, fx := 0, arrived := [], team := none, carry := [] })

/-- R314, R315 step 1, R324: CGRUN. -/
def execCgrun (f : EngF) (s : State) : Host.Outcome State Fault Refusal :=
  onSlot f.g s fun x s =>
    let slot := x.graphSlot s f
    let va := x.pair (x.first s) f.b
    s.projIssue x none fun a =>
      match s.graphAt x.l.part slot with
      | none => s.trapPrecise x 0x183 x.lanesOf
      | some g =>
        if va.toNat % 64 ≠ 0 then s.trapAt x 0x042 va
        else match s.collRead x a va 4 with
          | .wait s => s
          | .miss m s => s.collMiss x m
          | .got t src s1 => match tableCause t with
            | some (c, b) => s.trapAt x c b
            | none =>
              if bitsN t 576 448 ≠ 0 then s.trapInfo x 0x182 7
              else
                let s := s1.receive a.2 .coll false src
                let n := (g.issued + 1) % 2 ^ 32
                let r : Run :=
                  { slot, collid := g.collid, run := n, launch := (s.team x.sl.team).launch, fibre := a.2, part := x.l.part
                    table := BitVec.ofNat 1024 t, state := .waiting, staging := g.nstage, nodes := g.freshNodes, aborted := false
                    grants := [], startSent := false, revoking := false, know := (s.fibre a.2).coll.know, after := (s.fibre a.2).after
                    seen := (s.fibre a.2).coll.seen, want := [], noPages := [] }
                let rid := runRead s.uid
                let s : State := { s with graphs := aset s.graphs slot { g with issued := n }, runs := aset s.runs s.uid r, uid := s.uid + 1 }
                let s := (s.dropIssue x.c.g).modFibre a.2 fun f => { f with after := union f.after [rid] }
                let s := s.modTeam x.sl.team fun t => { t with published := true }
                (s.writeDst x.c.g a.2 f.d [(0, ⟨BitVec.ofNat 32 n, 0⟩)]).advance x

/-- R320, R324: CGSTAT, an acquire of the header writes of the runs up to DONE. -/
def execCgstat (f : EngF) (s : State) : Host.Outcome State Fault Refusal :=
  onSlot f.g s fun x s =>
    s.projIssue x none fun a =>
      match s.graphAt x.l.part (x.graphSlot s f) with
      | none => s.trapPrecise x 0x183 x.lanesOf
      | some g =>
        let s := s.learn [a.2] .vec (g.carry.foldl (fun m c => union m c.2) [])
        (s.writeDst x.c.g a.2 f.d [(0, ⟨BitVec.ofNat 32 g.done, 0⟩)]).advance x

/-- R324: CGFREE waits until DONE equals ISSUED. -/
def execCgfree (f : EngF) (s : State) : Host.Outcome State Fault Refusal :=
  onSlot f.g s fun x s =>
    let slot := x.graphSlot s f
    s.projIssue x none fun _ =>
      match s.graphAt x.l.part slot with
      | none => s.trapPrecise x 0x183 x.lanesOf
      | some g =>
        if g.done ≠ g.issued then s else { s with graphs := adel s.graphs slot }.advance x

/-! ### Appends (R321, R322) -/

/-- A step of a home on four bytes of a descriptor: a number, timeless, after `preds`, carrying `carry`. -/
def State.descStep (s : State) (core : Nat) (pg : Page) (off n : Nat) (preds carry after : List Nat) : State :=
  let id := s.uid
  let locs := from_ (pg.loc + off) 4
  let chain := (s.lastWrites locs).foldl (fun m w => union m w.carry) []
  s.bump.commit core pg.timeless
    [{ id, bytes := locs.zip ((bytesLE 4 n).map fun b => (b, (0 : Stamp))), preds := union preds (s.writersOf locs)
       carry := id :: union carry chain, after }]

/-- The same as an event of a lane's fibre on path `coll` (R241). -/
def State.appendStep (s : State) (h : OpHead) (l : AppendLane) (pg : Page) (off n : Nat) (preds carry : List Nat) : State :=
  (s.descStep h.core pg off n preds carry l.after).learn [l.fibre] .coll [s.uid]

/-- Lanes of one CAPPEND take the indices of a descriptor in ascending order (R322): a lane waits for the answer of a lower one. -/
def lowerOpen (ls : List AppendLane) (l : AppendLane) : Bool :=
  ls.any fun m => decide (m.lane < l.lane) && m.begun.isNone && (m.remote.isNone || ownVa m.desc == ownVa l.desc)

/-- The append of a lane ends; the operation ends with its last lane (R322). -/
def State.dropLane (s : State) (o : Nat) (h : OpHead) (ls : List AppendLane) (lane : Nat) : State :=
  let ls := ls.filter fun l => l.lane != lane
  if ls = [] then s.endOp o h else s.setOp o ⟨h, .append ls⟩

def State.setLane (s : State) (o : Nat) (h : OpHead) (ls : List AppendLane) (l : AppendLane) : State :=
  s.setOp o ⟨h, .append (ls.map fun m => if m.lane = l.lane then l else m)⟩

/-- A late cause ends a lane (R178). -/
def State.appendLate (s : State) (o : Nat) (h : OpHead) (ls : List AppendLane) (l : AppendLane) (c : Nat) (va : DWord) : State :=
  (s.dropLane o h ls l.lane).raiseLate h (h.trap c .late [l.lane] [] va)

/-- A cause met at a lane's homes: the groom holds the lane, or it ends late. -/
def State.appendMiss (s : State) (o : Nat) (h : OpHead) (ls : List AppendLane) (l : AppendLane) : EMiss → State
  | .hold va => s.setLane o h ls { l with held := [va] }
  | .cause c a => s.appendLate o h ls l c a

/-! ### Appends at another device (log 15) -/

/-- Up to `n` pieces of 32 bytes from the head of a row, as far as they can be read here and pass the egress bound (R147). -/
def State.rowHead (s : State) (h : OpHead) (rd : Reader) (port : Nat) : DWord → Nat → List (List (Byte × Stamp)) × List WEv × State
  | _, 0 => ([], [], s)
  | va, n + 1 => match s.spanLocs h.who .load va 32 with
    | .error _ => ([], [], s)
    | .ok ls =>
      if ls.any fun p => isRemote p.1.loc then ([], [], s)
      else match s.readEngine rd 4 (spanBytes ls) with
        | none => ([], [], s)
        | some (m, src, t) =>
          let g := spanCells m ls
          if !s.egressOk h.part port (olderAll (tstamp (s.part h.part).time) (g.map fun b => b.2)) then ([], [], s)
          else
            let r := t.rowHead h rd port (va + 32) n
            (g :: r.1, src ++ r.2.1, r.2.2)

/-- The append of a lane leaves for its descriptor's home: the descriptor's offset, and the row as far as a flit takes it; first the
writes that are hb its DONE update are acknowledged, and lower lanes of the descriptor are answered. -/
def State.sendAppend (s : State) (o : Nat) (h : OpHead) (ls : List AppendLane) (l : AppendLane) (loc : Nat) : State :=
  let carry := union l.know l.carry
  if s.farHeld (from_ loc 32) carry [0] || lowerOpen ls l then s
  else match s.route h.part (remoteDev loc) with
    | none => s.appendLate o h ls l 0x180 l.desc
    | some (port, _) =>
      let (gs, src, s) := s.rowHead h { s.engineReader o h l.fibre l.lane .coll with know := l.know } port l.row 6
      let hz := tstamp (s.part h.part).time
      match s.request h.part (remoteDev loc) 6 (remoteOff loc) 0 (gs.flatMap fun g => g.map fun b => b.1)
          (gs.map fun g => olderAll hz (g.map fun b => b.2)) (gs.flatMap fun g => g.map fun _ => true) with
      | none => s.appendLate o h ls l 0x180 l.desc
      | some (tag, s) =>
        let s := (s.engineGot o l.fibre l.lane .coll src).noteFar ⟨tag, true, (from_ loc 32).map fun a => (a, 0), carry⟩
        match aget? s.ops o with
        | some ⟨h, .append ls⟩ => s.setLane o h ls { l with remote := some tag, got := 32 * gs.length }
        | _ => s

/-- Ask a descriptor's home to add 1 to DONE, a release: AOP add, TYPE `.n32`, ORD `.rel`. -/
def State.askDone (s : State) (o : Nat) (h : OpHead) (ls : List AppendLane) (l : AppendLane) (loc : Nat) : State :=
  let cells := (from_ (loc + 4) 4).zip (bytesLE 4 1)
  match s.request h.part (remoteDev loc) 4 (remoteOff loc) (atomAux .n32 .rel 0) (granPayload cells (loc / 32)) [0] (granEnables cells (loc / 32)) with
  | none => s.appendLate o h ls l 0x180 l.desc
  | some (tag, s) => s.setLane o h ls { l with remote := some tag, last := true }

/-! ### CAPPEND (R322) -/

/-- The location of a lane's descriptor, where it lies at another device. -/
def State.farDesc (s : State) (w : Who) (desc : DWord) : Option Nat :=
  match s.placeBytes w .atomic desc 32 with
  | .ok pg => if isRemote pg.loc then some pg.loc else none
  | .error _ => none

/-- R322: CAPPEND at issue: each active lane is checked and sent to its descriptor's home; counted in `st`. -/
def execCappend (f : EngF) (s : State) : Host.Outcome State Fault Refusal :=
  onSlot f.g s fun x s =>
    let w := x.who s
    let lane (a : Nat × Nat) : Except LaneMiss AppendLane :=
      let fb := s.fibre a.2
      let desc := x.pair fb f.a
      let row := x.pair fb f.b
      match s.placeBytes w .atomic desc 32 with
      | .error m => .error (m.lane a.1 desc)
      | .ok _ => match s.placeBytes w .load row 1 with
        | .error m => .error (m.lane a.1 row)
        | .ok _ => .ok { lane := a.1, fibre := a.2, desc, row, know := fb.coll.know, carry := union fb.vec.know fb.after, after := fb.after
                         begun := none, held := [], remote := none, dsc := none, got := 0, waits := [], last := false }
    let all := x.act.map lane
    let ls := all.filterMap fun r => match r with | .ok l => some l | .error _ => none
    let ms := all.filterMap fun r => match r with | .ok _ => none | .error m => some m
    let op := s.uid
    let s := if ls = [] then s
      else
        let s := (s.modTeam x.sl.team fun t => { t with published := true }).startOp x .st (.append ls)
        let s := ls.foldl (fun s l => s.modFibre l.fibre fun fb => { fb with after := union fb.after [readId op l.lane] }) s
        ls.foldl (fun s l => match s.farDesc w l.desc, aget? s.ops op, s.collEarlier op l.fibre (s.appendReaches w l) with
          | some loc, some ⟨h, .append now⟩, some m => s.sendAppend op h now { l with know := union l.know m } loc
          | _, _, _ => s) s
    match missCause ms with
    | some (c, va, serve) =>
      let lm := ms.map fun m => m.lane
      s.raise x.c.g { x.trap c .partly lm lm with addr := va } serve
    | none => s.advance x

/-- R322: the DONE update, a release at `.dom`. -/
def State.appendDone (s : State) (h : OpHead) (pg : Page) (l : AppendLane) (d : AppendDesc) (row : List Nat) : State :=
  s.appendStep h l pg 4 ((d.done + 1) % 2 ^ 32) (union l.know (union l.carry row)) (union l.carry row)

/-- The bytes of a lane's row from byte `lo` on are copied to their places. -/
def State.moveRow (s : State) (o : Nat) (h : OpHead) (ls : List AppendLane) (l : AppendLane) (lo n : Nat) (dst : List (ELoc × Nat))
    (go : List (Nat × DWord) → Nat → State → State) : State :=
  match s.spanLocs h.who .load (l.row + BitVec.ofNat 64 lo) n with
  | .error m => s.appendMiss o h ls l m
  | .ok src => match s.farTurn h.part (s.engineReader o h l.fibre l.lane .coll) (spanBytes src) with
    | .wait s => s
    | .miss m s => s.appendMiss o h ls l m
    | .ready =>
      if s.engineHeld h .coll (dst.flatMap fun p => from_ p.1.loc p.2) then s
      else match s.readEngine (s.engineReader o h l.fibre l.lane .coll) 4 (spanBytes src) with
      | none => s
      | some (m, got, s) =>
        let s := s.dropFar (readId o l.lane)
        let id := s.uid
        let (bad, tags, s) := s.engineWrite h l.fibre .coll (cellsOn dst (spanCells m src))
        let s := s.engineGot o l.fibre l.lane .coll got
        match bad with
        | (c, e) :: _ => s.appendLate o h ls l c (BitVec.ofNat 64 e.va)
        | [] => go tags id s

/-- R322: the row write and the DONE update of a lane whose index is `idx`. -/
def State.finishAppend (s : State) (o : Nat) (h : OpHead) (ls : List AppendLane) (l : AppendLane) (pg : Page) (d : AppendDesc) (idx : Nat) : State :=
  let hl := { h with know := l.know, after := l.after }
  if s.heldBack (from_ pg.loc 16) (union l.know l.carry) [0] l.after then s
  else if d.broken then (s.appendDone h pg l d []).appendLate o h ls l 0x185 l.desc
  else if d.cap ≤ idx then
    ((s.appendStep h l pg 12 ((d.drops + 1) % 2 ^ 32) l.know []).appendDone h pg l d []).appendLate o h ls l 0x186 l.desc
  else
    let va := d.rows + BitVec.ofNat 64 (idx * d.rowb)
    if regionOf va.toNat ≠ 0 then s.appendLate o h ls l 0x041 va
    else match s.spanLocs h.who .store va d.rowb with
      | .error m => s.appendMiss o h ls l m
      | .ok dst => s.moveRow o hl ls l 0 d.rowb dst fun _ id s => (s.appendDone h pg l d [id]).dropLane o h ls l.lane

/-- The rest of a row whose descriptor lies at another device, at `loc`: written there, then the update of DONE. -/
def State.farAppend (s : State) (o : Nat) (h : OpHead) (ls : List AppendLane) (l : AppendLane) (loc : Nat) : State :=
  match l.dsc with
  | none => s.sendAppend o h ls l loc
  | some n =>
    let d := appendDesc n
    if d.rowb ≤ l.got then s.askDone o h ls l loc
    else
      let hl := { h with know := l.know, after := l.after }
      let off := (d.rows.toNat + d.tail * d.rowb + l.got) % 2 ^ 47
      let dst := (spans off (d.rowb - l.got)).map fun p =>
        let a := remoteLoc (remoteDev loc) (p.1 % 2 ^ 47)
        (({ loc := a, va := (windowVa a).toNat, timeless := false, swm := false } : ELoc), p.2)
      s.moveRow o hl ls l l.got (d.rowb - l.got) dst fun tags _ s => match aget? s.ops o with
        | some ⟨h, .append ls⟩ => s.setLane o h ls { l with got := d.rowb, waits := tags }
        | _ => s

/-- APPEND_APPLY (R322): the home takes the index of a lane, in ascending lane order, after what the fibre does before on the same bytes
on path `coll` (R241, item 2); then its row is written and DONE updated. At another device, its home does so with what the flits bring. -/
def execAppendApply (o lane : Nat) (s : State) : Host.Outcome State Fault Refusal :=
  match aget? s.ops o with
  | some ⟨h, .append ls⟩ => match ls.find? fun l => l.lane == lane with
    | none => .next s
    | some l =>
      if l.remote.isSome || l.waits ≠ [] || l.held ≠ [] || (l.begun.isNone && lowerOpen ls l) then .next s
      else match s.collEarlier o l.fibre (s.appendReaches h.who l) with
      | none => .next s
      | some m =>
      let l := { l with know := union l.know m }
      match s.farDesc h.who l.desc with
      | some loc => .next (s.farAppend o h ls l loc)
      | none => match s.placeBytes h.who .atomic l.desc 32 with
        | .error m => .next (s.appendMiss o h ls l (m.engine l.desc))
        | .ok pg => match s.homeCause true pg.loc 32 with
          | some c => .next (s.appendLate o h ls l c l.desc)
          | none =>
            let d := appendDesc (s.natAt pg.loc 32)
            match l.begun with
            | none =>
              if s.heldBack (from_ pg.loc 4) l.know [] l.after then .next s
              else
                let s := if pg.swm then s.logLine h.part l.desc.toNat pg.loc else s
                let s := s.appendStep h l pg 0 ((d.tail + 1) % 2 ^ 32) l.know []
                .next (s.setLane o h ls { l with begun := some d.tail })
            | some idx => .next (s.finishAppend o h ls l pg d idx)
  | _ => .next s

end Sys2Proof.Machine
end

