-- ==== Sys2Proof/Machine/Runs.lean ====
section
/-!
DEFINITION. Runs of collective graphs: the start protocol, chunks, the actions of nodes, aborts and completion
(R315 to R320).
-/
namespace Sys2Proof.Machine

/-! ### Runs of this device -/

def State.setRun (s : State) (k : Nat) (r : Run) : State := { s with runs := aset s.runs k r }
def State.modRun (s : State) (k : Nat) (f : Run → Run) : State := { s with runs := aupd s.runs k f }
def Run.node (r : Run) (i : Nat) : NodeState :=
  (aget? r.nodes i).getD { deps := 0, acted := true, failed := false, cause := 0, fx := 0, arrived := [], team := none, carry := [] }
def Run.setNode (r : Run) (i : Nat) (n : NodeState) : Run := { r with nodes := aset r.nodes i n }

/-- The run of this device that a flit names: its COLLID and the run number modulo 2^20. -/
def State.runOf (s : State) (collid : BitVec 32) (run : Nat) : Option (Nat × Run) :=
  s.runs.find? fun r => r.2.collid == collid && r.2.run % 2 ^ 20 == run && r.2.state != .complete

def Run.key (r : Run) : Nat × Nat := (r.collid.toNat, r.run % 2 ^ 20)

/-- R315: staging units that no run holds. -/
def State.stagingFree (s : State) : Nat :=
  Config.stagingUnits - ((s.runs.filter fun r => r.2.state == .granted || r.2.state == .started).map fun r => r.2.staging).sum

/-- The lowest compute die of a partition, beside which a run's staging stands (log 17). -/
def Part.lowCore (p : Part) : Nat := 16 * (((bitList 8 p.dies.toNat).head?).getD 0)

/-- What the parts of an engine's work that serve a node go by: no team, the launch, the partition. -/
def State.runHead (s : State) (r : Run) (know : List Nat) : OpHead :=
  { OpHead.zero with team := s.uid, launch := r.launch, part := r.part, core := (s.part r.part).lowCore, issuedAt := s.clock, know, after := r.after }

/-- R140, R345: the collective engine stands on the yard die, which uses its time as the horizon. -/
def State.runHz (s : State) (r : Run) : Word := tstamp (s.part r.part).time

/-! ### Run control (R315) -/

/-- Send a run-control message (0 GRANT, 1 START, 2 REVOKE, 3 ABORT); to this device itself without the link. -/
def State.tellRun (s : State) (r : Run) (dev what : Nat) : State :=
  if dev = Config.deviceId.toNat then { s with control := s.control ++ [(what, r.key.1, r.key.2, dev)] }
  else match s.request r.part dev 9 (r.collid.toNat * 2 ^ 15) (what + r.key.2 * 2 ^ 12) [] [] [] with
    | some (_, s) => s
    | none => s

/-- Take the first message of a kind for a run. -/
def State.takeMsg (s : State) (what : Nat) (collid : BitVec 32) (run : BitVec 20) (dev : Option Nat) : Option (Nat × State) :=
  let mine (m : Nat × Nat × Nat × Nat) : Bool := m.1 == what && m.2.1 == collid.toNat && m.2.2.1 == run.toNat
    && (match dev with | some d => m.2.2.2 == d | none => true)
  match s.control.find? mine with
  | none => none
  | some m => some (m.2.2.2, { s with control := s.control.erase m })

/-- R311: the previous run of the slot has completed here. -/
def State.runTurn (s : State) (r : Run) : Bool := ((s.graph r.slot).done + 1) % 2 ^ 32 == r.run

/-- Is run `a` before run `b`: the lower COLLID first? -/
def runBefore (a b : Nat × Run) : Bool :=
  decide (a.2.collid.toNat < b.2.collid.toNat) || (a.2.collid == b.2.collid && decide (a.2.run < b.2.run))

/-- R315, steps 2 and 3: the waiting run with the lowest COLLID takes its staging, or what stands in its way is revoked. -/
def execRunTake (s : State) : Host.Outcome State Fault Refusal :=
  let waiting := (s.runs.filter fun r => r.2.state == .waiting && !r.2.aborted && s.runTurn r.2).foldl (fun acc x => insertBy runBefore x acc) []
  match waiting with
  | [] => .next s
  | (k, r) :: _ =>
    if r.staging ≤ s.stagingFree then
      let s := s.setRun k { r with state := .granted }
      .next (s.tellRun r (s.graph r.slot).coord 0)
    else
      let later := s.runs.filter fun x => x.2.state == .granted && !x.2.revoking && decide (r.collid.toNat < x.2.collid.toNat)
      .next (later.foldl (fun s x => (s.modRun x.1 fun y => { y with revoking := true }).tellRun x.2 (s.graph x.2.slot).coord 2) s)

/-- R315, step 4: the coordinator counts a GRANT, and sends START once it holds them all. -/
def execRunGrant (collid : BitVec 32) (run : BitVec 20) (s : State) : Host.Outcome State Fault Refusal :=
  match s.runOf collid run.toNat, s.takeMsg 0 collid run none with
  | some (k, r), some (dev, s) =>
    let r := { r with grants := union r.grants [dev] }
    if r.grants.length = (s.graph r.slot).ndev && !r.startSent then
      .next (r.grants.foldl (fun s d => s.tellRun r d 1) (s.setRun k { r with startSent := true }))
    else .next (s.setRun k r)
  | _, _ => .next s

/-- R315, step 5: a granted run starts. -/
def State.startRun (s : State) (k : Nat) : State :=
  s.modRun k fun r => if r.state = .granted then { r with state := .started, revoking := false } else r

/-- R315, step 5: START arrives; it has no further effect on a run that a chunk has started. -/
def execRunStart (collid : BitVec 32) (run : BitVec 20) (s : State) : Host.Outcome State Fault Refusal :=
  match s.takeMsg 1 collid run none with
  | none => .next s
  | some (_, s) => match s.runOf collid run.toNat with
    | some (k, _) => .next (s.startRun k)
    | none => .next s

/-- R315, step 3: the coordinator takes a REVOKE unless it has sent START, and says so to the device, which frees the units. A REVOKE
that has overtaken the GRANT to which it belongs waits for it (log 39). -/
def execRunRevoke (collid : BitVec 32) (run : BitVec 20) (dev : BitVec 8) (s : State) : Host.Outcome State Fault Refusal :=
  let s0 := s
  match s.runOf collid run.toNat, s.takeMsg 2 collid run (some dev.toNat) with
  | some (k, r), some (d, s) =>
    let coord := (s.graph r.slot).coord
    let own := Config.deviceId.toNat
    let freed (s : State) : State := s.modRun k fun x =>
      if x.state = .granted && x.revoking then { x with state := .waiting, revoking := false } else x
    if coord = own then
      if r.startSent then .next s
      else if !r.grants.contains d then .next s0
      else
        let s := s.modRun k fun x => { x with grants := x.grants.filter fun g => g != d }
        .next (if d = own then freed s else s.tellRun r d 2)
    else if d = coord then .next (freed s)
    else .next s
  | _, _ => .next s

/-! ### Wires (R316, R317) -/

/-- Bytes of a chunk of `n` elements: the elements, then for .mx8 the scales of their blocks (log 16). -/
def wireBytes (t : Ty) (n : Nat) : Nat := n * gsize t + (if t = .mx8 then (n + 31) / 32 else 0)

/-- The codes and stamps of `n` elements of a type in some bytes. -/
def elemsIn (h : Word) (t : Ty) (n : Nat) (bs : List (Byte × Stamp)) : List (Nat × Stamp) :=
  (piecesBy (gsize t) n bs).map fun e => (leNat (e.map fun b => b.1), olderAll h (e.map fun b => b.2))

def elemBytes (t : Ty) (es : List (Nat × Stamp)) : List (Byte × Stamp) :=
  es.flatMap fun e => (bytesLE (gsize t) e.1).map fun b => (b, e.2)

/-- CVT of a code of a float type; integers and bytes as they stand (R316). -/
def wireCvt (dst src : Ty) (rm : RM) (v : Nat) : Nat × Flags := if gFloat src then cvtCode dst src rm v else (v, 0)

/-- What SEND puts on the wire, with the exceptions. -/
def sendWire (h : Word) (x : GNode) (es : List (Nat × Stamp)) : List (Byte × Stamp) × Flags :=
  let rm := rmOf (BitVec.ofNat 3 x.rm)
  if x.wt = .mx8 then
    let blocks := piecesBy 32 ((es.length + 31) / 32) es
    let qs := blocks.map fun b =>
      let vs := (b.map fun e => f32V e.1) ++ List.replicate (32 - b.length) (.zero false)
      (quantMx rm vs, b.length, olderAll h (b.map fun e => e.2))
    (qs.flatMap (fun q => (q.1.2.1.take q.2.1).map fun c => (BitVec.ofNat 8 c, q.2.2)) ++ qs.map (fun q => (BitVec.ofNat 8 q.1.1, q.2.2)),
      qs.foldl (fun m q => m ||| q.1.2.2) 0)
  else
    let outs := es.map fun e => (wireCvt x.wt x.st rm e.1, e.2)
    (elemBytes x.wt (outs.map fun o => (o.1.1, o.2)), outs.foldl (fun m o => m ||| o.1.2) 0)

/-- A wire element: its code, the scale of its block, and its stamp. -/
structure WireElem where
  code : Nat
  scale : Nat
  st : Stamp
  deriving DecidableEq, Repr

/-- The elements of a chunk that has arrived. -/
def wireElems (h : Word) (t : Ty) (n : Nat) (bs : List (Byte × Stamp)) : List WireElem :=
  (elemsIn h t n (bs.take (n * gsize t))).zipIdx.map fun e =>
    ⟨e.1.1, (((bs[n * gsize t + e.2 / 32]?).map fun b => b.1.toNat).getD 0), e.1.2⟩

/-- The exact value of a wire element of a float type (R112). -/
def WireElem.value (t : Ty) (e : WireElem) : FV := if t = .mx8 then mxValue e.scale e.code else decodeF (fmtOf t) e.code

/-- R316, RECV. -/
def recvElem (x : GNode) (e : WireElem) : Nat × Flags :=
  if x.wt = .mx8 && x.dt ≠ .mx8 then cvtV (fmtOf x.dt) (rmOf (BitVec.ofNat 3 x.rm)) (e.value .mx8)
  else if x.wt = .mx8 then (e.code, 0)
  else wireCvt x.dt x.wt (rmOf (BitVec.ofNat 3 x.rm)) e.code

/-- R122 for two values: the lesser or greater, rounded into a format. -/
def minMaxV (f : Fmt) (rm : RM) (isMax : Bool) (a b : FV) : Nat × Flags :=
  let fl := sigFlag [a, b]
  if a.isNaN && b.isNaN then (quietF f a, fl)
  else
    let v := if a.isNaN then b else if b.isNaN then a
      else if isMax then (if ltV true a b then b else a) else (if ltV true b a then b else a)
    let r := cvtV f rm v
    (r.1, r.2 ||| fl)

/-- R316, REDUCE: element `a` of the source, `e` from the wire. -/
def reduceElem (x : GNode) (a : Nat) (e : WireElem) : Nat × Flags :=
  let rm := rmOf (BitVec.ofNat 3 x.rm)
  if gFloat x.st then
    let va := decodeF (fmtOf x.st) a
    let vb := e.value x.wt
    match x.rop with
    | 0 => addV (fmtOf x.dt) rm va vb
    | r => minMaxV (fmtOf x.dt) rm (r == 2) va vb
  else (atomOp x.st x.rop a e.code, 0)

/-! ### Buffers (R313, R318) -/

/-- The pieces of `n` bytes of a node's buffer; the base table's buffers, or the run's staging. -/
def State.bufLocs (s : State) (k : Nat) (r : Run) (acc : Acc) (buf off n : Nat) : Except EMiss (List (ELoc × Nat)) :=
  if buf = 8 then
    let va := 0xFFA0000000000000 + off
    if 65536 * r.staging < off + n then .error (.cause 0x047 (BitVec.ofNat 64 va))
    else mapE (fun (p : Nat × Nat) =>
      let e : ELoc := { loc := stagingLoc k p.1, va := 0xFFA0000000000000 + p.1, timeless := false, swm := false }
      match s.homeCause (acc != .store) e.loc p.2 with
      | some c => .error (.cause c (BitVec.ofNat 64 e.va))
      | none => .ok (e, p.2)) (spans off n)
  else s.spanLocs (s.runHead r []).who acc (tableBuf r.table.toNat buf + BitVec.ofNat 64 off) n

/-- What a node's read gave. -/
inductive NRead where
  | wait
  | miss (m : EMiss)
  | got (bs : List (Byte × Stamp)) (s : State)
  deriving DecidableEq, Repr

/-- The reader of a node: what is hb it (R320). The reads of one run are not ordered among themselves. -/
def State.nodeReader (s : State) (k : Nat) (r : Run) (know : List Nat) : Reader := { rid := runRead k, know, seen := r.seen, issuedAt := s.clock }

/-- V3 of R245: what a run has read bounds what later runs of its fibre may read. -/
def State.laterSeen (s : State) (k fid : Nat) (src : List WEv) : State :=
  { s with runs := s.runs.map fun (x : Nat × Run) =>
      if k < x.1 && x.2.fibre == fid then (x.1, { x.2 with seen := union x.2.seen (src.map fun w => w.id) }) else x }

/-- Read `n` bytes of a buffer, in words of `unit` bytes (R246), as events of the run's fibre on path `coll`. -/
def State.nodeRead (s : State) (k : Nat) (r : Run) (know : List Nat) (buf off n unit : Nat) : NRead :=
  match s.bufLocs k r .load buf off n with
  | .error m => .miss m
  | .ok ls => match s.readEngine (s.nodeReader k r know) unit (spanBytes ls) with
    | none => .wait
    | some (m, src, s) => .got (spanCells m ls)
        (((s.receive r.fibre .coll false src).laterSeen k r.fibre src).settle (runRead k) (union [runRead k] (src.foldl (fun m w => union m w.after) [])))

/-! ### How nodes end (R316, R319, R320) -/

/-- R316: a node has acted: its exceptions, and its successors' counts with what its events carry. -/
def State.nodeDone (s : State) (k i : Nat) (fx : Flags) (know : List Nat) : State :=
  s.modRun k fun r =>
    let x := (s.graph r.slot).node i
    let n := r.node i
    let r := r.setNode i { n with acted := true, fx, carry := union n.carry know }
    x.succ.foldl (fun r j =>
      let m := r.node j
      r.setNode j { m with deps := m.deps - 1, carry := union m.carry (union n.carry know) }) r

/-- Nodes that fail with node `i`: its successors, and for a SEND to this device the node that was to receive it. -/
def Graph.failsWith (g : Graph) (i : Nat) : List Nat :=
  let x := g.node i
  x.succ ++ (if x.op = 0 && x.peer = Config.deviceId.toNat then [x.pair] else [])

/-- Fail some nodes and all that fail with them, with one cause. -/
def failNodes (g : Graph) (c : Nat) : Nat → List Nat → Run → Run
  | 0, _, r => r
  | _, [], r => r
  | fuel + 1, i :: rest, r =>
    let n := r.node i
    if n.acted || n.failed then failNodes g c fuel rest r
    else failNodes g c fuel (rest ++ g.failsWith i) (r.setNode i { n with failed := true, cause := c })

/-- The granules of a chunk on the link: at most 32 bytes of one stamp each, so that every wire element keeps its own
stamp (R317), then an empty one that ends it (log 16). -/
def wireCut (gs : List (List (Byte × Stamp))) (b : Byte × Stamp) : List (List (Byte × Stamp)) :=
  match gs with
  | (c :: g) :: gs => if c.2 = b.2 && (c :: g).length < 32 then (b :: c :: g) :: gs else [b] :: (c :: g) :: gs
  | gs => [b] :: gs
def wireGranules (bs : List (Byte × Stamp)) : List (List (Byte × Stamp)) :=
  ([] :: bs.foldl wireCut []).reverse.map List.reverse

/-- In place of the stamp of the granule that ends a chunk: its WTYPE (log 16). -/
def wireMark (t : Ty) : Stamp := BitVec.ofNat 32 ((tyCode t).toNat + 1)

/-- A chunk flit for node `j` of a run (R308), with the granules from index `lo` on, each with the stamp it bears. -/
def Run.flit (r : Run) (dev j : Nat) (ldom : BitVec 3) (lo : Nat) (gs : List (List Byte × Stamp)) : Flit :=
  { flitTo dev 8 lo 0 ((r.run % 2 ^ 20) * 2 ^ 12 + j) ldom (gs.flatMap fun g => g.1 ++ List.replicate (32 - g.1.length) 0)
      (gs.map fun g => g.2) (gs.flatMap fun g => (g.1.map fun _ => true) ++ List.replicate (32 - g.1.length) false) with
    off := BitVec.ofNat 47 (r.collid.toNat * 2 ^ 15), gixh := BitVec.ofNat 7 (lo / 2 ^ 16) }

/-- A SEND to another device has failed: its receiving node is told the cause (R317, R315: every started run completes); a flit without
granules says so (log 16). -/
def State.refuseChunk (s : State) (r : Run) (x : GNode) (c : Nat) : State :=
  match s.route r.part x.peer with
  | none => s
  | some (port, e) => s.sendOn port (r.flit x.peer x.pair e.ldom c [])

/-- R319: a node meets a cause, and those that fail with it. -/
def State.nodeFail (s : State) (k i c : Nat) (fx : Flags) : State :=
  match aget? s.runs k with
  | none => s
  | some r =>
    let g := s.graph r.slot
    let t := failNodes g c (3 * g.nodes.length + 1) [i] r
    let s := s.setRun k (t.setNode i { t.node i with fx })
    let sends := (List.range g.nodes.length).filter fun j =>
      (t.node j).failed && !(r.node j).failed && (g.node j).op == 0 && (g.node j).peer != Config.deviceId.toNat
    sends.foldl (fun s j => s.refuseChunk r (g.node j) c) s

/-- A cause of a node's address: the groom is asked for a page, or the node fails. -/
def State.nodeMiss (s : State) (k i : Nat) (r : Run) : EMiss → State
  | .hold va => if r.noPages.contains (groomPage va) then s.nodeFail k i 0x1C6 0
      else s.modRun k fun r => { r with want := union r.want [groomPage va] }
  | .cause c _ => s.nodeFail k i c 0

/-- Write some bytes on a node's destination, once what is hb it allows it, and end the node. -/
def State.nodeWrite (s : State) (k i : Nat) (r : Run) (know : List Nat) (dst : List (ELoc × Nat)) (bs : List (Byte × Stamp)) (fx : Flags) : State :=
  let h := s.runHead r know
  if s.engineHeld h .coll (dst.flatMap fun p => from_ p.1.loc p.2) then s
  else
    let id := s.uid
    let (bad, _, s) := s.engineWrite h r.fibre .coll (cellsOn dst bs)
    match bad with
    | (c, _) :: _ => s.nodeFail k i c fx
    | [] => s.nodeDone k i fx (id :: know)

/-- A node whose turn it is, of a kind: its run, its fields, and what is hb it. -/
def State.nodeTurn (s : State) (k i op : Nat) : Option (Run × GNode × List Nat) :=
  match aget? s.runs k with
  | none => none
  | some r =>
    let x := (s.graph r.slot).node i
    let n := r.node i
    if r.state = .started && !r.aborted && n.ready && x.op = op && i < (s.graph r.slot).nodes.length then
      (s.collEarlier k r.fibre (r.reaches x)).map fun m => (r, x, union (union r.know n.carry) m)
    else none

/-! ### Chunks -/

/-- All bytes of a chunk that has arrived, in order. -/
def NodeState.chunk (n : NodeState) : List (Byte × Stamp) := n.arrived.flatMap fun g => g.2

/-- A whole chunk from this device arrives at a node. -/
def State.chunkHere (s : State) (k j : Nat) (wt : Ty) (bs : List (Byte × Stamp)) (know : List Nat) : State :=
  match aget? s.runs k with
  | none => s
  | some r =>
    let y := (s.graph r.slot).node j
    let n := r.node j
    if n.acted || n.failed then s
    else if !(y.op = 1 || y.op = 2) || y.wt ≠ wt || wireBytes y.wt y.n ≠ bs.length then s.nodeFail k j 0x184 0
    else s.setRun k (r.setNode j { n with
      arrived := [(0, bs)], deps := n.deps - 1, carry := union n.carry know })

/-- The flits of a chunk of type `wt` for node `j` of a run (R308), six granules each. -/
def State.sendFlits (s : State) (r : Run) (dev j : Nat) (ldom : BitVec 3) (port : Nat) (wt : Ty) (bs : List (Byte × Stamp)) : State :=
  let grans := (wireGranules bs).map fun g => (g.map fun b => b.1, (g.head?.map fun b => b.2).getD (wireMark wt))
  (piecesBy 6 ((grans.length + 5) / 6) grans).zipIdx.foldl (fun s g => s.sendOn port (r.flit dev j ldom (6 * g.2) g.1)) s

/-- R316, R317: SEND's chunk goes to its node: here, or through a port whose egress bound it must pass. What is hb the SEND may then be
known to other devices (log 73). -/
def State.sendChunk (s : State) (k i : Nat) (r : Run) (x : GNode) (bs : List (Byte × Stamp)) (fx : Flags) (know : List Nat) : State :=
  if x.peer = Config.deviceId.toNat then (s.nodeDone k i fx know).chunkHere k x.pair x.wt bs know
  else if (aget? (s.part r.part).domain x.peer).isNone then s.nodeFail k i 0x049 fx
  else match s.route r.part x.peer with
    | none => s.nodeFail k i 0x180 fx
    | some (port, e) =>
      if bs.all fun b => s.egressOk r.part port b.2 then
        ({ s with farKnow := union s.farKnow know }.sendFlits r x.peer x.pair e.ldom port x.wt bs).nodeDone k i fx know
      else s.nodeFail k i 0x083 fx

/-- R143: the stamp that a port gives to a granule that arrives for data at horizon `h`, and whether it counts as a mismatch. -/
def State.ingressStamp (s : State) (p port : Nat) (h : Word) (carried : Stamp) : Stamp × Bool :=
  let r := mget PortStamp.zero (s.part p).ports port
  let given : Option Stamp := if r.omode = 1 then some r.origin else if r.omode = 2 then some carried else none
  match given with
  | none => (h, false)
  | some st => if ageOf (s.part p).interval h st = .future then (h, true) else (st, false)

/-- The partition for which another device's flit stands (R308, R310). -/
def State.flitPart (s : State) (f : Flit) : Option Nat :=
  (s.parts.find? fun p => match aget? p.2.domain f.src.toNat with
    | some e => e.ldom == f.ldom
    | none => false).map fun p => p.1

def State.countMismatch (s : State) (port : Nat) : State := s.setPort port { s.port port with mismatches := (s.port port).mismatches + 1 }
def State.countDrop (s : State) (port : Nat) : State := s.setPort port { s.port port with drops := (s.port port).drops + 1 }

/-- All of a chunk has arrived: the empty granule that ends it and each one before (log 16). -/
def chunkWhole (arrived : List (Nat × List (Byte × Stamp))) : Bool :=
  match arrived.getLast? with
  | some (e, []) => arrived.length == e + 1
  | _ => false

/-- A granule of a chunk reaches its node; the last one to come takes one from the node's count. What other devices may have learnt from
this one may be hb the SEND (R320, log 73). -/
def State.chunkGran (s : State) (port k j gix : Nat) (bs : List Byte) (carried : Stamp) : State :=
  match aget? s.runs k with
  | none => s
  | some r =>
    let y := (s.graph r.slot).node j
    let n := r.node j
    if n.acted || n.failed || (aget? n.arrived gix).isSome then s
    else if !(y.op = 1 || y.op = 2) || (bs = [] && carried ≠ wireMark y.wt) then s.nodeFail k j 0x184 0
    else
      let (st, bad) := s.ingressStamp r.part port (s.runHz r) carried
      let s := if bad && bs ≠ [] then s.countMismatch port else s
      let arrived := aset n.arrived gix (bs.map fun b => (b, st))
      if !chunkWhole arrived then s.setRun k (r.setNode j { n with arrived })
      else if (arrived.map fun g => g.2.length).sum ≠ wireBytes y.wt y.n then s.nodeFail k j 0x184 0
      else s.setRun k (r.setNode j { n with arrived, deps := n.deps - 1, carry := union n.carry s.farKnow })

/-- The enabled bytes of granule `g` of a flit, from its first on. -/
def granuleOf (f : Flit) (g : Nat) : List Byte :=
  (((f.payload.drop (32 * g)).take 32).zip ((f.enables.drop (32 * g)).take 32)).filterMap fun b => if b.2 then some b.1 else none

/-- R309 (log 18): a flit that arrives acknowledges the flits sent on its port before. -/
def State.ackPort (s : State) (port : Nat) : State := s.setPort port { s.port port with unacked := [] }

/-- R343: a flit whose tag fails under the link key counts as lost. -/
def State.badSeal (s : State) (f : Flit) : Bool := f.gcm != Config.linkTag (s.linkKey f.src.toNat f.ldom) (flitBits f)
def State.countLoss (s : State) (port : Nat) : State := s.setPort port { s.port port with losses := (s.port port).losses + 1 }

/-- R315, R317: a chunk flit arrives: it is dropped for a run that is not granted, starts a granted one, and is delivered. -/
def execChunkReceive (port : Nat) (f : Flit) (s : State) : Host.Outcome State Fault Refusal :=
  if f.kind ≠ 8 || (s.port port).down || f.dst ≠ Config.deviceId then .next s
  else if s.badSeal f then .next (s.countLoss port)
  else
    let s := s.ackPort port
    if 7 ≤ f.ngr.toNat then .next (s.countDrop port)
    else
      let collid : BitVec 32 := BitVec.ofNat 32 (f.off.toNat / 2 ^ 15)
      let j := f.aux.toNat % 2 ^ 12
      match s.flitPart f, s.runOf collid (f.aux.toNat / 2 ^ 12) with
      | some p, some (k, r) =>
        let y := (s.graph r.slot).node j
        if r.part ≠ p || r.state = .waiting || y.peer ≠ f.src.toNat then .next (s.countDrop port)
        else
          let s := s.startRun k
          if f.ngr = 0 then .next (s.nodeFail k j (if f.tag.toNat % 512 = 0 then 0x083 else f.tag.toNat % 512) 0)
          else
            let first := f.gixh.toNat * 2 ^ 16 + f.tag.toNat
            .next ((List.range f.ngr.toNat).foldl (fun s g =>
              s.chunkGran port k j (first + g) (granuleOf f g) ((f.stamps[g]?).getD 0)) s)
      | _, _ => .next (s.countDrop port)

/-! ### Nodes act (R316 to R318) -/

/-- R316: SEND. -/
def execNodeSend (k i : Nat) (s : State) : Host.Outcome State Fault Refusal :=
  match s.nodeTurn k i 0 with
  | none => .next s
  | some (r, x, know) => match s.nodeRead k r know x.sbuf x.soff (x.n * gsize x.st) (if gsize x.st = 8 then 8 else 4) with
    | .wait => .next s
    | .miss m => .next (s.nodeMiss k i r m)
    | .got bs s =>
      let h := s.runHz r
      let w := sendWire h x (elemsIn h x.st x.n bs)
      .next (s.sendChunk k i r x w.1 w.2 know)

/-- R316: RECV. -/
def execNodeRecv (k i : Nat) (s : State) : Host.Outcome State Fault Refusal :=
  match s.nodeTurn k i 1 with
  | none => .next s
  | some (r, x, know) => match s.bufLocs k r .store x.dbuf x.doff (x.n * gsize x.dt) with
    | .error m => .next (s.nodeMiss k i r m)
    | .ok dst =>
      let h := s.runHz r
      let outs := (wireElems h x.wt x.n (r.node i).chunk).map fun e => (recvElem x e, e.st)
      .next (s.nodeWrite k i r know dst (elemBytes x.dt (outs.map fun o => (o.1.1, o.2))) (outs.foldl (fun m o => m ||| o.1.2) 0))

/-- R316: REDUCE. -/
def execNodeReduce (k i : Nat) (s : State) : Host.Outcome State Fault Refusal :=
  match s.nodeTurn k i 2 with
  | none => .next s
  | some (r, x, know) => match s.bufLocs k r .store x.dbuf x.doff (x.n * gsize x.dt) with
    | .error m => .next (s.nodeMiss k i r m)
    | .ok dst => match s.nodeRead k r know x.sbuf x.soff (x.n * gsize x.st) (if gsize x.st = 8 then 8 else 4) with
      | .wait => .next s
      | .miss m => .next (s.nodeMiss k i r m)
      | .got bs s =>
        let h := s.runHz r
        let outs := ((elemsIn h x.st x.n bs).zip (wireElems h x.wt x.n (r.node i).chunk)).map fun p =>
          (reduceElem x p.1.1 p.2, older h p.1.2 p.2.st)
        .next (s.nodeWrite k i r know dst (elemBytes x.dt (outs.map fun o => (o.1.1, o.2))) (outs.foldl (fun m o => m ||| o.1.2) 0))

/-- R316: COPY. -/
def execNodeCopy (k i : Nat) (s : State) : Host.Outcome State Fault Refusal :=
  match s.nodeTurn k i 3 with
  | none => .next s
  | some (r, x, know) => match s.bufLocs k r .store x.dbuf x.doff (x.n * gsize x.dt) with
    | .error m => .next (s.nodeMiss k i r m)
    | .ok dst => match s.nodeRead k r know x.sbuf x.soff (x.n * gsize x.st) (if gsize x.st = 8 then 8 else 4) with
      | .wait => .next s
      | .miss m => .next (s.nodeMiss k i r m)
      | .got bs s =>
        let h := s.runHz r
        let outs := (elemsIn h x.st x.n bs).map fun e => (wireCvt x.dt x.st (rmOf (BitVec.ofNat 3 x.rm)) e.1, e.2)
        .next (s.nodeWrite k i r know dst (elemBytes x.dt (outs.map fun o => (o.1.1, o.2))) (outs.foldl (fun m o => m ||| o.1.2) 0))

/-- An array of records of a node: where they lie, the records, and their stamps. -/
inductive NRecs where
  | wait
  | miss (m : EMiss)
  | recs (locs : List (List (ELoc × Nat))) (vals : List Nat) (sts : List (List Stamp)) (s : State)
  deriving DecidableEq, Repr

/-- Read `rows` records whose stride is that of the first (R223). -/
def State.nodeRecs (s : State) (k : Nat) (r : Run) (know : List Nat) (acc : Acc) (buf off rows : Nat) : NRecs :=
  let va := if buf = 8 then off else (tableBuf r.table.toNat buf).toNat + off
  if va % 64 ≠ 0 then .miss (.cause 0x042 (BitVec.ofNat 64 va))
  else match s.nodeRead k r know buf off 64 4 with
    | .wait => .wait
    | .miss m => .miss m
    | .got hd s =>
      let cap := bitsN (leNat (hd.map fun b => b.1)) 32 8
      if cap = 0 || 64 < cap then .miss (.cause 0x108 (BitVec.ofNat 64 va))
      else
        let n := recSize cap
        match s.bufLocs k r acc buf off (n * rows) with
        | .error m => .miss m
        | .ok ls => match s.nodeRead k r know buf off (n * rows) 4 with
          | .wait => .wait
          | .miss m => .miss m
          | .got bs s =>
            let rows := piecesBy n rows bs
            .recs (piecesBy (n / 32) rows.length ls) (rows.map fun b => leNat (b.map fun c => c.1)) (rows.map fun b => (b.map fun c => c.2).eraseDups) s

/-- R316, R223: MERGE. -/
def execNodeMerge (k i : Nat) (s : State) : Host.Outcome State Fault Refusal :=
  match s.nodeTurn k i 4 with
  | none => .next s
  | some (r, x, know) => match s.nodeRecs k r know .atomic x.dbuf x.doff x.n with
    | .wait => .next s
    | .miss m => .next (s.nodeMiss k i r m)
    | .recs dl ds dst s1 => match s1.nodeRecs k r know .load x.sbuf x.soff x.n with
      | .wait => .next s
      | .miss m => .next (s.nodeMiss k i r m)
      | .recs sl ss sst s2 =>
        let plain (l : List (List (ELoc × Nat))) : List (List ELoc) := l.map fun row => row.map fun p => p.1
        if !vmergeOk ds ss (plain dl) (plain sl) then .next (s.nodeFail k i 0x108 0)
        else
          let h := s2.runHead r know
          let out := (ds.zip ss).map fun p => (VRec.decode p.1).merge (VRec.decode p.2)
          let fx := (ds.zip ss).foldl (fun (m : Flags) p => m ||| (mergeL (VRec.decode p.1) (VRec.decode p.2)).2) 0
          let bs := ((dl.zip out).zip (dst.zip sst)).flatMap fun p =>
            (p.1.1.zip (piecesBy 32 p.1.1.length (bytesLE (32 * p.1.1.length) p.1.2.encode))).flatMap fun c =>
              let st := olderAll (s2.writeHz h c.1.1.loc) (p.2.1 ++ p.2.2)
              c.2.map fun b => (b, st)
          .next (s2.nodeWrite k i r know (dl.flatMap id) bs fx)

/-- R318: cores of a partition, those that hold no team first, each in ascending order. -/
def State.reduceCores (s : State) (p : Nat) : List Nat :=
  let cores := (List.range Config.cores).filter fun c => (s.part p).dies.getLsbD (dieOf c)
  (cores.filter fun c => (s.teamsAt c).isEmpty) ++ cores.filter fun c => !(s.teamsAt c).isEmpty

/-- R318: the scalar registers of a reduce team. -/
def reduceRegs (l : Launch) (r : Run) (x : GNode) (i : Nat) : List (Nat × Reg) :=
  let addr (buf off : Nat) : Nat := if buf = 8 then 0xFFA0000000000000 + off else ((tableBuf r.table.toNat buf).toNat + off) % 2 ^ 64
  let src := addr x.sbuf x.soff
  let dst := addr x.dbuf x.doff
  [src % 2 ^ 32, src / 2 ^ 32, dst % 2 ^ 32, dst / 2 ^ 32, x.n, i, r.run, r.collid.toNat].zipIdx.foldl (fun m v =>
    mset Reg.zero m v.2 ⟨BitVec.ofNat 32 v.1, 0⟩) l.startRegs

/-- R318: TEAM: a reduce team is placed, and the node completes when it has ended. -/
def execNodeTeam (k i : Nat) (s : State) : Host.Outcome State Fault Refusal :=
  match s.nodeTurn k i 5 with
  | none => .next s
  | some (r, x, know) => match (r.node i).team with
    | some t => if (s.team t).state = .ended then .next (s.nodeDone k i 0 know) else .next s
    | none =>
      let l := (s.launch r.launch).reduce r.launch (s.graph r.slot)
      match firstSome (fun c => (s.fits l c).map fun a => (c, a)) (s.reduceCores r.part) with
      | none => .next s
      | some (core, a) =>
        let lid := s.uid
        let s := s.bump.setLaunch lid l
        let tid := s.uid
        let s := s.placeTeam lid core a 0 (reduceRegs l r x i) (some (k, i)) know
        .next (s.setRun k (r.setNode i { r.node i with team := some tid }))

/-- R316: NOP. -/
def execNodeNop (k i : Nat) (s : State) : Host.Outcome State Fault Refusal :=
  match s.nodeTurn k i 6 with
  | none => .next s
  | some (_, _, know) => .next (s.nodeDone k i 0 know)

/-! ### Runs end (R314, R319) -/

/-- The devices that this device knows to take part in a run: those of its grants, its nodes' peers, and the coordinator. -/
def State.runPeers (s : State) (r : Run) : List Nat :=
  let g := s.graph r.slot
  let ps := g.nodes.filterMap fun n => let x := gnode n
                                       if x.op = 0 || x.op = 1 || x.op = 2 then some x.peer else none
  (union (union r.grants ps) [g.coord]).filter fun d => d != Config.deviceId.toNat

/-- R319: the devices to which ABORT goes: every participant. Where this device does not know them all by its graph, every device of the
domain table is told; one that takes no part knows no such run (log 74). -/
def State.abortTo (s : State) (r : Run) : List Nat :=
  let known := s.runPeers r
  if known.length + 1 < (s.graph r.slot).ndev then
    union known (((s.part r.part).domain.map fun d => d.1).filter fun d => d != Config.deviceId.toNat)
  else known

/-- A message for a run that this device has still to register (R315). -/
def State.runToCome (s : State) (collid : BitVec 32) (run : Nat) : Bool :=
  s.graphs.any fun g => g.2.collid == collid && decide (0 < (run + 2 ^ 20 - g.2.issued % 2 ^ 20) % 2 ^ 20)
    && decide ((run + 2 ^ 20 - g.2.issued % 2 ^ 20) % 2 ^ 20 < 2 ^ 19)

/-- R319: a run aborts: when its launch is terminated, or when ABORT has arrived; the other participants are told. -/
def execRunAbort (collid : BitVec 32) (run : BitVec 20) (s : State) : Host.Outcome State Fault Refusal :=
  match s.runOf collid run.toNat with
  | none => match s.takeMsg 3 collid run none with
    | some (_, t) => .next (if s.runToCome collid run.toNat then s else t)
    | none => .next s
  | some (k, r) =>
    let ended := match (s.launch (s.root r.launch)).ending with
      | some (st, _, _) => st != 2
      | none => false
    let msg := s.takeMsg 3 collid run none
    let s := match msg with
      | some (_, s) => s
      | none => s
    if r.aborted || !(ended || msg.isSome) then .next s
    else .next ((s.abortTo r).foldl (fun s d => s.tellRun r d 3) (s.setRun k { r with aborted := true }))

/-- R314: a node's word. -/
def NodeState.word (n : NodeState) : Nat :=
  (if n.acted then 1 else 0) + n.fx.toNat * 2 ^ 6 + (if n.failed then n.cause * 2 ^ 11 else 0)

/-- R314: the header of a run record. -/
def Run.header (r : Run) : Nat :=
  let failed := (r.nodes.map fun n => n.2).filter fun n => n.failed
  let fx := r.nodes.foldl (fun m n => m ||| n.2.fx) (0 : Flags)
  let novf := (r.nodes.filter fun n => n.2.fx &&& OF != 0).length
  let status := if r.aborted then 3 else if failed = [] then 1 else 2
  status + fx.toNat * 2 ^ 8 + ((failed.head?).map fun n => n.cause).getD 0 * 2 ^ 16 + failed.length * 2 ^ 32 + novf * 2 ^ 48 + r.run * 2 ^ 64

/-- A cause met by the run record (R178, R305): a late fault of the launch. -/
def State.runLate (s : State) (r : Run) (c : Nat) (va : DWord) : State :=
  s.recordError r.launch { TrapInfo.zero with cause := c, kind := .late, addr := va } true 0 0 (s.part r.part).lowCore

/-- R319, R320: the run is complete: DONE, its carry, its staging. -/
def State.closeRun (s : State) (k : Nat) (r : Run) (know : List Nat) : State :=
  let s := s.setRun k { r with state := .complete, know }
  let s : State := { s with
    graphs := aupd s.graphs r.slot fun g => { g with done := r.run, carry := aset g.carry r.run know }
    mem := s.mem.filter fun c => !(decide (stagingLoc k 0 ≤ c.1) && decide (c.1 < stagingLoc (k + 1) 0))
    stamps := s.stamps.filter fun c => !(decide (stagingLoc k 0 ≤ 32 * c.1) && decide (32 * c.1 < stagingLoc (k + 1) 0)) }
  (s.settle (runRead k) []).modLaunch (s.root r.launch) fun l => { l with out := union l.out know }

/-- The place of a run's record. -/
def Run.recordAt (r : Run) : Nat × Nat := ((tableReca r.table.toNat).toNat, 64 + 8 * r.nodes.length)

/-- R241, item 2, for run records that share bytes: what earlier runs of the fibre carry; `none` while one is still to be written. -/
def State.earlierRecords (s : State) (k : Nat) (r : Run) : Option (List Nat) :=
  let hit := s.runs.filter fun y => y.1 < k && y.2.fibre == r.fibre
    && overlaps y.2.recordAt.1 y.2.recordAt.2 r.recordAt.1 r.recordAt.2
  if hit.any fun y => y.2.state != .complete then none else some (hit.foldl (fun m y => union m y.2.know) [])

/-- A page that the run record needs: the groom is asked for it, or cause 0x1C6 takes its place. -/
def State.recordMiss (s : State) (k : Nat) (r : Run) (know : List Nat) : EMiss → State
  | .hold va =>
    if r.noPages.contains (groomPage va) then (s.runLate r 0x1C6 (BitVec.ofNat 64 va)).closeRun k r know
    else s.modRun k fun r => { r with want := union r.want [groomPage va] }
  | .cause c a => (s.runLate r c a).closeRun k r know

/-- R314, R319: write the run record: the node words, then the header with release semantics at system scope. -/
def State.writeRun (s : State) (k : Nat) (r : Run) (earlier : List Nat) : State :=
  let know := r.nodes.foldl (fun m n => union m n.2.carry) (union r.know earlier)
  let h := s.runHead r know
  let reca := tableReca r.table.toNat
  let zero (n m : Nat) : List (Byte × Stamp) := (bytesLE m n).map fun b => (b, 0)
  match s.spanLocs h.who .store (reca + 64) (8 * r.nodes.length) with
  | .error m => s.recordMiss k r know m
  | .ok ws => match s.spanLocs h.who .store reca 64 with
    | .error m => s.recordMiss k r know m
    | .ok hd =>
      if s.heldBack ((ws ++ hd).flatMap fun p => from_ p.1.loc p.2) know [0] r.after then s
      else
        let wid := s.uid
        let (bad, _, s) := s.engineWrite h r.fibre .coll (cellsOn ws (r.nodes.flatMap fun n => zero n.2.word 8))
        let s := match bad with
          | [] => s
          | (c, e) :: _ => s.runLate r c (BitVec.ofNat 64 e.va)
        let id := s.uid
        let prior := wid :: know
        let know := id :: prior
        let s := hd.foldl (fun s p => if p.1.swm then s.logLine r.part p.1.va p.1.loc else s) s
        let s := s.bump.commit h.core (hd.any fun p => p.1.timeless)
          [{ id, bytes := (cellsOn hd (zero r.header 64)).flatMap ECell.cells, preds := prior, carry := know, after := r.after }]
        { s with sysKnow := union s.sysKnow know }.closeRun k r know

/-- R319: a run completes when every node has acted or failed, or it is aborted; runs of a slot complete in order (R311). -/
def execRunComplete (k : Nat) (s : State) : Host.Outcome State Fault Refusal :=
  match aget? s.runs k with
  | none => .next s
  | some r =>
    if r.state ≠ .complete && s.runTurn r && (r.aborted || (r.state = .started && r.nodes.all fun n => n.2.acted || n.2.failed)) then
      match s.earlierRecords k r with
      | none => .next s
      | some m => .next (s.writeRun k r m)
    else .next s

end Sys2Proof.Machine
end

