-- ==== Sys2Proof/Machine/System.lean ====
section
/-!
DEFINITION. System instructions: SRD, SWR, TRET, CONT, RESUME, PROG and KCALL at issue (R90, R279, R285, R286, R295 to R298).
-/
namespace Sys2Proof.Machine

/-! ### Special registers (R90, R296) -/

/-- Compute dies of a partition, ascending (R13). -/
def Part.dieList (p : Part) : List Nat := bitList 8 p.dies.toNat

/-- R13: `%shed`. -/
def Part.shedOf (p : Part) (die : Nat) : Nat := (p.dieList.filter fun d => decide (d < die)).length

/-- The value of special register `n` for a fibre. -/
def State.special (s : State) (x : Ctx) (fid n : Nat) : Nat :=
  let fb := s.fibre fid
  let core := coreOf x.c.g
  let pt := s.part x.l.part
  match n with
  | 0 => fb.lane
  | 1 => fb.w * x.l.width + fb.lane
  | 2 => x.l.nweave * x.l.width
  | 3 => fb.w
  | 4 => x.l.nweave
  | 5 => x.l.width
  | 6 => x.sl.role
  | 7 => (s.team x.sl.team).index.toNat
  | 8 => x.l.nteam
  | 9 => pt.shedOf (dieOf core)
  | 10 => pt.dieList.length
  | 11 => x.l.id
  | 12 => core
  | 13 => clusterOf core
  | 14 => x.h.toNat
  | 15 => pt.k
  | 16 => x.sl.fflags.toNat
  | 17 => x.sl.fmask.toNat
  | 18 => x.sl.frame.toNat
  | 19 => x.sl.cont.toNat
  | _ => x.l.seq

/-- The number in IMM. -/
def specialNum (f : CtrlF) : Nat := bitsN f.imm.toNat 0 6

/-- Operations that may still raise flags of the slot (R94, R114, R202): TRD, LDE and float atomics. -/
def State.flagsPending (s : State) (g t : Nat) : Bool :=
  (s.opsOf g t).any fun o => match o.2.body with
    | .tile i .. => (match i with | .trd _ => true | _ => false)
    | .load i .. => (match i with | .lde _ => true | _ => false)
    | .atomic i .. => (match atomOf i with | some (f, _) => tysFloat.contains f.ty | none => false)
    | _ => false

/-- R114, R202: may an SRD or SWR of register `n` issue? -/
def State.specialReady (s : State) (x : Ctx) (n : Nat) : Bool := n != 16 || !s.flagsPending x.c.g x.sl.team

/-- A special register's value as registers, timeless. -/
def specialRegs (n v : Nat) : List (Nat × Reg) :=
  if srdWide n then [(0, ⟨BitVec.ofNat 32 v, 0⟩), (1, ⟨BitVec.ofNat 32 (v / 2 ^ 32), 0⟩)] else [(0, ⟨BitVec.ofNat 32 v, 0⟩)]

/-- R296: SRD. -/
def execSrd (f : CtrlF) (s : State) : Host.Outcome State Fault Refusal :=
  onSlot f.g s fun x s =>
    let n := specialNum f
    if x.act ≠ [] && !s.specialReady x n then s
    else ((x.runLanes f.d).foldl (fun s a => s.writeDst x.c.g a.2 f.d (specialRegs n (s.special x a.2 n))) s).advance x

/-- R296: SWR. -/
def execSwr (f : CtrlF) (s : State) : Host.Outcome State Fault Refusal :=
  onSlot f.g s fun x s =>
    let n := specialNum f
    if x.act = [] then s.advance x
    else
      let v := (x.read (x.first s) (if n = 19 then .b64 else .b32) 0 f.a).val
      match n with
      | 16 => if s.specialReady x n then (s.modSlot x.c.g fun sl => { sl with fflags := BitVec.ofNat 5 v }).advance x else s
      | 17 => (s.modSlot x.c.g fun sl => { sl with fmask := BitVec.ofNat 5 v }).advance x
      | 19 => (s.modSlot x.c.g fun sl => { sl with cont := (sl.cont &&& ~~~(1 : DWord)) ||| BitVec.ofNat 64 (v % 2) }).advance x
      | _ => s.trapPrecise x 0x1C0 x.lanesOf

/-! ### Returns (R279, R286) -/

/-- The PC-independent part of leaving the handler: the mark, and the frame that is current then. -/
def Slot.leaveHandler (sl : Slot) (g : Nat) : Slot :=
  { sl with handler := false, handling := none, frame := if sl.active then frameAddr g + 128 else 0 }

/-- Has every earlier store of the slot completed (R279, R286)? -/
def Slot.storesDone (sl : Slot) : Bool := sl.st == 0

/-- The frame at `off` of a slot as it stands in memory, or the cause of its read. -/
def State.readFrame (s : State) (g off : Nat) : Except Nat FrameRead :=
  let base := Config.framePhys + 256 * g + off
  match s.homeCause true base 128 with
  | some c => .error c
  | none => .ok (frameRead (s.natAt base 128))

/-- R279: TRET. A frame that cannot be read ends the team. -/
def execTret (f : CtrlF) (s : State) : Host.Outcome State Fault Refusal :=
  onSlot f.g s fun x s =>
    let g := x.c.g
    if x.act = [] then s.advance x
    else if !x.sl.handler then s.trapPrecise x 0x1C4 x.lanesOf
    else if !x.sl.storesDone then s
    else match s.readFrame g 0 with
      | .error c => s.killTeam g { x.trap c .precise x.lanesOf x.lanesOf with addr := frameAddr g }
      | .ok fr =>
        let t := x.sl.handling.getD TrapInfo.zero
        s.modSlot g fun sl => (sl.leaveHandler g).resumeAt fr t t.kind

/-- Is the slot in its continuation, and not in its handler? -/
def Slot.inCont (sl : Slot) : Bool := sl.active && !sl.handler

/-- R286: CONT. -/
def execCont (f : CtrlF) (s : State) : Host.Outcome State Fault Refusal :=
  onSlot f.g s fun x s =>
    if x.act = [] then s.advance x
    else if !x.sl.inCont then s.trapPrecise x 0x1C4 x.lanesOf
    else (x.act.foldl (fun s a => s.writePred a.2 f.d x.sl.ready) s).advance x

/-- R286: may RESUME issue: is READY 1, and has every earlier store completed? -/
def Slot.resumeReady (sl : Slot) : Bool := sl.ready && sl.storesDone

/-- R286: RESUME. A service that failed is delivered now, in place of the replay (R284, log 19). -/
def execResume (f : CtrlF) (s : State) : Host.Outcome State Fault Refusal :=
  onSlot f.g s fun x s =>
    let g := x.c.g
    if x.act = [] then s.advance x
    else if !x.sl.inCont then s.trapPrecise x 0x1C4 x.lanesOf
    else if !x.sl.resumeReady then s
    else match s.readFrame g 128 with
      | .error c => s.killTeam g { x.trap c .precise x.lanesOf x.lanesOf with addr := frameAddr g + 128 }
      | .ok fr =>
        let t := (x.sl.contPark.map fun p => p.trap).getD TrapInfo.zero
        let s := s.modSlot g fun sl => { sl with cont := sl.cont &&& 1, frame := 0, contPark := none }
        if t.cause = 0x1C6 || t.cause = 0x085 || t.cause = 0x086 then s.deliver g t
        else s.modSlot g fun sl => sl.resumeAt fr t .parked

/-! ### PROG and KCALL (R297, R298) -/

/-- R297: PROG. Of several writes in one clock that of the highest slot number in the highest quarter remains. -/
def execProg (f : CtrlF) (s : State) : Host.Outcome State Fault Refusal :=
  onSlot f.g s fun x s =>
    if x.act = [] then s.advance x
    else
      let v := (x.read32 (x.first s) f.imm f.a).val % 256
      (s.modTeam x.sl.team fun t =>
        if t.progAt = s.clock + 1 && decide (x.c.g % 256 < t.progBy % 256) then t
        else { t with prog := v, progAt := s.clock + 1, progBy := x.c.g }).advance x

/-- R298: is a 64 KiB piece in the owner's pages: present, or the groom's to bring? -/
def State.ownedPage (s : State) (p va : Nat) : Bool :=
  match s.pageEntry p va with
  | some (_, _, e) => bitsN e 0 1 == 1 || bitsN e 1 1 == 1
  | none => false

/-- The 64 KiB pieces of a range. -/
def piecesOfRange (base len : Nat) : List Nat := (List.range (len / 65536)).map fun k => base + 65536 * k

/-- R298: may the range be served? -/
def State.rangeOk (s : State) (p : Nat) (base : DWord) (len : Nat) : Bool :=
  canonical base && base.toNat % 65536 == 0 && len % 65536 == 0 && regionOf base.toNat == 0
    && decide (base.toNat + len ≤ 2 ^ 55) && (piecesOfRange base.toNat len).all fun v => s.ownedPage p v

/-- R298: KCALL at issue: the slot parks, at the next PC, until the groom ends service `svc`. -/
def State.kcall (s : State) (x : Ctx) (f : CtrlF) (svc : Nat) : State :=
  if x.act = [] then s.advance x
  else
    let base := x.pair (x.first s) f.a
    let len := (x.read32 (x.first s) 0 f.b).val
    if 2 < svc || !s.rangeOk x.l.part base len then s.trapInfo x 0x1C1 svc
    else
      let op := s.uid
      let s := s.modTeam x.sl.team fun t => { t with published := true }
      ((s.startOp x .none (.kcall svc base len f.d 0)).advance x).modSlot x.c.g fun sl => { sl with wait := .kcall op }

/-- R298: KCALL page-in. -/
def execKcallPageIn (f : CtrlF) (s : State) : Host.Outcome State Fault Refusal :=
  onSlot f.g s fun x s => s.kcall x f 0

/-- R298: KCALL page-out. -/
def execKcallPageOut (f : CtrlF) (s : State) : Host.Outcome State Fault Refusal :=
  onSlot f.g s fun x s => s.kcall x f 1

/-- R298: KCALL query, and any unknown service. -/
def execKcallQuery (f : CtrlF) (s : State) : Host.Outcome State Fault Refusal :=
  onSlot f.g s fun x s => s.kcall x f (bitsN f.imm.toNat 0 8)

end Sys2Proof.Machine
end

