-- ==== Sys2Proof/Machine/Issue.lean ====
section
/-!
DEFINITION. Fetch and issue: what a slot's next issue meets in its code line (R39 to R44, R58 to R60), when an instruction may
issue (R61, R64, R94, R189, R235), which slots a quarter chooses (R64, R65), and the start and end of an issue.
-/
namespace Sys2Proof.Machine

/-! ### Fetch and decode -/

/-- What a slot's next issue meets: a cause that was waiting for it, a cause of its own, or an instruction. -/
inductive Fetched where
  | late (n : Nat) (t : TrapInfo) (serve : Option Serve)
  | trap (t : TrapInfo) (serve : Option Serve)
  | instr (i : Instr) (count : Nat) (word : BitVec 96) (pair : Bool)
  deriving DecidableEq, Repr

/-- Columns of a slot's fibres. -/
def Slot.cols (sl : Slot) : List Nat := sl.lanes.map fun x => x.1

/-- R43: the cause of a resumption point. -/
def State.resumeCause (s : State) (g : Nat) (sl : Slot) (l : Launch) (pc : DWord) : Option Nat :=
  let line := l.lineOf pc
  if line < 0 || (l.codelines : Int) ≤ line then some 0x00B
  else if bitsN pc.toNat 3 3 != 0 || 5 ≤ slotOf pc then some 0x00A
  else (s.slotTest g sl pc (l.pcAt line 0) (slotOf pc) false).bind fun c => if c.cause = 0x00A then some 0x00A else none

/-- R42, R43: the cause of what brought the slot to its PC. A line that cannot be read is left to the fetch. -/
def State.arrivalCause (s : State) (g : Nat) (l : Launch) (sl : Slot) : Option Nat :=
  match sl.arrive with
  | .entry => (s.targetCause g sl l true (l.lineOf sl.pc) (slotOf sl.pc)).bind fun c =>
      if c.cause = 0x00A || c.cause = 0x00B then some c.cause else none
  | .resumption => s.resumeCause g sl l sl.pc
  | .target => none
  | .flow => if l.lineOf sl.pc < 0 || (l.codelines : Int) ≤ l.lineOf sl.pc then some 0x00C else none

/-- R60: a cause of fetch or decode: precise, for every fibre of the slot; where the issue is a replay, the same replay comes after it
(R279, log 31). -/
def Slot.fetchTrap (sl : Slot) (cause count : Nat) (word : BitVec 96) (addr : DWord) : TrapInfo :=
  let t := { TrapInfo.zero with cause, lmask := sl.cols, rmask := sl.cols, addr, pc := sl.pc, next := nextPc sl.pc count, word }
  match sl.replay with
  | none => t
  | some r =>
    { t with
      rmask := sl.cols.filter r.lanes.contains, next := r.next, bounds := r.bounds
      again := match r.rstep, r.thenPc with
        | some k, some pc => some (k, pc)
        | _, _ => none }

/-- The address of the line of a PC. -/
def linePc (pc : DWord) : DWord := pc &&& ~~~(63 : DWord)

/-- R39: slot `k` of the 64 bytes of a line. -/
def lineSlot (bs : List Byte) (k : Nat) : BitVec 96 := BitVec.ofNat 96 (leNat ((bs.drop (4 + 12 * k)).take 12))

/-- R42, R60: COUNT of the slot's line and the slot's word as fetched; 0 where no line was read (log 31). -/
def State.lineAt (s : State) (g : Nat) (sl : Slot) : Nat × BitVec 96 :=
  match s.fetchLine g sl (linePc sl.pc) with
  | .bytes bs _ => (lineCount (leNat (bs.take 4)), if slotOf sl.pc < 5 then lineSlot bs (slotOf sl.pc) else 0)
  | _ => (0, 0)

/-- R43, R60: the frame of an arrival that fails. For causes 0x00B and 0x00C no line is read. -/
def Slot.arrivalTrap (sl : Slot) (cause : Nat) (line : Nat × BitVec 96) : TrapInfo :=
  let line := if cause = 0x00A then line else (0, 0)
  let t := sl.fetchTrap cause line.1 line.2 (if cause = 0x00C then 0 else sl.pc)
  match sl.arrive with
  | .resumption => { t with kind := .after, rmask := [], next := sl.pc }
  | _ => t

/-- R40, R44: causes 0x007 and 0x00D of slot `k`. -/
def slotCause (w k : Nat) (word : BitVec 96) : Option Nat :=
  if xor (parity word.toNat 96) (lineSpar w k) then some 0x007
  else if k < 4 && linePair w k && lineCount w ≤ k + 1 then some 0x00D
  else none

/-- R40, R44, R59: what the bytes of a line give for a slot. -/
def Slot.readLine (sl : Slot) (v allot : Nat) (bs : List Byte) : Fetched :=
  let w := leNat (bs.take 4)
  let k := slotOf sl.pc
  let word := lineSlot bs k
  match lineCause w with
  | some c => .trap (sl.fetchTrap c (lineCount w) word 0) none
  | none =>
    if lineCount w ≤ k then .trap (sl.fetchTrap 0x00A (lineCount w) word sl.pc) none
    else match slotCause w k word with
      | some c => .trap (sl.fetchTrap c (lineCount w) word 0) none
      | none => match decode v allot word with
        | .error c => .trap (sl.fetchTrap c (lineCount w) word 0) none
        | .ok i => .instr i (lineCount w) word (k < 4 && linePair w k)

/-- The fetch of slot `sl` (R40, R42, R43, R60); `none` while its line may not be read yet. -/
def State.fetch (s : State) (g : Nat) (sl : Slot) : Option Fetched :=
  let l := s.launch (s.team sl.team).launch
  match s.arrivalCause g l sl with
  | some c => some (.trap (sl.arrivalTrap c (s.lineAt g sl)) none)
  | none => match s.fetchLine g sl (linePc sl.pc) with
    | .miss m => some (.trap (sl.fetchTrap m.cause 0 0 (linePc sl.pc)) (if m.groom then some (.pages [m.page]) else none))
    | .later => none
    | .bytes bs _ => some (sl.readLine l.encv (l.allot sl.role) bs)

/-- The writes that a fetch returned (R239). -/
def State.fetchSrc (s : State) (g : Nat) (sl : Slot) : List WEv :=
  match s.fetchLine g sl (linePc sl.pc) with
  | .bytes _ src => src
  | _ => []

/-! ### Pipes (R61) -/

def opcOf (w : BitVec 96) : Nat := w.toNat / 2 ^ 86

/-- Used operands of an instruction. -/
def usedSpecs (i : Instr) : List (Adm × Spec) :=
  match formOf 3 i with
  | none => []
  | some (o, fm) => [(fm.d, o.d), (fm.a, o.a), (fm.b, o.b), (fm.c, o.c)].filterMap fun p => p.1.map fun a => (a, p.2)

def Spec.isScalar : Spec → Bool
  | .scl _ | .imm | .zero => true
  | _ => false

/-- R61: the pipe of an instruction. FDIV to FCOS stand in two rows of the table; with scalar, immediate or zero operands alone they
go to the branch pipe (log 71). -/
def pipeOf (w : BitVec 96) (i : Instr) : Pipe :=
  let o := opcOf w
  if o < 0x040 || (0x2E3 ≤ o && o ≤ 0x2E5) || o == 0x306 || o == 0x307 || o == 0x1C6 || 0x360 ≤ o then .branch
  else if 0x080 ≤ o && o ≤ 0x1DF && (usedSpecs i).all fun p => Spec.isScalar p.2 then .branch
  else if 0x108 ≤ o && o ≤ 0x10F then .special
  else if o < 0x200 then .vector
  else if o < 0x280 || (0x300 ≤ o && o ≤ 0x305) then .memory
  else .engine

/-! ### Hazards (R94) -/

/-- Consecutive registers: scalar or vector, the first and how many. -/
structure Span where
  scalar : Bool
  lo : Nat
  n : Nat
  deriving DecidableEq, Repr

def Span.meets (a b : Span) : Bool := a.scalar == b.scalar && overlaps a.lo a.n b.lo b.n

def spanOf (n : Nat) : Spec → Option Span
  | .vec k => some ⟨false, k.toNat, n⟩
  | .scl k => some ⟨true, k.toNat, n⟩
  | _ => none

/-- Register runs that the operand forms do not show: the A run and the parameter block of MMA, and the blocks of the
projection instructions (R195, R214). -/
def runSpans : Instr → List Span
  | .mma f => [spanOf 256 f.a, spanOf 4 f.b].filterMap id
  | .vproj f | .vprojb f => [spanOf 16 f.b].filterMap id
  | _ => []

def spansOf (i : Instr) : List Span := ((usedSpecs i).filterMap fun p => spanOf p.1.regs p.2) ++ runSpans i

def destSpan (i : Instr) : Option Span :=
  match formOf 3 i with
  | some (o, { d := some a, .. }) => spanOf a.regs o.d
  | _ => none

/-- Registers that an operation in flight still writes, with the fibres concerned. -/
def Op.result (o : Op) : Option (Span × List Nat) :=
  let into (i : Instr) (fids : List Nat) : Option (Span × List Nat) := (destSpan i).map fun d => (d, fids)
  match o.body with
  | .load i rs _ => into i (rs.map fun r => r.fibre)
  | .atomic i ls _ => into i (ls.map fun l => l.fibre)
  | .time i _ => into i (o.head.lanes.map fun a => a.2)
  | .tile (.trd f) .. => into (.trd f) (o.head.lanes.map fun a => a.2)
  | _ => none

/-- R94: a register that the instruction reads or writes is still to be written by an operation in flight. -/
def State.hazard (s : State) (g : Nat) (sl : Slot) (i : Instr) : Bool :=
  let mine := spansOf i
  s.ops.any fun o => match o.2.result with
    | none => false
    | some (d, fids) => mine.any d.meets
        && (if d.scalar then o.2.head.g == g && o.2.head.team == sl.team else fids.any sl.fids.contains)

/-- Instructions with an event on path `vec` other than their fetch, which comes after an acquire in flight: VPROJ and VPROJB read
hidden rows there (R220). -/
def afterAcquire (w : BitVec 96) (p : Pipe) : Bool :=
  p == .memory || opcOf w == 0x306 || opcOf w == 0x307 || opcOf w == 0x008 || opcOf w == 0x2C0 || opcOf w == 0x2C1

/-- R235: the counter of an instruction. -/
def ctrOf : Instr → Ctr
  | .ld _ | .lde _ | .ldg _ | .ldt _ | .lds _ | .atom _ | .atomf _ | .cas _ => .ld
  | .st _ | .sct _ | .sts _ | .cctlWb _ | .cctlInv _ | .cctlLu _ | .wlog _ | .red _ | .cappend _ => .st
  | .xcopy _ | .xcopyPush _ | .xcopyPop _ | .xfill _ | .xconv _ => .cp
  | .mma _ | .tzero _ | .tldm _ | .trd _ | .twr _ | .tscl _ | .vproj _ | .vprojb _ | .vmerge _ | .vrset _ => .tl
  | _ => .none

def Slot.counter (sl : Slot) : Ctr → Nat
  | .none => 0 | .ld => sl.ld | .st => sl.st | .cp => sl.cp | .tl => sl.tl

/-! ### Conditions of single instructions -/

/-- An LDS or STS on a chute that can serve it, or one that touches none (R170). -/
def State.chuteOk (s : State) (x : Ctx) (f : MemF) (push : Bool) : Bool :=
  match chuteOf f.ty ((teamPlaces x s f (if push then .store else .load)).map fun p => p.2.2.2) with
  | some (.ok c) => chuteReady push ((s.team x.sl.team).chuteAt (coreOf x.c.g) c) (x.runLanes f.d).length
  | _ => true

/-- An engine takes an instruction exactly when its meaning moves the slot on. -/
def takesIt (s : State) (x : Ctx) (r : Host.Outcome State Fault Refusal) : Bool :=
  match r with
  | .next t => aget? t.slots x.c.g != aget? s.slots x.c.g
  | _ => true

/-- An instruction that has yet to ask other devices for what it reads at issue: its issue asks, and it stays (R174, log 15). -/
def asksOnly (s : State) (x : Ctx) (r : Host.Outcome State Fault Refusal) : Bool :=
  match r with
  | .next t => aget? t.slots x.c.g == aget? s.slots x.c.g && t.far != s.far
  | _ => false

/-- The meaning of an instruction that reads memory at issue, with all that it reads there in a domain window (R174). -/
def readsAtIssue : Instr → Option (State → Host.Outcome State Fault Refusal)
  | .vmerge f => some (execVmerge f)
  | .cgload f => some (execCgload f)
  | .cgrun f => some (execCgrun f)
  | _ => none

/-- Does the issue of an instruction now only ask other devices? -/
def State.onlyAsks (s : State) (x : Ctx) (i : Instr) : Bool :=
  let t : State := { s with cur := some x.c }
  match readsAtIssue i with
  | some go => asksOnly t x (go t)
  | none => false

/-- R61, R64, R189, R227, R235, R236, R254, R256, R260, R279: what the instruction itself waits for. -/
def State.conditionOk (s : State) (x : Ctx) (i : Instr) : Bool :=
  let t : State := { s with cur := some x.c }
  match i with
  | .bra f | .jmp f | .call f | .fspawn f => !s.targetLater x.c.g x.sl x.l (x.nearTarget f.imm).1
  | .brx f | .callx f | .ret f => !((x.farTargets s f).any fun t => s.targetLater x.c.g x.sl x.l t.2.2.1)
  | .wait f => x.sl.waitOk f.imm
  | .waitseq f =>
    let n : Word := BitVec.ofNat 32 (x.read32 (x.first s) f.imm f.a).val
    seqDiff (s.team x.sl.team).issued n < 0 || 0 ≤ seqDiff (s.team x.sl.team).done n
  | .fence f => s.fenceReady x f
  | .xfence f => s.xfenceReady x f.mask
  | .lds f => s.chuteOk x f false
  | .sts f => s.chuteOk x f true
  | .phaseArrive _ => !s.arriveWaits x
  | .phaseWait f => match s.phaseWait x f with
    | .waits k => (aget? s.trees k).isNone
    | _ => true
  | .srd f => s.specialReady x (specialNum f)
  | .swr f => s.specialReady x (specialNum f)
  | .tret _ => !x.sl.handler || x.sl.storesDone
  | .resume _ => !x.sl.inCont || x.sl.resumeReady
  | .mma f => takesIt t x (execMma f t)
  | .tzero f => takesIt t x (execTzero f t)
  | .tldm f => takesIt t x (execTldm f t)
  | .trd f => takesIt t x (execTrd f t)
  | .twr f => takesIt t x (execTwr f t)
  | .tscl f => takesIt t x (execTscl f t)
  | .vproj f => takesIt t x (execVproj f t)
  | .vprojb f => takesIt t x (execVprojb f t)
  | .vmerge f => takesIt t x (execVmerge f t) || s.onlyAsks x i
  | .vrset f => takesIt t x (execVrset f t)
  | .xcopy f => takesIt t x (execXcopy f t)
  | .xcopyPush f => takesIt t x (execXcopyPush f t)
  | .xcopyPop f => takesIt t x (execXcopyPop f t)
  | .xfill f => takesIt t x (execXfill f t)
  | .xconv f => takesIt t x (execXconv f t)
  | .cgload f => takesIt t x (execCgload f t) || s.onlyAsks x i
  | .cgrun f => takesIt t x (execCgrun f t) || s.onlyAsks x i
  | .cgfree f => takesIt t x (execCgfree f t)
  | _ => true

/-- R189: an instruction that names a tile waits for the earlier ones on its run, whatever its guard. -/
def State.tileWaits (s : State) (x : Ctx) (i : Instr) : Bool :=
  match i with
  | .mma _ | .tzero _ | .tldm _ | .trd _ | .twr _ | .tscl _ => !s.tileReady x i
  | .vprojb f => s.projTileBusy x f
  | _ => false

/-- The guard of an instruction. -/
def guardOf (i : Instr) : Guard :=
  match formOf 3 i with
  | some (o, _) => o.g
  | none => ⟨false, 15⟩

/-- The issue of a slot: its active part and where it goes on (R279). -/
def Slot.issueCtx (sl : Slot) (g count : Nat) (word : BitVec 96) (peers : List Nat) : IssueCtx :=
  { g, count, word, part := (sl.replay.map fun r => r.lanes).getD sl.cols, rstep := sl.replay.bind fun r => r.rstep
    thenPc := sl.replay.bind fun r => r.thenPc, bounds := (sl.replay.map fun r => r.bounds).getD [], peers }

/-- The registers that an instruction reads: its sources, the data of a store, the expected value of CAS and the kept half of PACK's
destination (R251, R136), and the runs and blocks that it names. Both sources of
SEL count, whichever it chooses (log 71). -/
def readSpans (i : Instr) : List Span :=
  let data : Bool := match i with
    | .st _ | .sct _ | .sts _ | .cas _ => true
    | .pack f => f.ty == .e4m3 || f.ty == .e5m2
    | _ => false
  match formOf 3 i with
  | none => []
  | some (o, fm) =>
    (([(fm.a, o.a), (fm.b, o.b), (fm.c, o.c)] ++ (if data then [(fm.d, o.d)] else [])).filterMap fun p =>
      p.1.bind fun a => spanOf a.regs p.2) ++ runSpans i

/-- The lanes in which an instruction executes: with a scalar destination the lowest active one alone (R88); VRED reads every active lane
(R86). -/
def Ctx.execLanes (x : Ctx) (i : Instr) : List (Nat × Nat) :=
  match i, formOf 3 i with
  | .vred _, _ => x.act
  | _, some (o, { d := some _, .. }) => x.runLanes o.d
  | _, _ => x.act

/-- The fibre whose vector registers a lane reads: its own, but for SHFL (R85). -/
def State.readsFrom (s : State) (x : Ctx) (i : Instr) (a : Nat × Nat) : Fibre :=
  let fb := s.fibre a.2
  match i with
  | .shfl f => match shflLane f.sub.toNat x.l.width fb.lane (x.read fb .n32 f.imm f.b).val with
    | some j => match x.sl.lanes.find? fun y => y.1 == j with
      | some y => s.fibre y.2
      | none => fb
    | none => fb
  | _ => fb

/-- The vector registers that an instruction reads in other lanes than those in which it executes: SHFL's A (R85) and MMA's A run with
its exponents (R195). -/
def Ctx.farSpans (x : Ctx) (i : Instr) : List Span :=
  match i, formOf 3 i with
  | .shfl _, some (o, { a := some a, .. }) => (spanOf a.regs o.a).toList
  | .mma f, _ => (spanOf ((16 + mmaExpo f.ty) * (mmaParam fun k => (x.sl.reg (specNum f.b + k)).val).ksteps) f.a).toList
  | _, _ => []

/-- The other registers that it reads. -/
def Ctx.ownSpans (x : Ctx) (i : Instr) : List Span :=
  match i with
  | .mma _ => (readSpans i).filter fun a => a.scalar
  | _ => (readSpans i).filter fun a => !(x.farSpans i).contains a

/-- R106, R294: the lanes that read a register with an uncorrectable error. MMA reads A in every column, whatever the guards. -/
def State.badRegs (s : State) (x : Ctx) (i : Instr) : List Nat :=
  let far := x.farSpans i
  let own := x.ownSpans i
  let hit (l : List Span) (scalar : Bool) (ue : List Nat) : Bool := ue.any fun n => l.any fun a => a.meets ⟨scalar, n, 1⟩
  let mine := ((x.execLanes i).filter fun a =>
    hit own false (s.fibre a.2).ue || hit (own ++ far) true x.sl.sue || hit far false (s.readsFrom x i a).ue).map fun a => a.1
  match i, x.act with
  | .mma _, _ :: _ => union mine ((x.sl.lanes.filter fun a => hit far false (s.fibre a.2).ue).map fun a => a.1)
  | _, _ => mine

/-! ### Eligible slots (R64, step 1) -/

/-- The first cause that waits for the slot's next issue. In a handler, late causes wait for the return (R278). -/
def Slot.dueLate (sl : Slot) : Option (Nat × TrapInfo × Option Serve) :=
  firstSome (fun (c : (TrapInfo × Option Serve) × Nat) =>
    if sl.handler && c.1.2.isNone && (c.1.1.kind == .late || c.1.1.kind == .engine) then none else some (c.2, c.1.1, c.1.2)) sl.late.zipIdx

/-- What slot `g` would do if it issued now, and in which pipe; `none` where it is not eligible. The issue that a replay makes belongs
to the return or the service before it (R273, R279), so a cause that waits for the slot's next issue comes after it (log 23). -/
def State.turn (s : State) (g : Nat) (sl : Slot) : Option (Fetched × Pipe) :=
  if sl.lanes.isEmpty || !(s.team sl.team).state.issues || sl.wait != .none then none
  else match (if sl.replay.isNone then sl.dueLate else none) with
    | some (n, t, serve) => some (.late n t serve, .branch)
    | none => match s.fetch g sl with
      | none => none
      | some (.instr i count word pair) =>
        let x := s.ctx (sl.issueCtx g count word []) sl (guardOf i)
        let p := pipeOf word i
        if s.hazard g sl i || (afterAcquire word p && s.acquiring g sl) || s.tileWaits x i then none
        else match s.badRegs x i with
          | b :: bs => some (.trap (x.trap 0x1C2 .precise (b :: bs) x.lanesOf) none, .branch)
          | [] => if 63 ≤ sl.counter (ctrOf i) || !(x.act.isEmpty || s.conditionOk x i) then none else some (.instr i count word pair, p)
      | some f => some (f, .branch)

/-- An eligible slot. -/
structure Turn where
  g : Nat
  sl : Slot
  what : Fetched
  pipe : Pipe
  prio : Nat
  deriving DecidableEq, Repr

def State.turns (s : State) (core q : Nat) : List Turn :=
  (s.slots.filter fun x => qkeyOf x.1 == 4 * core + q).filterMap fun x => (s.turn x.1 x.2).map fun t =>
    { g := x.1, sl := x.2, what := t.1, pipe := t.2, prio := s.prioOf (s.launch (s.team x.2.team).launch) }

/-! ### The choice of a quarter (R64) -/

/-- R64, step 2: eligible for 1,024 clocks without issuing. -/
def Turn.starved (a : Turn) (clock : Nat) : Bool := a.sl.eligSince.any fun c => decide (c + 1024 ≤ clock)

/-- R64, steps 2 and 3: does `a` come before `b`? -/
def Turn.before (clock : Nat) (a b : Turn) : Bool :=
  let byLast := decide (a.sl.lastIssue < b.sl.lastIssue) || (a.sl.lastIssue == b.sl.lastIssue && decide (a.g < b.g))
  match a.starved clock, b.starved clock with
  | true, false => true
  | false, true => false
  | true, true =>
    let ca := a.sl.eligSince.getD clock
    let cb := b.sl.eligSince.getD clock
    decide (ca < cb) || (ca == cb && byLast)
  | false, false => decide (b.prio < a.prio) || (a.prio == b.prio && byLast)

def bestTurn (clock : Nat) (ts : List Turn) : Option Turn :=
  ts.foldl (fun (best : Option Turn) t => match best with
    | none => some t
    | some b => if t.before clock b then some t else best) none

/-- A slot becomes or ceases to be eligible. -/
def State.noteEligible (s : State) (core q : Nat) (ts : List Turn) : State :=
  { s with slots := s.slots.map fun (x : Nat × Slot) =>
      if qkeyOf x.1 == 4 * core + q then
        (x.1, { x.2 with eligSince := if ts.any fun t => t.g == x.1 then some (x.2.eligSince.getD s.clock) else none })
      else x }

/-- May an instruction raise exceptions into `%fflags`, or write it (R114, R202, R296)? -/
def writesFlags (word : BitVec 96) (i : Instr) : Bool :=
  match i with
  | .swr f => specialNum f == 16
  | .vred f | .vscan f => tysFloat.contains f.ty
  | .lde _ | .trd _ => true
  | _ => decide (0x100 ≤ opcOf word) && decide (opcOf word ≤ 0x1BF)

/-- Predicates that an instruction reads: its guard, its sources, and all of them for PMOV `.get`. -/
def readsPred (i : Instr) (p : BitVec 4) : Bool :=
  match i with
  | .pmovGet _ => true
  | _ => match formOf 3 i with
    | some (u, _) => u.g.p == p || [u.a, u.b, u.c].any fun x => x == .pred p
    | none => false

/-- Predicates that an instruction writes: its destination, and p0 to p14 for PMOV `.put`. -/
def writesPreds (i : Instr) : List (BitVec 4) :=
  match i with
  | .pmovPut _ => (List.range 15).map (BitVec.ofNat 4)
  | _ => match formOf 3 i with
    | some (o, _) => match o.d with
      | .pred p => [p]
      | _ => []
    | none => []

/-- The special register that an SRD or SWR names. -/
def srdOf : Instr → Option Nat
  | .srd f => some (specialNum f)
  | _ => none
def swrOf : Instr → Option Nat
  | .swr f => some (specialNum f)
  | _ => none

/-- Does an instruction read `%fmask`: by SRD, or because it may raise exceptions (R115, R202)? -/
def readsMask (word : BitVec 96) (i : Instr) : Bool := srdOf i == some 17 || (writesFlags word i && swrOf i == none)

/-- R44: does slot `b` of a line, with word `wb`, read a register, predicate, flag or flag mask that slot `a` writes? Tiles are written
and read in one pipe. -/
def dependsOn (wa : BitVec 96) (a : Instr) (wb : BitVec 96) (b : Instr) : Bool :=
  ((destSpan a).any fun d => (spansOf b).any d.meets)
    || ((writesPreds a).any fun p => readsPred b p)
    || (writesFlags wa a && srdOf b == some 16)
    || (swrOf a == some 17 && readsMask wb b)

/-- R44, R64, step 4: a slot that has issued in this clock stands at the second slot of a pair that may issue together. -/
def State.pairOk (s : State) (qt : Quarter) (t : Turn) : Bool :=
  if t.sl.arrive == .flow && 1 ≤ slotOf t.sl.pc && qt.issued.any fun p => p.1 == t.g && p.2 + 1 == t.sl.pc then
    match s.fetch t.g { t.sl with pc := t.sl.pc - 1 }, t.what with
    | some (.instr a _ wa true), .instr b _ wb _ => !dependsOn wa a wb b
    | _, _ => false
  else false

/-- R64: the choice that a quarter makes next in this clock: the second one is the pair of the first, or a slot that has not issued
yet. -/
def State.chooseTurn (s : State) (qt : Quarter) (ts : List Turn) : Option Turn :=
  match qt.issued with
  | [] => bestTurn s.clock ts
  | p :: _ =>
    let open_ := ts.filter fun t => !qt.taken.contains t.pipe
    match open_.find? fun t => t.g == p.1 && s.pairOk qt t with
    | some t => some t
    | none => bestTurn s.clock (open_.filter fun t => !(qt.issued.any fun p => p.1 == t.g))

/-- R64, step 6: the eligible weaves that join an issue, up to 64 occupied lane columns in all; one that does not fit is passed over
(log 71). -/
def packed (t : Turn) : Nat → List Turn → List Nat
  | _, [] => []
  | room, u :: us =>
    if u.g == t.g then u.g :: packed t room us
    else if u.sl.team == t.sl.team && u.sl.pc == t.sl.pc && u.pipe == t.pipe && u.what == t.what && u.sl.cols.length ≤ room then
      u.g :: packed t (room - u.sl.cols.length) us
    else packed t room us

/-- The slots that issue together with a choice, in ascending order (R64, step 6; R65). A slot that has issued in this clock joins
only with the second slot of its own pair. -/
def State.joining (s : State) (qt : Quarter) (t : Turn) (ts : List Turn) : List Nat :=
  let ts := ts.filter fun u => u.g == t.g || !(qt.issued.any fun p => p.1 == u.g) || (s.pairOk qt t && s.pairOk qt u)
  let narrow := (s.launch (s.team t.sl.team).launch).width < 64
  let isInstr := match t.what with
    | .instr .. => true
    | _ => false
  if narrow && isInstr && (t.pipe == .vector || t.pipe == .special) then packed t (64 - t.sl.cols.length) ts else [t.g]

/-- R64: a quarter's next choice: the slots that issue, and the state that has noted it. At most two choices in a clock. -/
def State.quarterChoice (s : State) (core q : Nat) : List Nat × List Nat × State :=
  let ts := s.turns core q
  let s := s.noteEligible core q ts
  let key := 4 * core + q
  let qt := s.quarterAt key
  if 2 ≤ qt.taken.length then ([], [], s)
  else match s.chooseTurn qt ts with
    | none => ([], [], s)
    | some t =>
      let gs := s.joining qt t ts
      let at_ (g : Nat) : Nat × DWord := (g, (s.slot g).pc)
      (gs, ts.map fun u => u.g,
        s.setQuarter key { qt with taken := t.pipe :: qt.taken, issued := qt.issued ++ at_ t.g :: (gs.filter fun g => g != t.g).map at_ })

/-! ### An issue -/

/-- What an issue starts with: a trap taken instead, or an instruction and the state in which its meaning runs. -/
inductive Start where
  | done (s : State)
  | run (i : Instr) (s : State)
  deriving DecidableEq, Repr

/-- R64, R78: slot `g` has issued: its history, and the YIELDs that wait for it. -/
def State.strike (s : State) (g : Nat) : State :=
  { s with slots := s.slots.map fun (x : Nat × Slot) =>
      if x.1 = g then (x.1, { x.2 with lastIssue := s.clock, eligSince := none })
      else match x.2.wait with
        | .yield others till => (x.1, { x.2 with wait := .yield (others.filter fun o => o != g) till })
        | _ => x }

/-- R239: the fibres of a slot receive what its fetch has read. -/
def State.noteFetch (s : State) (g : Nat) (sl : Slot) : State :=
  let src := s.fetchSrc g sl
  if src = [] then s else sl.fids.foldl (fun s f => s.receive f .vec false src) s

/-- The fibres that take part in the slot's next issue (R279). -/
def Slot.partFids (sl : Slot) : List Nat := match sl.replay with
  | none => sl.fids
  | some r => (sl.lanes.filter fun a => r.lanes.contains a.1).map fun a => a.2

/-- R149, R239: what the issue of an instruction changes beside its own effect: re-fire counts, which only the replay of a re-fired load
keeps, and what its fetch has read. An issue that leaves the slot at its instruction keeps its
replay. -/
def State.noteIssue (s : State) (g : Nat) (sl : Slot) (keep : Bool) : State :=
  let s := s.noteFetch g sl
  let s := if sl.replay.all fun r => r.bounds = [] then sl.partFids.foldl (fun s f => s.modFibre f fun fb => { fb with refires := 0 }) s else s
  let s := s.modLaunch (s.team sl.team).launch fun l => { l with ran := true }
  (s.strike g).modSlot g fun x => { x with replay := if keep then x.replay else none }

/-- Does a PHASE.wait only take its tree (R260), or an instruction only ask other devices? -/
def State.onlyTakes (s : State) (x : Ctx) : Instr → Bool
  | .phaseWait f => x.act ≠ [] && (match s.phaseWait x f with
    | .waits _ => true
    | _ => false)
  | i => s.onlyAsks x i

/-- Start the issue of slot `g`; `peers` are the slots that were eligible with it (R78). -/
def State.startIssue (s : State) (g : Nat) (peers : List Nat) : Start :=
  match aget? s.slots g with
  | none => .done s
  | some sl => match s.turn g sl with
    | none => .done s
    | some (.late n t serve, _) => .done (((s.strike g).modSlot g fun x => { x with late := x.late.eraseIdx n }).raise g t serve)
    | some (.trap t serve, _) => .done (((s.noteFetch g sl).strike g).raise g t serve)
    | some (.instr i count word _, _) =>
      let c := sl.issueCtx g count word (peers.filter fun p => p != g)
      let x := s.ctx c sl (guardOf i)
      .run i { s.noteIssue g sl (s.onlyTakes x i) with cur := some c }

/-- The end of an issue. -/
def State.endIssue (s : State) : State := { s with cur := none }

end Sys2Proof.Machine
end

