-- ==== Sys2Proof/Machine/Groom.lean ====
section
/-!
DEFINITION. The groom: page-in and page-out (R284, R336), the end of a service asked for by KCALL (R298), and re-fires
(R148 to R150).
-/
namespace Sys2Proof.Machine

/-! ### Physical pages and images -/

/-- Entries of a table at `level` (R161). -/
def tableEntries (level : Nat) : Nat := if level = 4 then 2 ^ 15 else if level = 3 then 2 ^ 10 else if level = 2 then 2 ^ 9 else 2 ^ 5

/-- The valid entries below a table: address, level and bits (R161). -/
def State.entriesBelow (s : State) : Nat → Nat → List (Nat × Nat × Nat)
  | 0, _ => []
  | level + 1, table =>
    let here := s.ptes.filter fun p => decide (table ≤ p.1) && decide (p.1 < table + 16 * tableEntries (level + 1))
    here.flatMap fun p =>
      let e := p.2.toNat
      if bitsN e 0 1 = 0 then []
      else if bitsN e 3 1 = 1 then [(p.1, level + 1, e)]
      else (p.1, level + 1, e) :: s.entriesBelow level (bitsN e 8 40 * 4096)

def State.entriesOf (s : State) (p : Nat) : List (Nat × Nat × Nat) := if (s.part p).root then s.entriesBelow 4 (Config.rootPhys p) else []

/-- Physical ranges that an entry uses: its page and exponent frame, or the next table. -/
def entryRanges (x : Nat × Nat × Nat) : List (Nat × Nat) :=
  let (_, level, e) := x
  let addr := bitsN e 8 40 * 4096
  if bitsN e 3 1 = 1 then
    let fmt := bitsN e 56 4
    (addr, pageSize level) :: (if isBlockFmt fmt then [(bitsN e 88 40 * 4096, 2 * (pageSize level / fmtBlock fmt))] else [])
  else [(addr, 16 * tableEntries (level - 1))]

/-- R284, R344: a free physical page of a tier, of `size` bytes, among the partition's own pieces. -/
def State.freePage (s : State) (p tier size : Nat) : Option Nat :=
  let used := (s.entriesOf p).flatMap entryRanges
  firstSome (fun (g : Grant) =>
    if g.part = p ∧ g.kind = tier then
      let lo := (g.lo + size - 1) / size * size
      ((List.range ((g.lo + g.len - lo) / size)).map fun k => lo + k * size).find? fun a => !(used.any fun u => overlaps a size u.1 u.2)
    else none) s.grants

/-- R284: a page image is written to a physical page, data and stamps together; the tail words have been observed before (R27). -/
def State.fillPage (s : State) (base : Nat) (img : Image) : State :=
  let size := img.bytes.length
  let s := s.observeTails.forget fun a => decide (base ≤ a) && decide (a < base + size)
  { s with mem := memFill s.mem base img.bytes
           stamps := ((from_ (base / 32) (size / 32)).zip img.stamps).foldl (fun m x => aset m x.1 x.2) s.stamps }

/-- The memory key of a partition: which key of the random source it is (R337). -/
def State.keySerial (s : State) (p : Nat) : Nat := ((aget? s.module.keys (s.part p).key).map fun k => k.serial).getD 0

/-- The image of 64 KiB at a physical address (R336). -/
def State.imageAt (s : State) (p base : Nat) : Image :=
  { key := s.keySerial p, bytes := memRun s.mem base 65536, stamps := (from_ (base / 32) 2048).map (stampRead s.stamps) }

/-- R344: the exponent frame that an entry names at `level` lies wholly in pieces granted to the partition. -/
def State.ownsFrame (s : State) (p level e : Nat) : Bool := ((entryRanges (0, level, e)).drop 1).all fun r => s.owns p r.1 r.2

/-- R336: the bytes of an image: data, then stamps. -/
def Image.raw (i : Image) : List Byte := i.bytes ++ i.stamps.flatMap fun x => bytesLE 4 x.toNat

/-- Where an image lies: drive, namespace and LBA. -/
def imageKey (drive nspace lba : Nat) : Nat := (lba * 8 + drive) * 4 + nspace

/-- R336: an image takes 144 blocks of 512 bytes: what it is written across is lost, and its digest will differ. -/
def State.storeImage (s : State) (drive nspace lba : Nat) (img : Image) : State :=
  { s with storage := aset (s.storage.filter fun x =>
      !(x.1 % 32 == imageKey drive nspace 0 && decide (x.1 / 32 < lba + 144) && decide (lba < x.1 / 32 + 144))) (imageKey drive nspace lba) img }

/-! ### Page-in -/

/-- What bringing a page gave: it is present, over the virtual range from `lo`; nothing can be done yet; the service fails. -/
inductive Brought where
  | here (lo size : Nat) (count : Nat) (s : State)
  | later
  | fails
  deriving DecidableEq, Repr

/-- R336: what an image says to partition `p`: under another key than its own, undefined values. -/
def State.decrypted (s : State) (p at_ : Nat) (i : Image) : Image :=
  if i.key = s.keySerial p then i
  else { i with bytes := (List.range i.bytes.length).map (Config.foreignByte (at_ + i.key))
                stamps := (List.range i.stamps.length).map (Config.foreignStamp (at_ + i.key)) }

/-- The image that the backing map names for a 64 KiB virtual page, if its digest agrees (R336). -/
def State.backedImage (s : State) (p va : Nat) : Option (Backing × Image) :=
  match aget? (s.part p).backing va with
  | none => none
  | some b => match aget? s.storage (imageKey b.drive b.nspace b.lba) with
    | none => none
    | some i =>
      let img := s.decrypted p (imageKey b.drive b.nspace b.lba) i
      if Config.sha512 img.raw = b.digest then some (b, img) else none

/-- R284: bring the page of a virtual address. A page larger than 64 KiB is brought whole. An entry whose exponent frame another partition
may own by now is not installed (R344, log 55). -/
def State.bringPage (s : State) (p va : Nat) (storageOk : Bool) : Brought :=
  match s.pageEntry p va with
  | none => .fails
  | some (at_, level, e) =>
    let size := pageSize level
    let lo := va / size * size
    if level = 4 then .fails
    else if bitsN e 0 1 = 1 then .here lo size 0 s
    else if !storageOk then .fails
    else match allSome (fun k => s.backedImage p (lo + 65536 * k)) (List.range (size / 65536)) with
      | none => .fails
      | some [] => .fails
      | some ((b, img) :: rest) =>
        match s.freePage p (bitsN b.entry.toNat 60 2) size with
        | none => .later
        | some base =>
          if !s.ownsFrame p level b.entry.toNat then .fails
          else
          let s := ((b, img) :: rest).zipIdx.foldl (fun s x => s.fillPage (base + 65536 * x.2) x.1.2) s
          let rec0 := b.entry.toNat
          let entry := rec0 - bitsN rec0 8 40 * 2 ^ 8 - bitsN rec0 0 1 + base / 4096 * 2 ^ 8 + 1
          .here lo size 1 { s with ptes := aset s.ptes at_ (BitVec.ofNat 128 entry) }

/-! ### Those that wait for a page -/

def Serve.awaits (v : Nat → Bool) : Serve → Bool
  | .pages vas => vas.any v
  | _ => false

def Slot.parked? (sl : Slot) : Option Parked :=
  match sl.wait with
  | .park p => some p
  | _ => none

def Slot.awaits (v : Nat → Bool) (sl : Slot) : Bool :=
  (sl.parked?.any fun p => p.serve.awaits v) || (sl.contPark.any fun p => p.serve.awaits v)

/-- R273, R284: a parked slot is ready: it issues the faulting instruction again for the lanes that raised it. -/
def Slot.replayNow (sl : Slot) (t : TrapInfo) : Slot :=
  { sl with wait := .none }.resumeAt ⟨true, laneMask t.rmask, 0⟩ t .parked

/-- R285: the fault behind a continuation has been served. -/
def Slot.contServed (sl : Slot) (t : TrapInfo) : Slot := { sl with contPark := some ⟨t, .ready⟩, cont := sl.cont ||| contReady }

/-- Pages `v` have become present for a slot. -/
def Slot.pageServed (v : Nat → Bool) (sl : Slot) : Slot :=
  let left (vas : List Nat) : List Nat := vas.filter fun a => !v a
  let sl := match sl.wait with
    | .park ⟨t, .pages vas⟩ =>
      if !vas.any v then sl else if left vas = [] then sl.replayNow t else { sl with wait := .park ⟨t, .pages (left vas)⟩ }
    | _ => sl
  match sl.contPark with
  | some ⟨t, .pages vas⟩ =>
    if !vas.any v then sl else if left vas = [] then sl.contServed t else { sl with contPark := some ⟨t, .pages (left vas)⟩ }
  | _ => sl

/-- The partition of a team. -/
def State.partOfTeam (s : State) (t : Nat) : Nat := (s.launch (s.team t).launch).part

/-- Slots of a partition, placed and saved, changed by `f`. -/
def State.mapSlots (s : State) (p : Nat) (f : Slot → Slot) : State :=
  { s with
    slots := s.slots.map fun (x : Nat × Slot) => if s.partOfTeam x.2.team == p then (x.1, f x.2) else x
    teams := s.teams.map fun (x : Nat × Team) =>
      if (s.launch x.2.launch).part == p then (x.1, { x.2 with savedSlots := x.2.savedSlots.map fun y => (y.1, f y.2) }) else x }

/-- Addresses whose pages an operation is held for. -/
def OpBody.held : OpBody → List Nat
  | .tile _ _ _ _ _ _ held _ => held
  | .proj _ _ _ _ _ held => held
  | .copy _ _ _ d => d.held
  | .append ls => ls.flatMap fun l => l.held
  | _ => []

/-- The operation no longer held for the pages `v`. -/
def OpBody.unheld (v : Nat → Bool) : OpBody → OpBody
  | .tile i t f l o st held r => .tile i t f l o st (held.filter fun a => !v (groomPage a)) r
  | .proj i f l d c held => .proj i f l d c (held.filter fun a => !v (groomPage a))
  | .copy i f l d => .copy i f l { d with held := d.held.filter fun a => !v (groomPage a) }
  | .append ls => .append (ls.map fun l => { l with held := l.held.filter fun a => !v (groomPage a) })
  | b => b

/-- Does anything of partition `p` wait for page `va`? -/
def State.pageWanted (s : State) (p va : Nat) : Bool :=
  let v (a : Nat) : Bool := a == va
  (s.slots.any fun x => s.partOfTeam x.2.team == p && x.2.awaits v)
    || (s.teams.any fun x => (s.launch x.2.launch).part == p && x.2.savedSlots.any fun y => y.2.awaits v)
    || (s.ops.any fun o => o.2.head.part == p && o.2.body.held.any fun a => v (groomPage a))
    || (s.launches.any fun l => l.2.part == p && l.2.want.contains va)
    || (s.runs.any fun r => r.2.part == p && r.2.want.contains va)
    || s.asked.contains (p, va)

/-- R284, step 4: everything that waits for pages `v` of partition `p` goes on. -/
def State.pagesServed (s : State) (p : Nat) (v : Nat → Bool) : State :=
  let s := s.mapSlots p (Slot.pageServed v)
  { s with
    asked := s.asked.filter fun a => !(a.1 == p && v a.2)
    ops := s.ops.map fun (o : Nat × Op) => if o.2.head.part == p then (o.1, { o.2 with body := o.2.body.unheld v }) else o
    launches := s.launches.map fun (l : Nat × Launch) => if l.2.part == p then (l.1, { l.2 with want := l.2.want.filter fun a => !v a }) else l
    runs := s.runs.map fun (r : Nat × Run) => if r.2.part == p then (r.1, { r.2 with want := r.2.want.filter fun a => !v a }) else r }

/-! ### A service that fails (R284) -/

/-- The served fault with another cause in place of its own; a load that is then issued again reads its bound afresh (R149). -/
def TrapInfo.becomes (t : TrapInfo) (c : Nat) : TrapInfo := { t with cause := c, bounds := [] }

/-- A slot's served fault ends with cause `c`: in a saved team it is kept for the restore; behind a continuation it waits for
RESUME (log 19). -/
def Slot.failsSaved (v : Serve → Bool) (c : Nat) (sl : Slot) : Slot :=
  match sl.wait with
  | .park ⟨t, sv⟩ => if v sv then { sl with wait := .none, late := (t.becomes c, none) :: sl.late } else sl
  | _ => sl

def Slot.failsCont (v : Serve → Bool) (c : Nat) (sl : Slot) : Slot :=
  match sl.contPark with
  | some ⟨t, sv⟩ => if v sv then sl.contServed (t.becomes c) else sl
  | none => sl

/-- A parked slot of a placed team: its fault is delivered with cause `c` (R273, paths 2 to 4). -/
def State.failSlot (s : State) (g : Nat) (v : Serve → Bool) (c : Nat) : State :=
  let s := s.modSlot g (Slot.failsCont v c)
  match (s.slot g).wait with
  | .park ⟨t, sv⟩ => if v sv then (s.modSlot g fun x => { x with wait := .none }).deliver g (t.becomes c) else s
  | _ => s

/-- An operation held for page `va` ends with cause 0x1C6, at the address that it is held for, as R204 and R284 list. -/
def State.failOp (s : State) (o : Nat) (x : Op) (va : Nat) : State :=
  let wants (a : Nat) : Bool := groomPage a == va
  match x.body.held.find? wants with
  | none => s
  | some at_ =>
    let a : DWord := BitVec.ofNat 64 at_
    match x.body with
    | .tile _ _ _ lane _ st _ _ => s.engineFault o x.head lane st 0x1C6 a
    | .proj i fid lane d c _ => s.projFault o x.head i fid lane d c 0x1C6 a
    | .copy i fid lane d => s.setOp o ⟨x.head, .copy i fid lane { d with held := [], failed := some (0x1C6, a) }⟩
    | .append ls => (ls.filter fun l => l.held.any wants).foldl (fun s l => match aget? s.ops o with
        | some ⟨h, .append ls⟩ => s.appendLate o h ls l 0x1C6 (((l.held.find? wants).map (BitVec.ofNat 64)).getD a)
        | _ => s) s
    | _ => s

/-- R284: the service of page `va` of partition `p` ends with cause 0x1C6. -/
def State.pageFails (s : State) (p va : Nat) : State :=
  let sv : Serve → Bool := Serve.awaits fun a => a == va
  let s := s.slots.foldl (fun s x => if s.partOfTeam x.2.team == p then s.failSlot x.1 sv 0x1C6 else s) s
  let s := { s with teams := s.teams.map fun (x : Nat × Team) =>
    if (s.launch x.2.launch).part == p then
      (x.1, { x.2 with savedSlots := x.2.savedSlots.map fun (y : Nat × Slot) => (y.1, (y.2.failsSaved sv 0x1C6).failsCont sv 0x1C6) })
    else x }
  let s := s.ops.foldl (fun (s : State) (o : Nat × Op) => if o.2.head.part == p then s.failOp o.1 o.2 va else s) s
  let no (w : List Nat) : List Nat := w.filter fun a => a != va
  { s with
    asked := s.asked.filter fun a => a != (p, va)
    denied := if s.asked.contains (p, va) then (p, va) :: s.denied else s.denied
    launches := s.launches.map fun (l : Nat × Launch) =>
      if l.2.part == p && l.2.want.contains va then (l.1, { l.2 with want := no l.2.want, noPages := va :: l.2.noPages }) else l
    runs := s.runs.map fun (r : Nat × Run) =>
      if r.2.part == p && r.2.want.contains va then (r.1, { r.2 with want := no r.2.want, noPages := va :: r.2.noPages }) else r }

/-- R284: the groom reads the page at `va` of a partition for those that wait for it. -/
def execGroomPageIn (p : Nat) (va : BitVec 64) (storageOk : Bool) (s : State) : Host.Outcome State Fault Refusal :=
  let v := va.toNat / 65536 * 65536
  if !s.pageWanted p v then .next s
  else match s.bringPage p v storageOk with
    | .later => .next s
    | .fails => .next (s.pageFails p v)
    | .here lo size _ s => .next (s.pagesServed p fun a => decide (lo ≤ a) && decide (a < lo + size))

/-! ### Page-out -/

/-- Does an operation in flight still use a physical range? -/
def State.rangeBusy (s : State) (base size : Nat) : Bool :=
  let hit (a : Nat) : Bool := decide (base ≤ a) && decide (a < base + size)
  s.ops.any fun o => match o.2.body with
    | .load _ rs _ => rs.any fun r => (r.units ++ r.expo.toList).any fun u => u.locs.any hit
    | .store ws => ws.any fun w => w.bytes.any fun b => hit b.1
    | .atomic _ ls _ => ls.any fun l => hit l.loc
    | .proj _ _ _ d _ _ => (d.dst ++ d.src).any (fun r => r.any fun e => hit e.loc) || d.tgt.any fun e => hit e.loc
    | .cctl lines _ _ => lines.any fun l => hit (l * 128)
    | _ => false

/-- A place on storage for the image of a page: that of its backing record, or a fresh one. -/
def State.imagePlace (s : State) (p va : Nat) : Nat × Nat × Nat :=
  match aget? (s.part p).backing va with
  | some b => (b.drive, b.nspace, b.lba)
  | none => (0, 0, 2 ^ 64 + (p * 2 ^ 56 + va) / 65536 * 144)

/-- R284: write out the page of a virtual address: its images and backing records, then its entry with VALID 0 and GROOM 1.
`none` while an access in flight still uses it, and where no page is present. -/
def State.pageOut (s : State) (p va : Nat) : Option State :=
  match s.pageEntry p va with
  | none => none
  | some (at_, level, e) =>
    let size := pageSize level
    let lo := va / size * size
    let base := bitsN e 8 40 * 4096
    if level = 4 || bitsN e 0 1 = 0 || inFrames va || s.rangeBusy base size then none
    else
      let s := s.observeTails
      let step (s : State) (k : Nat) : State :=
        let img := s.imageAt p (base + 65536 * k)
        let (drive, nspace, lba) := s.imagePlace p (lo + 65536 * k)
        let rec0 : Backing := { drive, nspace, lba, digest := Config.sha512 img.raw, entry := BitVec.ofNat 128 e }
        (s.modPart p fun x => { x with backing := aset x.backing (lo + 65536 * k) rec0 }).storeImage drive nspace lba img
      let s := (List.range (size / 65536)).foldl step s
      some { s with ptes := aset s.ptes at_ 2 }

/-- R284: the groom writes a page out on its own account. -/
def execGroomPageOut (p : Nat) (va : BitVec 64) (s : State) : Host.Outcome State Fault Refusal :=
  .next ((s.pageOut p (va.toNat / 65536 * 65536)).getD s)

/-! ### KCALL (R298) -/

/-- The slot that waits in KCALL: placed, or saved with its team. -/
def State.modHolder (s : State) (h : OpHead) (f : Slot → Slot) : State :=
  match aget? s.slots h.g with
  | some sl => if sl.team = h.team then s.setSlot h.g (f sl) else s
  | none => if (s.team h.team).state = .saved then s.modTeam h.team fun t => { t with savedSlots := aupd t.savedSlots h.sw f } else s

/-- A service over the pieces of a range, one after the other: what it has counted, or its failure; `none` while it waits. -/
def State.servePieces (s : State) (p svc : Nat) (ok : Bool) : List Nat → Nat → Option (Except Unit Nat × State)
  | [], n => some (.ok n, s)
  | va :: vas, n =>
    let present := match s.pageEntry p va with
      | some (_, level, e) => level != 4 && bitsN e 0 1 == 1
      | none => false
    if svc = 2 then s.servePieces p svc ok vas (if present then n + 1 else n)
    else if svc = 1 then
      if !present then s.servePieces p svc ok vas n
      else if !ok then some (.error (), s)
      else match s.pageOut p va with
        | none => none
        | some s => s.servePieces p svc ok vas (n + 1)
    else match s.bringPage p va ok with
      | .later => none
      | .fails => some (.error (), s)
      | .here lo size k s => (s.pagesServed p fun a => decide (lo ≤ a) && decide (a < lo + size)).servePieces p svc ok vas (n + k)

/-- R298: a service ends: its result is written and the slot goes on, or cause 0x1C6 is raised, precise. -/
def execKcallDone (o : Nat) (storageOk : Bool) (s : State) : Host.Outcome State Fault Refusal :=
  match aget? s.ops o with
  | some ⟨h, .kcall svc base len dst _⟩ =>
    match s.servePieces h.part svc storageOk (piecesOfRange base.toNat len) 0 with
    | none => .next s
    | some (r, s) =>
      let s := s.delOp o
      match r with
      | .ok n =>
        .next (s.modHolder h fun sl =>
          let sl := { sl with wait := .none }
          match dst with
          | .scl k => sl.write k.toNat [(0, ⟨BitVec.ofNat 32 n, 0⟩)]
          | _ => sl)
      | .error _ =>
        let lanes := h.lanes.map fun a => a.1
        let t := { h.trap 0x1C6 .precise lanes lanes 0 with info := BitVec.ofNat 32 svc }
        match aget? s.slots h.g with
        | some sl =>
          if sl.team ≠ h.team then .next s
          else
            let s := s.modSlot h.g fun sl => { sl with wait := .none }
            .next (if sl.lanes.isEmpty then s.raiseLate h t else s.deliver h.g t)
        | none => .next (s.modHolder h fun sl => { sl with wait := .none, late := (t, none) :: sl.late })
  | _ => .next s

/-! ### Re-fires (R148 to R150) -/

/-- The fault of a slot that a re-fire serves: parked, or behind its continuation. -/
def Slot.refire? (sl : Slot) : Option (TrapInfo × Serve × Bool) :=
  let pick (p : Parked) (c : Bool) : Option (TrapInfo × Serve × Bool) := match p.serve with
    | .refireNew _ | .refireWait .. => some (p.trap, p.serve, c)
    | _ => none
  match sl.parked?.bind fun p => pick p false with
  | some x => some x
  | none => sl.contPark.bind fun p => pick p true

/-- Fibres of a slot in some lanes. -/
def Slot.fidsIn (sl : Slot) (lanes : List Nat) : List Nat := (sl.lanes.filter fun a => lanes.contains a.1).map fun a => a.2

/-- The key by which the groom names a slot: its number, or, where its team is saved, a number beyond those of all slots, by team and
weave. -/
def savedKey (team w : Nat) : Nat := 256 * Config.cores + 1024 * team + w

/-- A slot, placed or saved. -/
def State.anySlot? (s : State) (g : Nat) : Option Slot :=
  if g < 256 * Config.cores then aget? s.slots g
  else aget? (s.team ((g - 256 * Config.cores) / 1024)).savedSlots ((g - 256 * Config.cores) % 1024)
def State.modAnySlot (s : State) (g : Nat) (f : Slot → Slot) : State :=
  if g < 256 * Config.cores then s.modSlot g f
  else s.modTeam ((g - 256 * Config.cores) / 1024) fun t => { t with savedSlots := aupd t.savedSlots ((g - 256 * Config.cores) % 1024) f }

/-- R149: the re-fire ends with cause 0x085 or 0x086; the counts of its fibres start afresh. -/
def State.refireFails (s : State) (g : Nat) (sl : Slot) (t : TrapInfo) (cont : Bool) (c : Nat) : State :=
  let s := (sl.fidsIn t.lmask).foldl (fun s f => s.modFibre f fun x => { x with refires := 0 }) s
  if cont then s.modAnySlot g (Slot.failsCont Serve.isRefire c)
  else if g < 256 * Config.cores then s.failSlot g Serve.isRefire c
  else s.modAnySlot g (Slot.failsSaved Serve.isRefire c)

/-- A refresh descriptor (R148). -/
structure RDesc where
  templa : DWord
  pendseq : Nat
  queue : Nat
  deriving DecidableEq, Repr

/-- R148: the descriptor of an index, `none` where it counts as VALID 0. -/
def State.refreshDesc (s : State) (p rd : Nat) : Option RDesc :=
  match s.devRead p .load ((s.part p).rdbase + BitVec.ofNat 64 (16 * rd)) 16 with
  | .error _ => none
  | .ok bs =>
    let n := leNat bs
    let q := bitsN n 10 6
    if bitsN n 0 1 = 0 || bitsN n 1 9 ≠ 0 || !(s.queue q).granted || (s.queue q).part ≠ p then none
    else some { templa := BitVec.ofNat 64 (bitsN n 64 64), pendseq := bitsN n 16 48, queue := q }

/-- Is launch `seq` of a queue complete? -/
def State.seqComplete (s : State) (q seq : Nat) : Bool := decide (seq ≤ (s.queue q).cseq) || (s.queue q).doneSeqs.contains seq

/-- R149: does PENDSEQ name a launch that is not complete? -/
def State.pendingProducer (s : State) (d : RDesc) : Bool := d.pendseq != 0 && !s.seqComplete d.queue d.pendseq

/-- R149: append the template as the next launch of the queue: its sequence number; an error where some read or write meets a
cause; `none` while the ring is full. -/
def State.appendProducer (s : State) (p rd : Nat) (d : RDesc) : Option (Except Unit (Nat × State)) :=
  let x := s.queue d.queue
  match s.devRead p .load d.templa 128, s.devRead p .load x.taila 8 with
  | .ok block, .ok tail =>
    let n := leNat tail + 1
    if x.cseq + 2 ^ x.logn ≤ leNat tail then none
    else match s.vecWrite p (x.ringa + BitVec.ofNat 64 (128 * ((n - 1) % 2 ^ x.logn))) block [] with
      | .error _ => some (.error ())
      | .ok a => match a.state.vecWrite p x.taila (bytesLE 8 n) a.ids with
        | .error _ => some (.error ())
        | .ok b => some (.ok (n, match b.state.vecWrite p ((s.part p).rdbase + BitVec.ofNat 64 (16 * rd + 2)) (bytesLE 6 n) [] with
          | .ok c => c.state
          | .error _ => b.state))
  | _, _ => some (.error ())

/-- The fault waits for launch `seq` of a queue, with count `n`. -/
def State.refireWaits (s : State) (g : Nat) (cont : Bool) (q seq n : Nat) : State :=
  s.modAnySlot g fun sl =>
    if cont then { sl with contPark := sl.contPark.map fun p => { p with serve := .refireWait q seq n } }
    else match sl.wait with
      | .park p => { sl with wait := .park { p with serve := .refireWait q seq n } }
      | _ => sl

/-- R149: the groom takes up a re-fire: it joins the pending producer or appends one; a saved team's goes on too (R293). -/
def execRefireServe (g : Nat) (s : State) : Host.Outcome State Fault Refusal :=
  match s.anySlot? g with
  | none => .next s
  | some sl => match sl.refire? with
    | some (t, .refireNew rd, cont) =>
      let p := s.partOfTeam sl.team
      let n := (sl.fidsIn t.lmask).foldl (fun m f => max m (s.fibre f).refires) 0
      if n = 2 then .next (s.refireFails g sl t cont 0x085)
      else match s.refreshDesc p rd with
        | none => .next (s.refireFails g sl t cont 0x086)
        | some d =>
          if !(s.queue d.queue).enable || (s.queue d.queue).halt then .next (s.refireFails g sl t cont 0x086)
          else if s.pendingProducer d then .next (s.refireWaits g cont d.queue d.pendseq n)
          else match s.appendProducer p rd d with
            | none => .next s
            | some (.error _) => .next (s.refireFails g sl t cont 0x086)
            | some (.ok (seq, s)) => .next (s.refireWaits g cont d.queue seq n)
    | _ => .next s

/-- R149, R150: the producer is complete: the load is replayed, ordered after it, or the re-fire fails. -/
def execRefireReplay (g : Nat) (s : State) : Host.Outcome State Fault Refusal :=
  match s.anySlot? g with
  | none => .next s
  | some sl => match sl.refire? with
    | some (t, .refireWait q seq n, cont) =>
      if !s.seqComplete q seq then .next s
      else
        let done := s.launches.find? fun x => x.2.queue == q && x.2.seq == seq && x.2.state == .complete
        let status := (done.map fun x => x.2.status).getD 0 % 256
        if status ≠ 0 then .next (s.refireFails g sl t cont 0x086)
        else
          let fids := sl.fidsIn t.lmask
          let s := fids.foldl (fun s f => s.modFibre f fun x => { x with refires := n + 1 }) s
          let s := s.learn sl.fids .vec ((done.map fun x => x.2.out).getD [])
          .next (s.modAnySlot g fun sl => if cont then sl.contServed t else sl.replayNow t)
    | _ => .next s

end Sys2Proof.Machine
end

