-- ==== Sys2Proof/Machine/Timebase.lean ====
section
/-!
DEFINITION. The timebase: ticks of a partition's time and horizon messages (R138 to R140).
-/
namespace Sys2Proof.Machine

/-- A message takes effect: the die's horizon becomes tstamp of its time (R140). -/
def Die.take (d : Die) (m : Nat × Nat) : Die := { d with horizon := tstamp m.1, messages := d.messages.filter fun x => x != m }

/-- R140: at time `t` no message of time t − 2 or earlier is still on its way: so t − (H + 2) < horizon ≤ t always holds. -/
def Die.overdue (d : Die) (t : Nat) : Die := (d.messages.filter fun m => decide (m.1 + 2 ≤ t)).foldl Die.take d

/-- R138, R140: one tick of partition `p`: T advances, and at a multiple of H goes to every die of the partition. -/
def State.tickPart (s : State) (p : Nat) : State :=
  let pt := s.part p
  let t := (pt.time + 1) % 2 ^ 64
  let send : Bool := t % pt.interval = 0
  let s := s.setPart p { pt with time := t }
  (bitList 8 pt.dies.toNat).foldl (fun s d =>
    let x := s.die d
    let x := if send then { x with messages := x.messages ++ [(t, s.clock)] } else x
    s.setDie d (x.overdue t)) s

/-- A clock is 5 quarters of a nanosecond (R3), and a tick 2^k ns (R138). -/
def clockUnits : Nat := 5
def tickUnits (p : Part) : Nat := 4 * 2 ^ p.k

/-- A tick of a partition is due. -/
def State.tickDue (s : State) (p : Nat) : Bool := (aget? s.parts p).isSome && decide (tickUnits (s.part p) ≤ (s.part p).phaseNs)

/-- R138: PARTITION_TICK, when it is due. -/
def execPartitionTick (p : Nat) (s : State) : Host.Outcome State Fault Refusal :=
  if s.tickDue p then .next ((s.modPart p fun x => { x with phaseNs := x.phaseNs - tickUnits x }).tickPart p) else .next s

/-- R140: the oldest message on its way to a die takes effect, later than it was sent. -/
def execHorizonMessage (die : Nat) (s : State) : Host.Outcome State Fault Refusal :=
  match (s.die die).messages with
  | m :: _ => if m.2 < s.clock then .next (s.setDie die ((s.die die).take m)) else .next s
  | [] => .next s

/-- The ticks that fall in one clock: at most two, since a tick is at least 1 ns. -/
def State.runTicks (s : State) (p : Nat) : State :=
  let once (s : State) : State := match execPartitionTick p s with
    | .next t => t
    | _ => s
  once (once (s.modPart p fun x => { x with phaseNs := x.phaseNs + clockUnits }))

end Sys2Proof.Machine
end

