-- ==== Sys2Proof/Machine/Preempt.lean ====
section
/-!
DEFINITION. Switch-out and pre-emption: requests (R287 to R290), drain, save, flush (R291, R293), and the restore of a team
(R292).
-/
namespace Sys2Proof.Machine

/-! ### What a request chooses (R290) -/

/-- The three ways in which a team gives up its core. -/
inductive Choice where
  | save | drain | flush
  deriving DecidableEq, Repr

/-- A team that a request may name: placed, and neither retiring nor already pre-empted. -/
def Team.mayPreempt (t : Team) : Bool := (t.state == .running || t.state == .held) && t.why == .none

/-- Teams of a launch that stand placed. -/
def State.placedTeams (s : State) (lid : Nat) : List (Nat × Team) := s.teams.filter fun t => t.2.launch == lid && t.2.mayPreempt

/-- A switch-out or a suspension saves every team that it names (R288, R290), one that drains among them. -/
def PreemptWhy.saves : PreemptWhy → Bool
  | .switchOut | .suspension => true
  | _ => false

/-- R290: the first row that applies. -/
def State.choice (s : State) (t : Nat) (why : PreemptWhy) : Choice :=
  let tm := s.team t
  let l := s.launch tm.launch
  let pt := s.part l.part
  if why.saves then .save
  else if l.coresident then (if (s.placedTeams tm.launch).all fun x => decide (pt.drainp ≤ x.2.prog) then .drain else .save)
  else if pt.drainp ≤ tm.prog then .drain
  else if l.idemp && decide (tm.prog < pt.flushp) && !tm.published then .flush
  else .save

/-- Does a team drain, or is it about to (R291)? -/
def Team.drains (t : Team) : Bool := match t.state with
  | .draining _ => true
  | .running | .held => t.why != .none
  | _ => false

/-- R291: the choice begins. A drain is noted, and PREEMPT_DRAIN starts its time. -/
def State.beginChoice (s : State) (t : Nat) (why : PreemptWhy) (c : Choice) : State :=
  s.modTeam t fun x => match c with
    | .save => { x with state := .saving (s.clock + 2 ^ 20), why }
    | .flush => { x with state := .flushing, why }
    | .drain => { x with why }

/-- A request names a team; a launch with CORES goes as a whole (R290). -/
def State.requestTeam (s : State) (why : PreemptWhy) (t : Nat) : State :=
  if !((s.team t).mayPreempt || (why.saves && (s.team t).drains)) then s
  else
    let c := s.choice t why
    let ts := if (s.launch (s.team t).launch).coresident && (s.team t).mayPreempt then (s.placedTeams (s.team t).launch).map fun x => x.1 else [t]
    ts.foldl (fun s t => s.beginChoice t why c) s

/-! ### Requests (R288, R289) -/

/-- Is a slot parked: on a fault that the groom serves, or in KCALL (R288)? -/
def Slot.isParked (sl : Slot) : Bool :=
  match sl.wait with
  | .park _ | .kcall _ => true
  | _ => false

/-- R288: parked slots are more than PARKTH per cent of the core's occupied slots. -/
def State.overParked (s : State) (core : Nat) : Bool :=
  let occ := s.slots.filter fun x => coreOf x.1 == core && !x.2.lanes.isEmpty
  match s.partOfDie (dieOf core) with
  | none => false
  | some p =>
    let th := (s.part p).parkth
    th != 0 && decide (th * occ.length < 100 * (occ.filter fun x => x.2.isParked).length)

/-- The clocks for which the first condition of R288 has held, noted once a clock. -/
def State.noteParked (s : State) : State :=
  (List.range Config.cores).foldl (fun s core =>
    let d := s.die (dieOf core)
    let k := core % 16
    if s.overParked core then
      (if (aget? d.parkedSince k).isNone then s.setDie (dieOf core) { d with parkedSince := aset d.parkedSince k s.clock } else s)
    else if (aget? d.parkedSince k).isSome then s.setDie (dieOf core) { d with parkedSince := adel d.parkedSince k }
    else s) s

/-- R288: SWITCH_OUT. -/
def execSwitchOut (core : Nat) (s : State) : Host.Outcome State Fault Refusal :=
  let die := dieOf core
  match s.partOfDie die, aget? (s.die die).parkedSince (core % 16) with
  | some p, some c =>
    let ts := s.teamsAt core
    let starved := (s.claimers p).any fun x => (s.findCore x.2 die).isNone
    if c + 4096 ≤ s.clock && starved && !(ts.any fun t => (s.launch t.2.launch).coresident) then
      .next (ts.foldl (fun s t => s.requestTeam .switchOut t.1) s)
    else .next s
  | _, _ => .next s

/-- R289: does a request of this kind still act on a die? -/
def State.preempting (s : State) (die : Nat) : Bool :=
  s.teams.any fun t => t.2.die == die && t.2.why == .priority && t.2.state.isPlaced

/-- R289: teams that a launch of effective priority `p` may displace on a die: lowest priority first, then the most recently
placed. -/
def State.victims (s : State) (die p : Nat) : List (Nat × Team) :=
  let prio (t : Nat × Team) : Nat := s.prioOf (s.launch t.2.launch)
  let ts := s.teams.filter fun t => t.2.die == die && t.2.mayPreempt && decide (prio t + 2 ≤ p)
  ts.foldl (fun acc x => insertBy (fun a b => decide (prio a < prio b)
    || (prio a == prio b && (decide (b.2.placedAt < a.2.placedAt) || (b.2.placedAt == a.2.placedAt && decide (b.1 < a.1))))) x acc) []

/-- R289: the teams of the next core that a launch has to displace, which has found no core on a die for 2^20 clocks. -/
def State.displaces (s : State) (die : Nat) (l : Launch) : Option (List (Nat × Team)) :=
  if !s.starved die l || (s.findCore l die).isSome then none
  else match s.victims die (s.prioOf l) with
    | [] => none
    | v :: vs => some ((v :: vs).filter fun t => t.2.core == v.2.core)

/-- R289: PRIORITY_PREEMPT: the first launch, in the processor's order, that has teams to displace requests them. -/
def execPriorityPreempt (die : Nat) (s : State) : Host.Outcome State Fault Refusal :=
  match s.partOfDie die with
  | none => .next s
  | some p => match firstSome (fun x : Nat × Launch => s.displaces die x.2) (s.claimOrder die (s.claimers p)) with
    | none => .next s
    | some ts => .next (if s.preempting die then s else ts.foldl (fun s t => s.requestTeam .priority t.1) s)

/-! ### Drain, save, flush (R291, R293) -/

/-- R291: PREEMPT_DRAIN: the core accepts no new team while the team runs on for up to 65,536 clocks. -/
def execPreemptDrain (t : Nat) (s : State) : Host.Outcome State Fault Refusal :=
  let tm := s.team t
  if tm.mayPreempt || tm.state != .running then .next s
  else .next (s.modTeam t fun x => { x with state := .draining (s.clock + 65536) })

/-- R291: DRAIN_TIMEOUT: the team is saved. -/
def execDrainTimeout (t : Nat) (s : State) : Host.Outcome State Fault Refusal :=
  match (s.team t).state with
  | .draining till => if till ≤ s.clock then .next (s.modTeam t fun x => { x with state := .saving (s.clock + 2 ^ 20) }) else .next s
  | _ => .next s

/-- Operations that complete before a save: accesses in flight, not the work of engines or the groom. -/
def OpBody.blocksSave : OpBody → Bool
  | .load .. | .store _ | .atomic .. | .append _ | .cctl .. | .wlog _ | .time .. => true
  | .copy _ _ _ d => !d.waits.isEmpty
  | .tile .. | .proj .. | .kcall .. => false

def Slot.inDrain (sl : Slot) : Bool :=
  match sl.wait with
  | .banks _ _ _ => true
  | _ => false

/-- R291, R293: has everything completed that a save waits for? -/
def State.saveReady (s : State) (t : Nat) : Bool :=
  !(s.ops.any fun o => o.2.head.team == t && o.2.body.blocksSave) && !((s.slotsOf t).any fun x => x.2.inDrain)

/-- Spawn records of a team leave the quarters. -/
def State.dropRecs (s : State) (t : Nat) : State :=
  { s with quarters := s.quarters.map fun (x : Nat × Quarter) => (x.1, { x.2 with recs := x.2.recs.filter fun r => r.team != t }) }

/-- R291: the team's state goes to the save area, and its core resources are released. -/
def State.saveTeam (s : State) (t : Nat) : State :=
  let tm := s.team t
  let recs := s.quarters.flatMap fun x => (x.2.recs.filter fun r => r.team == t).map fun r => (x.1 - 4 * tm.core, r)
  let slots := (s.slotsOf t).foldl (fun m x => aset m x.2.w x.2) []
  let frames := (s.slotsOf t).foldl (fun m x => aset m x.2.w (s.bytesAt (Config.framePhys + 256 * x.1) 256)) []
  let s := s.modTeam t fun x => { x with savedSlots := slots, savedRecs := recs, savedFrames := frames }
  (s.dropRecs t).freeTeam t .saved

/-- R291: PREEMPT_SAVE. -/
def execPreemptSave (t : Nat) (s : State) : Host.Outcome State Fault Refusal :=
  match (s.team t).state with
  | .saving _ => if s.saveReady t then .next (s.saveTeam t) else .next s
  | _ => .next s

/-- R293: SAVE_TIMEOUT: the save has not finished within 2^20 clocks; the team ends with cause 0x1C2. -/
def execSaveTimeout (t : Nat) (s : State) : Host.Outcome State Fault Refusal :=
  match (s.team t).state with
  | .saving till =>
    if till ≤ s.clock then .next (s.coreError t) else .next s
  | _ => .next s

/-- R291: PREEMPT_FLUSH: once its stores have completed, the team's state is discarded, to start afresh; the launch carries what it has
written (R30). -/
def execPreemptFlush (t : Nat) (s : State) : Host.Outcome State Fault Refusal :=
  let stores := s.ops.any fun o => o.2.head.team == t && (match o.2.body with
    | .store _ | .cctl .. | .wlog _ => true
    | _ => false)
  if (s.team t).state = .flushing && !stores then
    let s := (s.recordLate t fun k => k == .late).modLaunch (s.root (s.team t).launch) fun l => { l with out := union l.out (s.teamKnow t) }
    let s := (s.dropRecs t).dropChunks t
    let s := { s with
      ops := s.ops.filter (fun o => o.2.head.team != t)
      far := s.far.filter (fun f => !(s.ops.any fun o => ofOp o.1 f.1 && o.2.head.team == t))
      fibres := s.fibres.filter (fun f => f.2.team != t) }
    let s := s.modTeam t fun x =>
      { x with chutes := [], tiles := [], issued := 0, done := 0, errs := 0, fx := 0, counts := [], gens := 0, prog := 0
               progAt := 0, progBy := 0, published := false }
    .next (s.freeTeam t .flushed)
  else .next s

/-! ### Restore (R292) -/

/-- R292: is a fault of some parked slot of a saved team still being served? -/
def State.stillServed (s : State) (tm : Team) : Bool :=
  tm.savedSlots.any fun x => match x.2.wait with
    | .park ⟨_, .pages _⟩ => true
    | .park ⟨_, .refireNew _⟩ | .park ⟨_, .refireWait ..⟩ => true
    | .kcall o => (aget? s.ops o).isSome
    | _ => false

/-- R33, R292: some launch of higher priority comes first on this die. -/
def State.higherFirst (s : State) (die p prio : Nat) : Bool :=
  let ls := s.claimOrder die (s.claimers p)
  let starving := match ls with
    | x :: _ => decide (prio < s.prioOf x.2) && (aget? x.2.starving die).any fun c => decide (c + 2 ^ 20 ≤ s.clock)
    | [] => false
  starving || ls.any fun x => decide (prio < s.prioOf x.2) && (s.findCore x.2 die).isSome

/-- A slot of a saved team as it comes back at slot number `g`: its frames stand at the place of its new number. -/
def Slot.movedTo (sl : Slot) (g : Nat) : Slot :=
  { sl with frame := if sl.handler then frameAddr g else if sl.active then frameAddr g + 128 else 0, eligSince := none
            wait := match sl.wait with
              | .yield _ till => .yield [] till
              | w => w }

/-- The frames of a restored slot are written at their new place. -/
def State.placeFrames (s : State) (g : Nat) (sl : Slot) (bs : List Byte) : State :=
  let base := Config.framePhys + 256 * g
  let r := s.sysWrite (coreOf g) true (((from_ base 256).zip bs).map fun x => (x.1, (x.2, (0 : Stamp)))) []
  r.1.learn sl.fids .vec [r.2]

/-- What a team holds at its new place. -/
def State.reseat (s : State) (t core : Nat) (a : Alloc) : State :=
  let tm := s.team t
  let l := s.launch tm.launch
  let s := s.lendBanks (clusterOf core) (a.units.map (fun u => u.1) ++ a.chuteBanks.flatMap fun h => h.2)
  let tm' := { tm with core, units := a.units, chuteBanks := a.chuteBanks, why := .none, placedAt := s.clock }
  s.setTeam t { tm' with state := if l.coresident || !s.banksDrained tm' then .held else .running }

/-- R68: a KIND 0 record names the window of its fibre, which a restore may have moved. -/
def State.rehome (s : State) (r : Rec) : Rec :=
  if r.kind1 then r
  else { r with word := r.word - BitVec.ofNat 128 (r.field 78 11 * 2 ^ 78) + BitVec.ofNat 128 ((s.fibre r.fibre).base % 2048 * 2 ^ 78) }

/-- R68, R71, R292: the chunks of a restored team name its core and its fibres' windows. -/
def State.moveChunks (s : State) (t old core : Nat) : State :=
  (s.chunksOf t).foldl (fun s c =>
    let c' : Chunk := { c.2 with core := core + (c.2.core - old), recs := c.2.recs.map s.rehome }
    ({ s with chunks := aset s.chunks c.1 c' }.layChunk c' true)) s

/-- R292: a saved team resumes exactly where it stopped. -/
def State.restoreSaved (s : State) (t core : Nat) (a : Alloc) : State :=
  let old := s.team t
  let l := s.launch old.launch
  let s := s.reseat t core a
  let s := a.wins.foldl (fun s w => s.modFibre (fibreKey t w.1 w.2.1) fun f =>
    { f with core := core + l.halfOf w.1, q := l.localOf w.1 % 4, base := w.2.2 }) s
  let s := s.seatSlots l core fun w => (aget? old.savedSlots w).getD Slot.zero
  let s := (s.slotsOf t).foldl (fun s x => (s.modSlot x.1 fun sl => sl.movedTo x.1).placeFrames x.1 x.2 ((aget? old.savedFrames x.2.w).getD [])) s
  let at_ (w : Nat) : Option Nat := ((s.slotsOf t).find? fun x => x.2.w == w).map fun x => x.1
  let moveOp (o : Op) : Op := match at_ o.head.sw with
    | some g => { o with head := { o.head with g, core := coreOf g, q := quarterOf g } }
    | none => o
  let s := { s with ops := s.ops.map fun (o : Nat × Op) => if o.2.head.team == t then (o.1, moveOp o.2) else o }.moveChunks t old.core core
  let s := old.savedRecs.foldl (fun s r =>
    let key := 4 * core + r.1
    s.setQuarter key { s.quarterAt key with recs := (s.quarterAt key).recs ++ [s.rehome r.2] }) s
  s.modTeam t fun x => { x with savedSlots := [], savedRecs := [], savedFrames := [] }

/-- R291, R292: a flushed team starts at its role entries with the state of R21; it keeps its `%team` and takes no ticket. -/
def State.restartFlushed (s : State) (t core : Nat) (a : Alloc) : State :=
  let l := s.launch (s.team t).launch
  let regs := match (s.team t).node with
    | some (k, i) => match aget? s.runs k with
      | some r => reduceRegs l r ((s.graph r.slot).node i) i
      | none => l.startRegs
    | none => l.startRegs
  let s := (s.reseat t core a).modTeam t fun x => { x with scrId := s.uid }
  let s := s.bump.seatFibres t l core a.wins (s.team t).know
  let s := s.seatSlots l core fun w => l.startSlot t w s.clock regs
  let d := s.die (dieOf core)
  s.setDie (dieOf core) { d with robin := (core % 16 + l.halves.length) % 16 }

/-- R292: TEAM_RESTORE; a save area that is uncorrectable ends the team (R294). -/
def execTeamRestore (t : Nat) (s : State) : Host.Outcome State Fault Refusal :=
  match aget? s.teams t with
  | none => .next s
  | some tm =>
    let l := s.launch tm.launch
    let pt := s.part l.part
    if !tm.waits || pt.suspended || (tm.why == .switchOut && s.stillServed tm)
        || s.higherFirst tm.die l.part (s.prioOf l) then .next s
    else match s.findCore l tm.die with
      | none => .next s
      | some (core, a) =>
        if tm.state = .saved then .next (if tm.saveUe then (s.restoreSaved t core a).coreError t else s.restoreSaved t core a)
        else .next (s.restartFlushed t core a)

end Sys2Proof.Machine
end

