-- ==== Sys2Proof/Machine/Link.lean ====
section
/-!
DEFINITION. The Fenica link: flits that arrive, are sent again, or find their port down, and the writes that arrive at any port
(R143, R174, R308 to R310).
-/
namespace Sys2Proof.Machine

/-! ### Writes that arrive at a port (R143) -/

/-- Bytes within one granule at a virtual address, written for partition `p` through port `port`: the new state or the cause.
An acquire that returns the write receives `carry`. -/
def State.ingress (s : State) (port p : Nat) (va : DWord) (bs : List (Nat × Byte)) (carried : Stamp) (carry : List Nat) : Except Miss State :=
  match s.translate p .store va with
  | .error m => .error m
  | .ok pg =>
    let base := pg.loc - va.toNat % 32
    let (st, bad) := s.ingressStamp p port (s.homeHz 0 base) carried
    let cells := bs.map fun b => (base + b.1, (b.2, st))
    match s.writeCause base 32 cells with
    | some c => .error ⟨c, false, pg.vbase⟩
    | none =>
      let s := if bad then s.countMismatch port else s
      let s := if pg.swm then s.logLine p va.toNat base else s
      .ok (s.sysWrite 0 pg.timeless cells carry).1

/-- The bytes of a range with their places in the granule that starts it, cut where granules end. -/
def granParts (va : Nat) (bs : List Byte) : List (Nat × List (Nat × Byte)) :=
  let cells := (from_ va bs.length).zip bs
  (granulesOf (cells.map fun c => c.1)).map fun gr =>
    let mine := cells.filter fun c => c.1 / 32 == gr
    (((mine.head?).map fun c => c.1).getD 0, mine.map fun c => (c.1 % 32, c.2))

/-- Bytes written from `va` on through a port, granule by granule; a granule that meets a cause is not written, and the first
cause is kept. -/
def State.ingressAll (s : State) (port p : Nat) (va : Nat) (bs : List Byte) (carried : Stamp) (carry : List Nat) : Option Nat × State :=
  (granParts va bs).foldl (fun acc g => match acc.2.ingress port p (BitVec.ofNat 64 g.1) g.2 carried carry with
    | .ok t => (acc.1, t)
    | .error m => (acc.1.or (some m.cause), acc.2)) (none, s)

/-- R332, R333: the lowest window that lets the host reach `n` bytes at offset `o` of the partition's 64 GiB, and the virtual address
there, in region 0b00. -/
def Part.window (p : Part) (write : Bool) (o n : Nat) : Option Nat :=
  firstSome (fun x : Nat × HostWin =>
    let w := x.2
    let va := w.base.toNat + (o - w.off.toNat)
    if (if write then w.hw else w.hr) && decide (w.off.toNat ≤ o) && decide (o + n ≤ w.off.toNat + w.size) && decide (o + n ≤ 2 ^ 36)
        && canonical (BitVec.ofNat 64 va) && decide (va + n ≤ 2 ^ 55) then some va
    else none) p.wins

/-- May a write enter through a port at a virtual address? Port 0 needs a window (R333), and a CXL root port a page of TIER 0b10
behind it (R173). -/
def State.mayEnter (s : State) (port p : Nat) (va n : Nat) : Bool :=
  if port = 0 then (s.part p).wins.any fun w => w.2.hw && decide (w.2.base.toNat ≤ va) && decide (va + n ≤ w.2.base.toNat + w.2.size)
  else if port ≤ 16 then true
  else (granulesOf (from_ va n)).all fun gr => match s.translate p .store (BitVec.ofNat 64 (32 * gr)) with
    | .ok pg => pg.tier == 2 && s.egressPort p pg.loc == some port
    | .error _ => true

/-- Writes of another device made here since identity `first` was free: what comes from there later may have them before it (R262 to
R265, log 73). -/
def State.fromFar (s : State) (first : Nat) : State := { s with farKnow := union s.farKnow (from_ first (s.uid - first)) }

/-- R333: one more access of the host that was turned away. -/
def State.turnAway (s : State) (p : Nat) : State := s.modPart p fun x => { x with refusals := x.refusals + 1 }

/-- A write of the host at a virtual address (R332): it releases the host's earlier writes. A cause drops it. -/
def State.hostStore (s : State) (p va : Nat) (bs : List Byte) : State :=
  let first := s.uid
  match s.ingressAll 0 p va bs 0 s.hostKnow with
  | (some _, s) => s.turnAway p
  | (none, s) => { s with hostKnow := union s.hostKnow (from_ first (s.uid - first)) }

/-- INGRESS_WRITE (R143): a write arrives at a port for a region-0b00 address of the partition. -/
def execIngressWrite (port p : Nat) (va : BitVec 64) (bytes : List Byte) (carried : Stamp) (s : State) : Host.Outcome State Fault Refusal :=
  if (aget? s.parts p).isNone then .next s
  else if !canonical va || regionOf va.toNat ≠ 0 || 20 < port || !s.mayEnter port p va.toNat bytes.length then
    .next (if port = 0 then s.turnAway p else s.countDrop port)
  else if port = 0 then .next (s.hostStore p va.toNat bytes)
  else .next ((s.ingressAll port p va.toNat bytes carried s.farKnow).2.fromFar s.uid)

/-! ### Requests of other devices (R174) -/

/-- Answer a flit through the port on which it came. -/
def State.answer (s : State) (port : Nat) (f : Flit) (kind aux : Nat) (payload : List Byte) (stamps : List Stamp) (enables : List Bool) : State :=
  s.sendOn port (flitTo f.src.toNat kind f.tag.toNat f.off.toNat aux f.ldom payload stamps enables)

/-- R174: a cause met here goes back. -/
def State.answerCause (s : State) (port : Nat) (f : Flit) (c : Nat) : State := s.answer port f 10 c [] [] []

/-- The bytes that the enables of a flit's granule `g` name, with their places. -/
def enabledBytes (f : Flit) (g : Nat) : List (Nat × Byte) :=
  ((List.range 32).filter fun i => (f.enables[32 * g + i]?).getD false).map fun i => (i, (f.payload[32 * g + i]?).getD 0)

/-- The page of this device that an address of a request needs the groom for. -/
def State.flitPage (s : State) (p : Nat) (acc : Acc) (va : DWord) : Option Nat :=
  match s.translate p acc va with
  | .error m => if m.groom then some (va.toNat / 65536 * 65536) else none
  | .ok _ => none

/-- R174: the first page that a request waits for; one that the groom could not bring holds nothing back (R284). -/
def State.flitWants (s : State) (p : Nat) (acc : Acc) (vas : List DWord) : Option Nat :=
  firstSome (fun va => match s.flitPage p acc va with
    | some page => if s.denied.contains (p, page) then none else some page
    | none => none) vas

/-- A request waits for a page (log 21). -/
def State.holdFlit (s : State) (port p page : Nat) (f : Flit) : State :=
  { s with heldFlits := if s.heldFlits.contains (port, f) then s.heldFlits else s.heldFlits ++ [(port, f)]
           asked := if s.asked.contains (p, page) then s.asked else (p, page) :: s.asked }

/-- The cause of a miss here: 0x1C6 takes the place of one that the groom could not serve (R163, R284). -/
def Miss.here (m : Miss) : Nat := if m.groom then 0x1C6 else m.cause

/-- The location of a flit's first granule for an access, or its cause. -/
def State.flitHome (s : State) (p : Nat) (acc : Acc) (f : Flit) : Except Nat Page :=
  match s.translate p acc (f.off.zeroExtend 64) with
  | .error m => .error m.here
  | .ok pg => match s.homeCause (acc != .store) pg.loc 32 with
    | some c => .error c
    | none => .ok pg

/-- A reader outside the cores, with the writes that are hb its read. -/
def State.outerReader (s : State) (know : List Nat) : Reader := { rid := 0, know, seen := [], issuedAt := s.clock }

/-- KIND 0: a read; it may return nothing older than what other devices may have learnt (log 73), and waits where such a write has not
been applied yet. -/
def State.serveRead (s : State) (port p : Nat) (f : Flit) : State :=
  match s.flitHome p .load f with
  | .error c => s.answerCause port f c
  | .ok pg => match s.readUnit (s.outerReader s.farKnow) pg.timeless (from_ pg.loc 32) with
    | none => { s with heldFlits := if s.heldFlits.contains (port, f) then s.heldFlits else s.heldFlits ++ [(port, f)] }
    | some (o, s) =>
      let st := olderAll (tstamp (s.part p).time) o.stamps
      if s.egressOk p port st then (s.tellFar o.src).answer port f 1 0 o.bytes [st] (f.enables.take 32)
      else s.answerCause port f 0x083

/-- KIND 2: a write of up to six granules; what other devices may have learnt may be hb it (log 73). -/
def State.serveWrite (s : State) (port p : Nat) (f : Flit) : State :=
  let r := (List.range f.ngr.toNat).foldl (fun (acc : Option Nat × State) g =>
    let bs := enabledBytes f g
    if bs = [] then acc
    else match acc.2.ingress port p (f.off.zeroExtend 64 + BitVec.ofNat 64 (32 * g)) bs ((f.stamps[g]?).getD 0) s.farKnow with
      | .ok t => (acc.1, t)
      | .error m => (acc.1.or (some m.here), acc.2)) (none, s)
  let t := r.2.fromFar s.uid
  match r.1 with
  | some c => t.answerCause port f c
  | none => t.answer port f 3 0 [] [] []

/-- KIND 4: an atomic: `.cas` has its expected value in a second granule. A release carries what other devices may have learnt. -/
def State.serveAtomic (s : State) (port p : Nat) (f : Flit) : State :=
  let ty := tyOf (BitVec.ofNat 5 (bitsN f.aux.toNat 8 5))
  let k : AtomKind := if f.ngr = 2 then .cas else if tysFloat.contains ty then .atomf else .atom
  let bs := enabledBytes f 0
  let o := ((bs.head?).map fun b => b.1).getD 0
  if bs.length ≠ ty.bytes || o % ty.bytes ≠ 0 then s.countDrop port
  else match s.flitHome p .atomic f with
    | .error c => s.answerCause port f c
    | .ok pg =>
      let old := s.stampAt pg.loc
      if !pg.timeless && !s.egressOk p port old then s.answerCause port f 0x083
      else
        let (st, bad) := s.ingressStamp p port (s.homeHz 0 pg.loc) ((f.stamps[0]?).getD 0)
        let s := if bad then s.countMismatch port else s
        let s := if pg.swm then s.logLine p f.off.toNat pg.loc else s
        let loc := pg.loc + o
        let id := s.uid
        let rel := bitsN f.aux.toNat 4 1 = 1
        let r := s.bump.atomStep 0 k ty (bitsN f.aux.toNat 0 3) loc pg.timeless (leNat (bs.map fun b => b.2))
          (leNat ((enabledBytes { f with enables := f.enables.take 32 ++ f.enables.take 32 } 1).map fun b => b.2)) st
          { id, preds := s.writersOf (from_ loc ty.bytes), carry := if rel then id :: s.farKnow else [], after := [] }
        let cells := (from_ loc ty.bytes).zip (bytesLE ty.bytes r.1)
        ((r.2.2.2.2.fromFar id).tellFar r.2.2.2.1).answer port f 5 0 (granPayload cells (loc / 32)) [r.2.1] (f.enables.take 32)

/-- The place of the next row of a descriptor (R321). -/
def AppendDesc.nextRow (d : AppendDesc) : Nat := (d.rows.toNat + d.tail * d.rowb) % 2 ^ 64

/-- KIND 6: an append (R322) in one step of the descriptor's home, with the bytes of the row that the flit brings. For a longer row the
answer gives the descriptor as it stood: the sender writes the rest, and asks for the update of DONE (log 15). -/
def State.serveAppend (s : State) (port p : Nat) (f : Flit) : State :=
  match s.flitHome p .atomic f with
  | .error c => s.answerCause port f c
  | .ok pg =>
    let n := s.natAt pg.loc 32
    let d := appendDesc n
    let s := if pg.swm then s.logLine p f.off.toNat pg.loc else s
    let s := s.descStep 0 pg 0 ((d.tail + 1) % 2 ^ 32) s.farKnow [] []
    let done (s : State) : State := s.descStep 0 pg 4 ((d.done + 1) % 2 ^ 32) (union s.farKnow (s.writersOf (from_ pg.loc 32))) s.farKnow []
    if d.broken then (done s).answerCause port f 0x185
    else if d.cap ≤ d.tail then (done (s.descStep 0 pg 12 ((d.drops + 1) % 2 ^ 32) [] [] [])).answerCause port f 0x186
    else if !canonical (BitVec.ofNat 64 d.nextRow) || regionOf d.nextRow ≠ 0 then s.answerCause port f 0x041
    else
      let own := s.uid
      let bs := (f.payload.take (32 * f.ngr.toNat)).take d.rowb
      let r := (granParts d.nextRow bs).zipIdx.foldl (fun (acc : Option Nat × State) g =>
        match acc.2.ingress port p (BitVec.ofNat 64 g.1.1) g.1.2 ((f.stamps[g.2]?).getD 0) s.farKnow with
        | .ok t => (acc.1, t)
        | .error m => (acc.1.or (some m.here), acc.2)) (none, s)
      let row := from_ own (r.2.uid - own)
      let s := r.2.fromFar own
      match r.1 with
      | some c => s.answerCause port f c
      | none =>
        if bs.length < d.rowb then s.answer port f 7 0 (bytesLE 32 n) [0] (List.replicate 32 true)
        else
          (s.descStep 0 pg 4 ((d.done + 1) % 2 ^ 32) (union s.farKnow row) (union s.farKnow row) []).answer port f 7 0 [] [] []

/-- The pages that a request waits for: those of what it names, and of the row that an append is to write. -/
def State.requestWaits (s : State) (p : Nat) (f : Flit) : Option Nat :=
  let off : DWord := f.off.zeroExtend 64
  match f.kind.toNat with
  | 0 => s.flitWants p .load [off]
  | 2 => s.flitWants p .store (((List.range f.ngr.toNat).filter fun g => enabledBytes f g != []).map fun g => off + BitVec.ofNat 64 (32 * g))
  | 4 => s.flitWants p .atomic [off]
  | 6 => (s.flitWants p .atomic [off]).or (match s.flitHome p .atomic f with
      | .error _ => none
      | .ok pg =>
        let d := appendDesc (s.natAt pg.loc 32)
        if d.broken || d.cap ≤ d.tail || regionOf d.nextRow ≠ 0 then none
        else s.flitWants p .store ((spans d.nextRow d.rowb).map fun x => BitVec.ofNat 64 x.1))
  | _ => none

/-- A request of another device (R174): it is served, or it waits for the groom. -/
def State.serveRequest (s : State) (port p : Nat) (f : Flit) : State :=
  match s.requestWaits p f with
  | some page => s.holdFlit port p page f
  | none => match f.kind.toNat with
    | 0 => s.serveRead port p f
    | 2 => s.serveWrite port p f
    | 4 => s.serveAtomic port p f
    | _ => s.serveAppend port p f

/-- Requests that waited are taken up again; those whose page the groom could not bring end with 0x1C6. -/
def State.serveHeld (s : State) : State :=
  let s := s.heldFlits.foldl (fun (s : State) x => match s.flitPart x.2 with
    | some p => s.serveRequest x.1 p x.2
    | none => s) { s with heldFlits := [] }
  { s with denied := [] }

/-! ### Answers (R308) -/

/-- KIND 1: data for the load that asked for it. -/
def State.takeData (s : State) (f : Flit) : State :=
  let tag := f.tag.toNat
  let take (r : LaneRead) : LaneRead :=
    match r.waits.find? fun w => w.2 == tag with
    | none => r
    | some w =>
      if remoteDev (w.1 * 32) ≠ f.src.toNat then r
      else { r with waits := r.waits.filter fun x => x.2 != tag
                    got := (enabledBytes f 0).foldl (fun m b => aset m (w.1 * 32 + b.1) b.2) r.got
                    gotSt := aset r.gotSt w.1 ((f.stamps[0]?).getD 0) }
  let far (r : FarRead) : FarRead :=
    match r.asks.find? fun w => w.2 == tag && remoteDev (w.1 * 32) == f.src.toNat with
    | none => r
    | some w => { r with asks := r.asks.filter fun x => x != w
                         got := (enabledBytes f 0).foldl (fun m b => aset m (w.1 * 32 + b.1) b.2) r.got
                         gotSt := aset r.gotSt w.1 ((f.stamps[0]?).getD 0) }
  { s with ops := s.ops.map fun (o : Nat × Op) => match o.2.body with
             | .load i rs ms => (o.1, { o.2 with body := .load i (rs.map take) ms })
             | _ => o
           far := s.far.map fun (r : Nat × FarRead) => (r.1, far r.2) }

/-- KINDs 3, 5 and 7: what waits for this TAG is answered, in one operation. -/
def State.takeAck (s : State) (f : Flit) (o : Nat × Op) : State :=
  let tag := f.tag.toNat
  match o.2.body with
  | .store ws =>
    if ws.any fun w => w.remote == some tag then
      s.keepStore o.1 o.2.head (ws.map fun w => if w.remote = some tag then { w with bytes := [] } else w)
    else s
  | .copy i fid lane d =>
    s.setOp o.1 { o.2 with body := .copy i fid lane { d with waits := d.waits.filter fun t => t.1 != tag } }
  | .proj i fid lane d c held => match d.out with
    | some tags => s.setOp o.1 { o.2 with body := .proj i fid lane { d with out := some (tags.filter fun t => t.1 != tag) } c held }
    | none => s
  | .atomic i ls _ => match atomOf i, ls.find? fun l => l.remote == some tag && !l.done with
    | some (a, k), some l =>
      let old := leNat ((enabledBytes f 0).map fun b => b.2)
      let st := (f.stamps[0]?).getD 0
      let exc := (atomNew k a.ty a.aop.toNat old l.opnd.toNat l.expect.toNat).2
      let cells := (enabledBytes f 0).map fun b => (l.loc / 32 * 32 + b.1, b.2)
      (s.atomAnswer o.2.head o.1 a k l old st exc (s.farSrc cells)).keepAtom o.1 o.2.head i k
        (ls.map fun m => if m.lane = l.lane then { m with result := some (BitVec.ofNat 64 old, st, exc) } else m)
    | _, _ => s
  | .append ls => match ls.find? fun l => l.remote == some tag || l.waits.any fun w => w.1 == tag with
    | some l =>
      if l.remote ≠ some tag then s.setLane o.1 o.2.head ls { l with waits := l.waits.filter fun w => w.1 != tag }
      else if f.kind = 7 && f.ngr = 1 then
        let n := leNat (f.payload.take 32)
        s.setLane o.1 o.2.head ls { l with remote := none, dsc := some n, begun := some (appendDesc n).tail }
      else s.dropLane o.1 o.2.head ls l.lane
    | none => s
  | _ => s

/-- R221: a granule at `addr` of a record that VPROJ, VMERGE or VRSET wrote has failed: what else of the record has been written is undefined. -/
def State.spoilRecord (s : State) (o : Nat) (h : OpHead) (i : Instr) (fid lane k : Nat) (held : List Nat) (d : ProjData) (addr : DWord) : State :=
  let lost := d.dst.zipIdx.filter fun r => !d.bad.contains r.2 && r.1.any fun e => BitVec.ofNat 64 e.va == addr
  let (_, more, s) := s.putRecords h fid (lost.map fun r => r.1.filter fun e => BitVec.ofNat 64 e.va != addr)
    (lost.map fun r => (d.recs[r.2]?).getD 0) (lost.map fun r => (d.recSt[r.2]?).getD []) (List.range lost.length)
  s.setOp o ⟨h, .proj i fid lane { d with bad := d.bad ++ lost.map (fun r => r.2), out := d.out.map fun ts => ts ++ more } k held⟩

/-- What waits for this TAG meets a cause: one that came back in KIND 10 (`back`; R174, R178), or one met here, where every port is
down (R309) or the bound of another port keeps the flit back (R147). -/
def State.takeError (s : State) (tag c : Nat) (back : Bool) (o : Nat × Op) : State :=
  match o.2.body with
  | .load i rs ms =>
    let bad := rs.filter fun r => r.waits.any fun w => w.2 == tag
    if bad = [] then s
    else
      let s := bad.foldl (fun s r => s.settle (readId o.1 r.lane) []) s
      s.setOp o.1 { o.2 with body := .load i (rs.filter fun r => !(r.waits.any fun w => w.2 == tag))
                                       (ms ++ bad.map fun r => ⟨r.lane, c, false, r.va⟩) }
  | .store ws => match ws.filter fun w => w.remote == some tag && !w.bytes.isEmpty with
    | [] => s
    | w :: rest =>
      (s.keepStore o.1 o.2.head (ws.map fun w => if w.remote = some tag then { w with bytes := [] } else w)).raiseLate o.2.head
        (o.2.head.trap c .late ((w :: rest).map fun x => x.lane) [] w.va)
  | .copy i fid lane d =>
    match d.waits.find? fun t => t.1 == tag with
    | some t =>
      let e : CopyData := { d with waits := d.waits.filter (fun t => t.1 != tag), failed := d.failed.or (some (c, t.2)) }
      s.setOp o.1 { o.2 with body := .copy i fid lane e }
    | none => s
  | .proj i fid lane d k held => match (d.out.getD []).find? fun t => t.1 == tag with
    | some t =>
      (s.spoilRecord o.1 o.2.head i fid lane k held { d with out := d.out.map fun ts => ts.filter fun t => t.1 != tag } t.2).raiseLate
        o.2.head (o.2.head.trap c .late [lane] [] t.2)
    | none => s
  | .atomic i ls _ => match atomOf i, ls.find? fun l => l.remote == some tag && !l.done with
    | some (_, k), some l =>
      if back && c ≠ 0x144 then
        s.keepAtom o.1 o.2.head i k (ls.map fun m => if m.lane = l.lane then { m with lost := some c, remote := none } else m)
      else s.atomLost o.1 o.2.head i ls l.lane c
    | _, _ => s
  | .append ls => match ls.find? fun l => l.remote == some tag || l.waits.any fun w => w.1 == tag with
    | some l => s.appendLate o.1 o.2.head ls l c (((l.waits.find? fun w => w.1 == tag).map fun w => w.2).getD l.desc)
    | none => s
  | _ => s

/-- A request of this device is answered with a cause, or meets one here. -/
def State.fail (s : State) (tag c : Nat) (back : Bool) : State :=
  let s := s.launchAnswer tag false
  let s := s.ops.foldl (fun s o => s.takeError tag c back o) s
  { s with far := s.far.map fun (r : Nat × FarRead) => match r.2.asks.find? fun w => w.2 == tag with
      | some w => (r.1, { r.2 with lost := some (w.1, c) })
      | none => r }

/-- FLIT_RECEIVE (R308): a flit of a kind other than a chunk. -/
def execFlitReceive (port : Nat) (f : Flit) (s : State) : Host.Outcome State Fault Refusal :=
  if f.kind = 8 || (s.port port).down || f.dst ≠ Config.deviceId || port = 0 || 16 < port then .next s
  else if s.badSeal f then .next (s.countLoss port)
  else
    let s := s.ackPort port
    if 11 ≤ f.kind.toNat || f.ngr.toNat = 7 then .next (s.countDrop port)
    else match s.flitPart f with
      | none => .next (s.countDrop port)
      | some p => .next (match f.kind.toNat with
        | 0 | 2 | 4 | 6 => s.serveRequest port p f
        | 1 => s.takeData f
        | 9 => { s with control := s.control ++ [(bitsN f.aux.toNat 0 2, f.off.toNat / 2 ^ 15, f.aux.toNat / 2 ^ 12, f.src.toNat)] }
        | 10 => s.fail f.tag.toNat (bitsN f.aux.toNat 0 9) true
        | _ => s.ops.foldl (fun s o => s.takeAck f o) (s.launchAnswer f.tag.toNat true))

/-- FLIT_RESEND (R309): a flit without an acknowledgement for 2^14 clocks is sent again; whether an acknowledgement has come that
no flit showed is open (log 18). -/
def execFlitResend (port : Nat) (tag : BitVec 16) (s : State) : Host.Outcome State Fault Refusal :=
  let po := s.port port
  match po.unacked.find? fun u => u.1.tag == tag && decide (u.2.2 + 2 ^ 14 ≤ s.clock) with
  | none => .next s
  | some u =>
    if po.down then .next s
    else
      let (k, s) := s.choose 2
      if k = 0 then .next (s.setPort port { po with unacked := po.unacked.erase u })
      else
        let s := s.setPort port { po with unacked := po.unacked.map fun v => if v = u then (v.1, v.2.1, s.clock) else v }
        .next { s with outFlits := s.outFlits ++ [(port, u.1)] }

/-- The partition that sent a flit. -/
def State.outPart (s : State) (f : Flit) : Option Nat :=
  (s.parts.find? fun p => match aget? p.2.domain f.dst.toNat with
    | some e => e.ldom == f.ldom
    | none => false).map fun p => p.1

/-- R147: does a flit that leaves pass the egress bound of a port? -/
def State.flitPasses (s : State) (p port : Nat) (f : Flit) : Bool :=
  f.stamps.zipIdx.all fun st => (enabledBytes f st.2).isEmpty || s.egressOk p port st.1

/-- R147: what becomes of a flit that the bound of another port keeps back: a request meets 0x083; data for another device does not
leave, the node that was to receive a chunk fails (log 16), and the answer of an atomic is lost (R252). -/
def State.keepFlit (s : State) (port : Nat) (f : Flit) : State :=
  let back (c : Nat) : State :=
    s.sendOn port { f with kind := 10, ngr := 0, aux := BitVec.ofNat 32 c, payload := [], stamps := [], enables := [] }
  match f.kind.toNat with
  | 1 => back 0x083
  | 5 => back 0x144
  | 2 | 4 | 6 => s.fail f.tag.toNat 0x083 false
  | 8 => s.sendOn port { f with tag := 0x083, gixh := 0, ngr := 0, payload := [], stamps := [], enables := [] }
  | _ => s.sendOn port f

/-- A flit of a port that went down takes the next port, whose egress bound it must pass (R147), or its request fails. -/
def State.reroute (s : State) (f : Flit) : State :=
  match s.outPart f with
  | none => s
  | some p => match s.route p f.dst.toNat with
    | some (port, _) => if s.flitPasses p port f then s.sendOn port f else s.keepFlit port f
    | none =>
      if [0, 2, 4, 6].contains f.kind.toNat then s.fail f.tag.toNat 0x180 false else s

/-- PORT_DOWN (R309): no acknowledgement for 2^20 clocks. -/
def execPortDown (port : Nat) (s : State) : Host.Outcome State Fault Refusal :=
  let po := s.port port
  if !po.down && po.unacked.any fun u => decide (u.2.1 + 2 ^ 20 ≤ s.clock) then
    .next ((po.unacked.map fun u => u.1).foldl State.reroute (s.setPort port { po with down := true, unacked := [] }))
  else .next s

end Sys2Proof.Machine
end

