-- ==== Sys2Proof/Machine/Outside.lean ====
section
/-!
DEFINITION. The host link and the expanders: host reads and writes through the windows, and back-invalidates (R332, R333, R335).
-/
namespace Sys2Proof.Machine

/-! ### Host reads (R332, R333, R147) -/

/-- What a host read met. -/
inductive HostRead where
  | bytes (bs : List Byte) (s : State)
  /-- no window, or a cause of translation or of the home -/
  | away
  /-- a granule that is too old to leave -/
  | tooOld
  /-- nothing may be returned yet -/
  | wait
  deriving DecidableEq, Repr

/-- Read one granule's part for the host: all that was released to system scope, and its own writes, are hb the read. -/
def State.hostGran (s : State) (p va n : Nat) : HostRead :=
  match s.translate p .load (BitVec.ofNat 64 va) with
  | .error _ => .away
  | .ok pg => match s.homeCause true pg.loc n with
    | some _ => .away
    | none => match s.readUnit (s.outerReader (union s.sysKnow s.hostKnow)) pg.timeless (from_ pg.loc n) with
      | none => .wait
      | some (o, s) => if o.stamps.all (s.egressOk p 0) then .bytes o.bytes s else .tooOld

/-- Read `n` bytes from `va` on. -/
def State.hostBytes (s : State) (p va n : Nat) : HostRead :=
  (List.range ((va % 32 + n + 31) / 32)).foldl (fun acc i => match acc with
    | .bytes bs s =>
      let lo := if i = 0 then va else (va / 32 + i) * 32
      match s.hostGran p lo (min (va + n) ((va / 32 + i + 1) * 32) - lo) with
      | .bytes cs s => .bytes (bs ++ cs) s
      | r => r
    | r => r) (.bytes [] s)

/-- A host read completes, with poisoned data for `none`. -/
def State.hostDone (s : State) (r : Option (List Byte)) : State :=
  { s with module := { s.module with reads := s.module.reads ++ [r] } }

/-- HOST_READ (R333): `len` bytes at offset `off` of the partition's range. -/
def execHostRead (p : Nat) (off : BitVec 64) (len : Nat) (s : State) : Host.Outcome State Fault Refusal :=
  match (aget? s.parts p).bind fun x => x.window false off.toNat len with
  | none => .next ((s.turnAway p).hostDone none)
  | some va => match s.hostBytes p va len with
    | .bytes bs s => .next (s.hostDone (some bs))
    | .away => .next ((s.turnAway p).hostDone none)
    | .tooOld => .next ((s.setPort 0 { s.port 0 with refusals := (s.port 0).refusals + 1 }).hostDone none)
    | .wait => .next s

/-- HOST_WRITE (R332, R333): bytes at offset `off` of the partition's range. -/
def execHostWrite (p : Nat) (off : BitVec 64) (bytes : List Byte) (s : State) : Host.Outcome State Fault Refusal :=
  match (aget? s.parts p).bind fun x => x.window true off.toNat bytes.length with
  | none => .next (s.turnAway p)
  | some va => .next (s.hostStore p va bytes)

/-- BACK_INVALIDATE (R335): the home writes back a line behind a root port and drops its copies; values do not change, and the
write-log records of the line no longer cover it (R186). -/
def execBackInvalidate (line : Nat) (s : State) : Host.Outcome State Fault Refusal :=
  if inCxl (128 * line) 128 then
    .next { s with parts := s.parts.map fun (p : Nat × Part) => (p.1, { p.2 with wlogged := p.2.wlogged.filter fun l => l != line }) }
  else .next s

end Sys2Proof.Machine
end

