-- ==== Sys2Proof/Machine/Reset.lean ====
section
/-!
DEFINITION. Partition reset, module reset, the reset of a memory side, bring-up, power and heat, and the clock
(R38, R345 to R348).
-/
namespace Sys2Proof.Machine

/-! ### Contents that become undefined -/

/-- R338, R344: what the listed locations hold reads as undefined from now on. -/
def State.scramble (s : State) (gone : Nat → Bool) : State :=
  let e := s.uid
  let s := s.observeTails.bump.forget gone
  { s with mem := (s.mem.filter fun c => gone c.1).foldl (fun m c => memWrite m c.1 (Config.foreignByte e c.1)) s.mem
           stamps := (s.stamps.filter fun c => gone (32 * c.1)).foldl (fun m c => aset m c.1 (Config.foreignStamp e c.1)) s.stamps }

/-- Is a location in a range granted to partition `p`? -/
def State.inGrants (s : State) (p a : Nat) : Bool := s.grants.any fun g => g.part == p && decide (g.lo ≤ a) && decide (a < g.lo + g.len)

/-! ### Partition reset (R346) -/

/-- Launches of a partition that have left queued and are not complete, in ascending sequence order per queue. -/
def State.openLaunches (s : State) (p : Nat) : List (Nat × Launch) :=
  (s.launches.filter fun x => x.2.part == p && x.2.state == .claiming).foldl (fun acc x =>
    insertBy (fun a b => decide (a.2.queue < b.2.queue) || (a.2.queue == b.2.queue && decide (a.2.seq < b.2.seq))) x acc) []

/-- R346, step 1: the partition's teams stop, their work is discarded, and the core sides of its dies are reset. A write of it that has
left for another device is not sent again. -/
def State.stopPart (s : State) (p : Nat) : State :=
  let mine (t : Nat) : Bool := (s.launch (s.team t).launch).part == p
  let ended := (s.teams.filter fun t => mine t.1).map fun t => t.1
  let s := s.dropFlits ((s.ops.filter fun o => o.2.head.part == p).flatMap fun o => o.2.body.sent)
  let s := ended.foldl (fun s t => s.dropChunks t) s
  let s := ended.foldl (fun s t => s.modLaunch (s.root (s.team t).launch) fun l => { l with out := union l.out (s.teamKnow t) }) s
  let s := ended.foldl (fun s t => s.modTeam t fun x =>
    { Team.zero with launch := x.launch, index := x.index, die := x.die, core := x.core, placedAt := x.placedAt, node := x.node }) s
  let dies := (s.part p).dies
  let core (c : Nat) : Bool := dies.getLsbD (dieOf c)
  { s with
    ops := s.ops.filter fun o => o.2.head.part != p
    far := s.far.filter fun f => !((s.ops.any fun o => ofOp o.1 f.1 && o.2.head.part == p)
      || (s.slots.any fun x => core (coreOf x.1) && f.1 == farIssue x.1) || (s.runs.any fun r => r.2.part == p && f.1 == runRead r.1))
    heldFlits := s.heldFlits.filter fun f => s.flitPart f.2 != some p
    asked := s.asked.filter fun a => a.1 != p
    slots := s.slots.filter fun x => !core (coreOf x.1)
    fibres := s.fibres.filter fun f => !ended.contains f.2.team
    quarters := s.quarters.filter fun q => !core (q.1 / 4)
    runs := s.runs.filter fun r => r.2.part != p
    control := s.control.filter fun m => !(s.runs.any fun r => r.2.part == p && r.2.collid.toNat == m.2.1 && r.2.run % 2 ^ 20 == m.2.2.1)
    clusters := (bitList 8 dies.toNat).foldl (fun m d =>
      aset (m.filter fun c => c.1 / 4 != d) (4 * d + 3) { Cluster.zero with modes := [(0, .lent)] }) s.clusters
    dies := s.dies.map fun (d : Nat × Die) => if dies.getLsbD d.1 then (d.1, { d.2 with parkedSince := [] }) else d }

/-- R20: the groom brings the pages that the completion of a launch still needs, or finds that it cannot. -/
def State.bringFor (s : State) (lid : Nat) : Nat → State
  | 0 => s
  | n + 1 =>
    let l := s.launch lid
    match s.endWaits l with
    | none => s
    | some page =>
      let (k, s) := (s.modLaunch lid fun l => { l with want := union l.want [page] }).choose 2
      match s.bringPage l.part page (k == 0) with
      | .later => s
      | .fails => (s.pageFails l.part page).bringFor lid n
      | .here lo size _ t => (t.pagesServed l.part fun a => decide (lo ≤ a) && decide (a < lo + size)).bringFor lid n

/-- R346, step 2: one launch: cause 0x1CA, the error record and the completion word with STATUS 5. Pages that these need are brought
first (R20); where the groom has no room for one yet, the launch completes once it has. -/
def State.resetLaunch (s : State) (lid : Nat) : State :=
  if (s.launch lid).stage = 2 then s.closeLaunch lid
  else
    let s := s.recordError lid { TrapInfo.zero with cause := 0x1CA } false 0 0 0
    let s := (s.modLaunch lid fun l => { l with ending := some (5, 0, s.clock), stage := 0 }).bringFor lid 2
    if (s.endWaits (s.launch lid)).isSome then s else s.completeLaunch lid

/-- R346: the reset of a partition, all its steps. -/
def State.resetPart (s : State) (p : Nat) : State :=
  let s := s.stopPart p
  let s := (s.openLaunches p).foldl (fun s l => s.resetLaunch l.1) s
  let s := { s with
    queues := s.queues.map fun (q : Nat × Queue) =>
      if q.2.granted && q.2.part == p then (q.1, { q.2 with halt := true, herr := 5, wdSince := none }) else q
    graphs := s.graphs.filter fun g => g.2.part != p
    trees := s.trees.filter fun t => (s.launch t.2.launch).part != p }
  s.interrupt (64 + p)

/-- PARTITION_RESET (R346). -/
def execPartitionReset (p : Nat) (s : State) : Host.Outcome State Fault Refusal :=
  if (aget? s.parts p).isNone then .next s else .next (s.resetPart p)

/-- R38: a launch of a queue has been ending by its watchdog for 2^20 clocks. -/
def State.endingLate (s : State) (q : Nat) : Bool :=
  s.launches.any fun x => x.2.queue == q && x.2.state == .claiming && (match x.2.ending with
    | some (st, _, c) => st == 3 && decide (c + 2 ^ 20 ≤ s.clock)
    | none => false)

/-- TERMINATION_TIMEOUT (R38): the owner partition is reset. -/
def execTerminationTimeout (q : Nat) (s : State) : Host.Outcome State Fault Refusal :=
  if s.endingLate q then .next (s.resetPart (s.queue q).part) else .next s

/-! ### Module reset and bring-up (R345, R347) -/

/-- R345: everything on the module is reset; the drives stand outside it, and the agenda, the counts of free values and of identities
(among them those of keys, R337), and what has left the device are no part of it. -/
def State.resetModule (s : State) : State :=
  { State.reset with agenda := s.agenda, free := s.free, uid := s.uid, storage := s.storage, outFlits := s.outFlits }

/-- MODULE_RESET (R345). -/
def execModuleReset (s : State) : Host.Outcome State Fault Refusal := .next s.resetModule

/-- BRING_UP (R347): the next stage; stage 3 zeroes the reserved HBM. -/
def execBringUp (ok : Bool) (s : State) : Host.Outcome State Fault Refusal :=
  let m := s.module
  if m.stage = 5 || m.failed.isSome then .next s
  else if !ok then .next { s with module := { m with failed := some (m.stage + 1) } }
  else
    let s := { s with module := { m with stage := m.stage + 1 } }
    if m.stage + 1 = 3 then
      let s := s.forget inReserved
      .next { s with mem := s.mem.filter fun c => !inReserved c.1
                     stamps := s.stamps.filter fun c => !inReserved (32 * c.1)
                     ptes := [] }
    else .next s

/-- MEMORY_SIDE_RESET (R345, R164; log 7): an uncorrectable error of the controller takes a die's memory side down, and what its
homes hold is undefined; at the second event the reset has ended. -/
def execMemorySideReset (die : Nat) (s : State) : Host.Outcome State Fault Refusal :=
  let d := s.die die
  if 8 ≤ die then .next s
  else if d.memUp then
    .next ((s.setDie die { d with memUp := false }).scramble fun a => decide (a < Config.hbmEnd) && homeDie a == die)
  else .next (s.setDie die { d with memUp := true })

/-! ### Power and heat (R348) -/

/-- POWER_THROTTLE: the power has exceeded the cap for 1 ms, or a junction has passed 95 °C. -/
def execPowerThrottle (watts temp : Nat) (s : State) : Host.Outcome State Fault Refusal :=
  if s.module.cap < watts || 95 < temp then .next { s with module := { s.module with throttled := true } } else .next s

/-- THROTTLING_END: both have fallen back below their limits. -/
def execThrottlingEnd (watts temp : Nat) (s : State) : Host.Outcome State Fault Refusal :=
  if watts < s.module.cap && temp < 95 then .next { s with module := { s.module with throttled := false } } else .next s

/-- OVERTEMP_RESET: a junction has reached 110 °C. -/
def execOvertempReset (temp : Nat) (s : State) : Host.Outcome State Fault Refusal :=
  if 110 ≤ temp then .next s.resetModule else .next s

/-- R348: may a quarter issue in this clock? -/
def State.unthrottled (s : State) : Bool := !s.module.throttled || s.clock % 8 != 7

/-! ### A clock passes -/

/-- The state of an outcome that is a next state. -/
def goOn (s : State) : Host.Outcome State Fault Refusal → State
  | .next t => t
  | _ => s

/-- Run an event for each of a list of things. -/
def State.each {α : Type} (s : State) (xs : List α) (f : α → State → Host.Outcome State Fault Refusal) : State :=
  xs.foldl (fun s x => goOn s (f x s)) s

/-- R70, R72: the oldest KIND 0 record of a quarter has waited 2,048 clocks: a slot of its team at its PC, or an empty one, takes it,
or the former empties one. -/
def State.formerDue (s : State) (key : Nat) : State :=
  match s.longWaiting key with
  | none => s
  | some r =>
    let gs := (s.slots.filter fun x => qkeyOf x.1 == key && x.2.team == r.team).map fun x => x.1
    (s.each gs execWeaveFormerPlace).each [key] fun k => execFormerEmptySlot (k / 4) (k % 4)

/-- The lanes of an atomic. -/
def OpBody.atomLanes : OpBody → List Nat
  | .atomic _ ls _ => ls.map fun l => l.lane
  | _ => []

/-- What waits for a clock and falls due with it, though no agent acts: watchdogs and terminations (R37, R38), drains and saves (R291,
R293), starvation (R33), coresident starts (R36), records and JOINs (R70, R75), YIELD and SLEEP (R78), atomics without an answer
(R252), flits without an acknowledgement (R309), and requests of other devices that waited for the groom (R174). Error records that could not be written at once follow here too (R22). -/
def State.due (s : State) : State :=
  let s := s.each (s.queues.map fun q => q.1) execWatchdogFire
  let s := s.each (s.queues.map fun q => q.1) execTerminationTimeout
  let s := s.each (s.teams.map fun t => t.1) execDrainTimeout
  let s := s.each (s.teams.map fun t => t.1) execSaveTimeout
  let s := s.each (List.range 8) execPlacementStarvation
  let s := s.each (s.launches.map fun l => l.1) execCoresidentStart
  let s := s.each (s.slots.map fun x => x.1) execYieldRelease
  let s := s.each (s.slots.map fun x => x.1) execSleepExpire
  let s := s.each (s.slots.map fun x => x.1) execJoinRelease
  let s := (s.quarters.map fun q => q.1).foldl State.formerDue s
  let s := s.each (s.ops.flatMap fun o => o.2.body.atomLanes.map fun l => (o.1, l)) fun x => execAtomicTimeout x.1 x.2
  let s := s.each (s.ports.flatMap fun p => p.2.unacked.map fun u => (p.1, u.1.tag)) fun x => execFlitResend x.1 x.2
  let s := s.each (s.ports.map fun p => p.1) execPortDown
  let s := s.serveHeld
  (s.launches.map fun l => l.1).foldl (fun s l => if (s.launch l).want = [] then s.flushRecord l else s) s

/-- One clock of 800 MHz (R3). -/
def State.tickClock (s : State) : State :=
  let s := { s with clock := s.clock + 1, turnAt := 0
                    quarters := s.quarters.map fun (q : Nat × Quarter) => (q.1, { q.2 with taken := [], issued := [], placed := 0 }) }
  let s := (s.parts.map fun p => p.1).foldl State.runTicks s
  s.noteParked.due

end Sys2Proof.Machine
end

