-- ==== Sys2Proof/Machine/Firmware.lean ====
section
/-!
DEFINITION. The commands of the firmware (R26, R138, R139, R143, R284, R287, R310, R333, R334, R337 to R344).
-/
namespace Sys2Proof.Machine

/-! ### The gate of a command (R341, R342) -/

/-- Who may give a command (R343): the operator, the owner, either, or the owner unsealed. -/
inductive CmdBy where
  | op | own | any | opening
  deriving DecidableEq, Repr

/-- What a command answers: nothing yet, a refusal's status, or its result with the new state. A result is a list of numbers, each with
its length in bytes. -/
inductive Answer where
  | wait
  | refuse (status : Nat)
  | done (result : List (Nat × Nat)) (s : State)
  deriving DecidableEq, Repr

/-- R343: the code of a command. -/
def codeOf : Instr → Nat
  | .identify .. => 0x0001 | .attest .. => 0x0002 | .partCreate .. => 0x0010 | .partDestroy .. => 0x0011 | .sessionOpen .. => 0x0012
  | .keyRotate .. => 0x0013 | .rootSet .. => 0x0020 | .map .. => 0x0021 | .backingSet .. => 0x0022 | .hostwin .. => 0x0023
  | .memGrant .. => 0x0024 | .memRevoke .. => 0x0025 | .kernelBind .. => 0x0030 | .queueCfg .. => 0x0031 | .queueRead .. => 0x0032
  | .cancel .. => 0x0033 | .suspend .. => 0x0034 | .fwResume .. => 0x0035 | .queueGrant .. => 0x0036 | .timeCfg .. => 0x0040
  | .portStamp .. => 0x0041 | .wlogCfg .. => 0x0042 | .preemptCfg .. => 0x0043 | .domainSet .. => 0x0050 | .linkRetrain .. => 0x0051
  | .powerCap .. => 0x0060 | .unknownCommand _ c => c.toNat
  | _ => 0

/-- R341: bits 127:0 of a command's header. -/
def lowHeader (h : Cmd) (code : Nat) : Nat :=
  h.seq.toNat * 2 ^ 64 + h.len.toNat * 2 ^ 48 + h.res47.toNat * 2 ^ 35 + h.part.toNat * 2 ^ 32 + h.res31.toNat * 2 ^ 17
    + h.isSealed.toNat * 2 ^ 16 + code

/-- R339: the highest SEQ that the session has accepted lies below `n`. -/
def Session.accepts (se : Session) (n : Nat) : Bool := match se.seq with
  | none => true
  | some k => decide (k < n)

/-- R341: the command's tag verifies under the session's command key. -/
def Session.verifies (se : Session) (i : Instr) (h : Cmd) : Bool := h.tag == Config.commandTag se.commandKey (lowHeader h (codeOf i)) h.payload

/-- Is the command on its partition's own function? -/
def onOwn (h : Cmd) : Bool := h.fn == h.part.toNat + 1
def onOp (h : Cmd) : Bool := h.fn == 0 && !h.isSealed

/-- R341: a payload that does not fit, or a reserved bit that is set: status 4 (log 53). -/
def malformed (h : Cmd) : Option Nat := if 4064 < h.len.toNat || h.res47 != 0 || h.res31 != 0 then some 4 else none

/-- R341, R342: status 2 or 3 of an owner's command. -/
def State.ownGate (s : State) (i : Instr) (h : Cmd) : Option Nat :=
  if !h.isSealed || !onOwn h then some 3
  else match (s.part h.part.toNat).session with
    | none => some 3
    | some se => if se.verifies i h && se.accepts h.seq.toNat then none else some 2

def State.gate (s : State) (i : Instr) (h : Cmd) (who : CmdBy) : Option Nat :=
  (match who with
    | .op => if onOp h then none else some 3
    | .own => s.ownGate i h
    | .any => if onOp h then none else s.ownGate i h
    | .opening => if !h.isSealed && onOwn h then none else some 3).or (malformed h)

/-- R341: a response: the command's PART and SEQ, STATUS in place of CODE, and sealed where the command passed its gate sealed (log 53). -/
def State.response (s : State) (h : Cmd) (passed : Bool) (status : Nat) (result : List (Nat × Nat)) : Response :=
  let payload := result.flatMap fun r => bytesLE r.1 r.2
  let key := ((s.part h.part.toNat).session.map fun x => x.commandKey).getD 0
  let low := lowHeader { h with len := BitVec.ofNat 16 payload.length, res47 := 0, res31 := 0, isSealed := h.isSealed && passed } status
  let tag := if h.isSealed && passed then Config.commandTag key low payload else 0
  { header := tag ++ BitVec.ofNat 128 low, payload }

/-- R331, R341: the response stands in the function's buffer and is signalled: vector 64 + p for VF p + 1, and 64 for PF 0. -/
def State.reply (s : State) (h : Cmd) (r : Response) : State :=
  { s with module := { s.module with responses := aset s.module.responses h.fn r } }.interrupt (64 + (h.fn - 1))

/-- R331, R341: the host has written a command and its doorbell. -/
def State.ring (s : State) (i : Instr) (h : Cmd) : State :=
  { s with module := { s.module with
      mailboxes := aset s.module.mailboxes h.fn ⟨h.tag ++ BitVec.ofNat 128 (lowHeader h (codeOf i)), h.payload, h.bell⟩ } }

/-- R341: the SEQ of a command that was carried out. -/
def State.acceptSeq (s : State) (h : Cmd) : State :=
  if h.isSealed then s.modPart h.part.toNat fun p => { p with session := p.session.map fun se => { se with seq := some h.seq.toNat } } else s

/-- R347: does the device answer commands? -/
def State.answers (s : State) (h : Cmd) : Bool := s.module.stage == 5 && s.module.failed.isNone && decide (h.fn ≤ 8)

/-- A command that cannot be carried out yet waits, behind those that wait already. -/
def State.wait (s : State) (i : Instr) : State := { s with module := { s.module with waiting := s.module.waiting ++ [i] } }

/-- Carry out command `i` (R342), or let it wait its turn: a refused one changes nothing but the mailbox. -/
def State.command (s : State) (i : Instr) (h : Cmd) (who : CmdBy) (act : Answer) : State :=
  if !s.answers h then s
  else if s.module.waiting ≠ [] then (s.ring i h).wait i
  else match s.gate i h who with
    | some st => (s.ring i h).reply h (s.response h false st [])
    | none => match act with
      | .wait => (s.ring i h).wait i
      | .refuse st => (s.ring i h).reply h (s.response h true st [])
      | .done res t => ((t.acceptSeq h).ring i h).reply h (s.response h true 0 res)

/-- R342: an access of the partition still holds what translation or configuration gave it. -/
def OpBody.holds : OpBody → Bool
  | .load .. | .store _ | .atomic .. | .append _ | .cctl .. | .copy .. | .tile .. | .proj .. => true
  | .wlog _ | .time .. | .kcall .. => false

/-- R342: an access, or a launch by a write of its own that has no answer yet, can still use what translation or configuration gave it. -/
def State.inUse (s : State) (p : Nat) : Bool :=
  (s.ops.any fun o => o.2.head.part == p && o.2.body.holds) || (s.launches.any fun l => l.2.part == p && !l.2.waits.isEmpty)

/-- A configuration changes once no access can still use the old one. -/
def State.change (s : State) (p : Nat) (a : Answer) : Answer :=
  match a with
  | .refuse st => .refuse st
  | a => if s.inUse p then .wait else a

/-- Configure the addressed partition. -/
def State.setting (s : State) (h : Cmd) (f : Part → Part) : Answer := .done [] (s.modPart h.part.toNat f)

/-! ### Identity and attestation (R340, R343) -/

/-- IDENTIFY: device ID, ROM version, ROM digest and, where bring-up failed, its stage (R347). -/
def execIdentify (h : Cmd) (s : State) : Host.Outcome State Fault Refusal :=
  let res := [(1, Config.deviceId.toNat), (8, Config.romVersion.toNat), (64, Config.romDigest.toNat), (1, s.module.failed.getD 0)]
  if s.module.failed.isSome && h.fn ≤ 8 then .next ((s.ring (.identify h) h).reply h (s.response h true 0 res))
  else .next (s.command (.identify h) h .any (.done res s))

/-- R340: bits 2559:0 of a report. -/
def State.reportBody (s : State) (p : Nat) (nonce : BitVec 256) : Nat :=
  let pt := s.part p
  let log := Config.sha512 (pt.measured.flatMap fun d => bytesLE 64 d.toNat)
  let se := pt.session
  Config.romDigest.toNat * 2 ^ 2048 + log.toNat * 2 ^ 1536 + ((se.map fun x => x.ownerKey.toNat).getD 0) * 2 ^ 1280
    + nonce.toNat * 2 ^ 1024 + (if (se.map fun x => x.stampAuth).getD false then 2 ^ 15 else 0) + p * 2 ^ 8 + pt.dies.toNat

/-- ATTEST. -/
def execAttest (h : Cmd) (nonce : BitVec 256) (s : State) : Host.Outcome State Fault Refusal :=
  let p := h.part.toNat
  let body := s.reportBody p nonce
  .next (s.command (.attest h nonce) h .any
    (if (aget? s.parts p).isNone then .refuse 4
     else .done [(384, (Config.reportSignature (BitVec.ofNat 2560 body)).toNat * 2 ^ 2560 + body)] s))

/-! ### Partitions, keys and sessions (R337 to R339, R344) -/

/-- A free key ID (R337), other than `old`. -/
def State.freeKey (s : State) (old : Option Nat) : Option Nat :=
  (List.range Config.keyIds).find? fun k => !s.module.keysUsed.contains k && old != some k

/-- R337: a key ID takes a new key from the random source. -/
def State.takeKey (s : State) (k : Nat) : State :=
  { s.bump with module := { s.module with keysUsed := k :: s.module.keysUsed, keys := aset s.module.keys k ⟨s.uid, Config.randomKey s.uid⟩ } }

/-- R284: the groom's reserved team takes units of bank 0 of the last cluster of a die. -/
def State.lendGroom (s : State) (d : Nat) : State :=
  let cl := 4 * d + 3
  s.setCluster cl ((s.cluster cl).setMode 0 .lent)

/-- PART_CREATE. -/
def execPartCreate (h : Cmd) (dies : BitVec 8) (s : State) : Host.Outcome State Fault Refusal :=
  let p := h.part.toNat
  .next (s.command (.partCreate h dies) h .op
    (if dies = 0 then .refuse 4
     else if (aget? s.parts p).isSome || s.parts.any (fun x => x.2.dies &&& dies != 0) then .refuse 5
     else match s.freeKey none with
      | none => .refuse 6
      | some k =>
        let ds := bitList 8 dies.toNat
        let s := (s.setPart p { Part.zero with dies, key := k }).takeKey k
        .done [] (ds.foldl (fun s d => (s.setDie d { s.die d with horizon := tstamp 0, messages := [], rotation := 0 }).lendGroom d) s)))

/-- R338: the key release of a partition: it is stopped as by a reset, what stands under its key becomes undefined, and the key is
erased. -/
def State.releaseKey (s : State) (p : Nat) : State :=
  let k := (s.part p).key
  let s := s.resetPart p
  let s := s.scramble fun a => s.inGrants p a
  { s with module := { s.module with keysUsed := s.module.keysUsed.filter (fun x => x != k), keys := adel s.module.keys k } }

/-- The groom's units return to the cache. -/
def State.returnGroom (s : State) (d : Nat) : State :=
  let cl := 4 * d + 3
  s.setCluster cl ((s.cluster cl).setMode 0 .cache)

/-- PART_DESTROY (R343, R344). -/
def execPartDestroy (h : Cmd) (s : State) : Host.Outcome State Fault Refusal :=
  let p := h.part.toNat
  .next (s.command (.partDestroy h) h (if h.fn = 0 then .op else .own)
    (if (aget? s.parts p).isNone then .refuse 4
     else
      let ds := bitList 8 (s.part p).dies.toNat
      let tables := (s.entriesOf p).map fun e => e.1
      let s := s.releaseKey p
      let s := { s with
        parts := adel s.parts p
        ptes := s.ptes.filter fun e => !tables.contains e.1
        grants := s.grants.filter fun g => g.part != p
        queues := s.queues.map fun (q : Nat × Queue) =>
          if q.2.granted && q.2.part == p then (q.1, { q.2 with granted := false, enable := false }) else q }
      .done [] (ds.foldl State.returnGroom s)))

/-- SESSION_OPEN (R339): a new session ends the old one. -/
def execSessionOpen (h : Cmd) (ownerKey : BitVec 256) (share : BitVec 256) (sigOk stampAuth : Bool) (s : State) :
    Host.Outcome State Fault Refusal :=
  let p := h.part.toNat
  .next (s.command (.sessionOpen h ownerKey share sigOk stampAuth) h .opening
    (if (aget? s.parts p).isNone then .refuse 4
     else if !sigOk then .refuse 2
     else
      let n := s.free
      let s := { s with free := s.free + 1 }
      let own := Config.deviceShare share n
      .done [(32, own.toNat), (64, (Config.shareSignature own).toNat)]
        (s.modPart p fun x => { x with session := some { ownerKey, secret := Config.bindingSecret share n
                                                         commandKey := Config.commandKey share n, stampAuth, seq := none } })))

/-- KEY_ROTATE: a key release, then a new key ID. -/
def execKeyRotate (h : Cmd) (s : State) : Host.Outcome State Fault Refusal :=
  let p := h.part.toNat
  .next (s.command (.keyRotate h) h .own (match s.freeKey (some (s.part p).key) with
    | none => .refuse 6
    | some k =>
      .done [] (((s.releaseKey p).modPart p fun x => { x with key := k }).takeKey k)))

/-! ### Tables, windows and memory (R161, R333, R334, R343, R344) -/

/-- ROOT_SET. -/
def execRootSet (h : Cmd) (rdbase : BitVec 64) (s : State) : Host.Outcome State Fault Refusal :=
  .next (s.command (.rootSet h rdbase) h .own (s.change h.part.toNat
    (if !canonical rdbase || rdbase.toNat % 16 != 0 then .refuse 4
     else s.setting h fun p => { p with root := true, rdbase })))

/-- The physical place of the entry of `va` at a level: the walk to its table. -/
def State.entryAt (s : State) (va target : Nat) : Nat → Nat → Option Nat
  | 0, _ => none
  | level + 1, table =>
    let at_ := table + 16 * levelIndex (level + 1) va
    if level + 1 = target then some at_
    else
      let e := ((aget? s.ptes at_).getD 0).toNat
      if bitsN e 0 1 = 1 && bitsN e 3 1 = 0 then s.entryAt va target level (bitsN e 8 40 * 4096) else none

/-- May the partition's table at `level` hold this entry? A leaf's page and exponent frame lie wholly in pieces granted to it, whatever
its TIER says (R163 judges that); a
next table lies in the reserved range, off the frames, off every root table, and off the tables of the other partitions. -/
def State.entryAllowed (s : State) (p level e : Nat) : Bool :=
  let rs := entryRanges (0, level, e)
  if bitsN e 0 1 = 0 then true
  else if bitsN e 3 1 = 1 then rs.all fun r => s.owns p r.1 r.2
  else rs.all fun r => inReserved r.1 && inReserved (r.1 + r.2 - 1)
    && decide (Config.rootPhys 8 ≤ r.1)
    && !(s.parts.any fun q => q.1 != p && (s.entriesOf q.1).any fun x => bitsN x.2.2 3 1 == 0 && (entryRanges x).any fun u => overlaps r.1 r.2 u.1 u.2)

/-- MAP (R161, R162, R343, R344). -/
def execMap (h : Cmd) (va : BitVec 64) (level : Nat) (entry : BitVec 128) (s : State) : Host.Outcome State Fault Refusal :=
  let p := h.part.toNat
  .next (s.command (.map h va level entry) h .own (s.change p
    (if inFrames va.toNat then .refuse 7
     else if !canonical va || regionOf va.toNat ≠ 0 || level = 0 || 4 < level || !(s.part p).root then .refuse 4
     else if !s.entryAllowed p level entry.toNat then .refuse 7
     else match s.entryAt (bitsN va.toNat 0 55) level 4 (Config.rootPhys p) with
      | none => .refuse 4
      | some at_ => .done [] { s with ptes := mset 0 s.ptes at_ entry })))

/-- BACKING_SET (R284, R336). -/
def execBackingSet (h : Cmd) (va : BitVec 64) (rec : Backing) (s : State) : Host.Outcome State Fault Refusal :=
  .next (s.command (.backingSet h va rec) h .own (s.change h.part.toNat
    (if !canonical va || regionOf va.toNat ≠ 0 || va.toNat % 65536 ≠ 0 || 8 ≤ rec.drive || 4 ≤ rec.nspace then .refuse 4
     else s.setting h fun p => { p with backing := aset p.backing va.toNat rec })))

/-- HOSTWIN (R333). -/
def execHostwin (h : Cmd) (win : Nat) (base off : BitVec 64) (size : BitVec 64) (hr hw : Bool) (s : State) : Host.Outcome State Fault Refusal :=
  .next (s.command (.hostwin h win base off size hr hw) h .own (s.change h.part.toNat
    (if 8 ≤ win || !canonical base || regionOf base.toNat ≠ 0 || base.toNat % 65536 ≠ 0 || off.toNat % 65536 ≠ 0 || size.toNat % 65536 ≠ 0
        || 2 ^ 40 ≤ size.toNat then .refuse 4
     else s.setting h fun p => { p with wins := mset HostWin.zero p.wins win ⟨base, off, size.toNat, hw, hr⟩ })))

/-- The kind under which a physical range is granted: 0 HBM data, 1 HDM-H, 2 HDM-DB (R334). -/
def grantKind (lo : Nat) (cxlDb : Bool) : Nat := if lo < Config.hbmEnd then 0 else if cxlDb then 2 else 1

/-- R344: may a physical range be granted? -/
def grantable (lo len : Nat) (cxlDb : Bool) : Bool :=
  len != 0 && lo % 65536 == 0 && len % 65536 == 0
    && (inHbmData lo len || (inCxl lo len && lo % 2 ^ 28 == 0 && len % 2 ^ 28 == 0
      && (!cxlDb || Config.hasBackInvalidate ((lo - Config.cxlBase) / Config.cxlStride))))

/-- MEM_GRANT (R334, R344): what the pieces held reads as undefined. -/
def execMemGrant (h : Cmd) (lo len : Nat) (cxlKind : Bool) (s : State) : Host.Outcome State Fault Refusal :=
  let p := h.part.toNat
  .next (s.command (.memGrant h lo len cxlKind) h .op
    (if (aget? s.parts p).isNone || !grantable lo len cxlKind then .refuse 4
     else if s.grants.any fun g => overlaps lo len g.lo g.len then .refuse 5
     else
      let s := s.scramble fun a => decide (lo ≤ a) && decide (a < lo + len)
      .done [] { s with grants := s.grants ++ [{ lo, len, part := p, kind := grantKind lo cxlKind }] }))

/-- A grant without a range. -/
def Grant.without (g : Grant) (lo len : Nat) : List Grant :=
  if !overlaps lo len g.lo g.len then [g]
  else (if g.lo < lo then [{ g with len := lo - g.lo }] else [])
    ++ (if lo + len < g.lo + g.len then [{ g with lo := lo + len, len := g.lo + g.len - (lo + len) }] else [])

/-- MEM_REVOKE (R344): no page entry of the partition may still map a piece of the range. -/
def execMemRevoke (h : Cmd) (lo len : Nat) (s : State) : Host.Outcome State Fault Refusal :=
  let owner := s.grants.find? fun g => overlaps lo 1 g.lo g.len
  .next (s.command (.memRevoke h lo len) h .op
    (if len = 0 || lo % 65536 ≠ 0 || len % 65536 ≠ 0 then .refuse 4
     else match owner with
      | none => .refuse 5
      | some g =>
        if !s.owns g.part lo len || ((s.entriesOf g.part).flatMap entryRanges).any (fun u => overlaps lo len u.1 u.2) then .refuse 5
        else s.change g.part (.done [] { s with grants := s.grants.flatMap fun x => x.without lo len })))

/-- KERNEL_BIND (R340): the tag is written over BINDTAG, and the digest joins the measurement log. -/
def execKernelBind (h : Cmd) (va : BitVec 64) (s : State) : Host.Outcome State Fault Refusal :=
  let p := h.part.toNat
  .next (s.command (.kernelBind h va) h .own (match s.readImage p va [], (s.part p).session with
    | .ok img, some se => match s.devWrite p (va + 32) (bytesLE 16 (bindTag se.secret img)) [] with
      | .ok t =>
        let d := imageDigest img
        .done [(64, d.toNat)] (t.modPart p fun x => { x with measured := x.measured ++ [d] })
      | .error _ => .refuse 4
    | _, _ => .refuse 4))

/-! ### Queues (R26, R28, R37, R344) -/

/-- R26: a queue's configuration register. -/
def Queue.register (q : Queue) : Nat :=
  q.cseq * 2 ^ 208 + q.wfail * 2 ^ 200 + q.herr * 2 ^ 197 + q.halt.toNat * 2 ^ 196 + q.enable.toNat * 2 ^ 195 + q.qprio * 2 ^ 192
    + q.wdog * 2 ^ 160 + q.granted.toNat * 2 ^ 147 + q.part * 2 ^ 144 + q.logn * 2 ^ 128 + q.taila.toNat * 2 ^ 64 + q.ringa.toNat

/-- R344: is a queue granted to a partition? -/
def State.ownsQueue (s : State) (p queue : Nat) : Bool := (s.queue queue).granted && (s.queue queue).part == p

/-- QUEUE_CFG (R26): a queue that becomes enabled takes the writes of its tail word from then on; one whose HALT is cleared reads
the tail word again (R28). -/
def execQueueCfg (h : Cmd) (queue : Nat) (fields : QueueFields) (s : State) : Host.Outcome State Fault Refusal :=
  let p := h.part.toNat
  let q := s.queue queue
  .next (s.command (.queueCfg h queue fields) h .own
    (if Config.queues ≤ queue then .refuse 4
     else if !s.ownsQueue p queue then .refuse 7
     else if fields.taila.toNat % 8 ≠ 0 || fields.ringa.toNat % 4096 ≠ 0 || (fields.enable && fields.logn == 0) then .refuse 4
     else if q.enable && !q.halt then .refuse 5
     else
      let cleared := q.halt && !fields.halt
      let q2 := { q with
        reread := (q.reread || cleared), halt := q.halt && fields.halt, herr := if cleared then 0 else q.herr, enable := fields.enable, qprio := fields.qprio.toNat
        wdog := fields.wdog.toNat, logn := fields.logn.toNat, taila := fields.taila, ringa := fields.ringa
        wfail := if fields.wfailClear then 0 else q.wfail }
      let s := s.setQueue queue q2
      let s := if fields.enable && !q.enable then s.seenAll queue else s
      .done [] (if fields.enable && (s.queue queue).reread && !(s.queue queue).halt then s.rereadTail queue else s)))

/-- QUEUE_READ. -/
def execQueueRead (h : Cmd) (queue : Nat) (s : State) : Host.Outcome State Fault Refusal :=
  .next (s.command (.queueRead h queue) h .own
    (if Config.queues ≤ queue then .refuse 4
     else if !s.ownsQueue h.part.toNat queue then .refuse 7
     else .done [(32, (s.queue queue).register)] s))

/-- CANCEL (R282, R289): the launch is terminated with STATUS 4. -/
def execCancel (h : Cmd) (queue : Nat) (seq : BitVec 48) (s : State) : Host.Outcome State Fault Refusal :=
  .next (s.command (.cancel h queue seq) h .own
    (if Config.queues ≤ queue then .refuse 4
     else if !s.ownsQueue h.part.toNat queue then .refuse 7
     else match s.launches.find? fun x => x.2.queue == queue && x.2.seq == seq.toNat && x.2.parent.isNone with
      | none => .refuse 4
      | some (lid, l) => if l.state = .claiming && l.ending.isNone && l.stage ≠ 2 then .done [] (s.terminate lid 4) else .refuse 5))

/-- SUSPEND (R289): every team of the partition is requested. -/
def execSuspend (h : Cmd) (s : State) : Host.Outcome State Fault Refusal :=
  let p := h.part.toNat
  .next (s.command (.suspend h) h .own
    (.done [] ((((s.teams.filter fun t => (s.launch t.2.launch).part == p).map fun t => t.1).foldl
      (State.requestTeam · .suspension ·) s).modPart p fun x => { x with suspended := true })))

/-- RESUME (R292): the partition's teams may be placed again. -/
def execFwResume (h : Cmd) (s : State) : Host.Outcome State Fault Refusal :=
  .next (s.command (.fwResume h) h .own (s.setting h fun p => { p with suspended := false }))

/-- QUEUE_GRANT (R344). A queue that passes to another partition leaves its queued blocks behind. -/
def execQueueGrant (h : Cmd) (queue : Nat) (release : Bool) (s : State) : Host.Outcome State Fault Refusal :=
  let p := h.part.toNat
  let q := s.queue queue
  .next (s.command (.queueGrant h queue release) h .op
    (if Config.queues ≤ queue || (aget? s.parts p).isNone then .refuse 4
     else if q.enable || s.busyQueue queue then .refuse 5
     else if release then .done [] (s.setQueue queue { q with granted := false })
     else if q.part = p then .done [] (s.setQueue queue { q with granted := true })
     else
      let s := { s with launches := s.launches.filter fun x => !(x.2.queue == queue && x.2.state == LaunchState.queued) }
      .done [] (s.setQueue queue { q with granted := true, part := p, tail := q.cseq, read := q.cseq })))

/-! ### Time, ports, logs, pre-emption, links, power -/

/-- TIME_CFG (R138, R139). -/
def execTimeCfg (h : Cmd) (hzi k : BitVec 6) (t : BitVec 64) (s : State) : Host.Outcome State Fault Refusal :=
  let p := h.part.toNat
  .next (s.command (.timeCfg h hzi k t) h .own
    (if 40 < k.toNat then .refuse 4
     else if s.launches.any fun x => x.2.part == p && x.2.state == .claiming then .refuse 5
     else
      let s := s.modPart p fun x => { x with hzi := hzi.toNat, k := k.toNat, time := t.toNat, phaseNs := 0 }
      .done [] ((bitList 8 (s.part p).dies.toNat).foldl (fun s d =>
        s.setDie d { s.die d with horizon := tstamp t.toNat, messages := [] }) s)))

/-- PORT_STAMP (R143). -/
def execPortStamp (h : Cmd) (port : Nat) (origin : Stamp) (omode : BitVec 2) (egen : Bool) (egmax : BitVec 29) (s : State) :
    Host.Outcome State Fault Refusal :=
  let p := h.part.toNat
  let auth := ((s.part p).session.map fun x => x.stampAuth).getD false
  .next (s.command (.portStamp h port origin omode egen egmax) h .own (s.change p
    (if 20 < port || omode = 3 || (omode = 2 && (port = 0 || 16 < port)) then .refuse 4
     else if omode ≠ 0 && !auth then .refuse 7
     else s.setting h fun x => { x with ports := mset PortStamp.zero x.ports port ⟨origin, omode.toNat, egen, egmax.toNat⟩ })))

/-- WLOG_CFG (R186). -/
def execWlogCfg (h : Cmd) (ringa : BitVec 64) (logn : BitVec 4) (enable : Bool) (s : State) : Host.Outcome State Fault Refusal :=
  .next (s.command (.wlogCfg h ringa logn enable) h .own (s.change h.part.toNat
    (if ringa.toNat % 4096 ≠ 0 || (enable && logn.toNat < 4) then .refuse 4
     else s.setting h fun p => { p with wlogRing := ringa, wlogN := logn.toNat, wlogOn := enable, wlogged := [] })))

/-- PREEMPT_CFG (R287). -/
def execPreemptCfg (h : Cmd) (drainp flushp : BitVec 8) (parkth : BitVec 7) (s : State) : Host.Outcome State Fault Refusal :=
  .next (s.command (.preemptCfg h drainp flushp parkth) h .own (s.change h.part.toNat
    (if 100 < parkth.toNat then .refuse 4
     else s.setting h fun p => { p with drainp := drainp.toNat, flushp := flushp.toNat, parkth := parkth.toNat })))

/-- DOMAIN_SET (R310): an LDOM towards a device binds one partition. -/
def execDomainSet (h : Cmd) (dev : BitVec 8) (valid : Bool) (ldom : BitVec 3) (ports : BitVec 16) (linkKey : BitVec 256) (s : State) :
    Host.Outcome State Fault Refusal :=
  let p := h.part.toNat
  .next (s.command (.domainSet h dev valid ldom ports linkKey) h .own (s.change p
    (if valid && s.parts.any (fun q => q.1 != p && (match aget? q.2.domain dev.toNat with
        | some e => e.ldom == ldom
        | none => false)) then .refuse 7
     else s.setting h fun x =>
      { x with domain := if valid then aset x.domain dev.toNat ⟨ldom, ports, linkKey⟩ else adel x.domain dev.toNat })))

/-- LINK_RETRAIN (R309). -/
def execLinkRetrain (h : Cmd) (port : Nat) (s : State) : Host.Outcome State Fault Refusal :=
  .next (s.command (.linkRetrain h port) h .op
    (if port = 0 || 16 < port then .refuse 4 else .done [] (s.setPort port { s.port port with down := false })))

/-- POWER_CAP (R348). -/
def execPowerCap (h : Cmd) (watts : Nat) (s : State) : Host.Outcome State Fault Refusal :=
  .next (s.command (.powerCap h watts) h .op
    (if watts < 1200 || 2200 < watts then .refuse 4 else .done [] { s with module := { s.module with cap := watts } }))

/-- R343: every other code returns status 1. -/
def execUnknownCommand (h : Cmd) (code : BitVec 16) (s : State) : Host.Outcome State Fault Refusal :=
  .next (if !s.answers h then s
    else if s.module.waiting ≠ [] then (s.ring (.unknownCommand h code) h).wait (.unknownCommand h code)
    else (s.ring (.unknownCommand h code) h).reply h (s.response h false 1 []))

/-! ### Commands that had to wait (R342) -/

/-- Carry out a command again that had to wait. -/
def runCommand (i : Instr) (s : State) : State :=
  goOn s (match i with
    | .identify h => execIdentify h s
    | .attest h n => execAttest h n s
    | .partCreate h d => execPartCreate h d s
    | .partDestroy h => execPartDestroy h s
    | .sessionOpen h k x ok a => execSessionOpen h k x ok a s
    | .keyRotate h => execKeyRotate h s
    | .rootSet h a => execRootSet h a s
    | .map h va l e => execMap h va l e s
    | .backingSet h va r => execBackingSet h va r s
    | .hostwin h w b o z r x => execHostwin h w b o z r x s
    | .memGrant h lo n c => execMemGrant h lo n c s
    | .memRevoke h lo n => execMemRevoke h lo n s
    | .kernelBind h va => execKernelBind h va s
    | .queueCfg h q f => execQueueCfg h q f s
    | .queueRead h q => execQueueRead h q s
    | .cancel h q n => execCancel h q n s
    | .suspend h => execSuspend h s
    | .fwResume h => execFwResume h s
    | .queueGrant h q r => execQueueGrant h q r s
    | .timeCfg h a k t => execTimeCfg h a k t s
    | .portStamp h p o m e x => execPortStamp h p o m e x s
    | .wlogCfg h r n e => execWlogCfg h r n e s
    | .preemptCfg h d f k => execPreemptCfg h d f k s
    | .domainSet h d v l p k => execDomainSet h d v l p k s
    | .linkRetrain h p => execLinkRetrain h p s
    | .powerCap h w => execPowerCap h w s
    | .unknownCommand h c => execUnknownCommand h c s
    | _ => .next s)

/-- The commands that wait are taken up again in the order of their doorbells, until one has still to wait. -/
def State.serveCommands (s : State) : State :=
  s.module.waiting.foldl (fun s i => { runCommand i s with module := { (runCommand i s).module with mailboxes := s.module.mailboxes } })
    { s with module := { s.module with waiting := [] } }

end Sys2Proof.Machine
end

