-- ==== Sys2Proof/Machine/Integer.lean ====
section
/-!
DEFINITION. Integer, logic and address instructions, MOV to LEA (R95 to R106).
-/
namespace Sys2Proof.Machine

/-- The least and greatest values of an integer type (R98). -/
def loOf (t : Ty) : Int := if t.isSigned then -(2 ^ (t.bits - 1) : Nat) else 0
def hiOf (t : Ty) : Int := if t.isSigned then (2 ^ (t.bits - 1) : Nat) - 1 else (2 ^ t.bits : Nat) - 1

/-- R98: `.sat` clamps, anything else wraps when it is written. -/
def clamp (t : Ty) (sat : Bool) (v : Int) : Int := if sat then min (max v (loOf t)) (hiOf t) else v

/-- A result under the whole stamp rule (R92). -/
def intOut (x : Ctx) (t : Ty) (v : Int) (os : List Opnd) : LaneOut :=
  { regs := resultRegs t v (x.whole os) (x.whole os) }

/-- A result under the per-half stamp rule (R92). -/
def halfOut (x : Ctx) (t : Ty) (v : Nat) (os : List Opnd) : LaneOut :=
  { regs := resultRegs t v (x.half os).1 (x.half os).2 }

/-- Two operands of TYPE as numbers. -/
def binInt (x : Ctx) (f : ArithF) (op : Int → Int → Int) (fb : Fibre) : LaneOut :=
  let a := x.read fb f.ty f.imm f.a
  let b := x.read fb f.ty f.imm f.b
  intOut x f.ty (op (numOf f.ty a.val) (numOf f.ty b.val)) [a, b]

/-- Two operands combined bit by bit. -/
def binBits (x : Ctx) (f : ArithF) (op : Nat → Nat → Nat) (fb : Fibre) : LaneOut :=
  let a := x.read fb f.ty f.imm f.a
  let b := x.read fb f.ty f.imm f.b
  halfOut x f.ty (op a.val b.val) [a, b]

/-- R96: MOV. -/
def execMov (f : ArithF) (s : State) : Host.Outcome State Fault Refusal :=
  onSlot f.g s fun x s => lanewise x s f.d fun fb =>
    let a := x.read fb f.ty f.imm f.a
    halfOut x f.ty a.val [a]

/-- R96: MOVI; `.hi` writes the odd register alone. -/
def execMovi (f : ArithF) (s : State) : Host.Outcome State Fault Refusal :=
  onSlot f.g s fun x s => lanewise x s f.d fun _ =>
    if f.sub = 1 then { regs := [(1, ⟨f.imm, 0⟩)] }
    else { regs := resultRegs f.ty (immVal f.ty f.imm) 0 0 }

/-- R97: SEL. -/
def execSel (f : ArithF) (s : State) : Host.Outcome State Fault Refusal :=
  onSlot f.g s fun x s => lanewise x s f.d fun fb =>
    let a := if readPred fb f.c then x.read fb f.ty f.imm f.a else x.read fb f.ty f.imm f.b
    halfOut x f.ty a.val [a]

/-- R98: IADD. -/
def execIadd (f : ArithF) (s : State) : Host.Outcome State Fault Refusal :=
  onSlot f.g s fun x s => lanewise x s f.d (binInt x f fun a b => clamp f.ty (f.sub == 1) (a + b))

/-- R98: ISUB. -/
def execIsub (f : ArithF) (s : State) : Host.Outcome State Fault Refusal :=
  onSlot f.g s fun x s => lanewise x s f.d (binInt x f fun a b => clamp f.ty (f.sub == 1) (a - b))

/-- R98: IMUL. -/
def execImul (f : ArithF) (s : State) : Host.Outcome State Fault Refusal :=
  onSlot f.g s fun x s => lanewise x s f.d (binInt x f fun a b => clamp f.ty (f.sub == 1) (a * b))

/-- R98: IMULH, the high half of the product, rounded down. -/
def execImulh (f : ArithF) (s : State) : Host.Outcome State Fault Refusal :=
  onSlot f.g s fun x s => lanewise x s f.d (binInt x f fun a b => (a * b).fdiv (2 ^ f.ty.bits : Nat))

/-- R98: IMAD; with `.wide`, C and the result are 64-bit pairs, and an immediate C is that of TYPE (R49), zero-extended (R92). -/
def execImad (f : ArithF) (s : State) : Host.Outcome State Fault Refusal :=
  onSlot f.g s fun x s => lanewise x s f.d fun fb =>
    let tw : Ty := if f.sub = 2 then (if f.ty = .i32 then .i64 else .n64) else f.ty
    let a := x.read fb f.ty f.imm f.a
    let b := x.read fb f.ty f.imm f.b
    let c := x.read fb (if f.c = .imm then f.ty else tw) f.imm f.c
    intOut x tw (clamp f.ty (f.sub == 1) (numOf f.ty a.val * numOf f.ty b.val + numOf tw c.val)) [a, b, c]

/-- R99: quotients and remainders with the fixed results for a zero divisor and for lo / −1. -/
def divInt (t : Ty) (a b : Int) : Int := if b = 0 then -1 else if a = loOf t && b = -1 then loOf t else a.tdiv b
def remInt (t : Ty) (a b : Int) : Int := if b = 0 then a else if a = loOf t && b = -1 then 0 else a.tmod b

def divLane (x : Ctx) (f : ArithF) (op : Int → Int → Int) (fb : Fibre) : LaneOut :=
  let b := x.read fb f.ty f.imm f.b
  if f.sub = 1 && numOf f.ty b.val = 0 then { cause := some 0x0E0 } else binInt x f op fb

/-- R99: IDIV. -/
def execIdiv (f : ArithF) (s : State) : Host.Outcome State Fault Refusal :=
  onSlot f.g s fun x s => lanewise x s f.d (divLane x f (divInt f.ty))

/-- R99: IREM. -/
def execIrem (f : ArithF) (s : State) : Host.Outcome State Fault Refusal :=
  onSlot f.g s fun x s => lanewise x s f.d (divLane x f (remInt f.ty))

/-- R100: IMIN. -/
def execImin (f : ArithF) (s : State) : Host.Outcome State Fault Refusal :=
  onSlot f.g s fun x s => lanewise x s f.d (binInt x f min)

/-- R100: IMAX. -/
def execImax (f : ArithF) (s : State) : Host.Outcome State Fault Refusal :=
  onSlot f.g s fun x s => lanewise x s f.d (binInt x f max)

/-- R100: IABS; `.sat` gives hi for lo. -/
def execIabs (f : ArithF) (s : State) : Host.Outcome State Fault Refusal :=
  onSlot f.g s fun x s => lanewise x s f.d fun fb =>
    let a := x.read fb f.ty f.imm f.a
    intOut x f.ty (clamp f.ty (f.sub == 1) (numOf f.ty a.val).natAbs) [a]

/-- R100: INEG; `.sat` gives hi for lo. -/
def execIneg (f : ArithF) (s : State) : Host.Outcome State Fault Refusal :=
  onSlot f.g s fun x s => lanewise x s f.d fun fb =>
    let a := x.read fb f.ty f.imm f.a
    intOut x f.ty (clamp f.ty (f.sub == 1) (-(numOf f.ty a.val))) [a]

/-- R101: AND. -/
def execAnd (f : ArithF) (s : State) : Host.Outcome State Fault Refusal :=
  onSlot f.g s fun x s => lanewise x s f.d (binBits x f fun a b => a &&& b)

/-- R101: OR. -/
def execOr (f : ArithF) (s : State) : Host.Outcome State Fault Refusal :=
  onSlot f.g s fun x s => lanewise x s f.d (binBits x f fun a b => a ||| b)

/-- R101: XOR. -/
def execXor (f : ArithF) (s : State) : Host.Outcome State Fault Refusal :=
  onSlot f.g s fun x s => lanewise x s f.d (binBits x f fun a b => a ^^^ b)

/-- R101: NOT. -/
def execNot (f : ArithF) (s : State) : Host.Outcome State Fault Refusal :=
  onSlot f.g s fun x s => lanewise x s f.d fun fb =>
    let a := x.read fb f.ty f.imm f.a
    halfOut x f.ty (2 ^ f.ty.bits - 1 - a.val) [a]

/-- R101: bit k of BLOP's result is bit 4a + 2b + c of the truth table. -/
def blopBits (tt a b c n : Nat) : Nat :=
  ((List.range n).map fun k =>
    if tt.testBit (4 * bitsN a k 1 + 2 * bitsN b k 1 + bitsN c k 1) then 2 ^ k else 0).sum

/-- R101: BLOP. -/
def execBlop (f : ArithF) (s : State) : Host.Outcome State Fault Refusal :=
  onSlot f.g s fun x s => lanewise x s f.d fun fb =>
    let a := x.read fb f.ty f.imm f.a
    let b := x.read fb f.ty f.imm f.b
    let c := x.read fb f.ty f.imm f.c
    halfOut x f.ty (blopBits f.imm.toNat a.val b.val c.val f.ty.bits) [a, b, c]

/-- R102: a shift of the n bits of A by the unsigned count of B. -/
def shiftLane (x : Ctx) (f : ArithF) (op : Nat → Nat → Nat → Int) (fb : Fibre) : LaneOut :=
  let a := x.read fb f.ty f.imm f.a
  let k := x.read32 fb f.imm f.b
  intOut x f.ty (op f.ty.bits a.val k.val) [a, k]

/-- R102: SHL. -/
def execShl (f : ArithF) (s : State) : Host.Outcome State Fault Refusal :=
  onSlot f.g s fun x s => lanewise x s f.d
    (shiftLane x f fun n a k => if n ≤ k then 0 else ((a * 2 ^ k % 2 ^ n : Nat) : Int))

/-- R102: SHR. -/
def execShr (f : ArithF) (s : State) : Host.Outcome State Fault Refusal :=
  onSlot f.g s fun x s => lanewise x s f.d
    (shiftLane x f fun n a k => if n ≤ k then 0 else ((a / 2 ^ k : Nat) : Int))

/-- R102: SAR. -/
def execSar (f : ArithF) (s : State) : Host.Outcome State Fault Refusal :=
  onSlot f.g s fun x s => lanewise x s f.d
    (shiftLane x f fun n a k => (sextN n a).fdiv (2 ^ (if n ≤ k then n else k) : Nat))

/-- R102: ROT. -/
def execRot (f : ArithF) (s : State) : Host.Outcome State Fault Refusal :=
  onSlot f.g s fun x s => lanewise x s f.d
    (shiftLane x f fun n a k => (((a * 2 ^ (k % n)) % 2 ^ n + a * 2 ^ (k % n) / 2 ^ n : Nat) : Int))

/-- R103: BFE of the n bits `a`, position p and length l. -/
def bfe (t : Ty) (a p l : Nat) : Int :=
  let n := t.bits
  let l := min l n
  let wide : Int := if t.isSigned then sextN n a else (a : Int)
  let field := wrapN l (wide.fdiv (2 ^ p : Nat))
  if l = 0 then 0 else if t.isSigned then sextN l field else field

/-- R103: BFE. -/
def execBfe (f : ArithF) (s : State) : Host.Outcome State Fault Refusal :=
  onSlot f.g s fun x s => lanewise x s f.d fun fb =>
    let a := x.read fb f.ty f.imm f.a
    let k := x.read32 fb f.imm f.b
    intOut x f.ty (bfe f.ty a.val (bitsN k.val 0 8) (bitsN k.val 8 8)) [a, k]

/-- R103: BFI puts the low bits of `c` into `a`. -/
def bfi (n a c p l : Nat) : Nat :=
  let l := min l n
  ((List.range n).map fun k =>
    if p ≤ k && k < p + l then (if c.testBit (k - p) then 2 ^ k else 0) else if a.testBit k then 2 ^ k else 0).sum

/-- R103: BFI. -/
def execBfi (f : ArithF) (s : State) : Host.Outcome State Fault Refusal :=
  onSlot f.g s fun x s => lanewise x s f.d fun fb =>
    let a := x.read fb f.ty f.imm f.a
    let k := x.read32 fb f.imm f.b
    let c := x.read fb f.ty f.imm f.c
    intOut x f.ty (bfi f.ty.bits a.val c.val (bitsN k.val 0 8) (bitsN k.val 8 8)) [a, k, c]

/-- R104: POPC. -/
def execPopc (f : ArithF) (s : State) : Host.Outcome State Fault Refusal :=
  onSlot f.g s fun x s => lanewise x s f.d fun fb =>
    let a := x.read fb f.ty f.imm f.a
    intOut x .b32 (bitList f.ty.bits a.val).length [a]

/-- R104: CLZ. -/
def execClz (f : ArithF) (s : State) : Host.Outcome State Fault Refusal :=
  onSlot f.g s fun x s => lanewise x s f.d fun fb =>
    let a := x.read fb f.ty f.imm f.a
    intOut x .b32 (if a.val = 0 then f.ty.bits else f.ty.bits - 1 - Nat.log2 a.val : Nat) [a]

/-- R104: BREV. -/
def execBrev (f : ArithF) (s : State) : Host.Outcome State Fault Refusal :=
  onSlot f.g s fun x s => lanewise x s f.d fun fb =>
    let a := x.read fb f.ty f.imm f.a
    intOut x f.ty (((bitList f.ty.bits a.val).map fun k => 2 ^ (f.ty.bits - 1 - k)).sum : Nat) [a]

/-- R105: LEA. -/
def execLea (f : ArithF) (s : State) : Host.Outcome State Fault Refusal :=
  onSlot f.g s fun x s => lanewise x s f.d fun fb =>
    let a := x.read fb .b64 0 f.a
    let b := x.read fb f.ty 0 f.b
    intOut x .b64 ((a.val : Int) + numOf f.ty b.val * 2 ^ f.sub.toNat + f.imm.toInt) [a, b]

end Sys2Proof.Machine
end

