-- ==== Sys2Proof/Machine/Stamps.lean ====
section
/-!
DEFINITION. Stamp and time instructions, STGET to HZN (R151 to R158).
-/
namespace Sys2Proof.Machine

/-- R151: the stamp of an operand, over both halves of a pair. -/
def Ctx.st (x : Ctx) (o : Opnd) : Stamp := older x.h o.lo o.hi

/-- R152: STGET. -/
def execStget (f : ArithF) (s : State) : Host.Outcome State Fault Refusal :=
  onSlot f.g s fun x s => lanewise x s f.d fun fb =>
    { regs := [(0, ⟨x.st (x.read fb f.ty f.imm f.a), 0⟩)] }

/-- R153: STSET. -/
def execStset (f : ArithF) (s : State) : Host.Outcome State Fault Refusal :=
  onSlot f.g s fun x s => lanewise x s f.d fun fb =>
    let a := x.read fb f.ty f.imm f.a
    let b : Word := BitVec.ofNat 32 (x.read32 fb f.imm f.b).val
    if x.l.stauth then
      if ageOf x.hh x.h b = .future then { cause := some 0x084, stamp := b }
      else { regs := resultRegs f.ty (a.val : Int) b b }
    else { regs := resultRegs f.ty (a.val : Int) (older x.h b a.lo) (older x.h b a.hi) }

/-- R154: STLESS. -/
def execStless (f : ArithF) (s : State) : Host.Outcome State Fault Refusal :=
  onSlot f.g s fun x s => lanewise x s f.d fun fb =>
    let a := x.st (x.read fb f.ty f.imm f.a)
    let b := x.st (x.read fb f.ty f.imm f.b)
    { pred := some (a != 0 && b != 0 && decide (sd x.h b < sd x.h a)) }

/-- R154: STMIN. -/
def execStmin (f : ArithF) (s : State) : Host.Outcome State Fault Refusal :=
  onSlot f.g s fun x s => lanewise x s f.d fun fb =>
    let a := x.read fb f.ty f.imm f.a
    let b := x.st (x.read fb f.ty f.imm f.b)
    { regs := resultRegs f.ty (a.val : Int) (older x.h a.lo b) (older x.h a.hi b) }

/-- R155: AGE; `.nf` gives all ones for a future stamp. -/
def execAge (f : ArithF) (s : State) : Host.Outcome State Fault Refusal :=
  onSlot f.g s fun x s => lanewise x s f.d fun fb =>
    let st := x.st (x.read fb f.ty f.imm f.a)
    match ageOf x.hh x.h st with
    | .timeless => { regs := [(0, ⟨0, 0⟩)] }
    | .age n => { regs := [(0, ⟨BitVec.ofNat 32 n, 0⟩)] }
    | .future => if f.sub = 1 then { regs := [(0, ⟨0xFFFFFFFF, 0⟩)] } else { cause := some 0x084, stamp := st }

/-- R156: FRESH and FRESH.trap. -/
def execFresh (f : ArithF) (s : State) : Host.Outcome State Fault Refusal :=
  onSlot f.g s fun x s => lanewise x s f.d fun fb =>
    let st := x.st (x.read fb f.ty f.imm f.a)
    let b : Word := BitVec.ofNat 32 (x.read32 fb f.imm f.b).val
    match boundCause x.hh x.h (some b) 0x082 st with
    | none => { pred := some true }
    | some 0x082 => if f.sub = 1 then { cause := some 0x082, stamp := st, bound := b } else { pred := some false }
    | some c => { cause := some c, stamp := st, bound := b }

/-- R158: HZN. -/
def execHzn (f : ArithF) (s : State) : Host.Outcome State Fault Refusal :=
  onSlot f.g s fun x s => lanewise x s f.d fun _ => { regs := [(0, ⟨x.h, tstamp x.h.toNat⟩)] }

/-- R157: TIME asks the yard die. -/
def execTime (f : ArithF) (s : State) : Host.Outcome State Fault Refusal :=
  onSlot f.g s fun x s =>
    if x.act = [] then s.advance x
    else (s.startOp x .none (.time (.time f) (s.part x.l.part).time)).advance x

/-- R157: the reply writes the time to every active lane, or to the scalar pair. Replies of one slot come in order, so
that they do not decrease. -/
def execTimeReply (o : Nat) (s : State) : Host.Outcome State Fault Refusal :=
  match aget? s.ops o with
  | some ⟨h, .time (.time f) _⟩ =>
    if (s.opsOf h.g h.team).any fun p => p.1 < o && (match p.2.body with | .time .. => true | _ => false) then .next s
    else
      let t := (s.part h.part).time
      let st := tstamp t
      let regs := [(0, (⟨BitVec.ofNat 32 t, st⟩ : Reg)), (1, ⟨BitVec.ofNat 32 (t / 2 ^ 32), st⟩)]
      let lanes := match f.d with
        | .scl _ => h.lanes.take 1
        | _ => h.lanes
      .next ((lanes.foldl (fun s a => s.opWrite h a.2 f.d regs) s).endOp o h)
  | _ => .next s

end Sys2Proof.Machine
end

