-- ==== Sys2Proof/Machine/Dispatch.lean ====
section
/-!
DEFINITION. The one dispatch from a constructor of Instr to its meaning.
-/
namespace Sys2Proof.Machine

def exec (i : Instr) (s : State) : Host.Outcome State Fault Refusal :=
  match i with
  | .nop f => Sys2Proof.Machine.execNop f s
  | .bra f => Sys2Proof.Machine.execBra f s
  | .brx f => Sys2Proof.Machine.execBrx f s
  | .jmp f => Sys2Proof.Machine.execJmp f s
  | .call f => Sys2Proof.Machine.execCall f s
  | .callx f => Sys2Proof.Machine.execCallx f s
  | .ret f => Sys2Proof.Machine.execRet f s
  | .join f => Sys2Proof.Machine.execJoin f s
  | .joinRelease g => Sys2Proof.Machine.execJoinRelease g s
  | .fspawn f => Sys2Proof.Machine.execFspawn f s
  | .spillReturn core q => Sys2Proof.Machine.execSpillReturn core q s
  | .fend f => Sys2Proof.Machine.execFend f s
  | .exit f => Sys2Proof.Machine.execExit f s
  | .yield f => Sys2Proof.Machine.execYield f s
  | .yieldRelease g => Sys2Proof.Machine.execYieldRelease g s
  | .sleep f => Sys2Proof.Machine.execSleep f s
  | .sleepExpire g => Sys2Proof.Machine.execSleepExpire g s
  | .brk f => Sys2Proof.Machine.execBrk f s
  | .trap f => Sys2Proof.Machine.execTrap f s
  | .pset f => Sys2Proof.Machine.execPset f s
  | .plop f => Sys2Proof.Machine.execPlop f s
  | .pmovGet f => Sys2Proof.Machine.execPmovGet f s
  | .pmovPut f => Sys2Proof.Machine.execPmovPut f s
  | .vote f => Sys2Proof.Machine.execVote f s
  | .elect f => Sys2Proof.Machine.execElect f s
  | .shfl f => Sys2Proof.Machine.execShfl f s
  | .vred f => Sys2Proof.Machine.execVred f s
  | .vscan f => Sys2Proof.Machine.execVscan f s
  | .mov f => Sys2Proof.Machine.execMov f s
  | .movi f => Sys2Proof.Machine.execMovi f s
  | .sel f => Sys2Proof.Machine.execSel f s
  | .iadd f => Sys2Proof.Machine.execIadd f s
  | .isub f => Sys2Proof.Machine.execIsub f s
  | .imul f => Sys2Proof.Machine.execImul f s
  | .imulh f => Sys2Proof.Machine.execImulh f s
  | .imad f => Sys2Proof.Machine.execImad f s
  | .idiv f => Sys2Proof.Machine.execIdiv f s
  | .irem f => Sys2Proof.Machine.execIrem f s
  | .imin f => Sys2Proof.Machine.execImin f s
  | .imax f => Sys2Proof.Machine.execImax f s
  | .iabs f => Sys2Proof.Machine.execIabs f s
  | .ineg f => Sys2Proof.Machine.execIneg f s
  | .and f => Sys2Proof.Machine.execAnd f s
  | .or f => Sys2Proof.Machine.execOr f s
  | .xor f => Sys2Proof.Machine.execXor f s
  | .not f => Sys2Proof.Machine.execNot f s
  | .blop f => Sys2Proof.Machine.execBlop f s
  | .shl f => Sys2Proof.Machine.execShl f s
  | .shr f => Sys2Proof.Machine.execShr f s
  | .sar f => Sys2Proof.Machine.execSar f s
  | .rot f => Sys2Proof.Machine.execRot f s
  | .bfe f => Sys2Proof.Machine.execBfe f s
  | .bfi f => Sys2Proof.Machine.execBfi f s
  | .popc f => Sys2Proof.Machine.execPopc f s
  | .clz f => Sys2Proof.Machine.execClz f s
  | .brev f => Sys2Proof.Machine.execBrev f s
  | .lea f => Sys2Proof.Machine.execLea f s
  | .fadd f => Sys2Proof.Machine.execFadd f s
  | .fsub f => Sys2Proof.Machine.execFsub f s
  | .fmul f => Sys2Proof.Machine.execFmul f s
  | .ffma f => Sys2Proof.Machine.execFfma f s
  | .fmin f => Sys2Proof.Machine.execFmin f s
  | .fmax f => Sys2Proof.Machine.execFmax f s
  | .fabs f => Sys2Proof.Machine.execFabs f s
  | .fneg f => Sys2Proof.Machine.execFneg f s
  | .fdiv f => Sys2Proof.Machine.execFdiv f s
  | .fsqrt f => Sys2Proof.Machine.execFsqrt f s
  | .frcp f => Sys2Proof.Machine.execFrcp f s
  | .frsq f => Sys2Proof.Machine.execFrsq f s
  | .fexp2 f => Sys2Proof.Machine.execFexp2 f s
  | .flog2 f => Sys2Proof.Machine.execFlog2 f s
  | .fsin f => Sys2Proof.Machine.execFsin f s
  | .fcos f => Sys2Proof.Machine.execFcos f s
  | .fcmp f => Sys2Proof.Machine.execFcmp f s
  | .fclass f => Sys2Proof.Machine.execFclass f s
  | .fscalb f => Sys2Proof.Machine.execFscalb f s
  | .frnd f => Sys2Proof.Machine.execFrnd f s
  | .cvt f => Sys2Proof.Machine.execCvt f s
  | .cvtMx8 f => Sys2Proof.Machine.execCvtMx8 f s
  | .qblk f => Sys2Proof.Machine.execQblk f s
  | .dqblk f => Sys2Proof.Machine.execDqblk f s
  | .mxq f => Sys2Proof.Machine.execMxq f s
  | .mxdq f => Sys2Proof.Machine.execMxdq f s
  | .pack f => Sys2Proof.Machine.execPack f s
  | .unpack f => Sys2Proof.Machine.execUnpack f s
  | .stget f => Sys2Proof.Machine.execStget f s
  | .stset f => Sys2Proof.Machine.execStset f s
  | .stless f => Sys2Proof.Machine.execStless f s
  | .stmin f => Sys2Proof.Machine.execStmin f s
  | .age f => Sys2Proof.Machine.execAge f s
  | .fresh f => Sys2Proof.Machine.execFresh f s
  | .time f => Sys2Proof.Machine.execTime f s
  | .timeReply op => Sys2Proof.Machine.execTimeReply op s
  | .hzn f => Sys2Proof.Machine.execHzn f s
  | .ld f => Sys2Proof.Machine.execLd f s
  | .st f => Sys2Proof.Machine.execSt f s
  | .lde f => Sys2Proof.Machine.execLde f s
  | .ldg f => Sys2Proof.Machine.execLdg f s
  | .sct f => Sys2Proof.Machine.execSct f s
  | .ldt f => Sys2Proof.Machine.execLdt f s
  | .lds f => Sys2Proof.Machine.execLds f s
  | .sts f => Sys2Proof.Machine.execSts f s
  | .pref f => Sys2Proof.Machine.execPref f s
  | .cctlWb f => Sys2Proof.Machine.execCctlWb f s
  | .cctlInv f => Sys2Proof.Machine.execCctlInv f s
  | .cctlLu f => Sys2Proof.Machine.execCctlLu f s
  | .bankcfg f => Sys2Proof.Machine.execBankcfg f s
  | .bankDrainDone cluster bank => Sys2Proof.Machine.execBankDrainDone cluster bank s
  | .wlog f => Sys2Proof.Machine.execWlog f s
  | .loadDataArrive op => Sys2Proof.Machine.execLoadDataArrive op s
  | .storeApply op gran => Sys2Proof.Machine.execStoreApply op gran s
  | .mma f => Sys2Proof.Machine.execMma f s
  | .mmaStep op => Sys2Proof.Machine.execMmaStep op s
  | .tzero f => Sys2Proof.Machine.execTzero f s
  | .tldm f => Sys2Proof.Machine.execTldm f s
  | .trd f => Sys2Proof.Machine.execTrd f s
  | .twr f => Sys2Proof.Machine.execTwr f s
  | .tscl f => Sys2Proof.Machine.execTscl f s
  | .tileRetire op => Sys2Proof.Machine.execTileRetire op s
  | .vproj f => Sys2Proof.Machine.execVproj f s
  | .vprojChunk op => Sys2Proof.Machine.execVprojChunk op s
  | .vprojb f => Sys2Proof.Machine.execVprojb f s
  | .vmerge f => Sys2Proof.Machine.execVmerge f s
  | .vrset f => Sys2Proof.Machine.execVrset f s
  | .xcopy f => Sys2Proof.Machine.execXcopy f s
  | .xcopyPush f => Sys2Proof.Machine.execXcopyPush f s
  | .xcopyPop f => Sys2Proof.Machine.execXcopyPop f s
  | .xfill f => Sys2Proof.Machine.execXfill f s
  | .xconv f => Sys2Proof.Machine.execXconv f s
  | .copyEntryComplete op => Sys2Proof.Machine.execCopyEntryComplete op s
  | .wait f => Sys2Proof.Machine.execWait f s
  | .waitseq f => Sys2Proof.Machine.execWaitseq f s
  | .seqrd f => Sys2Proof.Machine.execSeqrd f s
  | .atom f => Sys2Proof.Machine.execAtom f s
  | .atomf f => Sys2Proof.Machine.execAtomf f s
  | .cas f => Sys2Proof.Machine.execCas f s
  | .red f => Sys2Proof.Machine.execRed f s
  | .atomicApply op lane => Sys2Proof.Machine.execAtomicApply op lane s
  | .atomicResponseLost op lane => Sys2Proof.Machine.execAtomicResponseLost op lane s
  | .atomicTimeout op lane => Sys2Proof.Machine.execAtomicTimeout op lane s
  | .fence f => Sys2Proof.Machine.execFence f s
  | .xfence f => Sys2Proof.Machine.execXfence f s
  | .bar f => Sys2Proof.Machine.execBar f s
  | .phaseArrive f => Sys2Proof.Machine.execPhaseArrive f s
  | .phaseWait f => Sys2Proof.Machine.execPhaseWait f s
  | .cgload f => Sys2Proof.Machine.execCgload f s
  | .cgrun f => Sys2Proof.Machine.execCgrun f s
  | .cgstat f => Sys2Proof.Machine.execCgstat f s
  | .cappend f => Sys2Proof.Machine.execCappend f s
  | .appendApply op lane => Sys2Proof.Machine.execAppendApply op lane s
  | .cgfree f => Sys2Proof.Machine.execCgfree f s
  | .srd f => Sys2Proof.Machine.execSrd f s
  | .swr f => Sys2Proof.Machine.execSwr f s
  | .tret f => Sys2Proof.Machine.execTret f s
  | .cont f => Sys2Proof.Machine.execCont f s
  | .resume f => Sys2Proof.Machine.execResume f s
  | .prog f => Sys2Proof.Machine.execProg f s
  | .kcallPageIn f => Sys2Proof.Machine.execKcallPageIn f s
  | .kcallPageOut f => Sys2Proof.Machine.execKcallPageOut f s
  | .kcallQuery f => Sys2Proof.Machine.execKcallQuery f s
  | .kcallDone op storageOk => Sys2Proof.Machine.execKcallDone op storageOk s
  | .tailWrite queue => Sys2Proof.Machine.execTailWrite queue s
  | .launchStart queue => Sys2Proof.Machine.execLaunchStart queue s
  | .placeTeam die => Sys2Proof.Machine.execPlaceTeam die s
  | .coresidentStart launch => Sys2Proof.Machine.execCoresidentStart launch s
  | .placementStarvation die => Sys2Proof.Machine.execPlacementStarvation die s
  | .weaveFormerPlace g => Sys2Proof.Machine.execWeaveFormerPlace g s
  | .formerEmptySlot core q => Sys2Proof.Machine.execFormerEmptySlot core q s
  | .watchdogFire queue => Sys2Proof.Machine.execWatchdogFire queue s
  | .terminationTimeout queue => Sys2Proof.Machine.execTerminationTimeout queue s
  | .teamEnd team => Sys2Proof.Machine.execTeamEnd team s
  | .launchComplete launch => Sys2Proof.Machine.execLaunchComplete launch s
  | .partitionTick part => Sys2Proof.Machine.execPartitionTick part s
  | .horizonMessage die => Sys2Proof.Machine.execHorizonMessage die s
  | .refireServe g => Sys2Proof.Machine.execRefireServe g s
  | .refireReplay g => Sys2Proof.Machine.execRefireReplay g s
  | .groomPageIn part va storageOk => Sys2Proof.Machine.execGroomPageIn part va storageOk s
  | .groomPageOut part va => Sys2Proof.Machine.execGroomPageOut part va s
  | .switchOut core => Sys2Proof.Machine.execSwitchOut core s
  | .priorityPreempt die => Sys2Proof.Machine.execPriorityPreempt die s
  | .preemptSave team => Sys2Proof.Machine.execPreemptSave team s
  | .preemptDrain team => Sys2Proof.Machine.execPreemptDrain team s
  | .drainTimeout team => Sys2Proof.Machine.execDrainTimeout team s
  | .preemptFlush team => Sys2Proof.Machine.execPreemptFlush team s
  | .saveTimeout team => Sys2Proof.Machine.execSaveTimeout team s
  | .teamRestore team => Sys2Proof.Machine.execTeamRestore team s
  | .flitReceive port flit => Sys2Proof.Machine.execFlitReceive port flit s
  | .flitResend port tag => Sys2Proof.Machine.execFlitResend port tag s
  | .portDown port => Sys2Proof.Machine.execPortDown port s
  | .runTake => Sys2Proof.Machine.execRunTake s
  | .runGrant collid run => Sys2Proof.Machine.execRunGrant collid run s
  | .runStart collid run => Sys2Proof.Machine.execRunStart collid run s
  | .runRevoke collid run dev => Sys2Proof.Machine.execRunRevoke collid run dev s
  | .runAbort collid run => Sys2Proof.Machine.execRunAbort collid run s
  | .chunkReceive port flit => Sys2Proof.Machine.execChunkReceive port flit s
  | .nodeSend run node => Sys2Proof.Machine.execNodeSend run node s
  | .nodeRecv run node => Sys2Proof.Machine.execNodeRecv run node s
  | .nodeReduce run node => Sys2Proof.Machine.execNodeReduce run node s
  | .nodeCopy run node => Sys2Proof.Machine.execNodeCopy run node s
  | .nodeMerge run node => Sys2Proof.Machine.execNodeMerge run node s
  | .nodeTeam run node => Sys2Proof.Machine.execNodeTeam run node s
  | .nodeNop run node => Sys2Proof.Machine.execNodeNop run node s
  | .runComplete run => Sys2Proof.Machine.execRunComplete run s
  | .hostRead part off len => Sys2Proof.Machine.execHostRead part off len s
  | .hostWrite part off bytes => Sys2Proof.Machine.execHostWrite part off bytes s
  | .ingressWrite port part va bytes carried => Sys2Proof.Machine.execIngressWrite port part va bytes carried s
  | .backInvalidate line => Sys2Proof.Machine.execBackInvalidate line s
  | .identify h => Sys2Proof.Machine.execIdentify h s
  | .attest h nonce => Sys2Proof.Machine.execAttest h nonce s
  | .partCreate h dies => Sys2Proof.Machine.execPartCreate h dies s
  | .partDestroy h => Sys2Proof.Machine.execPartDestroy h s
  | .sessionOpen h ownerKey share sigOk stampAuth => Sys2Proof.Machine.execSessionOpen h ownerKey share sigOk stampAuth s
  | .keyRotate h => Sys2Proof.Machine.execKeyRotate h s
  | .rootSet h rdbase => Sys2Proof.Machine.execRootSet h rdbase s
  | .map h va level entry => Sys2Proof.Machine.execMap h va level entry s
  | .backingSet h va rec => Sys2Proof.Machine.execBackingSet h va rec s
  | .hostwin h win base off size hr hw => Sys2Proof.Machine.execHostwin h win base off size hr hw s
  | .memGrant h lo len cxlKind => Sys2Proof.Machine.execMemGrant h lo len cxlKind s
  | .memRevoke h lo len => Sys2Proof.Machine.execMemRevoke h lo len s
  | .kernelBind h va => Sys2Proof.Machine.execKernelBind h va s
  | .queueCfg h queue fields => Sys2Proof.Machine.execQueueCfg h queue fields s
  | .queueRead h queue => Sys2Proof.Machine.execQueueRead h queue s
  | .cancel h queue seq => Sys2Proof.Machine.execCancel h queue seq s
  | .suspend h => Sys2Proof.Machine.execSuspend h s
  | .fwResume h => Sys2Proof.Machine.execFwResume h s
  | .queueGrant h queue release => Sys2Proof.Machine.execQueueGrant h queue release s
  | .timeCfg h hzi k t => Sys2Proof.Machine.execTimeCfg h hzi k t s
  | .portStamp h port origin omode egen egmax => Sys2Proof.Machine.execPortStamp h port origin omode egen egmax s
  | .wlogCfg h ringa logn enable => Sys2Proof.Machine.execWlogCfg h ringa logn enable s
  | .preemptCfg h drainp flushp parkth => Sys2Proof.Machine.execPreemptCfg h drainp flushp parkth s
  | .domainSet h dev valid ldom ports linkKey => Sys2Proof.Machine.execDomainSet h dev valid ldom ports linkKey s
  | .linkRetrain h port => Sys2Proof.Machine.execLinkRetrain h port s
  | .powerCap h watts => Sys2Proof.Machine.execPowerCap h watts s
  | .unknownCommand h code => Sys2Proof.Machine.execUnknownCommand h code s
  | .partitionReset part => Sys2Proof.Machine.execPartitionReset part s
  | .moduleReset => Sys2Proof.Machine.execModuleReset s
  | .bringUp ok => Sys2Proof.Machine.execBringUp ok s
  | .memorySideReset die => Sys2Proof.Machine.execMemorySideReset die s
  | .powerThrottle watts temp => Sys2Proof.Machine.execPowerThrottle watts temp s
  | .overtempReset temp => Sys2Proof.Machine.execOvertempReset temp s
  | .throttlingEnd watts temp => Sys2Proof.Machine.execThrottlingEnd watts temp s

end Sys2Proof.Machine
end

