-- ==== Sys2Proof/Machine/Agenda.lean ====
section
/-!
DEFINITION. What one step does: the next act of the agenda, the issue of the slots that a quarter has chosen, and a device step;
and a device on which a given word is the next instruction (log 1, 20).
-/
namespace Sys2Proof.Machine

/-- What moves next: the head of the agenda, or a free choice (log 1). -/
def State.nextAct (s : State) : Act × State :=
  match s.agenda with
  | a :: rest => (a, { s with agenda := rest })
  | [] => (Config.freeAct s.free, { s with free := s.free + 1 })

/-- Is an instruction a step of the device, which no slot issues? -/
def isEvent (i : Instr) : Bool := (encodeRaw i).isNone

/-- One computation after another. -/
def andThen (o : Host.Outcome State Fault Refusal) (f : State → Host.Outcome State Fault Refusal) : Host.Outcome State Fault Refusal :=
  match o with
  | .next t => f t
  | .fault r => .fault r
  | .refused r => .refused r

/-- A slot issues: a trap, or its instruction's meaning. -/
def runSlot (g : Nat) (peers : List Nat) (s : State) : Host.Outcome State Fault Refusal :=
  match s.startIssue g peers with
  | .done t => .next t
  | .run i t => andThen (exec i t) fun u => .next u.endIssue

/-- The slots of one choice issue, in ascending order (R64, step 6). -/
def runSlots (peers : List Nat) : List Nat → State → Host.Outcome State Fault Refusal
  | [], s => .next s
  | g :: gs, s => andThen (runSlot g peers s) (runSlots peers gs)

/-- R64: a quarter makes its next choice, in a clock that throttling leaves it (R348). -/
def runQuarter (core q : Nat) (s : State) : Host.Outcome State Fault Refusal :=
  if Config.cores ≤ core || 4 ≤ q || !s.unthrottled then .next s
  else match s.quarterChoice core q with
    | (gs, peers, t) => runSlots peers gs t

/-- The quarters in which a slot stands, of those that are still to choose in this clock, up to a limit. -/
def State.quartersTo (s : State) (limit : Nat) : List Nat :=
  (s.slots.map fun x => qkeyOf x.1).eraseDups.filter fun k => decide (s.turnAt ≤ k) && decide (k < limit)

/-- R64: quarters make the choices that the clock still leaves them, in the order of core and quarter (R189, R228). -/
def runQuarters : List Nat → State → Host.Outcome State Fault Refusal
  | [], s => .next s
  | k :: ks, s => andThen (andThen (runQuarter (k / 4) (k % 4) s) (runQuarter (k / 4) (k % 4))) (runQuarters ks)

/-- A quarter chooses: those before it in the order of core and quarter have had their turn in this clock, and it follows none
that comes after it. -/
def takeTurn (core q : Nat) (s : State) : Host.Outcome State Fault Refusal :=
  let key := 4 * core + q
  if key < s.turnAt then .next s
  else andThen (runQuarters (s.quartersTo key) s) fun t => runQuarter core q { t with turnAt := key }

/-- The clock passes: every quarter has made its choices first (R64). -/
def passClock (s : State) : Host.Outcome State Fault Refusal :=
  andThen (runQuarters (s.quartersTo (4 * Config.cores)) s) fun t => .next t.tickClock.serveCommands

/-- One act. -/
def runAct (a : Act) (s : State) : Host.Outcome State Fault Refusal :=
  match a with
  | .clock => passClock s
  | .quarter core q => takeTurn core q s
  | .event i => if isEvent i then exec i s else .next s

/-! ### A device on which a word is the next instruction (log 20) -/

/-- R39: the word of a line that holds one instruction, which may be entered. -/
def oneSlotLine (w : Nat) : Nat :=
  let x := 2 ^ 27 + 2 ^ 14 + (if parity w 96 then 2 ^ 18 else 0)
  x + (if parity x 32 then 2 ^ 17 else 0)

/-- The line's 64 bytes. -/
def lineBytes (w : Nat) : List Byte := bytesLE 4 (oneSlotLine w) ++ bytesLE 12 w ++ List.replicate 48 0

/-- A launch of one team with one weave of 8 lanes: encoding version 3, 256 registers, 32 tiles, one code line (R15, R16). The
numerals are the image header and the block: MAGIC in bits 31:0, ENCV 3 at 32, TILES 32 at 75, CODELINES 1 at 96, role 0's ALLOT 32
at 544 and WEAVES 1 at 552; NTEAM 1 at 832. -/
def probeLaunch : Launch :=
  { Launch.zero with
    image := BitVec.ofNatLT 0x120000000000000000000000000000000000000000000000000000000000000000000000000000000000000000000000000000000000000000100010000000000034b54574c (by decide +kernel)
    block := BitVec.ofNatLT 0x10000000000000000000000000000000000000000000000000000000000000000000000000000000000000000000000000000000000000000000000000000000000000000000000000000000000000000000000000000000000000000000000000000000000000000 (by decide +kernel), state := .claiming, ran := true }

/-- The die 0 partition of the probe: its root table maps the first 1 GiB of HBM with R, W and X. -/
def probePart (p : Part) : Part := { p with dies := p.dies ||| 1, root := true, suspended := false }

/-- Lay a line at physical address 128. -/
def State.placeLine (s : State) (bs : List Byte) : State :=
  { s with mem := ((from_ 128 64).zip bs).foldl (fun m b => memWrite m b.1 b.2) s.mem
           ue := s.ue.filter fun g => g != 4 && g != 5 }

/-- The tables of the probe: entry 0 of the root, and of the table below it. -/
def State.placeTables (s : State) : State :=
  let t := Config.rootPhys 8
  { s with ptes := aset (aset s.ptes (Config.rootPhys 0) (BitVec.ofNat 128 (t / 4096 * 2 ^ 8 + 1)))
                        t (BitVec.ofNat 128 ((s.part 0).key * 2 ^ 62 + 0x79)) }

/-- `s` with an instruction word at the PC of slot 0 of core 0, quarter 0, which issues next. -/
def State.probe (s : State) (w : Nat) : State :=
  let tid := s.uid
  let s := { s.bump with agenda := [.quarter 0 0], cur := none, turnAt := 0, module := { s.module with throttled := false } }
  let s := (s.setPart 0 (probePart (s.part 0))).placeTables.placeLine (lineBytes w)
  let s := (s.setLaunch tid probeLaunch).setTeam tid { Team.zero with launch := tid, state := .running, scrId := tid }
  let s := s.setFibre (fibreKey tid 0 0) { Fibre.zero with team := tid, size := 256, alive := true }
  let s := { s with slots := s.slots.filter fun x => qkeyOf x.1 != 0 }
  let s := s.setSlot 0 { Slot.zero with team := tid, pc := 128, lanes := [(0, fibreKey tid 0 0)] }
  (s.setQuarter 0 { s.quarterAt 0 with taken := [], issued := [], placed := 0 }).setDie 0 { s.die 0 with memUp := true }

end Sys2Proof.Machine
end

