-- ==== Sys2Proof/Machine/Step.lean ====
section
/-!
DEFINITION. One step of the device, and the state in which a given word is its next instruction.
-/
namespace Sys2Proof.Machine

/-- One step: the next act of the agenda (log 1). -/
def step (s : State) : Host.Outcome State Fault Refusal :=
  match s.nextAct with
  | (a, t) => runAct a t

/-- `s` with the word `w` at the PC of the slot that issues next (log 20). A word has 96 bits whatever `nbits`. -/
def State.withFetchWord (s : State) (_nbits w : Nat) : State := s.probe (w % 2 ^ 96)

end Sys2Proof.Machine
end

