-- ==== Sys2Proof/Safety.lean ====
section
/-!
DEFINITION. The terms in which claims about the device are stated: a slot that issues, what an instruction that works lane by
lane does when nothing traps, what stays as it was, and a safe run.
-/
namespace Sys2Proof.Machine

/-- Slot `sl` is issuing (R62, R64): `step` puts an instruction's meaning to work in no other state. -/
def Issues (s : State) (c : IssueCtx) (sl : Slot) : Prop := s.cur = some c ∧ aget? s.slots c.g = some sl

/-- A step has an outcome, and it is a next state. -/
def Runs (i : Instr) (s : State) : Prop := ∃ t, exec i s = .next t

/-- What a slot's instruction does for every state in which the slot issues it. -/
def Does (i : Instr) (g : Guard) (pre : Ctx → State → Prop) (eff : Ctx → State → State) : Prop :=
  ∀ s c sl, Issues s c sl → pre (s.ctx c sl g) s → exec i s = .next (eff (s.ctx c sl g) s)

/-- No cause and no enabled exception arises in a lane in which the instruction executes (R99, R115, R153, R155, R156). -/
def Quiet (d : Spec) (out : Ctx → State → Fibre → LaneOut) (x : Ctx) (s : State) : Prop :=
  ∀ a ∈ x.runLanes d, (out x s (s.fibre a.2)).cause = none ∧ (out x s (s.fibre a.2)).exc &&& x.sl.fmask = 0

/-- R88, R91, R115: what each lane gives is written, every lane having read before; the exceptions of all lanes are ORed into
FFLAGS; the slot goes on. Nothing else of the device changes. -/
def State.acted (s : State) (x : Ctx) (d : Spec) (out : Fibre → LaneOut) : State :=
  let outs := (x.runLanes d).map fun a => (a.2, out (s.fibre a.2))
  ((outs.foldl (fun t o => t.writeLane x.c.g d o) s).modSlot x.c.g fun sl =>
    { sl with fflags := sl.fflags ||| outs.foldl (fun m o => m ||| o.2.exc) 0 }).advance x

/-- R99, R115, R145, R153, R155, R156: what is raised when some lane has a cause (the greatest one, in the lanes that have it),
or else an enabled exception (the first in the order NV, DZ, OF, UF, NX, in the lanes that raise it). It is precise, and the
instruction issues again for every active lane. -/
def laneTrap (s : State) (x : Ctx) (d : Spec) (out : Fibre → LaneOut) : TrapInfo :=
  let run := x.runLanes d
  let o (a : Nat × Nat) : LaneOut := out (s.fibre a.2)
  match run.filterMap fun a => (o a).cause with
  | [] =>
    let all := run.foldl (fun m a => m ||| (o a).exc) (0 : Flags)
    let k := ((List.range 5).find? fun k => (all &&& x.sl.fmask).getLsbD (4 - k)).getD 0
    x.trap (0x0C0 + k) .precise ((run.filter fun a => (o a).exc.getLsbD (4 - k)).map fun a => a.1) x.lanesOf
  | c :: cs =>
    let c := cs.foldl max c
    let bad := run.filter fun a => (o a).cause == some c
    let first := (bad.head?.map o).getD {}
    { x.trap c .precise (bad.map fun a => a.1) x.lanesOf with
      stamp := first.stamp, bound := first.bound, hzn := if 0x080 ≤ c && c < 0x0C0 then x.h else 0 }

/-- An instruction that works lane by lane: it acts, or it raises its trap and nothing is written. -/
def ActsAs (i : Instr) (g : Guard) (d : Spec) (out : Ctx → State → Fibre → LaneOut) : Prop :=
  Does i g (Quiet d out) (fun x s => s.acted x d (out x s))
  ∧ Does i g (fun x s => ¬ Quiet d out x s) (fun x s => s.raise x.c.g (laneTrap s x d (out x s)) none)

/-- What register `k` holds once the registers `rs`, counted from register `n`, have been written over `old`. -/
def written (n : Nat) (rs : List (Nat × Reg)) (k : Nat) (old : Reg) : Reg :=
  rs.foldl (fun v r => if n + r.1 = k then r.2 else v) old

/-- Every byte of memory reads as before. -/
def SameBytes (s t : State) : Prop := ∀ a, t.byteAt a = s.byteAt a

/-- A team without what the engines note of their own order in it. -/
def Team.plain (x : Team) : Team :=
  { x with chutes := x.chutes.map fun (c : Nat × List ChuteEntry) => (c.1, c.2.map fun e => { e with after := [] }), cpMade := [], vpMade := [] }

/-- Every team as before, but for what the engines note of their own order. -/
def SameTeams (s t : State) : Prop := ∀ k, (aget? t.teams k).map Team.plain = (aget? s.teams k).map Team.plain

/-- A fibre without what the memory model notes of its order with writes. -/
def Fibre.plain (f : Fibre) : Fibre :=
  { f with vec := .empty, cp := .empty, mx := .empty, vp := .empty, coll := .empty, pendAcq := [], relFence := none, after := [] }

/-- Every fibre as before, but for what the memory model notes of its order with writes. -/
def SameFibres (s t : State) : Prop := ∀ k, (aget? t.fibres k).map Fibre.plain = (aget? s.fibres k).map Fibre.plain

/-- The canonical form of memory and of its stamps: keys strictly rising, and no byte listed that an unlisted address reads. -/
def Canon (s : State) : Prop := Memory.wf s.mem = true ∧ sortedFrom 0 s.stamps = true

/-- A safe run: every step of it has a next state. -/
def Safe (s : State) : Prop := ∀ k, ∃ t, Host.Core.run Sys2Proof.core k s = .next t

/-- R20, R346: what a reset of partition `p` leaves. Each of its claimed launches ends with status 5, and is complete where the groom need
bring no page for its error record and its completion word first; one whose completion word was written is complete. Its queues halt with
HERR 5, no slot of its dies is taken, no operation, graph or run of it stands, and the host gets its interrupt. -/
def PartReset (p : Nat) (s t : State) : Prop :=
  (∀ k m, aget? s.launches k = some m → m.part = p → m.state = .claiming → ∃ u, aget? t.launches k = some u
    ∧ (m.stage = 2 → u.state = .complete) ∧ (m.stage ≠ 2 → u.ending = some (5, 0, s.clock)))
  ∧ ((∀ x ∈ s.launches, x.2.part = p → x.2.state = .claiming → aget? s.launches x.1 = some x.2 ∧ s.endWaits x.2 = none) →
      ∀ x ∈ s.launches, x.2.part = p → x.2.state = .claiming → x.2.stage ≠ 2 →
        ∃ u, aget? t.launches x.1 = some u ∧ u.state = .complete ∧ u.status = 5)
  ∧ (∀ q v, aget? s.queues q = some v → v.granted = true → v.part = p →
      ∃ w, aget? t.queues q = some w ∧ w.halt = true ∧ w.herr = 5 ∧ w.wdSince = none)
  ∧ (∀ g v, aget? t.slots g = some v → (s.part p).dies.getLsbD (dieOf (coreOf g)) = false)
  ∧ (∀ o ∈ t.ops, o.2.head.part ≠ p) ∧ (∀ g v, aget? t.graphs g = some v → v.part ≠ p) ∧ (∀ r ∈ t.runs, r.2.part ≠ p)
  ∧ t.module.interrupts.getLast? = some (64 + p)

/-- R22: the fields of the error record of launch `l`, STATUS and REASON apart, in the 64 bytes that make the number `r`. -/
def RecordOf (l : Launch) (r : Nat) : Prop :=
  let f := l.first.getD TrapInfo.zero
  bitsN r 25 7 = 0 ∧ bitsN r 32 32 = l.errcnt ∧ bitsN r 256 32 = l.late ∧ bitsN r 288 224 = 0
  ∧ (l.first.isSome → bitsN r 16 9 = f.cause) ∧ (l.first = none → bitsN r 16 9 = 0) ∧ bitsN r 64 64 = f.pc.toNat
  ∧ bitsN r 128 32 = l.firstTeam.toNat ∧ bitsN r 160 8 = f.weave % 256 ∧ bitsN r 168 2 = l.firstRole ∧ bitsN r 170 6 = 0
  ∧ bitsN r 176 8 = l.firstCore ∧ bitsN r 184 8 = 0 ∧ bitsN r 192 64 = f.addr.toNat

/-- R341: a response with a status and a payload to command `h`: its PART and SEQ, and the length of its payload. -/
def Response.tells (r : Response) (h : Cmd) (status : Nat) (payload : List Byte) : Prop :=
  bitsN r.header.toNat 0 16 = status ∧ bitsN r.header.toNat 32 3 = h.part.toNat ∧ bitsN r.header.toNat 48 16 = payload.length
    ∧ bitsN r.header.toNat 64 64 = h.seq.toNat ∧ r.payload = payload

/-- R341: a response that is sealed under a command key. -/
def Response.sealedBy (r : Response) (key : BitVec 256) : Prop :=
  bitsN r.header.toNat 16 1 = 1 ∧ r.header.toNat / 2 ^ 128 = (Config.commandTag key (r.header.toNat % 2 ^ 128) r.payload).toNat

/-- R341: a command whose payload fits, with no reserved bit set. -/
def cmdFits (h : Cmd) : Prop := h.len.toNat ≤ 4064 ∧ h.res47 = 0 ∧ h.res31 = 0

end Sys2Proof.Machine
end

