-- ==== Sys2Proof/Certificates/Slice0/Obligations.lean ====
section
/-!
DEFINITION. The statements for the provers. Each docstring names the rules of spec/ that the statement formalises, or what of
the model's own it says.
-/
open Sys2Proof Sys2Proof.Machine

/-! ### Encodings (R45 to R58) -/

/-- R45 to R57, R92: the decoder reads from the encoder's word of a well-formed instruction that instruction again, with every operand
and modifier; so it does for an instruction of any version and for any window that holds its registers. An instruction of an earlier
version or a smaller window is one of version 3 and the widest window. -/
def Obligations.DecodeOfEncode : Prop :=
  (∀ i : Instr, wellFormed i = true → encodeRaw i ≠ none → decode 3 256 (encode i) = .ok i)
  ∧ (∀ (v allot : Nat) (i : Instr), allot ≤ 256 → firstCause v allot i = none → encodeRaw i ≠ none → decode v allot (encode i) = .ok i)
  ∧ ∀ (v allot : Nat) (i : Instr), allot ≤ 256 → firstCause v allot i = none → wellFormed i = true

/-- R45, R57, R58: a word that decodes, under any version and window, is the word of the instruction it decodes to, so that no bit of
it is dropped; that instruction is well formed, and no device step.

R56 to R58: words with an opcode that the map does not assign raise 0x000, under every version and window; so do those that an
earlier version leaves unassigned. -/
def Obligations.DecodedBytesEncodeBack : Prop :=
  (∀ (v allot : Nat) (w : BitVec 96) (i : Instr), allot ≤ 256 → decode v allot w = .ok i →
     wellFormed i = true ∧ firstCause v allot i = none ∧ encodeRaw i ≠ none ∧ encode i = w)
  ∧ (∀ (v allot : Nat) (w : BitVec 96),
     (v < 2 → w.toNat / 2 ^ 86 ∈ [0x183, 0x184, 0x20B, 0x343, 0x365] → decode v allot w = .error 0x000)
     ∧ (v < 3 → w.toNat / 2 ^ 86 ∈ [0x2C1, 0x2C3] → decode v allot w = .error 0x000)
     ∧ ((∀ r ∈ [(0x000, 0x00E), (0x040, 0x047), (0x080, 0x09C), (0x100, 0x113), (0x180, 0x186), (0x1C0, 0x1C7), (0x200, 0x20B),
         (0x280, 0x285), (0x2C0, 0x2C3), (0x2E0, 0x2E5), (0x300, 0x307), (0x340, 0x344), (0x360, 0x366)],
       w.toNat / 2 ^ 86 < r.1 ∨ r.2 < w.toNat / 2 ^ 86) → decode v allot w = .error 0x000))

/-- R45 to R57: words that the manual writes out decode to the instructions that they stand for. -/
def Obligations.WordsOfTheManual : Prop :=
  let g : Guard := ⟨false, 15⟩
  let word (hi mid lo : BitVec 32) : BitVec 96 := hi ++ mid ++ lo
  decode 3 256 (word 0x20DE0B00 0x80800301 0) =
    .ok (.iadd { g, d := .vec 11, a := .vec 1, b := .vec 2, c := .vec 0, ty := .i32, rm := .rne, sub := 1, imm := 0 })
  ∧ decode 3 256 (word 0x115E0301 0x70000B03 1) =
    .ok (.shfl { g, d := .vec 3, a := .vec 2, b := .imm, c := .vec 0, ty := .b32, rm := .rne, sub := 3, imm := 1 })
  ∧ decode 3 256 (word 0x605E2804 0x1704 0) =
    .ok (.qblk { g, d := .vec 40, a := .vec 8, b := .vec 0, c := .vec 0, ty := .tx8, rm := .rne, sub := 4, imm := 0 })
  ∧ decode 3 256 (word 0x715E0002 0xF0000B01 0x14) =
    .ok (.fresh { g, d := .vec 0, a := .vec 5, b := .imm, c := .vec 0, ty := .b32, rm := .rne, sub := 1, imm := 20 })
  ∧ decode 3 256 (word 0xA00A0000 0x41001304 0) =
    .ok (.mma { g := ⟨false, 5⟩, d := .vec 0, a := .vec 0, b := .scl 4, c := .vec 0, ty := .f64, rm := .rne, flags := 4, imm := 0 })
  ∧ decode 3 256 (word 0xC01E0582 0x0080C700 0x8000) =
    .ok (.atom { g, d := .vec 5, a := .scl 4, b := .vec 2, c := .vec 6, ty := .n32, scope := .wv, ord := .plain, aop := 0
                 ext := ⟨0, 2, false, 0, 0⟩ })
  ∧ decode 3 256 (word 0xC15E0000 0x1100 0) =
    .ok (.xfence { g, d := .vec 0, a := .vec 0, b := .vec 0, c := .vec 0, mask := 0x11, scope := .wv, ord := .plain, aop := 0, imm := 0 })
  ∧ decode 3 256 (word 0xB8DE0000 0 0x000BFFC0) =
    .ok (.wait { g, d := .vec 0, a := .vec 0, b := .vec 0, c := .vec 0, ty := .none, rm := .rne, flags := 0, imm := 0xBFFC0 })
  ∧ decode 3 256 (word 0xD04B0382 0x41800000 0) =
    .ok (.cgrun { g := ⟨false, 5⟩, d := .scl 3, a := .scl 4, b := .scl 6, c := .vec 0, ty := .none, rm := .rne, flags := 0, imm := 0 })
  ∧ decode 3 256 (word 0xD81F0800 0 7) =
    .ok (.srd { g, d := .scl 8, a := .vec 0, b := .vec 0, c := .vec 0, top := 0, sub := 0, imm := 7 })

/-! ### Steps (R39 to R44, R60 to R65) -/

/-- R62, R64: a step in which a quarter makes its choice, once those before it in the order of core and quarter have made theirs, puts
every chosen slot's instruction, as it was fetched, to its meaning, one slot after the other; a device step at the head of the agenda is
put to its meaning as it stands. What a slot's fetch, decode or registers raise is taken instead of its instruction (R60, R294). The
model's agenda decides what moves next (log 1); the order of cores and quarters in a clock is log 61.

R66: an instruction word whose guard holds in no fibre of its slot advances the PC to the next one and changes nothing else: no
register, predicate, memory, team, engine, cause or record. (Not in a replay: there the issue is of the lanes of RMASK, R279.) -/
def Obligations.StepRunsTheDecodedInstruction : Prop :=
  ((∀ (s : State) (core q : Nat) (rest : List Act) (u : State) (gs peers : List Nat) (t : State),
     s.agenda = .quarter core q :: rest → core < Config.cores → q < 4 → s.turnAt ≤ 4 * core + q →
     runQuarters (s.quartersTo (4 * core + q)) { s with agenda := rest } = .next u →
     ({ u with turnAt := 4 * core + q } : State).unthrottled = true →
     ({ u with turnAt := 4 * core + q } : State).quarterChoice core q = (gs, peers, t) → step s = runSlots peers gs t)
   ∧ (∀ (peers : List Nat) (g : Nat) (gs : List Nat) (s : State) (sl : Slot) (i : Instr) (count : Nat) (word : BitVec 96) (pair : Bool)
       (p : Pipe) (u : State),
     aget? s.slots g = some sl → s.turn g sl = some (.instr i count word pair, p) →
     let c := sl.issueCtx g count word (peers.filter fun p => p != g)
     let t : State := { s.noteIssue g sl (s.onlyTakes (s.ctx c sl (guardOf i)) i) with cur := some c }
     exec i t = .next u → runSlots peers (g :: gs) s = runSlots peers gs u.endIssue)
   ∧ (∀ (peers : List Nat) (g : Nat) (gs : List Nat) (s : State) (sl : Slot) (t : TrapInfo) (serve : Option Serve) (p : Pipe),
     aget? s.slots g = some sl → s.turn g sl = some (.trap t serve, p) →
     runSlots peers (g :: gs) s = runSlots peers gs (((s.noteFetch g sl).strike g).raise g t serve))
   ∧ (∀ (s : State) (i : Instr) (rest : List Act), s.agenda = .event i :: rest → encodeRaw i = none →
     step s = exec i { s with agenda := rest }))
  ∧ (∀ (i : Instr) (s : State) (c : IssueCtx) (sl : Slot), encodeRaw i ≠ none → s.cur = some c → aget? s.slots c.g = some sl →
     sl.lanes ≠ [] → sl.replay = none → c.thenPc = none → (s.ctx c sl (guardOf i)).act = [] →
     ∃ qs, exec i s = .next { (s.modSlot c.g fun x => { x with pc := nextPc sl.pc c.count, arrive := .flow }) with quarters := qs }
       ∧ ∀ k, ({ s with quarters := qs } : State).quarterAt k = s.quarterAt k)

/-- R39, R40, R42, R44, R59: a slot issues the instruction that the 64 bytes of the line of its PC hold in the slot of its PC,
decoded for its launch's version and its role's window, where the PC, the line, its parities and its pair bit give no cause. Where no write
to the line stands in the history or is in flight, those bytes are what memory holds.

R58 to R60: what the line's word, the slot's word and the decoder find wrong is raised in the order 0x006, 0x009, 0x008, (0x00A of
a slot at or above COUNT), 0x007, 0x00D, and then the decoder's first cause; before the guard is read and for every fibre of the slot,
with the slot's PC and the word as fetched. Waits, a cause that is due and a replay apart, the slot's turn is that trap.

R42: the next PC is the next slot of the line, or slot 0 of the next line after the last one. -/
def Obligations.FetchDecodesTheBytesAtThePc : Prop :=
  ((∀ (s : State) (g : Nat) (sl : Slot) (bs : List Byte) (src : List WEv) (i : Instr),
     let l := s.launch (s.team sl.team).launch
     let w := leNat (bs.take 4)
     let k := slotOf sl.pc
     let word : BitVec 96 := BitVec.ofNat 96 (leNat ((bs.drop (4 + 12 * k)).take 12))
     s.arrivalCause g l sl = none → s.fetchLine g sl (sl.pc &&& ~~~63#64) = .bytes bs src →
     lineCause w = none → k < lineCount w → slotCause w k word = none → decode l.encv (l.allot sl.role) word = .ok i →
     s.fetch g sl = some (.instr i (lineCount w) word (k < 4 && linePair w k)))
   ∧ (∀ (s : State) (g : Nat) (sl : Slot) (i : Instr) (count : Nat) (word : BitVec 96) (pair : Bool) (p : Pipe),
     s.turn g sl = some (.instr i count word pair, p) → s.fetch g sl = some (.instr i count word pair))
   ∧ (∀ (s : State) (g : Nat) (sl : Slot) (va : DWord) (pg : Page),
     canonical va = true → regionOf va.toNat = 0 → s.translate (s.launch (s.team sl.team).launch).part .fetch va = .ok pg →
     s.homeCause true pg.loc 64 = none →
     (∀ w ∈ s.hist, ∀ b ∈ w.bytes, b.1 / 32 ≠ pg.loc / 32 ∧ b.1 / 32 ≠ pg.loc / 32 + 1) →
     (∀ p ∈ s.pending, ∀ a ∈ p.2.1, a / 32 ≠ pg.loc / 32 ∧ a / 32 ≠ pg.loc / 32 + 1) →
     s.fetchLine g sl va = .bytes (s.bytesAt (pg.loc / 32 * 32) 32 ++ s.bytesAt ((pg.loc / 32 + 1) * 32) 32) []))
  ∧ ((∀ (s : State) (g : Nat) (sl : Slot) (bs : List Byte) (src : List WEv) (c : Nat),
     let l := s.launch (s.team sl.team).launch
     let w := leNat (bs.take 4)
     let k := slotOf sl.pc
     let word : BitVec 96 := BitVec.ofNat 96 (leNat ((bs.drop (4 + 12 * k)).take 12))
     let trap : TrapInfo := { TrapInfo.zero with
       cause := c, lmask := sl.lanes.map fun a => a.1, rmask := sl.lanes.map fun a => a.1, pc := sl.pc
       next := nextPc sl.pc (lineCount w), word, addr := if lineCause w = none ∧ lineCount w ≤ k then sl.pc else 0 }
     s.arrivalCause g l sl = none → s.fetchLine g sl (sl.pc &&& ~~~63#64) = .bytes bs src → sl.replay = none →
     ((parity w 32 = true ∧ c = 0x006)
       ∨ (parity w 32 = false ∧ bitsN w 0 14 ≠ 0 ∧ c = 0x009)
       ∨ (parity w 32 = false ∧ bitsN w 0 14 = 0 ∧ (lineCount w = 0 ∨ 5 < lineCount w) ∧ c = 0x008)
       ∨ (lineCause w = none ∧ lineCount w ≤ k ∧ c = 0x00A)
       ∨ (lineCause w = none ∧ k < lineCount w ∧ parity word.toNat 96 ≠ lineSpar w k ∧ c = 0x007)
       ∨ (lineCause w = none ∧ k + 1 = lineCount w ∧ parity word.toNat 96 = lineSpar w k ∧ k < 4 ∧ linePair w k = true ∧ c = 0x00D)
       ∨ (lineCause w = none ∧ k < lineCount w ∧ slotCause w k word = none ∧ decode l.encv (l.allot sl.role) word = .error c)) →
     s.fetch g sl = some (.trap trap none)
     ∧ (sl.lanes ≠ [] → (s.team sl.team).state.issues = true → sl.wait = .none → sl.dueLate = none →
       s.turn g sl = some (.trap trap none, .branch)))
   ∧ ∀ w : Nat, lineCause w = none ↔ parity w 32 = false ∧ bitsN w 0 14 = 0 ∧ 1 ≤ lineCount w ∧ lineCount w ≤ 5)
  ∧ (∀ (line : Nat) (k count : Nat), k < count → count ≤ 5 → 64 * line + 64 < 2 ^ 64 →
     nextPc (BitVec.ofNat 64 (64 * line + k)) count =
       if k + 1 < count then BitVec.ofNat 64 (64 * line + k + 1) else BitVec.ofNat 64 (64 * (line + 1)))

/-- R360 and log 1: whatever moves next, the device goes on: no step of it faults or is refused. -/
def Obligations.StepNeverStops : Prop := ∀ s : State, ∃ t, step s = .next t

/-! ### Memory (R3, R165, R179, R244) and reset (R345) -/

/-- R165, R179, R244, R247: writes applied at their homes. Every byte that no write names reads as before; a byte that is written
reads as written, where the writes of one step agree on it and its granule holds no uncorrectable error; a granule written whole
takes the oldest stamp of its data, one written in part the oldest of that and its own, and a timeless page's granule keeps its
stamp. -/
def Obligations.MemoryReadsWhatWasWritten : Prop :=
  ∀ (s : State) (core : Nat) (timeless : Bool) (reqs : List WReq),
    let t := s.commit core timeless reqs
    let all := reqs.flatMap fun r => r.bytes
    (∀ a, (∀ b ∈ all, b.1 ≠ a) → t.byteAt a = s.byteAt a)
    ∧ (∀ b ∈ all, b.1 / 32 ∉ s.ueHit all → (∀ c ∈ all, c.1 = b.1 → c.2.1 = b.2.1) → t.byteAt b.1 = b.2.1)
    ∧ (∀ a, (∀ b ∈ all, b.1 / 32 ≠ a / 32) → t.stampAt a = s.stampAt a)
    ∧ (timeless = true → ∀ a, t.stampAt a = s.stampAt a)
    ∧ (timeless = false → s.ue = [] → ∀ b ∈ all,
        let mine := all.filter fun c => c.1 / 32 == b.1 / 32
        let h := s.homeHz core (b.1 / 32 * 32)
        let data := olderAll h (mine.map fun c => c.2.2)
        t.stampAt b.1 = if (from_ (b.1 / 32 * 32) 32).all (fun a => mine.any fun c => c.1 == a) then data
          else older h (s.stampAt b.1) data)

/-- Every step keeps the canonical form of memory and of its stamps, the model's own invariant: equal memories are equal data. -/
def Obligations.StepKeepsMemoryCanonical : Prop := ∀ s t : State, Canon s → step s = .next t → Canon t

/-- R26, R341, R345, R347, R348: right after a module reset no partition, team, launch, session or grant stands, every queue and port
register reads 0, nothing is in flight, bring-up has not begun, and the power cap is 2,200 W. That the clock and the horizons stand at 0
is the model's choice (log 3, 8).

The canonical form of memory, of the model's own: at reset it has it. -/
def Obligations.ResetState : Prop :=
  (let s := State.reset
   s.parts = [] ∧ s.teams = [] ∧ s.launches = [] ∧ s.slots = [] ∧ s.fibres = [] ∧ s.ops = [] ∧ s.runs = [] ∧ s.graphs = []
   ∧ s.grants = [] ∧ s.ptes = [] ∧ s.clock = 0 ∧ (∀ q, s.queue q = Queue.zero) ∧ (∀ p, s.port p = Port.zero)
   ∧ (∀ d, (s.die d).horizon = 0) ∧ s.module.stage = 0 ∧ s.module.failed = none ∧ s.module.cap = 2200
   ∧ s.module.throttled = false ∧ s.module.responses = [] ∧ s.module.mailboxes = [] ∧ s.module.waiting = [] ∧ s.module.keys = []
   ∧ s.module.interrupts = [])
  ∧ (Canon State.reset)

/-! ### What an instruction that works lane by lane writes, and what it leaves (R88, R91, R115) -/

/-- R47, R88, R91, R294: the state in which an instruction has acted lane by lane. A vector destination is written in the window
of every lane in which the instruction executes and a scalar one in the slot's file, once; the zero register takes nothing; a
predicate destination changes that predicate alone. The slot goes on and gathers the exceptions. Every other register, stamp,
flag, slot and fibre, every byte of memory and the rest of the device stay as they were. -/
def Obligations.LaneResultsAndFrame : Prop :=
  ∀ (s : State) (x : Ctx) (d : Spec) (out : Fibre → LaneOut),
    let t := s.acted x d out
    let regs (fid : Nat) : List (Nat × Reg) := (out (s.fibre fid)).regs
    t = { s with slots := t.slots, fibres := t.fibres } ∧ SameBytes s t
    ∧ (∀ g, g ≠ x.c.g → aget? t.slots g = aget? s.slots g)
    ∧ (∀ sl, aget? s.slots x.c.g = some sl → ∃ u, aget? t.slots x.c.g = some u
        ∧ u = { sl with pc := x.c.thenPc.getD x.next, arrive := if x.c.thenPc.isSome then .resumption else .flow
                        fflags := sl.fflags ||| (x.runLanes d).foldl (fun m a => m ||| (out (s.fibre a.2)).exc) 0
                        sregs := u.sregs, sue := u.sue }
        ∧ ∀ k, u.reg k = match d, x.act with
            | .scl n, a :: _ => written n.toNat (regs a.2) k (sl.reg k)
            | _, _ => sl.reg k)
    ∧ (∀ k, (∀ a ∈ x.runLanes d, a.2 ≠ k) → aget? t.fibres k = aget? s.fibres k)
    ∧ (∀ a ∈ x.runLanes d, ∀ fb, aget? s.fibres a.2 = some fb → ∃ u, aget? t.fibres a.2 = some u
        ∧ u = { fb with win := u.win, ue := u.ue, preds := u.preds }
        ∧ (∀ k, u.reg k = match d with
            | .vec n => written n.toNat (regs a.2) k (fb.reg k)
            | _ => fb.reg k)
        ∧ (∀ j, j < 16 → u.preds.getLsbD j = match d, (out (s.fibre a.2)).pred with
            | .pred p, some b => if j = p.toNat ∧ j ≠ 15 then b else fb.preds.getLsbD j
            | _, _ => fb.preds.getLsbD j)
        ∧ (∀ k, k ∈ u.ue ↔ k ∈ fb.ue ∧ ∀ n, d = .vec n → ∀ r ∈ regs a.2, n.toNat + r.1 ≠ k))

/-! ### Integer, logic and address instructions (R95 to R106) -/

/-- R91, R92, R98, R100: the exact result of the integer instructions, clamped under `.sat` and else wrapped when it is
written, with the oldest stamp of every operand on each register written. An immediate C of IMAD `.wide` is that of TYPE (R49).

R99: division with its fixed results; with SUB 1 (`.trap`) a zero divisor is a cause, 0x0E0, which is raised precise in the
lanes that have it, for every active lane, and nothing is written. -/
def Obligations.IntegerArithmetic : Prop :=
  (∀ f : ArithF,
     let A (x : Ctx) (fb : Fibre) : Int := numOf f.ty (x.read fb f.ty f.imm f.a).val
     let B (x : Ctx) (fb : Fibre) : Int := numOf f.ty (x.read fb f.ty f.imm f.b).val
     let os (x : Ctx) (fb : Fibre) : List Opnd := [x.read fb f.ty f.imm f.a, x.read fb f.ty f.imm f.b]
     let sat (v : Int) : Int := if f.sub = 1 then min (max v (loOf f.ty)) (hiOf f.ty) else v
     let out (x : Ctx) (v : Int) (l : List Opnd) : LaneOut := { regs := resultRegs f.ty v (x.whole l) (x.whole l) }
     ActsAs (.iadd f) f.g f.d (fun x _ fb => out x (sat (A x fb + B x fb)) (os x fb))
     ∧ ActsAs (.isub f) f.g f.d (fun x _ fb => out x (sat (A x fb - B x fb)) (os x fb))
     ∧ ActsAs (.imul f) f.g f.d (fun x _ fb => out x (sat (A x fb * B x fb)) (os x fb))
     ∧ ActsAs (.imulh f) f.g f.d (fun x _ fb => out x (Int.fdiv (A x fb * B x fb) (2 ^ f.ty.bits : Nat)) (os x fb))
     ∧ ActsAs (.imad f) f.g f.d (fun x _ fb =>
         let tw : Ty := if f.sub = 2 then (if f.ty = .i32 then .i64 else .n64) else f.ty
         let c := x.read fb (if f.c = .imm then f.ty else tw) f.imm f.c
         let l := os x fb ++ [c]
         { regs := resultRegs tw (sat (A x fb * B x fb + numOf tw c.val)) (x.whole l) (x.whole l) })
     ∧ ActsAs (.imin f) f.g f.d (fun x _ fb => out x (min (A x fb) (B x fb)) (os x fb))
     ∧ ActsAs (.imax f) f.g f.d (fun x _ fb => out x (max (A x fb) (B x fb)) (os x fb))
     ∧ ActsAs (.iabs f) f.g f.d (fun x _ fb => out x (sat (A x fb).natAbs) [x.read fb f.ty f.imm f.a])
     ∧ ActsAs (.ineg f) f.g f.d (fun x _ fb => out x (sat (-(A x fb))) [x.read fb f.ty f.imm f.a]))
  ∧ (∀ f : ArithF,
     let A (x : Ctx) (fb : Fibre) : Int := numOf f.ty (x.read fb f.ty f.imm f.a).val
     let B (x : Ctx) (fb : Fibre) : Int := numOf f.ty (x.read fb f.ty f.imm f.b).val
     let l (x : Ctx) (fb : Fibre) : List Opnd := [x.read fb f.ty f.imm f.a, x.read fb f.ty f.imm f.b]
     let quot (a b : Int) : Int := if b = 0 then -1 else if a = loOf f.ty ∧ b = -1 then loOf f.ty else a.tdiv b
     let rest (a b : Int) : Int := if b = 0 then a else if a = loOf f.ty ∧ b = -1 then 0 else a.tmod b
     let out (v : Int → Int → Int) (x : Ctx) (_ : State) (fb : Fibre) : LaneOut :=
       if f.sub = 1 ∧ B x fb = 0 then { cause := some 0x0E0 }
       else { regs := resultRegs f.ty (v (A x fb) (B x fb)) (x.whole (l x fb)) (x.whole (l x fb)) }
     ActsAs (.idiv f) f.g f.d (out quot) ∧ ActsAs (.irem f) f.g f.d (out rest)
     ∧ ∀ i : Instr, i = .idiv f ∨ i = .irem f → f.sub = 1 →
         Does i f.g (fun x s => ∃ a ∈ x.runLanes f.d, B x (s.fibre a.2) = 0) fun x s =>
           s.raise x.c.g (x.trap 0x0E0 .precise (((x.runLanes f.d).filter fun a => decide (B x (s.fibre a.2) = 0)).map fun a => a.1)
             x.lanesOf) none)

/-- R96, R97, R101: MOV, MOVI, SEL, AND, OR, XOR, NOT and BLOP, with stamps per half; an immediate is timeless. -/
def Obligations.LogicAndMoves : Prop :=
  ∀ f : ArithF,
    let a (x : Ctx) (fb : Fibre) : Opnd := x.read fb f.ty f.imm f.a
    let b (x : Ctx) (fb : Fibre) : Opnd := x.read fb f.ty f.imm f.b
    let c (x : Ctx) (fb : Fibre) : Opnd := x.read fb f.ty f.imm f.c
    let out (x : Ctx) (v : Nat) (l : List Opnd) : LaneOut := { regs := resultRegs f.ty v (x.half l).1 (x.half l).2 }
    ActsAs (.mov f) f.g f.d (fun x _ fb => out x (a x fb).val [a x fb])
    ∧ ActsAs (.movi f) f.g f.d (fun _ _ _ =>
        if f.sub = 1 then { regs := [(1, ⟨f.imm, 0⟩)] } else { regs := resultRegs f.ty (immVal f.ty f.imm) 0 0 })
    ∧ ActsAs (.sel f) f.g f.d (fun x _ fb =>
        if readPred fb f.c then out x (a x fb).val [a x fb] else out x (b x fb).val [b x fb])
    ∧ ActsAs (.and f) f.g f.d (fun x _ fb => out x ((a x fb).val &&& (b x fb).val) [a x fb, b x fb])
    ∧ ActsAs (.or f) f.g f.d (fun x _ fb => out x ((a x fb).val ||| (b x fb).val) [a x fb, b x fb])
    ∧ ActsAs (.xor f) f.g f.d (fun x _ fb => out x ((a x fb).val ^^^ (b x fb).val) [a x fb, b x fb])
    ∧ ActsAs (.not f) f.g f.d (fun x _ fb => out x (2 ^ f.ty.bits - 1 - (a x fb).val) [a x fb])
    ∧ ActsAs (.blop f) f.g f.d (fun x _ fb =>
        out x (blopBits f.imm.toNat (a x fb).val (b x fb).val (c x fb).val f.ty.bits) [a x fb, b x fb, c x fb])

/-- R102 to R105: shifts by the unsigned count, which only ROT reduces; fields, whose position and length stand in the control
operand; POPC and CLZ into one register; LEA. Stamps are whole. -/
def Obligations.ShiftsFieldsAddresses : Prop :=
  ∀ f : ArithF,
    let n := f.ty.bits
    let a (x : Ctx) (fb : Fibre) : Opnd := x.read fb f.ty f.imm f.a
    let k (x : Ctx) (fb : Fibre) : Opnd := x.read fb .n32 f.imm f.b
    let out (x : Ctx) (t : Ty) (v : Int) (l : List Opnd) : LaneOut := { regs := resultRegs t v (x.whole l) (x.whole l) }
    ActsAs (.shl f) f.g f.d (fun x _ fb =>
        out x f.ty (if n ≤ (k x fb).val then 0 else ((a x fb).val * 2 ^ (k x fb).val % 2 ^ n : Nat)) [a x fb, k x fb])
    ∧ ActsAs (.shr f) f.g f.d (fun x _ fb =>
        out x f.ty (if n ≤ (k x fb).val then 0 else ((a x fb).val / 2 ^ (k x fb).val : Nat)) [a x fb, k x fb])
    ∧ ActsAs (.sar f) f.g f.d (fun x _ fb =>
        out x f.ty (Int.fdiv (sextN n (a x fb).val) (2 ^ (if n ≤ (k x fb).val then n else (k x fb).val) : Nat)) [a x fb, k x fb])
    ∧ ActsAs (.rot f) f.g f.d (fun x _ fb =>
        let m := (a x fb).val * 2 ^ ((k x fb).val % n)
        out x f.ty ((m % 2 ^ n + m / 2 ^ n : Nat)) [a x fb, k x fb])
    ∧ ActsAs (.bfe f) f.g f.d (fun x _ fb =>
        out x f.ty (bfe f.ty (a x fb).val (bitsN (k x fb).val 0 8) (bitsN (k x fb).val 8 8)) [a x fb, k x fb])
    ∧ ActsAs (.bfi f) f.g f.d (fun x _ fb =>
        let c := x.read fb f.ty f.imm f.c
        out x f.ty (bfi n (a x fb).val c.val (bitsN (k x fb).val 0 8) (bitsN (k x fb).val 8 8) : Nat) [a x fb, k x fb, c])
    ∧ ActsAs (.popc f) f.g f.d (fun x _ fb => out x .b32 ((bitList n (a x fb).val).length : Nat) [a x fb])
    ∧ ActsAs (.clz f) f.g f.d (fun x _ fb =>
        out x .b32 (if (a x fb).val = 0 then n else n - 1 - Nat.log2 (a x fb).val : Nat) [a x fb])
    ∧ ActsAs (.brev f) f.g f.d (fun x _ fb =>
        out x f.ty (((bitList n (a x fb).val).map fun j => 2 ^ (n - 1 - j)).sum : Nat) [a x fb])
    ∧ ActsAs (.lea f) f.g f.d (fun x _ fb =>
        let p := x.read fb .b64 0 f.a
        let i := x.read fb f.ty 0 f.b
        out x .b64 ((p.val : Int) + numOf f.ty i.val * 2 ^ f.sub.toNat + f.imm.toInt) [p, i])

/-- R92, R93, R98: what is written is the exact result modulo 2^n: 32-bit types as 32-bit words, 64-bit types as the two words
of a 64-bit one, sub-word types extended by their sign or by zeros.

R101 to R104: bit by bit, BLOP follows its truth table, BFE copies the field and extends it by its sign or by zeros, reading
copies of the highest bit or zeros above the operand, BFI replaces the field alone, SHL and SHR move every bit by the
count, CLZ counts the zeros above the highest one, and reversing twice gives the operand back. -/
def Obligations.ResultsWrapAndBitsStay : Prop :=
  (∀ (t : Ty) (v : Int) (lo hi : Stamp),
     (t ∈ [Ty.i32, .n32, .b32] → resultRegs t v lo hi = [(0, ⟨BitVec.ofInt 32 v, lo⟩)])
     ∧ (t ∈ [Ty.i64, .n64, .b64] → resultRegs t v lo hi =
         [(0, ⟨(BitVec.ofInt 64 v).extractLsb' 0 32, lo⟩), (1, ⟨(BitVec.ofInt 64 v).extractLsb' 32 32, hi⟩)])
     ∧ (t = .i8 → resultRegs t v lo hi = [(0, ⟨(BitVec.ofInt 8 v).signExtend 32, lo⟩)])
     ∧ (t = .i16 → resultRegs t v lo hi = [(0, ⟨(BitVec.ofInt 16 v).signExtend 32, lo⟩)])
     ∧ (t ∈ [Ty.n8, .b8] → resultRegs t v lo hi = [(0, ⟨(BitVec.ofInt 8 v).zeroExtend 32, lo⟩)])
     ∧ (t ∈ [Ty.n16, .b16] → resultRegs t v lo hi = [(0, ⟨(BitVec.ofInt 16 v).zeroExtend 32, lo⟩)]))
  ∧ ((∀ tt a b c n k, k < n → (blopBits tt a b c n).testBit k =
       tt.testBit (4 * (a.testBit k).toNat + 2 * (b.testBit k).toNat + (c.testBit k).toNat))
   ∧ (∀ n a c p l k, k < n → (bfi n a c p l).testBit k =
       if p ≤ k ∧ k < p + min l n then c.testBit (k - p) else a.testBit k)
   ∧ (∀ (t : Ty) (a p l k : Nat), 0 < t.bits → a < 2 ^ t.bits → k < t.bits →
       let len := min l t.bits
       let at_ (j : Nat) : Bool := if j < t.bits then a.testBit j else t.isSigned && a.testBit (t.bits - 1)
       (wrapN t.bits (bfe t a p l)).testBit k =
         if len = 0 then false else if k < len then at_ (p + k) else t.isSigned && at_ (p + len - 1))
   ∧ (∀ n a k j : Nat, j < n → (a * 2 ^ k % 2 ^ n).testBit j = (decide (k ≤ j) && a.testBit (j - k)))
   ∧ (∀ a k j : Nat, (a / 2 ^ k).testBit j = a.testBit (j + k))
   ∧ (∀ a n : Nat, a ≠ 0 → a < 2 ^ n → a.testBit (n - 1 - (n - 1 - Nat.log2 a)) = true
       ∧ ∀ j, n - 1 - (n - 1 - Nat.log2 a) < j → a.testBit j = false)
   ∧ (∀ n a j : Nat, j < n → (((bitList n a).map fun k => 2 ^ (n - 1 - k)).sum).testBit j = a.testBit (n - 1 - j)))

/-- R99: quotient and remainder of two numbers of a type give the dividend back; the remainder is smaller than the divisor and
has the dividend's sign. -/
def Obligations.DivisionIdentity : Prop :=
  ∀ (t : Ty) (a b : Int), b ≠ 0 → ¬ (a = loOf t ∧ b = -1) →
    divInt t a b * b + remInt t a b = a ∧ (remInt t a b).natAbs < b.natAbs ∧ (0 ≤ a → 0 ≤ remInt t a b) ∧ (a ≤ 0 → remInt t a b ≤ 0)

/-! ### Predicates and lanes (R81 to R86) -/

/-- R81 to R84: PSET, PLOP, PMOV, VOTE and ELECT over the active lanes: comparisons signed for .i types; PLOP's truth table in
SUB; the mask of VOTE.ballot; the lowest active lane for ELECT. PMOV.put writes predicates 0 to 14 of every active lane.

R85, R86: SHFL reads the lane that SUB names, and the lane itself outside the width or where no fibre stands; VRED reduces
over every active lane; VSCAN over the active lanes up to the lane, or below it with `.ex`.

R85: the four ways in which SHFL names its source lane: the lane b, b lanes below or above, or XOR; none outside the width.

R86: the operations of VRED and VSCAN: integer sums modulo 2^n; the least or greatest number; and, or, xor bit by bit; over no
term, the identity, which is timeless. A floating-point sum of finite terms is their exact sum, rounded once; NaNs and infinities are
decided first. The stamp is the oldest of every term, per half for the logic operations on 64 bits. -/
def Obligations.PredicatesVotesAndShuffles : Prop :=
  (∀ f : ArithF,
     let A (x : Ctx) (fb : Fibre) : Int := numOf f.ty (x.read fb f.ty f.imm f.a).val
     let B (x : Ctx) (fb : Fibre) : Int := numOf f.ty (x.read fb f.ty f.imm f.b).val
     let yes (x : Ctx) (s : State) : List (Nat × Nat) := x.act.filter fun a => readPred (s.fibre a.2) f.a
     ActsAs (.pset f) f.g f.d (fun x _ fb => { pred := some (match f.sub.toNat with
         | 0 => decide (A x fb = B x fb) | 1 => decide (A x fb ≠ B x fb) | 2 => decide (A x fb < B x fb)
         | 3 => decide (A x fb ≤ B x fb) | 4 => decide (B x fb < A x fb) | _ => decide (B x fb ≤ A x fb)) })
     ∧ ActsAs (.plop f) f.g f.d (fun _ _ fb =>
         { pred := some (f.sub.getLsbD (2 * (readPred fb f.a).toNat + (readPred fb f.b).toNat)) })
     ∧ ActsAs (.pmovGet f) f.g f.d (fun _ _ fb => { regs := [(0, ⟨(fb.preds ||| 0x8000).zeroExtend 32, 0⟩)] })
     ∧ Does (.pmovPut f) f.g (fun _ _ => True) (fun x s =>
         ((x.act.map fun a => (a.2, (x.read (s.fibre a.2) .none f.imm f.a).val)).foldl (fun t v => t.modFibre v.1 fun fb =>
           { fb with preds := BitVec.ofNat 16 (v.2 % 2 ^ 15) ||| 0x8000 }) s).advance x)
     ∧ ActsAs (.vote f) f.g f.d (fun x s _ => match f.sub.toNat with
         | 0 => { pred := some ((yes x s).length == x.act.length) }
         | 1 => { pred := some (!(yes x s).isEmpty) }
         | 2 => { pred := some ((yes x s).isEmpty || (yes x s).length == x.act.length) }
         | _ => let m := laneMask ((yes x s).map fun a => a.1)
                { regs := [(0, ⟨BitVec.ofNat 32 m, 0⟩), (1, ⟨BitVec.ofNat 32 (m / 2 ^ 32), 0⟩)] })
     ∧ ActsAs (.elect f) f.g f.d (fun x _ fb => { pred := some (fb.lane == (x.act.head?.map fun a => a.1).getD 64) }))
  ∧ (∀ f : ArithF,
     let term (x : Ctx) (s : State) (a : Nat × Nat) : Opnd := x.read (s.fibre a.2) f.ty f.imm f.a
     ActsAs (.shfl f) f.g f.d (fun x s fb =>
         let there := (shflLane f.sub.toNat x.l.width fb.lane (x.read fb .n32 f.imm f.b).val).bind fun j =>
           x.sl.lanes.find? fun y => y.1 == j
         let a := x.read ((there.map fun y => s.fibre y.2).getD fb) f.ty f.imm f.a
         { regs := resultRegs f.ty (a.val : Int) a.lo a.hi })
     ∧ ActsAs (.vred f) f.g f.d (fun x s _ => redOut x f (x.act.map (term x s)))
     ∧ ActsAs (.vscan f) f.g f.d (fun x s fb => redOut x f ((x.act.filter fun a =>
         if f.sub.getLsbD 4 then decide (a.1 < fb.lane) else decide (a.1 ≤ fb.lane)).map (term x s))))
  ∧ (∀ width i b j : Nat, i < width →
     (shflLane 0 width i b = some j ↔ j = b ∧ j < width)
     ∧ (shflLane 1 width i b = some j ↔ j + b = i)
     ∧ (shflLane 2 width i b = some j ↔ j = i + b ∧ j < width)
     ∧ (shflLane 3 width i b = some j ↔ j = i ^^^ b ∧ j < width))
  ∧ ((∀ (t : Ty) (rm : RM) (x : Nat) (xs : List Nat), t ∈ [Ty.i32, .n32, .b32, .i64, .n64, .b64] → (∀ y ∈ x :: xs, y < 2 ^ t.bits) →
     let v (op : Nat) : Nat := (redValue op t rm (x :: xs)).1
     (∀ op, (redValue op t rm (x :: xs)).2 = 0)
     ∧ v 0 = (x :: xs).sum % 2 ^ t.bits
     ∧ (v 1 ∈ x :: xs ∧ ∀ y ∈ x :: xs, numOf t (v 1) ≤ numOf t y)
     ∧ (v 2 ∈ x :: xs ∧ ∀ y ∈ x :: xs, numOf t y ≤ numOf t (v 2))
     ∧ (∀ k, (v 3).testBit k = (x :: xs).all fun y => y.testBit k)
     ∧ (∀ k, (v 4).testBit k = (x :: xs).any fun y => y.testBit k)
     ∧ (∀ k, (v 5).testBit k = decide (((x :: xs).filter fun y => y.testBit k).length % 2 = 1)))
   ∧ (∀ (t : Ty) (rm : RM), t ∈ [Ty.i32, .n32, .b32, .i64, .n64, .b64, .f32, .f64] →
     let n := t.bits
     let id (op : Nat) : Nat × Flags := redValue op t rm []
     let fl := t = .f32 ∨ t = .f64
     (fl → id 0 = (zeroF (fmtOf t) true, 0) ∧ id 1 = (infF (fmtOf t) false, 0) ∧ id 2 = (infF (fmtOf t) true, 0))
     ∧ (¬ fl → id 0 = (0, 0) ∧ id 3 = (2 ^ n - 1, 0) ∧ id 4 = (0, 0) ∧ id 5 = (0, 0))
     ∧ (t.isSigned = true → id 1 = (2 ^ (n - 1) - 1, 0) ∧ id 2 = (2 ^ (n - 1), 0))
     ∧ (t = .n32 ∨ t = .n64 → id 1 = (2 ^ n - 1, 0) ∧ id 2 = (0, 0)))
   ∧ (∀ (t : Ty) (rm : RM) (x : Nat) (xs : List Nat), t = .f32 ∨ t = .f64 →
     let f := fmtOf t
     let vs := (x :: xs).map (decodeF f)
     let sum := vs.foldl (fun a v => a.add v.dy) Dy.zero
     let r := redValue 0 t rm (x :: xs)
     (∀ v, vs.find? FV.isNaN = some v → r = (quietF f v, if vs.any FV.isSig then NV else 0))
     ∧ (vs.any FV.isNaN = false → FV.inf false ∈ vs → FV.inf true ∈ vs → r = (canonNaN f, NV))
     ∧ (∀ n, vs.any FV.isNaN = false → FV.inf n ∈ vs → FV.inf (!n) ∉ vs → r = (infF f n, 0))
     ∧ ((∀ v ∈ vs, v.isNaN = false ∧ v.isInf = false) →
       r = if sum.n = 0 then (zeroF f ((vs.all fun v => v == .zero true) || rm == .rdn), 0)
         else roundF f rm (decide (sum.n < 0)) ⟨sum.n.natAbs, sum.e, false⟩))
   ∧ ∀ (x : Ctx) (f : ArithF) (os : List Opnd),
     let op := f.sub.toNat % 8
     let r := redValue op f.ty f.rm (os.map fun o => o.val)
     let st := if 3 ≤ op then x.half os else (x.whole os, x.whole os)
     redOut x f os =
       { regs := (0, ⟨BitVec.ofNat 32 r.1, st.1⟩) :: (if f.ty.wide then [(1, ⟨BitVec.ofNat 32 (r.1 / 2 ^ 32), st.2⟩)] else []), exc := r.2 })

/-! ### Floating point (R107 to R137) -/

/-- R120 to R128: floating-point arithmetic under RM, and the special functions; the result carries the oldest stamp of the
operands, and the exceptions go to FFLAGS.

R110, R121, R124: the sum, product, fused sum, quotient and root of finite values is the exact one, rounded once: `roundF` of the
magnitude m x 2^e, whose `sticky` says that something lies below it. An exact zero has the sign of R110. 2^x, log2, sin and cos are exact
at the points of R124's table; elsewhere they are enclosed (log 12). -/
def Obligations.FloatArithmetic : Prop :=
  (∀ f : ArithF,
     let t := fmtOf f.ty
     let a (x : Ctx) (fb : Fibre) : Opnd := x.read fb f.ty f.imm f.a
     let b (x : Ctx) (fb : Fibre) : Opnd := x.read fb f.ty f.imm f.b
     let c (x : Ctx) (fb : Fibre) : Opnd := x.read fb f.ty f.imm f.c
     let A (x : Ctx) (fb : Fibre) : FV := decodeF t (a x fb).val
     let B (x : Ctx) (fb : Fibre) : FV := decodeF t (b x fb).val
     let two (v : FV → FV → Nat × Flags) (x : Ctx) (_ : State) (fb : Fibre) : LaneOut :=
       { regs := fpRegs f.ty (v (A x fb) (B x fb)).1 (x.whole [a x fb, b x fb]), exc := (v (A x fb) (B x fb)).2 }
     let one (v : FV → Nat × Flags) (x : Ctx) (_ : State) (fb : Fibre) : LaneOut :=
       { regs := fpRegs f.ty (v (A x fb)).1 (x.whole [a x fb]), exc := (v (A x fb)).2 }
     ActsAs (.fadd f) f.g f.d (two (addV t f.rm))
     ∧ ActsAs (.fsub f) f.g f.d (two fun u v => addV t f.rm u (negV v))
     ∧ ActsAs (.fmul f) f.g f.d (two (mulV t f.rm))
     ∧ ActsAs (.fdiv f) f.g f.d (two (divV t f.rm))
     ∧ ActsAs (.ffma f) f.g f.d (fun x _ fb =>
         let r := fmaV t f.rm (A x fb) (B x fb) (decodeF t (c x fb).val)
         { regs := fpRegs f.ty r.1 (x.whole [a x fb, b x fb, c x fb]), exc := r.2 })
     ∧ ActsAs (.fsqrt f) f.g f.d (one (fnV t f.rm .sqrt))
     ∧ ActsAs (.frcp f) f.g f.d (one (fnV t f.rm .rcp))
     ∧ ActsAs (.frsq f) f.g f.d (one (fnV t f.rm .rsq))
     ∧ ActsAs (.fexp2 f) f.g f.d (one (fnV t f.rm .exp2))
     ∧ ActsAs (.flog2 f) f.g f.d (one (fnV t f.rm .log2))
     ∧ ActsAs (.fsin f) f.g f.d (one (fnV t f.rm .sin))
     ∧ ActsAs (.fcos f) f.g f.d (one (fnV t f.rm .cos)))
  ∧ ((∀ (f : Fmt) (rm : RM) (a b c : Bool) (m n p : Nat) (e g h : Int), m ≠ 0 → n ≠ 0 → p ≠ 0 →
     let sg (neg : Bool) (k : Nat) : Int := if neg then -(k : Int) else k
     let sum (v q : Int) (z : Bool) : Nat × Flags := if v = 0 then (zeroF f z, 0) else roundF f rm (decide (v < 0)) ⟨v.natAbs, q, false⟩
     addV f rm (.fin a m e) (.fin b n g) =
       sum (sg a m * 2 ^ (e - min e g).toNat + sg b n * 2 ^ (g - min e g).toNat) (min e g) (if a = b then a else rm == .rdn)
     ∧ addV f rm (.zero a) (.fin b n g) = roundF f rm b ⟨n, g, false⟩
     ∧ addV f rm (.fin b n g) (.zero a) = roundF f rm b ⟨n, g, false⟩
     ∧ addV f rm (.zero a) (.zero b) = (zeroF f (if a = b then a else rm == .rdn), 0)
     ∧ mulV f rm (.fin a m e) (.fin b n g) = roundF f rm (a != b) ⟨m * n, e + g, false⟩
     ∧ mulV f rm (.zero a) (.fin b n g) = (zeroF f (a != b), 0)
     ∧ fmaV f rm (.fin a m e) (.fin b n g) (.fin c p h) =
         sum (sg (a != b) (m * n) * 2 ^ (e + g - min (e + g) h).toNat + sg c p * 2 ^ (h - min (e + g) h).toNat) (min (e + g) h)
           (if (a != b) = c then c else rm == .rdn)
     ∧ (let k := f.fb + 9 + Nat.log2 n
        divV f rm (.fin a m e) (.fin b n g) = roundF f rm (a != b) ⟨m * 2 ^ k / n, e - g - k, decide (m * 2 ^ k % n ≠ 0)⟩
        ∧ fnV f rm .rcp (.fin b n g) = roundF f rm b ⟨2 ^ k / n, -g - k, decide (2 ^ k % n ≠ 0)⟩)
     ∧ divV f rm (.zero a) (.fin b n g) = (zeroF f (a != b), 0)
     ∧ (e % 2 = 0 → (∃ r : Nat, r * r ≤ m * 2 ^ 128 ∧ m * 2 ^ 128 < (r + 1) * (r + 1)
         ∧ fnV f rm .sqrt (.fin false m e) = roundF f rm false ⟨r, e / 2 - 64, decide (r * r ≠ m * 2 ^ 128)⟩)
       ∧ (let k := 64 + Nat.log2 m
          ∃ r : Nat, r * r * m ≤ 2 ^ (2 * k) ∧ 2 ^ (2 * k) < (r + 1) * (r + 1) * m
            ∧ fnV f rm .rsq (.fin false m e) = roundF f rm false ⟨r, -(e / 2) - k, decide (r * r * m ≠ 2 ^ (2 * k))⟩))
     ∧ (e % 2 ≠ 0 → fnV f rm .sqrt (.fin false m e) = fnV f rm .sqrt (.fin false (2 * m) (e - 1))
       ∧ fnV f rm .rsq (.fin false m e) = fnV f rm .rsq (.fin false (2 * m) (e - 1)))
     ∧ (let k := sg a m * 2 ^ e.toNat
        0 ≤ e → -4096 ≤ k → k ≤ 4096 → fnV f rm .exp2 (.fin a m e) = roundF f rm false ⟨1, k, false⟩)
     ∧ (∀ j : Nat, m = 2 ^ j → fnV f rm .log2 (.fin false m e) = sum (e + j) 0 false)
     ∧ (0 ≤ e → fnV f rm .sin (.fin a m e) = (zeroF f a, 0)
       ∧ fnV f rm .cos (.fin a m e) = roundF f rm (decide (e = 0 ∧ m % 2 = 1)) ⟨1, 0, false⟩)
     ∧ (m % 2 = 1 → fnV f rm .sin (.fin a m (-1)) = roundF f rm (decide (sg a m % 4 = 3)) ⟨1, 0, false⟩
       ∧ fnV f rm .cos (.fin a m (-1)) = (zeroF f false, 0)))
   ∧ ∀ (f : Fmt) (rm : RM) (neg : Bool) (m j : Nat) (e : Int), 2 ^ (f.fb + 2) ≤ m / 2 ^ j →
     roundF f rm neg ⟨m / 2 ^ j, e + j, decide (m % 2 ^ j ≠ 0)⟩ = roundF f rm neg ⟨m, e, false⟩)

/-- R122, R123, R125 to R128: minimum and maximum, sign changes, comparison, class, scaling and rounding to an integer.

R122, R125, R127, R128: the order of values, with -0 below +0 for FMIN and FMAX alone; minimum and maximum, which leave a NaN out;
the table of comparisons; scaling and rounding to an integer of finite values, and what NaNs, infinities and zeros give.

R129 to R137: CVT and its mx8 forms; PACK, which for 8-bit types keeps the half that it does not write; UNPACK; the block
conversions, whose source and result are runs of registers.

R130 to R132, R134: conversion value by value. A finite value is rounded once; an infinity gives an infinity, and NV and a NaN in
e4m3; a NaN keeps its sign and payload; an integer is rounded; a value beyond an integer type gives its bound and NV. A block takes the
least exponent under which every element fits, E1 the gap below it, and each element the smaller exponent where it fits and is not 0;
an element that fits under no exponent stands at the limit (R234). An mx8 block's scale is that of its greatest element, less 8. -/
def Obligations.FloatSelectionAndConversion : Prop :=
  (∀ f : ArithF,
     let t := fmtOf f.ty
     let a (x : Ctx) (fb : Fibre) : Opnd := x.read fb f.ty f.imm f.a
     let b (x : Ctx) (fb : Fibre) : Opnd := x.read fb f.ty f.imm f.b
     let n (x : Ctx) (fb : Fibre) : Opnd := x.read fb .i32 f.imm f.b
     let out (x : Ctx) (ty : Ty) (r : Nat × Flags) (l : List Opnd) : LaneOut := { regs := fpRegs ty r.1 (x.whole l), exc := r.2 }
     ActsAs (.fmin f) f.g f.d (fun x _ fb => out x f.ty (minMaxF t false (a x fb).val (b x fb).val) [a x fb, b x fb])
     ∧ ActsAs (.fmax f) f.g f.d (fun x _ fb => out x f.ty (minMaxF t true (a x fb).val (b x fb).val) [a x fb, b x fb])
     ∧ ActsAs (.fabs f) f.g f.d (fun x _ fb => out x f.ty ((a x fb).val % 2 ^ (t.width - 1), 0) [a x fb])
     ∧ ActsAs (.fneg f) f.g f.d (fun x _ fb => out x f.ty ((a x fb).val ^^^ 2 ^ (t.width - 1), 0) [a x fb])
     ∧ ActsAs (.fcmp f) f.g f.d (fun x _ fb =>
         { pred := some (cmpF t f.sub.toNat (a x fb).val (b x fb).val).1, exc := (cmpF t f.sub.toNat (a x fb).val (b x fb).val).2 })
     ∧ ActsAs (.fclass f) f.g f.d (fun x _ fb => out x .b32 (classF t (a x fb).val, 0) [a x fb])
     ∧ ActsAs (.fscalb f) f.g f.d (fun x _ fb =>
         out x f.ty (scalbF t f.rm (a x fb).val (sextN 32 (n x fb).val)) [a x fb, n x fb])
     ∧ ActsAs (.frnd f) f.g f.d (fun x _ fb => out x f.ty (rndF t f.rm (f.sub == 1) (a x fb).val) [a x fb]))
  ∧ ((∀ (z a b : Bool) (m n : Nat) (e g : Int) (v : FV), m ≠ 0 → n ≠ 0 → v.isNaN = false →
     let sg (neg : Bool) (k : Nat) : Int := if neg then -(k : Int) else k
     ltV z (.inf true) v = decide (v ≠ .inf true) ∧ ltV z v (.inf true) = false
     ∧ ltV z v (.inf false) = decide (v ≠ .inf false) ∧ ltV z (.inf false) v = false
     ∧ ltV z (.fin a m e) (.fin b n g) = decide (sg a m * 2 ^ (e - min e g).toNat < sg b n * 2 ^ (g - min e g).toNat)
     ∧ ltV z (.fin a m e) (.zero b) = a ∧ ltV z (.zero b) (.fin a m e) = !a
     ∧ ltV z (.zero a) (.zero b) = (z && a && !b))
   ∧ (∀ (f : Fmt) (x y : Nat),
     let a := decodeF f x
     let b := decodeF f y
     let sig : Flags := if a.isSig || b.isSig then NV else 0
     (a.isNaN = true → b.isNaN = true → ∀ k, minMaxF f k x y = (quietF f a, sig))
     ∧ (a.isNaN = true → b.isNaN = false → ∀ k, minMaxF f k x y = (y, sig))
     ∧ (a.isNaN = false → b.isNaN = true → ∀ k, minMaxF f k x y = (x, sig))
     ∧ (a.isNaN = false → b.isNaN = false →
       minMaxF f false x y = (if ltV true b a then y else x, 0) ∧ minMaxF f true x y = (if ltV true a b then y else x, 0))
     ∧ (a.isNaN = true ∨ b.isNaN = true → ∀ k, k < 8 → cmpF f k x y =
         (decide (k = 1 ∨ k = 6), if 2 ≤ k ∧ k ≤ 5 then NV else sig))
     ∧ (a.isNaN = false → b.isNaN = false →
       let lt := ltV false a b
       let gt := ltV false b a
       cmpF f 0 x y = (!lt && !gt, 0) ∧ cmpF f 1 x y = (lt || gt, 0) ∧ cmpF f 2 x y = (lt, 0) ∧ cmpF f 3 x y = (!gt, 0)
       ∧ cmpF f 4 x y = (gt, 0) ∧ cmpF f 5 x y = (!lt, 0) ∧ cmpF f 6 x y = (false, 0) ∧ cmpF f 7 x y = (true, 0)))
   ∧ ∀ (t : Ty) (rm : RM) (exact : Bool) (x : Nat) (k : Int),
     let f := fmtOf t
     (∀ s m e, decodeF f x = .fin s m e →
       let r := Mag.roundAt ⟨m, e, false⟩ rm s 0
       scalbF f rm x k = roundF f rm s ⟨m, e + k, false⟩
       ∧ rndF f rm exact x = (if r.1 = 0 then zeroF f s else (roundF f .rtz s ⟨r.1, 0, false⟩).1, if r.2 && exact then NX else 0))
     ∧ ((decodeF f x).isNaN = true →
       let r : Nat × Flags := (quietF f (decodeF f x), if (decodeF f x).isSig then NV else 0)
       scalbF f rm x k = r ∧ rndF f rm exact x = r)
     ∧ ((decodeF f x).isInf = true ∨ (decodeF f x).isZero = true → scalbF f rm x k = (x, 0) ∧ rndF f rm exact x = (x, 0)))
  ∧ (∀ f : ArithF,
     let out (x : Ctx) (ty : Ty) (r : Nat × Flags) (l : List Opnd) : LaneOut := { regs := fpRegs ty r.1 (x.whole l), exc := r.2 }
     let values (fb : Fibre) : List FV := (fb.run f.a 32).map fun r => decodeF (fmtOf .f32) r.val.toNat
     let runStamp (x : Ctx) (fb : Fibre) : Stamp := olderAll x.h ((fb.run f.a 32).map fun r => r.st)
     ActsAs (.cvt f) f.g f.d (fun x _ fb =>
         let a := x.read fb (tyOf f.sub) f.imm f.a
         out x f.ty (cvtCode f.ty (tyOf f.sub) f.rm a.val) [a])
     ∧ ActsAs (.cvtMx8 f) f.g f.d (fun x _ fb =>
         let a := x.read fb (if f.ty = .mx8 then .f32 else .b32) f.imm f.a
         let k := x.read fb .b32 f.imm f.b
         let sc := bitsN k.val 0 8
         out x .b32 (if f.ty = .mx8 then
             (if sc = 255 then (0x7F, NV) else cvtV (fmtOf .e4m3) f.rm ((decodeF (fmtOf .f32) a.val).scale (127 - (sc : Int))))
           else cvtV (fmtOf .f32) f.rm (mxValue sc (bitsN a.val 0 8))) [a, k])
     ∧ ActsAs (.pack f) f.g f.d (fun x _ fb =>
         let a := x.read fb .f32 f.imm f.a
         let b := x.read fb .f32 f.imm f.b
         let old := x.read fb .b32 f.imm f.d
         let ra := cvtCode f.ty .f32 f.rm a.val
         let rb := cvtCode f.ty .f32 f.rm b.val
         if f.ty.bits = 16 then out x .b32 (ra.1 + rb.1 * 2 ^ 16, ra.2 ||| rb.2) [a, b]
         else out x .b32 (if f.sub = 1 then bitsN old.val 0 16 + (ra.1 + rb.1 * 2 ^ 8) * 2 ^ 16
           else old.val / 2 ^ 16 * 2 ^ 16 + (ra.1 + rb.1 * 2 ^ 8), ra.2 ||| rb.2) [a, b, old])
     ∧ ActsAs (.unpack f) f.g f.d (fun x _ fb =>
         let a := x.read fb .b32 f.imm f.a
         out x .f32 (cvtV (fmtOf .f32) .rne (decodeF (fmtOf f.ty) (bitsN a.val (f.ty.bits * f.sub.toNat) f.ty.bits))) [a])
     ∧ ActsAs (.qblk f) f.g f.d (fun x _ fb =>
         let q := quantTx (txOf f.ty) f.rm f.sub.toNat (values fb)
         { regs := blockImage (txOf f.ty).bits q.2.2.1 (q.1 + 256 * q.2.1) (runStamp x fb), exc := q.2.2.2 })
     ∧ ActsAs (.mxq f) f.g f.d (fun x _ fb =>
         let q := quantMx f.rm (values fb)
         { regs := blockImage 8 q.2.1 q.1 (runStamp x fb), exc := q.2.2 })
     ∧ ActsAs (.dqblk f) f.g f.d (fun x _ fb => expand x f (txOf (tyOf f.sub)).bits (txValue (txOf (tyOf f.sub))) 16 fb)
     ∧ ActsAs (.mxdq f) f.g f.d (fun x _ fb => expand x f 8 mxValue 8 fb))
  ∧ ((∀ (f : Fmt) (rm : RM) (n s : Bool) (m p pw : Nat) (e : Int),
     cvtV f rm (.fin n m e) = roundF f rm n ⟨m, e, false⟩
     ∧ cvtV f rm (.zero n) = (zeroF f n, 0)
     ∧ cvtV f rm (.inf n) = (infF f n, if f.e4m3 then NV else 0)
     ∧ cvtV f rm (.nan n s p pw) = (nanF f n p pw, if s then NV else 0))
   ∧ (∀ (dst src : Ty) (rm : RM) (v : Nat),
     let int (t : Ty) := t ∈ [Ty.i32, .n32, .i64, .n64]
     (int src → cvtCode dst src rm v =
       if numOf src v = 0 then (zeroF (fmtOf dst) false, 0)
       else roundF (fmtOf dst) rm (decide (numOf src v < 0)) ⟨(numOf src v).natAbs, 0, false⟩)
     ∧ (¬ int src → ¬ int dst → cvtCode dst src rm v = cvtV (fmtOf dst) rm (decodeF (fmtOf src) v))
     ∧ (¬ int src → int dst →
       ((decodeF (fmtOf src) v).isNaN = true → cvtCode dst src rm v = (0, NV))
       ∧ ((decodeF (fmtOf src) v).isZero = true → cvtCode dst src rm v = (0, 0))
       ∧ (∀ n, decodeF (fmtOf src) v = .inf n → cvtCode dst src rm v = (wrapN dst.bits (if n then loOf dst else hiOf dst), NV))
       ∧ (∀ n m e, decodeF (fmtOf src) v = .fin n m e →
         let r := Mag.roundAt ⟨m, e, false⟩ rm n 0
         let q : Int := if n then -(r.1 : Int) else r.1
         cvtCode dst src rm v =
           if q < loOf dst then (wrapN dst.bits (loOf dst), NV) else if hiOf dst < q then (wrapN dst.bits (hiOf dst), NV)
           else (wrapN dst.bits q, if r.2 then NX else 0))))
   ∧ (∀ (tf : TxFmt) (rm : RM) (gap : Nat) (vs : List FV), tf = txOf .tx4 ∨ tf = txOf .tx8 →
     let r := quantTx tf rm gap vs
     let e0 := r.1
     let fin (v : FV) : Prop := v.isNaN = false ∧ v.isInf = false
     let q (v : FV) (E : Nat) : Int := (roundInt rm ⟨v.dy.n * tf.k, v.dy.e + 127 - E⟩).1
     let sgn := 2 ^ (tf.bits - 2)
     ((∀ v ∈ vs, fin v → v.isZero = true) → e0 = 127)
     ∧ ((∃ v ∈ vs, fin v ∧ v.isZero = false) →
       e0 ≤ 255 ∧ ((∀ v ∈ vs, fin v → v.isZero = false → (q v e0).natAbs ≤ tf.mmax) ∨ e0 = 255)
       ∧ ∀ E, E < e0 → ∃ v ∈ vs, fin v ∧ v.isZero = false ∧ tf.mmax < (q v E).natAbs)
     ∧ r.2.1 = e0 - gap ∧ r.2.2.1.length = vs.length
     ∧ ∀ (j : Nat) (v : FV), vs[j]? = some v →
       (¬ fin v → r.2.2.1[j]? = some sgn)
       ∧ (fin v →
         let q1 : Int := q v r.2.1
         let small := r.2.1 < e0 ∧ 1 ≤ q1.natAbs ∧ q1.natAbs ≤ tf.mmax
         (small → r.2.2.1[j]? = some (2 ^ (tf.bits - 1) + (if q1 < 0 then sgn else 0) + q1.natAbs))
         ∧ (¬ small → (q v e0).natAbs ≤ tf.mmax → r.2.2.1[j]? = some ((if q v e0 < 0 then sgn else 0) + (q v e0).natAbs))
         ∧ (¬ small → tf.mmax < (q v e0).natAbs → r.2.2.1[j]? = some ((if q v e0 < 0 then sgn else 0) + tf.mmax))))
   ∧ ∀ (rm : RM) (vs : List FV),
     let r := quantMx rm vs
     let fin (v : FV) : Prop := v.isNaN = false ∧ v.isInf = false ∧ v.isZero = false
     ((∀ v ∈ vs, ¬ fin v) → r.1 = 127)
     ∧ (∀ v ∈ vs, fin v → (∀ w ∈ vs, fin w → w.dy.log2 ≤ v.dy.log2) → (r.1 : Int) = min 254 (max 0 (v.dy.log2 - 8 + 127)))
     ∧ r.2.1 = vs.map (fun v => (cvtV (fmtOf .e4m3) rm (v.scale (127 - (r.1 : Int)))).1)
     ∧ r.2.2 = vs.foldl (fun fl v => fl ||| (cvtV (fmtOf .e4m3) rm (v.scale (127 - (r.1 : Int)))).2) 0)

/-- R52, R110: rounding an exact magnitude to a multiple of a power of two: towards zero, up, down, to the nearest with ties
to even, and to the nearest with ties away from zero; inexact exactly where something is cut off.

R108, R110: every finite non-zero code of a format, rounded in any mode, is that code again, without an exception. -/
def Obligations.RoundingModes : Prop :=
  (∀ (m k : Nat) (e : Int) (rm : RM) (neg : Bool),
     let r := Mag.roundAt ⟨m, e, false⟩ rm neg (e + k)
     r.2 = decide (m % 2 ^ k ≠ 0)
     ∧ (rm = .rtz → r.1 = m / 2 ^ k)
     ∧ (rm = .rup → r.1 = if neg then m / 2 ^ k else (m + (2 ^ k - 1)) / 2 ^ k)
     ∧ (rm = .rdn → r.1 = if neg then (m + (2 ^ k - 1)) / 2 ^ k else m / 2 ^ k)
     ∧ (rm = .rne ∨ rm = .rna → 2 * (r.1 * 2 ^ k) ≤ 2 * m + 2 ^ k ∧ 2 * m ≤ 2 * (r.1 * 2 ^ k) + 2 ^ k)
     ∧ (rm = .rne → 2 * (m % 2 ^ k) = 2 ^ k → r.1 % 2 = 0)
     ∧ (rm = .rna → 2 * (m % 2 ^ k) = 2 ^ k → r.1 = m / 2 ^ k + 1))
  ∧ (∀ (t : Ty) (rm : RM) (c m : Nat) (e : Int) (neg : Bool), t ∈ [Ty.f64, .f32, .f16, .bf16, .e4m3, .e5m2] →
     c < 2 ^ (fmtOf t).width → decodeF (fmtOf t) c = .fin neg m e → roundF (fmtOf t) rm neg ⟨m, e, false⟩ = (c, 0))

/-- R109, R121, R124: invalid operations give the canonical NaN with NV, a finite number divided by zero gives an infinity with
DZ, and a NaN operand gives a NaN, with NV where one is signalling. -/
def Obligations.InvalidOperations : Prop :=
  ∀ (t : Ty) (rm : RM) (n : Bool) (v w : FV) (m : Nat) (e : Int),
    let f := fmtOf t
    addV f rm (.inf n) (.inf !n) = (canonNaN f, NV)
    ∧ mulV f rm (.inf n) (.zero !n) = (canonNaN f, NV)
    ∧ divV f rm (.zero n) (.zero !n) = (canonNaN f, NV)
    ∧ divV f rm (.inf n) (.inf !n) = (canonNaN f, NV)
    ∧ divV f rm (.fin n m e) (.zero false) = (infF f n, DZ)
    ∧ fnV f rm .sqrt (.fin true m e) = (canonNaN f, NV)
    ∧ fnV f rm .log2 (.zero n) = (infF f true, DZ)
    ∧ (v.isNaN = true ∨ w.isNaN = true →
        addV f rm v w = (quietF f (if v.isNaN then v else w), if v.isSig || w.isSig then NV else 0)
        ∧ addV f rm v w = mulV f rm v w ∧ addV f rm v w = divV f rm v w)

/-! ### Stamps and time (R138 to R158) -/

/-- R151 to R156, R158: STGET, STSET with and without stamp authority, STLESS, STMIN, AGE, FRESH and HZN at the horizon that the
issue samples. AGE and STSET trap a future stamp, FRESH.trap a stale one as well.

R5, R91, R141: `older` picks one of its operands, the older of two that are not timeless; the order of operands and the
grouping make no difference, and timeless data adds nothing. -/
def Obligations.StampInstructions : Prop :=
  (∀ f : ArithF,
     let a (x : Ctx) (fb : Fibre) : Opnd := x.read fb f.ty f.imm f.a
     let st (x : Ctx) (fb : Fibre) : Stamp := older x.h (a x fb).lo (a x fb).hi
     let stB (x : Ctx) (fb : Fibre) : Stamp := older x.h (x.read fb f.ty f.imm f.b).lo (x.read fb f.ty f.imm f.b).hi
     let b (x : Ctx) (fb : Fibre) : Word := BitVec.ofNat 32 (x.read fb .n32 f.imm f.b).val
     let single (v : Word) : LaneOut := { regs := [(0, ⟨v, 0⟩)] }
     ActsAs (.stget f) f.g f.d (fun x _ fb => single (st x fb))
     ∧ ActsAs (.stset f) f.g f.d (fun x _ fb =>
         if x.l.stauth then
           if ageOf x.hh x.h (b x fb) = .future then { cause := some 0x084, stamp := b x fb }
           else { regs := resultRegs f.ty ((a x fb).val : Int) (b x fb) (b x fb) }
         else { regs := resultRegs f.ty ((a x fb).val : Int) (older x.h (b x fb) (a x fb).lo) (older x.h (b x fb) (a x fb).hi) })
     ∧ ActsAs (.stless f) f.g f.d (fun x _ fb =>
         { pred := some (st x fb != 0 && stB x fb != 0 && decide (sd x.h (stB x fb) < sd x.h (st x fb))) })
     ∧ ActsAs (.stmin f) f.g f.d (fun x _ fb =>
         { regs := resultRegs f.ty ((a x fb).val : Int) (older x.h (a x fb).lo (stB x fb)) (older x.h (a x fb).hi (stB x fb)) })
     ∧ ActsAs (.age f) f.g f.d (fun x _ fb => match ageOf x.hh x.h (st x fb) with
         | .timeless => single 0
         | .age n => single (BitVec.ofNat 32 n)
         | .future => if f.sub = 1 then single 0xFFFFFFFF else { cause := some 0x084, stamp := st x fb })
     ∧ ActsAs (.fresh f) f.g f.d (fun x _ fb => match boundCause x.hh x.h (some (b x fb)) 0x082 (st x fb) with
         | none => { pred := some true }
         | some 0x082 => if f.sub = 1 then { cause := some 0x082, stamp := st x fb, bound := b x fb } else { pred := some false }
         | some c => { cause := some c, stamp := st x fb, bound := b x fb })
     ∧ ActsAs (.hzn f) f.g f.d (fun x _ _ => { regs := [(0, ⟨x.h, tstamp x.h.toNat⟩)] }))
  ∧ (∀ h a b c : Word,
     older h a 0 = a ∧ older h 0 a = a ∧ older h a a = a
     ∧ older h a b = older h b a
     ∧ older h (older h a b) c = older h a (older h b c)
     ∧ (a ≠ 0 → b ≠ 0 → older h a b ≠ 0 ∧ sd h a ≤ sd h (older h a b) ∧ sd h b ≤ sd h (older h a b)))

/-- R141, R144: a timeless stamp passes every bound; a stamp passes a bound of its age or more and fails a lesser one with the
access's cause; a stamp beyond the horizon by more than H + 2 ticks raises 0x084. -/
def Obligations.BoundChecks : Prop :=
  ∀ (hh : Nat) (h st : Word) (b : Word) (old : Nat),
    boundCause hh h none old st = none
    ∧ boundCause hh h (some b) old 0 = none
    ∧ (st ≠ 0 → 0 ≤ sd h st → boundCause hh h (some b) old st = if (b.toNat : Int) < sd h st then some old else none)
    ∧ (st ≠ 0 → sd h st < 0 → -((hh : Int) + 2) ≤ sd h st → boundCause hh h (some b) old st = none)
    ∧ (st ≠ 0 → sd h st < -((hh : Int) + 2) → boundCause hh h (some b) old st = some 0x084)

/-! ### Taking a trap, and the return from one (R273 to R286) -/

/-- R273 (path 3), R274, R277: delivery to the handler. The frame of the slot is written, and no other byte; the slot gets its
handler mark, `%frame` and TRAPENT as its PC, and may issue again. Registers, predicates, FFLAGS, FMASK and the counters stay, and
so does every other slot; every fibre of the slot comes after the frame's write, and what the instruction had asked other devices for
is dropped.

R274 to R276: the fields of a frame. PC is the instruction's; RPC is the next PC, or the slot's current one for the kinds
engine and late; REPLAY is 1 for precise, partial, engine and parked; reserved bits are 0. -/
def Obligations.TrapEntersTheHandler : Prop :=
  (∀ (s : State) (g : Nat) (t : TrapInfo) (sl : Slot), aget? s.slots g = some sl → sl.handler = false →
     let l := s.launch (s.team sl.team).launch
     l.trapp = true →
     let u := s.raise g t none
     let base := Config.framePhys + 256 * g
     aget? u.slots g = some { sl with
         handler := true, frame := Config.frameWindow + BitVec.ofNat 64 (256 * g)
         pc := l.kimg + 128#64 + BitVec.ofNat 64 (64 * (l.trapent / 8)) + BitVec.ofNat 64 (l.trapent % 8)
         arrive := .entry, wait := .none, replay := none, handling := some { t with bounds := [] } }
     ∧ (∀ k, k ≠ g → aget? u.slots k = aget? s.slots k)
     ∧ (∀ i, i < 128 → u.byteAt (base + i) = BitVec.ofNat 8 (s.frameBits g sl t sl.pc / 256 ^ i))
     ∧ (∀ a, a < base ∨ base + 128 ≤ a → u.byteAt a = s.byteAt a)
     ∧ (∀ k fb, aget? s.fibres k = some fb → ∃ v, aget? u.fibres k = some { fb with vec := { fb.vec with know := v } }
         ∧ (k ∈ sl.fids → s.uid ∈ v))
     ∧ u = { s with
         slots := u.slots, fibres := u.fibres, mem := u.mem, stamps := u.stamps, ue := u.ue, hist := u.hist, uid := u.uid
         far := adel s.far (farIssue g) })
  ∧ (∀ (s : State) (g : Nat) (sl : Slot) (t : TrapInfo) (cur : DWord),
     t.cause < 2 ^ 9 → t.rstep < 2 ^ 16 → g < 2 ^ 15 → sl.role < 4 →
     let n := s.frameBits g sl t cur
     let f (lo w : Nat) : Nat := bitsN n lo w
     f 0 9 = t.cause ∧ f 9 1 = 0
     ∧ f 10 3 = (match t.kind with | .precise => 0 | .partly => 1 | .after => 2 | .engine => 3 | .late => 4 | .parked => 5)
     ∧ f 13 1 = (if t.kind ∈ [Kind.precise, .partly, .engine, .parked] then 1 else 0)
     ∧ f 14 2 = 0 ∧ f 16 16 = t.rstep ∧ f 32 352 = 0
     ∧ (∀ i, i < 64 → n.testBit (384 + i) = decide (i ∈ t.rmask)) ∧ f 448 7 = 0
     ∧ f 455 6 = g % 64 ∧ f 461 2 = g / 64 % 4 ∧ f 463 7 = g / 256 ∧ f 470 2 = sl.role
     ∧ f 472 8 = s.weaveOf sl % 256 ∧ f 480 32 = (s.team sl.team).index.toNat ∧ f 512 64 = t.addr.toNat
     ∧ (∀ i, i < 64 → n.testBit (576 + i) = decide (i ∈ t.lmask)) ∧ f 640 64 = t.pc.toNat
     ∧ f 704 64 = (if t.kind ∈ [Kind.engine, .late] then cur else t.next).toNat
     ∧ f 768 32 = t.info.toNat ∧ f 800 32 = t.stamp.toNat ∧ f 832 32 = t.hzn.toNat ∧ f 864 32 = t.bound.toNat
     ∧ f 896 32 = 0 ∧ f 928 96 = t.word.toNat ∧ n < 2 ^ 1024)

/-- R273 (paths 2 and 4), R278, R280: within the handler, or where the launch has none, the cause goes to the error record (0x1C5
in place of a cause within the handler) and the team ends: none of its fibres lives on and none of its slots issues again. The
first error of the launch stays; other teams' fibres stay as they were, but for what they receive at a barrier that this ending
completes (R258).

R273 (path 1), R285: a fault that the groom serves parks the slot, or enters its continuation when the launch has one, the slot
has enabled it and is neither in it nor in its handler: ACTIVE is set, READY cleared, the continuation frame written, with KIND parked
and the lanes of the replay in RMASK, and the slot goes on at CONTENT. -/
def Obligations.FaultsOutsideTheHandler : Prop :=
  (∀ (s : State) (g : Nat) (t : TrapInfo) (sl : Slot) (l : Launch), aget? s.slots g = some sl →
     let lid := s.root (s.team sl.team).launch
     sl.handler = true ∨ (s.launch (s.team sl.team).launch).trapp = false → aget? s.launches lid = some l →
     let u := s.raise g t none
     (∃ m, aget? u.launches lid = some m ∧ min (2 ^ 32 - 1) (l.errcnt + 1) ≤ m.errcnt
       ∧ m.first = if l.first.isSome then l.first
           else some { t with cause := if sl.handler then 0x1C5 else t.cause, weave := s.weaveOf sl })
     ∧ (∀ k fb, aget? u.fibres k = some fb → fb.team = sl.team → fb.alive = false)
     ∧ (∀ k v, aget? u.slots k = some v → v.team = sl.team → v.lanes = [])
     ∧ (∀ k fb, aget? s.fibres k = some fb → fb.team ≠ sl.team → ∃ v r, aget? u.fibres k = some { fb with
         vec := { fb.vec with know := v }, after := r } ∧ (∀ i ∈ fb.vec.know, i ∈ v) ∧ ∀ i ∈ fb.after, i ∈ r))
  ∧ (∀ (s : State) (g : Nat) (t : TrapInfo) (v : Serve) (sl : Slot), aget? s.slots g = some sl →
     let l := s.launch (s.team sl.team).launch
     let u := s.raise g t (some v)
     let base := Config.framePhys + 256 * g + 128
     let goesOn : Bool := l.contp && sl.cont.getLsbD 0 && !sl.cont.getLsbD 62 && !sl.handler
     (goesOn = false → u = (s.dropIssue g).modSlot g fun x => { x with wait := .park ⟨t, v⟩, replay := none })
     ∧ (goesOn = true →
         (∃ k, aget? u.slots g = some { sl with
           cont := k, frame := Config.frameWindow + BitVec.ofNat 64 (256 * g) + 128
           pc := l.kimg + 128#64 + BitVec.ofNat 64 (64 * (l.content / 8)) + BitVec.ofNat 64 (l.content % 8)
           arrive := .entry, wait := .none, replay := none, contPark := some ⟨t, v⟩ }
           ∧ ∀ j, j < 64 → k.getLsbD j = if j = 62 then true else if j = 63 then false else sl.cont.getLsbD j)
         ∧ (∀ i, i < 128 → u.byteAt (base + i) =
             BitVec.ofNat 8 (s.frameBits g sl { t with kind := .parked } sl.pc / 256 ^ i))
         ∧ ∀ a, a < base ∨ base + 128 ≤ a → u.byteAt a = s.byteAt a))

/-- R279: TRET, once the slot's earlier stores have completed and the frame can be read: the handler mark goes, `%frame` is the
continuation frame or 0, and the slot goes on where REPLAY and KIND say: at the PC that was framed, for the lanes of RMASK that the
device had set and that stand in the slot, or at RPC. An engine instruction resumes at the framed step; one that had itself been
issued again keeps the step at which it resumed. -/
def Obligations.TrapReturn : Prop :=
  ∀ (f : CtrlF) (s : State) (c : IssueCtx) (sl : Slot) (fr : FrameRead), Issues s c sl → (s.ctx c sl f.g).act ≠ [] →
    sl.handler = true → sl.st = 0 → s.readFrame c.g 0 = .ok fr →
    let t := sl.handling.getD TrapInfo.zero
    let back : Slot := { sl with
      handler := false, handling := none, arrive := .resumption
      frame := if sl.cont.getLsbD 62 then Config.frameWindow + BitVec.ofNat 64 (256 * c.g) + 128 else 0 }
    let lanes := (bitList 64 fr.rmask).filter fun i => t.rmask.contains i && sl.lanes.any fun x => x.1 == i
    let again : Replay := ⟨lanes, t.again.map fun a => a.1, t.again.map fun a => a.2, t.next, t.bounds⟩
    exec (.tret f) s = .next (s.modSlot c.g fun _ =>
      if fr.replay = true ∧ t.kind ∈ [Kind.precise, .partly, .parked] then { back with pc := t.pc, replay := some again }
      else if fr.replay = true ∧ t.kind = .engine then { back with pc := t.pc, replay := some ⟨lanes, some t.rstep, some fr.rpc, t.next, []⟩ }
      else { back with pc := fr.rpc, replay := none })

/-- R279, R286, R282: TRET outside the handler, and CONT and RESUME outside a continuation, raise 0x1C4 in the active lanes. That the
handler entered from a continuation is outside it for CONT and RESUME is the model's reading (log 76, DEDUCED).

R286: in a continuation CONT writes READY to its predicate. RESUME, once READY is 1 and the slot's stores have completed,
leaves the continuation, keeping ENABLE alone of `%cont`, and issues the faulting instruction again for the lanes of RMASK that the
device had set, or goes on at RPC where the framed REPLAY is 0. Before that it stays. That a service which failed is delivered at the
RESUME, in place of the replay, is the model's reading (log 19). -/
def Obligations.HandlerReturnsElsewhere : Prop :=
  (∀ (f : CtrlF) (s : State) (c : IssueCtx) (sl : Slot), Issues s c sl → (s.ctx c sl f.g).act ≠ [] →
     let x := s.ctx c sl f.g
     let trapped := s.raise c.g (x.trap 0x1C4 .precise x.lanesOf x.lanesOf) none
     (sl.handler = false → exec (.tret f) s = .next trapped)
     ∧ (sl.cont.getLsbD 62 = false ∨ sl.handler = true → exec (.cont f) s = .next trapped ∧ exec (.resume f) s = .next trapped))
  ∧ (∀ (f : CtrlF) (s : State) (c : IssueCtx) (sl : Slot), Issues s c sl → (s.ctx c sl f.g).act ≠ [] →
     sl.cont.getLsbD 62 = true → sl.handler = false →
     let x := s.ctx c sl f.g
     exec (.cont f) s = .next ((x.act.foldl (fun s a => s.writePred a.2 f.d (sl.cont.getLsbD 63)) s).advance x)
     ∧ (sl.cont.getLsbD 63 = false ∨ sl.st ≠ 0 → exec (.resume f) s = .next s)
     ∧ ∀ (p : Parked) (fr : FrameRead), sl.cont.getLsbD 63 = true → sl.st = 0 → sl.contPark = some p → s.readFrame c.g 128 = .ok fr →
         let back : Slot := { sl with cont := sl.cont &&& 1, frame := 0, contPark := none }
         (p.trap.cause ∈ [0x1C6, 0x085, 0x086] → exec (.resume f) s = .next ((s.modSlot c.g fun _ => back).deliver c.g p.trap))
         ∧ (p.trap.cause ∉ [0x1C6, 0x085, 0x086] → exec (.resume f) s = .next (s.modSlot c.g fun _ =>
           if fr.replay = true then { back with
             arrive := .resumption, pc := p.trap.pc
             replay := some ⟨(bitList 64 fr.rmask).filter fun i =>
               p.trap.rmask.contains i && sl.lanes.any fun x => x.1 == i, p.trap.again.map fun a => a.1, p.trap.again.map fun a => a.2,
               p.trap.next, p.trap.bounds⟩ }
           else { back with arrive := .resumption, pc := fr.rpc, replay := none })))

/-! ### Memory instructions (R160 to R186) and what a read may return (R245) -/

/-- R160, R169, R171: an address is checked for its canonical form, its region and its alignment in this order, before anything
else; the first check that fails gives the cause of the lane.

R176, R180 to R182, R235: a load whose lanes all reach bytes of this device is in flight, counted in `ld`, with the bytes that
each lane is to read; the slot goes on. Registers and memory stay as they were. -/
def Obligations.LoadsCheckAndStart : Prop :=
  (∀ (s : State) (w : Who) (acc : Acc) (va : DWord) (align : Nat) (chute : Bool),
     let page := va.toNat / 65536 * 65536
     (canonical va = false → s.place w acc va align chute = .error ⟨0x040, false, page⟩)
     ∧ (canonical va = true → s.badRegion w chute va.toNat = true → s.place w acc va align chute = .error ⟨0x041, false, page⟩)
     ∧ (canonical va = true → s.badRegion w chute va.toNat = false → va.toNat % align ≠ 0 →
         s.place w acc va align chute = .error ⟨0x042, false, page⟩)
     ∧ (canonical va = true ↔ ∀ j, 57 ≤ j → j < 64 → va.getLsbD j = va.getLsbD 56))
  ∧ (∀ (f : MemF) (s : State) (c : IssueCtx) (sl : Slot), Issues s c sl →
     let x := s.ctx c sl f.g
     let near (pl : LanePlan) : Prop := ∀ u ∈ pl.units, ∀ a ∈ u.locs, a < 2 ^ 62
     let starts (i : Instr) (plans : List (Nat × Nat × DWord × LanePlan)) : Prop :=
       ∃ t reads, exec i s = .next t ∧ aget? t.ops s.uid = some ⟨s.head x .ld, .load i reads []⟩
         ∧ reads.map (fun r => (r.lane, r.fibre, r.va, r.units, r.expo, r.bound)) =
           plans.map (fun p => (p.1, p.2.1, p.2.2.1, p.2.2.2.units, p.2.2.2.expo, x.bound f (s.fibre p.2.1)))
         ∧ aget? t.slots c.g = some { sl with
             ld := sl.ld + 1, pc := c.thenPc.getD x.next, arrive := if c.thenPc.isSome then .resumption else .flow }
         ∧ (∀ k fb, aget? s.fibres k = some fb → ∃ l, aget? t.fibres k = some { fb with after := l })
         ∧ t = { s with ops := t.ops, uid := s.uid + 65, slots := t.slots, fibres := t.fibres }
     let value (i : Instr) (ea : Fibre → DWord) : Prop :=
       ∀ pg : Nat → Page, x.runLanes f.d ≠ [] → (∀ a ∈ x.runLanes f.d,
           s.placeBytes (x.who s) .load (ea (s.fibre a.2)) f.ty.bytes = .ok (pg a.2) ∧ (pg a.2).loc + f.ty.bytes ≤ 2 ^ 62) →
         starts i ((x.runLanes f.d).map fun a => (a.1, a.2, ea (s.fibre a.2), { units := [(pg a.2).unit 0 f.ty.bytes] }))
     value (.ld f) (x.ea f) ∧ value (.ldg f) (x.ea f)
     ∧ (∀ (va : Nat → DWord) (pl : Nat → LanePlan), x.act ≠ [] →
         (∀ a ∈ x.act, let fb := s.fibre a.2
           s.planLde (x.who s) f (x.pair fb f.a + f.ext.off.signExtend 64) (x.idx fb f.b) = (va a.2, .ok (pl a.2)) ∧ near (pl a.2)) →
         starts (.lde f) (x.act.map fun a => (a.1, a.2, va a.2, pl a.2)))
     ∧ (∀ (va : Nat → DWord) (pl : Nat → LanePlan), x.act ≠ [] →
         (∀ a ∈ x.act, let fb := s.fibre a.2
           s.planLdt (x.who s) f (x.pair fb f.a + f.ext.off.signExtend 64) ((x.read fb .n32 0 f.b).val * 2 ^ f.ext.scale.toNat) a.1 =
             (va a.2, .ok (pl a.2)) ∧ near (pl a.2) ∧ (pl a.2).units ≠ []) →
         starts (.ldt f) (x.act.map fun a => (a.1, a.2, va a.2, pl a.2)))
     ∧ (∀ pg : Nat → Page, x.runLanes f.d ≠ [] → (∀ a ∈ x.runLanes f.d,
           s.place (x.who s) .load (x.eaTeam f (s.fibre a.2)) f.ty.bytes true = .ok (.bytes (pg a.2)) ∧ (pg a.2).loc + f.ty.bytes ≤ 2 ^ 62) →
         starts (.lds f) ((x.runLanes f.d).map fun a => (a.1, a.2, x.eaTeam f (s.fibre a.2), { units := [(pg a.2).unit 0 f.ty.bytes] }))))

/-- R145, R176, R235: the data of a load arrives. Where every lane's data is there, no lane meets a cause or fails its bound and no
exception arises, each lane's destination is written with what its units hold, the operation is over and leaves `ld`. So does
every LD, LDG and LDS of bytes of this device that are there to be read and that no write in flight or in the history touches: its
lanes' registers get the bytes of memory with the oldest stamp of their granules. -/
def Obligations.LoadDataArrives : Prop :=
  (∀ (o : Nat) (s : State) (h : OpHead) (f : MemF) (reads : List LaneRead) (arr : List (LaneRead × LaneArr)) (u : State) (i : Instr),
    i ∈ [Instr.ld f, .ldg f, .lde f, .ldt f, .lds f] → f.lu = false →
    aget? s.ops o = some ⟨h, .load i reads []⟩ → (∀ r ∈ reads, r.unasked = [] ∧ r.waits = []) → s.blockedLoad o reads = false →
    s.farOpen ((reads.flatMap fun r => r.units).flatMap fun u => u.locs) = false →
    s.arriveLanes h o i reads = some (arr, u) → (∀ a ∈ arr, ∃ regs src, a.2 = .data regs 0 src) →
    ∃ t, exec (.loadDataArrive o) s = .next t ∧ aget? t.ops o = none ∧ SameBytes s t ∧ SameTeams s t ∧ t.launches = s.launches
      ∧ (∀ sl, aget? s.slots h.g = some sl → h.ctr = .ld → sl.team = h.team →
          ∃ v, aget? t.slots h.g = some v ∧ v.ld = sl.ld - 1 ∧ v.pc = sl.pc ∧ v.fflags = sl.fflags ∧ v.late = sl.late)
      ∧ (∀ a ∈ arr, ∀ regs src n, a.2 = .data regs 0 src → f.d = .vec n → (aget? s.fibres a.1.fibre).isSome →
          (∀ b ∈ arr, b.1.fibre = a.1.fibre → b = a) → ∀ k, (t.fibre a.1.fibre).reg k = written n.toNat regs k ((s.fibre a.1.fibre).reg k))
      ∧ (∀ k, (∀ a ∈ arr, a.1.fibre ≠ k) → ∀ j, (t.fibre k).reg j = (s.fibre k).reg j))
  ∧ ∀ (o : Nat) (s : State) (h : OpHead) (f : MemF) (reads : List LaneRead) (i : Instr) (base : LaneRead → Nat) (timeless : LaneRead → Bool)
      (rd : LaneRead → Nat), i ∈ [Instr.ld f, .ldg f, .lds f] → f.lu = false → aget? s.ops o = some ⟨h, .load i reads []⟩ →
    let locs (r : LaneRead) : List Nat := from_ (base r) f.ty.bytes
    (∀ r ∈ reads, r.waits = [] ∧ r.bound = none ∧ r.expo = none ∧ r.units = [⟨0, locs r, timeless r, rd r⟩]
      ∧ base r + f.ty.bytes ≤ 2 ^ 62
      ∧ ∀ a ∈ locs r, s.homeCause true a 1 = none ∧ (∀ w ∈ s.hist, w.touches a = false ∧ ∀ g ∈ w.gBefore, g.1 ≠ a / 32)
          ∧ ∀ p ∈ s.pending, a ∉ p.2.1) →
    s.blockedLoad o reads = false → s.farOpen (reads.flatMap locs) = false →
    ∃ t, exec (.loadDataArrive o) s = .next t ∧ aget? t.ops o = none ∧ SameBytes s t
      ∧ ∀ r ∈ reads, ∀ n, f.d = .vec n → (aget? s.fibres r.fibre).isSome → (∀ q ∈ reads, q.fibre = r.fibre → q = r) → ∀ k,
          let st := olderAll (s.hz h.core) ((locs r).map fun a => if timeless r then 0 else s.stampAt a)
          (t.fibre r.fibre).reg k =
            written n.toNat (resultRegs f.ty (leNat ((locs r).map s.byteAt) : Int) st st) k ((s.fibre r.fibre).reg k)

/-- R241, R245, R246: a read that no write touches returns memory, granule stamps with it; otherwise it returns the value of a write
that no write known to its reader, or already seen by it, has overwritten; the initial value is returned only while no such
write is known. -/
def Obligations.ReadsRespectHappensBefore : Prop :=
  (∀ (s : State) (r : Reader) (timeless : Bool) (locs : List Nat),
    (∀ a ∈ locs, (∀ w ∈ s.hist, w.touches a = false ∧ ∀ g ∈ w.gBefore, g.1 ≠ a / 32) ∧ ∀ p ∈ s.pending, a ∉ p.2.1) →
    s.readUnit r timeless locs =
      some (⟨locs.map s.byteAt, locs.map fun a => if timeless then 0 else s.stampAt a, []⟩, s))
  ∧ (∀ (s : State) (r : Reader) (timeless : Bool) (locs : List Nat) (o : ReadOut) (t : State),
    s.readUnit r timeless locs = some (o, t) → ∀ w ∈ o.src, ∃ a ∈ locs, some w ∈ s.cands r a)
  ∧ (∀ (s : State) (r : Reader) (a : Nat) (w v : WEv), some w ∈ s.cands r a → v ∈ s.writesAt a →
    v.id ∈ r.know ∨ v.id ∈ r.seen → w.id ∉ v.preds)
  ∧ (∀ (s : State) (r : Reader) (a : Nat) (v : WEv), none ∈ s.cands r a → v ∈ s.writesAt a → v.id ∉ r.know ∧ v.id ∉ r.seen)

/-- R144, R165, R166, R176, R182, R235: a store whose lanes all reach bytes of this device and pass their bounds is in flight, counted in
`st`: to the address that its operands give, each byte with its register's stamp, a byte that several lanes write from the
highest of them. Registers and, until its home applies it, memory stay as they were.

R165, R235, R244: a store's home applies its bytes of one granule, unless an earlier write must come first: they read as
written, every other byte as before, and once nothing of the store is left it leaves `st`. R174, R308: what lies at another device
leaves for it in one flit of KIND 2, with the bytes and their enables, through the first listed port that is not down; memory here
stays. R147, R275: lanes whose data the egress bound of the port keeps back then are not written; they raise 0x083, late, with the
horizon that the check used. -/
def Obligations.StoresStartAndApply : Prop :=
  (∀ (f : MemF) (s : State) (c : IssueCtx) (sl : Slot) (pg : Nat → Page), Issues s c sl →
     let x := s.ctx c sl f.g
     let lanes := x.runLanes f.d
     let data (a : Nat × Nat) : List (Nat × (Byte × Stamp)) :=
       (from_ (pg a.2).loc f.ty.bytes).zip (dataBytes (x.read (s.fibre a.2) f.ty 0 f.d) f.ty)
     let fresh (a : Nat × Nat) : Prop :=
       let d := x.read (s.fibre a.2) f.ty 0 f.d
       boundCause x.hh x.h (x.bound f (s.fibre a.2)) 0x081 d.lo = none
       ∧ (f.ty.wide = true → boundCause x.hh x.h (x.bound f (s.fibre a.2)) 0x081 d.hi = none)
       ∧ s.egressPort x.l.part (pg a.2).loc = none
     let starts (i : Instr) (ea : Fibre → DWord) (chuteOk : Bool) : Prop :=
       lanes ≠ [] → (∀ a ∈ lanes, s.place (x.who s) .store (ea (s.fibre a.2)) f.ty.bytes chuteOk = .ok (.bytes (pg a.2))
           ∧ (pg a.2).loc + f.ty.bytes ≤ 2 ^ 62 ∧ fresh a) → 0 < f.ty.bytes →
       ∃ t ws, exec i s = .next t ∧ aget? t.ops (s.uid + lanes.length) = some ⟨s.head x .st, .store ws⟩
         ∧ (∀ w ∈ ws, w.remote = none ∧ ∃ a ∈ lanes, w.lane = a.1 ∧ w.va = ea (s.fibre a.2) ∧ ∀ b ∈ w.bytes, b ∈ data a)
         ∧ (∀ (j : Nat) a b, lanes[j]? = some a → b ∈ data a → (∀ (k : Nat) e, lanes[k]? = some e → j < k → ∀ y ∈ data e, y.1 ≠ b.1) →
             ∃ w ∈ ws, w.lane = a.1 ∧ b ∈ w.bytes)
         ∧ SameBytes s t ∧ t.stamps = s.stamps
         ∧ aget? t.slots c.g = some { sl with
             st := sl.st + 1, pc := c.thenPc.getD x.next, arrive := if c.thenPc.isSome then .resumption else .flow }
         ∧ ∀ k fb, aget? s.fibres k = some fb → ∃ v, aget? t.fibres k = some { fb with vec := { fb.vec with know := v } }
     starts (.st f) (x.ea f) false ∧ starts (.sct f) (x.ea f) false ∧ starts (.sts f) (x.eaTeam f) true)
  ∧ ((∀ (o gran : Nat) (s : State) (h : OpHead) (ws : List LaneWrite), aget? s.ops o = some ⟨h, .store ws⟩ →
     let mine (w : LaneWrite) : List (Nat × (Byte × Stamp)) := w.bytes.filter fun b => b.1 / 32 == gran
     (∃ w ∈ ws, mine w ≠ []) → (∀ w ∈ ws, w.remote = none ∧ w.swm = false) → s.ue = [] →
     let now := ws.filter fun w => !(mine w).isEmpty
     gran * 32 < 2 ^ 62 → s.heldBack (now.flatMap fun w => (mine w).map fun b => b.1) (now.flatMap fun w => w.preds)
       (now.flatMap fun w => w.carry) (now.flatMap fun w => w.after) = false →
     s.homeCause false (gran * 32) 1 = none → (∀ w ∈ now, s.egressBad h.part w.bytes = none) →
     ∃ t, exec (.storeApply o gran) s = .next t
       ∧ (∀ w ∈ ws, ∀ b ∈ mine w, (∀ v ∈ ws, ∀ e ∈ mine v, e.1 = b.1 → e.2.1 = b.2.1) → t.byteAt b.1 = b.2.1)
       ∧ (∀ a, (∀ w ∈ ws, ∀ b ∈ mine w, b.1 ≠ a) → t.byteAt a = s.byteAt a)
       ∧ ((∀ w ∈ ws, mine w = w.bytes) → aget? t.ops o = none
           ∧ ∀ sl, aget? s.slots h.g = some sl → h.ctr = .st → sl.team = h.team → aget? t.slots h.g = some { sl with st := sl.st - 1 })
       ∧ ((∃ w ∈ ws, mine w ≠ w.bytes) → t.slots = s.slots ∧ ∃ left, aget? t.ops o = some ⟨h, .store left⟩
           ∧ ∀ w ∈ left, ∀ b ∈ w.bytes, b.1 / 32 ≠ gran)
       ∧ t.fibres = s.fibres ∧ t.teams = s.teams)
   ∧ (∀ (o gran : Nat) (s : State) (h : OpHead) (ws : List LaneWrite) (sl : Slot), aget? s.ops o = some ⟨h, .store ws⟩ →
     let now := ws.filter fun w => w.remote.isNone && w.inGran gran ≠ []
     let locs := now.flatMap fun w => (w.inGran gran).map fun b => b.1
     let bad := now.filter fun w => (s.egressBad h.part w.bytes).isSome
     bad ≠ [] → (ws.map fun w => w.id).Nodup → (∀ w ∈ ws, w.bytes ≠ []) →
     (gran * 32 < 2 ^ 62 → s.heldBack locs (now.flatMap fun w => w.preds) (now.flatMap fun w => w.carry) (now.flatMap fun w => w.after) = false) →
     (2 ^ 62 ≤ gran * 32 → s.farHeld locs (now.flatMap fun w => w.preds) (now.flatMap fun w => w.carry) = false
       ∧ s.heldBack locs [] [] (now.flatMap fun w => w.after) = false) →
     aget? s.slots h.g = some sl → sl.team = h.team → sl.lanes ≠ [] →
     let left := ws.filter fun w => !bad.contains w
     ∃ t v τ, exec (.storeApply o gran) s = .next t ∧ SameBytes s t ∧ t.outFlits = s.outFlits ∧ t.fibres = s.fibres
       ∧ aget? t.ops o = (if left = [] then none else some ⟨h, .store left⟩)
       ∧ aget? t.slots h.g = some v ∧ v.late = sl.late ++ [(τ, none)] ∧ τ.cause = 0x083 ∧ τ.kind = .late
       ∧ τ.lmask = (bad.map fun w => w.lane) ∧ τ.hzn = tstamp (s.part h.part).time
       ∧ some τ.stamp = (bad.head?.bind fun w => s.egressBad h.part w.bytes))
   ∧ ∀ (o gran : Nat) (s : State) (h : OpHead) (ws : List LaneWrite) (port : Nat) (e : DomEntry),
     aget? s.ops o = some ⟨h, .store ws⟩ → 2 ^ 62 ≤ gran * 32 →
     let now := ws.filter fun w => w.remote.isNone && w.inGran gran ≠ []
     let cells := now.flatMap fun w => (w.inGran gran).map fun b => (b.1, b.2.1)
     now ≠ [] → s.farHeld (cells.map fun c => c.1) (now.flatMap fun w => w.preds) (now.flatMap fun w => w.carry) = false →
     s.heldBack (cells.map fun c => c.1) [] [] (now.flatMap fun w => w.after) = false →
     s.route h.part (remoteDev (gran * 32)) = some (port, e) → (∀ w ∈ now, s.egressBad h.part w.bytes = none) →
     ∃ t f left, exec (.storeApply o gran) s = .next t ∧ t.outFlits = s.outFlits ++ [(port, f)]
       ∧ f.dst = BitVec.ofNat 8 (remoteDev (gran * 32)) ∧ f.kind = 2 ∧ f.ngr = 1 ∧ f.off = BitVec.ofNat 47 (remoteOff (gran * 32))
       ∧ f.payload = granPayload cells gran ∧ f.enables = granEnables cells gran
       ∧ aget? t.ops o = some ⟨h, .store left⟩ ∧ left.length = ws.length
       ∧ (∀ w ∈ left, w.inGran gran ≠ [] → w.remote ≠ none) ∧ SameBytes s t ∧ t.fibres = s.fibres ∧ t.slots = s.slots)

/-- R145, R170: an STS to a chute pushes an entry for each lane, lowest first, with value and stamp; an LDS from it pops the oldest
entries, lowest lane first, writes them with their stamps and goes on. While the chute has no room for all of them, or holds
fewer entries than the lanes pop, the slot waits. -/
def Obligations.ChutesAreQueues : Prop :=
  ∀ (f : MemF) (s : State) (c : IssueCtx) (sl : Slot) (k : Nat) (tm : Team), Issues s c sl →
    let x := s.ctx c sl f.g
    let lanes := x.runLanes f.d
    let entries := tm.chuteAt (coreOf c.g) k
    let places (acc : Acc) : Prop := ∀ a ∈ lanes, s.place (x.who s) acc (x.eaTeam f (s.fibre a.2)) f.ty.bytes true = .ok (.chute k)
    lanes ≠ [] → f.ty = .b32 ∨ f.ty = .b64 → aget? s.teams sl.team = some tm →
    (places .store → Config.chuteEntries < entries.length + lanes.length → exec (.sts f) s = .next s)
    ∧ (places .load → entries.length < lanes.length → exec (.lds f) s = .next s)
    ∧ (places .store → entries.length + lanes.length ≤ Config.chuteEntries →
      (∀ a ∈ lanes, let d := x.read (s.fibre a.2) f.ty 0 f.d
        boundCause x.hh x.h (x.bound f (s.fibre a.2)) 0x081 d.lo = none ∧
          (f.ty.wide = true → boundCause x.hh x.h (x.bound f (s.fibre a.2)) 0x081 d.hi = none)) →
      ∃ t tm', exec (.sts f) s = .next t ∧ aget? t.teams sl.team = some tm' ∧ SameBytes s t ∧ t.fibres = s.fibres
        ∧ (tm'.chuteAt (coreOf c.g) k).map (fun e => (e.val, e.st)) = entries.map (fun e => (e.val, e.st)) ++ lanes.map fun a =>
            let d := x.read (s.fibre a.2) f.ty 0 f.d
            (BitVec.ofNat 64 d.val, older x.h d.lo d.hi))
    ∧ (places .load → lanes.length ≤ entries.length →
      (∀ p ∈ lanes.zip entries, boundCause x.hh x.h (x.bound f (s.fibre p.1.2)) 0x080 p.2.st = none) →
      ∃ t tm', exec (.lds f) s = .next t ∧ aget? t.teams sl.team = some tm' ∧ SameBytes s t
        ∧ tm'.chuteAt (coreOf c.g) k = entries.drop lanes.length
        ∧ ∀ (j : Nat) (a : Nat × Nat) (e : ChuteEntry) (n : BitVec 8), lanes[j]? = some a → entries[j]? = some e → f.d = .vec n →
            (aget? s.fibres a.2).isSome → (∀ b ∈ lanes, b.2 = a.2 → b = a) → lanes.Nodup → ∀ r,
            (t.fibre a.2).reg r = written n.toNat (resultRegs f.ty ((e.val.toNat % 2 ^ f.ty.bits : Nat) : Int) e.st e.st) r ((s.fibre a.2).reg r))

/-- R168, R183 to R186: PREF changes nothing but the PC. CCTL and WLOG are operations counted in `st`, over the lines that their lanes
reach; the drop of a last use stands in its fibres' order as a read does. BANKCFG to cache keeps its banks for the cache at once and
writes which of them held scratch; to scratch it waits for their drains, or where no bank has to drain writes that none changed.

R172, R184, R186, R235: the ends of CCTL and WLOG, each of which leaves `st`. A CCTL waits for the earlier writes to its lines that are hb it. Write-back
and invalidation change no value; with scope `.sys` the writes of the lines have then reached that scope, and the lines' range
records no longer cover them. A last use leaves the bytes and stamps of its lines undefined, where no write stands that comes after
it, and every other byte as it was. WLOG waits for the slot's earlier stores; with logging on it writes its marker record and advances
WIDX; a full ring sets OVF instead, and while OVF is 1 nothing is written. The place of a CCTL in the order of its fibres is log 33, how
long a range record covers a line log 62.

R35, R185: the end of a bank's drain, for which a BANKCFG waits last: the bank becomes scratch, the mask of banks is written to
the scalar destination, and the slot may issue again. -/
def Obligations.CachesBanksAndTheLog : Prop :=
  (∀ (f : MemF) (s : State) (c : IssueCtx) (sl : Slot), Issues s c sl →
     let x := s.ctx c sl f.g
     let cl := clusterOf (coreOf c.g)
     let free := (bitList 32 (x.read (x.first s) .b32 0 f.a).val).filter fun b => s.bankUnits cl b == 0 && !s.isChuteBank cl b
     let back := free.filter fun b => (s.cluster cl).mode b == .scratch || (s.cluster cl).mode b == .lent
     let out := free.filter fun b => (s.cluster cl).mode b != .scratch
     exec (.pref f) s = .next (s.advance x)
     ∧ (∀ pg : Nat → Page, x.act ≠ [] → (∀ a ∈ x.act, s.placeBytes (x.who s) .cctl (x.ea f (s.fibre a.2)) 1 = .ok (pg a.2)
           ∧ (pg a.2).loc < 2 ^ 60) →
         let lines := (x.act.map fun a => (pg a.2).loc / 128).eraseDups
         exec (.cctlWb f) s = .next ((s.startOp x .st (.cctl lines false (f.scope = .sys))).advance x)
         ∧ exec (.cctlInv f) s = .next ((s.startOp x .st (.cctl lines false (f.scope = .sys))).advance x)
         ∧ exec (.cctlLu f) s = .next ((x.act.foldl (fun s' a => s'.modFibre a.2 fun fb =>
             { fb with after := union fb.after [readId s.uid a.1] }) (s.startOp x .st (.cctl lines true (f.scope = .sys)))).advance x))
     ∧ (x.act ≠ [] → exec (.wlog f) s =
         .next ((s.startOp x .st (.wlog (BitVec.ofNat 32 (x.read (x.first s) .b32 0 f.a).val))).advance x))
     ∧ (x.act ≠ [] → f.ext.maxage = 0 → ∃ t, exec (.bankcfg f) s = .next t
         ∧ (∀ b, (t.cluster cl).mode b = if b ∈ free then .kept else (s.cluster cl).mode b)
         ∧ t = (((s.setCluster cl (t.cluster cl)).writeDst c.g 0 f.d [(0, ⟨BitVec.ofNat 32 (laneMask back), 0⟩)]).advance x))
     ∧ (x.act ≠ [] → f.ext.maxage ≠ 0 → out ≠ [] → ∃ t v, exec (.bankcfg f) s = .next t ∧ aget? t.slots c.g = some v
         ∧ v.pc = c.thenPc.getD x.next
         ∧ v.wait = .banks out f.d (BitVec.ofNat 32 (laneMask out)) ∧ ∀ b ∈ out, b ∈ (t.cluster cl).draining)
     ∧ (x.act ≠ [] → f.ext.maxage ≠ 0 → out = [] → exec (.bankcfg f) s = .next ((s.writeDst c.g 0 f.d [(0, ⟨0, 0⟩)]).advance x)))
  ∧ (∀ (o gran : Nat) (s : State) (h : OpHead),
     let ends (t : State) : Prop := aget? t.ops o = none
       ∧ ∀ sl, aget? s.slots h.g = some sl → h.ctr = .st → sl.team = h.team → aget? t.slots h.g = some { sl with st := sl.st - 1 }
     (∀ lines lu sys, aget? s.ops o = some ⟨h, .cctl lines lu sys⟩ →
       (s.earlierIn h lines = true → exec (.storeApply o gran) s = .next s)
       ∧ (s.earlierIn h lines = false → ∃ t, exec (.storeApply o gran) s = .next t ∧ ends t
         ∧ (lu = false → SameBytes s t ∧ t.stamps = s.stamps ∧ t.hist = s.hist)
         ∧ (lu = false → sys = true →
             (∀ w ∈ s.hist, (∃ b ∈ w.bytes, b.1 / 128 ∈ lines) → w.id ∈ t.sysKnow)
             ∧ ((aget? s.parts h.part).isSome → ∀ l, l ∈ (t.part h.part).wlogged ↔ l ∈ (s.part h.part).wlogged ∧ l ∉ lines))
         ∧ (lu = true → (∀ l ∈ lines, l * 128 + 128 ≤ 2 ^ 60) →
             (∀ a, a / 128 ∉ lines → t.byteAt a = s.byteAt a ∧ t.stampAt a = s.stampAt a)
             ∧ ∀ a, a / 128 ∈ lines →
               (∀ w ∈ s.hist, w.touches a = true → ∀ r ∈ w.after, ∀ x ∈ h.lanes, r ≠ readId o x.1) →
               ∃ m k, s.free ≤ m ∧ m < t.free ∧ s.free ≤ k ∧ k < t.free ∧ t.stampAt a = Config.freeStamp k
                 ∧ t.byteAt a = BitVec.ofNat 8 ((Config.freeValue m).toNat / 2 ^ (8 * (a % 8))))))
     ∧ ∀ mark, aget? s.ops o = some ⟨h, .wlog mark⟩ →
       let pt := s.part h.part
       let n := 2 ^ pt.wlogN
       (s.earlierStore o h = true → exec (.storeApply o gran) s = .next s)
       ∧ (s.earlierStore o h = false → pt.wlogOn = false → exec (.storeApply o gran) s = .next (s.endOp o h))
       ∧ ∀ (base : Nat) (pg : Nat → Page), s.earlierStore o h = false → pt.wlogOn = true → s.ue = [] → base + 64 + 16 * n ≤ 2 ^ 60 →
         pt.wlogRing.toNat % 4096 = 0 → (∀ k, k < 64 + 16 * n →
           canonical (pt.wlogRing + BitVec.ofNat 64 k) = true ∧ regionOf (pt.wlogRing + BitVec.ofNat 64 k).toNat = 0
           ∧ (∀ acc ∈ [Acc.load, .store], s.translate h.part acc (pt.wlogRing + BitVec.ofNat 64 k) = .ok (pg k))
           ∧ (pg k).loc = base + k ∧ ∀ load len, s.homeCause load (base + k) len = none) →
         let widx := s.natAt base 8
         let ridx := s.natAt (base + 8) 8
         let ovf := s.natAt (base + 16) 1
         ∃ t, exec (.storeApply o gran) s = .next t ∧ ends t
           ∧ (ovf % 2 = 1 → SameBytes s t)
           ∧ (ovf % 2 = 0 → widx - ridx = n → t.natAt (base + 16) 1 = ovf + 1 ∧ ∀ a, a ≠ base + 16 → t.byteAt a = s.byteAt a)
           ∧ (ovf % 2 = 0 → widx - ridx ≠ n → t.natAt base 8 = (widx + 1) % 2 ^ 64
               ∧ t.natAt (base + 64 + 16 * (widx % n)) 16 = (2 * 2 ^ 62 + h.core * 2 ^ 40 + mark.toNat) % 2 ^ 128
               ∧ ∀ a, (a < base ∨ base + 8 ≤ a) → (a < base + 64 + 16 * (widx % n) ∨ base + 80 + 16 * (widx % n) ≤ a) →
                   t.byteAt a = s.byteAt a))
  ∧ (∀ (cl bank g : Nat) (s : State) (sl : Slot) (n : BitVec 6) (mask : Word), (s.cluster cl).draining.contains bank = true →
     (g, sl) ∈ s.slots → aget? s.slots g = some sl → clusterOf (coreOf g) = cl → sl.wait = .banks [bank] (.scl n) mask →
     ∃ t, exec (.bankDrainDone cl bank) s = .next t ∧ (t.cluster cl).mode bank = .scratch ∧ bank ∉ (t.cluster cl).draining
       ∧ aget? t.slots g = some ({ sl with wait := .none }.write n.toNat [(0, ⟨mask, 0⟩)]))

/-! ### Control flow, fibres and the weave former (R42, R43, R66 to R79) -/

/-- R43, R67, R74: a transfer whose targets are good sends every active fibre to its target and every other fibre of the slot to the
next PC. The largest group stays in the slot, on a tie the one with the lowest lane; the fibres of the others become spawn records
under their PCs, lowest lane first. BRA, JMP and CALL take the target from IMM, relative to the instruction's line, BRX, CALLX and RET from SRCA, relative to the code;
RET alone goes without the TGT test; JMP asks for a uniform guard; a CALL writes the next PC to its destination, vector or scalar. Nothing
else changes.

R43, R74, R76, R239, R273: a transfer to targets that fail raises the cause of the lowest failing lane, with its address, in the lanes
whose targets fail, for every active lane; pages that the groom is to bring for all of them are asked for. JMP under a guard that
differs among the slot's fibres raises 0x140. No fibre moves; what the tests of the targets read, the fibres have read. The cause
of a slot of 5 or more, of one at or past COUNT, and of a clear TGT bit is 0x00A, that of a line outside the code 0x00B, with the
target's PC as address. That a slot of 5 or more comes before a line outside the code, and what an unreadable target line gives, is
the model's reading (log 31, DEDUCED). -/
def Obligations.TransfersPartTheSlot : Prop :=
  (∀ (f : CtrlF) (s : State) (c : IssueCtx) (sl : Slot), Issues s c sl → sl.lanes ≠ [] →
     let x := s.ctx c sl f.g
     let near (_ : Nat × Nat) : Int × Nat := (x.l.lineOf sl.pc + sextN 29 (f.imm.toNat / 8), f.imm.toNat % 8)
     let far (a : Nat × Nat) : Int × Nat :=
       (((x.read (s.fibre a.2) .n32 0 f.a).val / 8 : Nat), (x.read (s.fibre a.2) .n32 0 f.a).val % 8)
     let goes (i : Instr) (tgt uniform links : Bool) (aim : Nat × Nat → Int × Nat) : Prop :=
       let ts := x.act.map fun a => (a.1, aim a)
       let dest (a : Nat × Nat) : DWord := ((ts.find? fun t => t.1 == a.1).map fun t => x.l.pcAt t.2.1 t.2.2).getD x.next
       (∀ a ∈ x.act, s.targetCause c.g sl x.l tgt (aim a).1 (aim a).2 = none) →
       (uniform = true → x.act = [] ∨ x.act.length = x.takingPart.length) →
       (sl.handler = false ∨ ∀ a ∈ sl.lanes, ∀ b ∈ sl.lanes, dest a = dest b) →
       ∃ t v, exec i s = .next t ∧ aget? t.slots c.g = some v
         ∧ (∃ a ∈ sl.lanes, v.pc = dest a) ∧ (∀ pc, (sl.lanes.filter fun a => dest a == pc).length ≤ v.lanes.length)
         ∧ ((sl.lanes.find? fun a => (sl.lanes.filter fun b => dest b == dest a).length == v.lanes.length).map dest = some v.pc)
         ∧ v.lanes = (sl.lanes.filter fun a => dest a == v.pc)
         ∧ v = { sl with
             pc := v.pc, arrive := if v.lanes.any (fun a => x.act.any fun b => b.1 == a.1) then .target else .flow
             lanes := v.lanes, replay := none, sregs := v.sregs, sue := v.sue }
         ∧ (t.quarterAt (qkeyOf c.g)).recs = (s.quarterAt (qkeyOf c.g)).recs ++
             ((sl.lanes.filter fun a => dest a != v.pc).map fun a => s.leaveRec c.g sl (dest a) a.1 a.2)
         ∧ t = { s with slots := t.slots, quarters := t.quarters, fibres := t.fibres }
         ∧ (links = false → SameFibres s t ∧ v.sregs = sl.sregs)
         ∧ (links = true → ∀ n, f.d = .scl n → x.act ≠ [] → SameFibres s t
             ∧ ∀ k, v.reg k = if k = n.toNat then ⟨x.l.packPc x.next, 0⟩ else sl.reg k)
         ∧ (links = true → ∀ a ∈ x.act, ∀ n, f.d = .vec n → (aget? s.fibres a.2).isSome → ∀ k,
             (t.fibre a.2).reg k = if k = n.toNat then ⟨x.l.packPc x.next, 0⟩ else (s.fibre a.2).reg k)
     goes (.bra f) true false false near ∧ goes (.brx f) true false false far ∧ goes (.jmp f) true true false near
     ∧ goes (.call f) true false true near ∧ goes (.callx f) true false true far ∧ goes (.ret f) false false false far)
  ∧ (∀ (f : CtrlF) (s : State) (c : IssueCtx) (sl : Slot), Issues s c sl →
     let x := s.ctx c sl f.g
     let t := x.nearTarget f.imm
     let read : State := s.receiveTargets x (x.nearTargets f)
     let traps (k : FlowCause) : State :=
       read.raise c.g { x.trap k.cause .precise x.lanesOf x.lanesOf with addr := k.addr } (k.page.map fun pg => .pages [pg])
     let far (a : Nat × Nat) : Int × Nat :=
       (((x.read (s.fibre a.2) .n32 0 f.a).val / 8 : Nat), (x.read (s.fibre a.2) .n32 0 f.a).val % 8)
     let fails (i : Instr) (tgt : Bool) : Prop :=
       let bad := x.act.filterMap fun a => (s.targetCause c.g sl x.l tgt (far a).1 (far a).2).map fun k => (a.1, k)
       let ts := x.act.map fun a => (a.1, a.2, far a)
       ∀ b more, bad = b :: more → exec i s = .next ((s.receiveTargets x ts).raise c.g
         { x.trap b.2.cause .precise (bad.map fun b => b.1) x.lanesOf with addr := b.2.addr }
         (if bad.all (fun b => b.2.page.isSome) then some (.pages (bad.filterMap fun b => b.2.page).eraseDups) else none))
     (x.act ≠ [] → ∀ k, s.targetCause c.g sl x.l true t.1 t.2 = some k →
       exec (.bra f) s = .next (traps k) ∧ exec (.jmp f) s = .next (traps k) ∧ exec (.call f) s = .next (traps k)
       ∧ exec (.fspawn f) s = .next (traps k))
     ∧ (x.act ≠ [] → s.targetCause c.g sl x.l true t.1 t.2 = none → x.act.length ≠ x.takingPart.length →
       exec (.jmp f) s = .next (read.raise c.g (x.trap 0x140 .precise x.lanesOf x.lanesOf) none))
     ∧ fails (.brx f) true ∧ fails (.callx f) true ∧ fails (.ret f) false
     ∧ SameFibres s read ∧ read = { s with fibres := read.fibres }
     ∧ ∀ (tgt : Bool) (line : Int) (slot : Nat),
         let pc := x.l.pcAt line slot
         (5 ≤ slot → s.targetCause c.g sl x.l tgt line slot = some ⟨0x00A, pc, none⟩)
         ∧ (slot < 5 → line < 0 ∨ (x.l.codelines : Int) ≤ line → s.targetCause c.g sl x.l tgt line slot = some ⟨0x00B, pc, none⟩)
         ∧ (∀ bs src, slot < 5 → 0 ≤ line → line < (x.l.codelines : Int) → s.fetchLine c.g sl (x.l.pcAt line 0) = .bytes bs src →
             let w := leNat (bs.take 4)
             s.targetCause c.g sl x.l tgt line slot =
               if bitsN w 14 3 ≤ slot ∨ tgt = true ∧ w.testBit (27 + slot) = false then some ⟨0x00A, pc, none⟩ else none))

/-- R75 to R79: NOP; JOIN, YIELD and SLEEP, which make the slot wait; FSPAWN, which writes a KIND 1 record with the argument and its
stamp for every active lane; FEND and EXIT, which end the active fibres or the whole team; BRK and TRAP, which raise their
causes after the instruction. R68: the 128 bits of a record. -/
def Obligations.FibresWaitSpawnAndEnd : Prop :=
  (∀ (f : CtrlF) (s : State) (c : IssueCtx) (sl : Slot), Issues s c sl →
    let x := s.ctx c sl f.g
    let near := x.nearTarget f.imm
    exec (.nop f) s = .next (s.advance x)
    ∧ (x.act ≠ [] →
      exec (.join f) s = .next (s.modSlot c.g fun u => { u with wait := .join (s.clock + f.imm.toNat) x.next, replay := none })
      ∧ exec (.yield f) s = .next ((s.advance x).modSlot c.g fun u => { u with wait := .yield c.peers (s.clock + 64) })
      ∧ exec (.sleep f) s = .next ((s.advance x).modSlot c.g fun u =>
          { u with wait := .sleep (s.clock + min 1048575 (x.read (x.first s) .n32 f.imm f.a).val) })
      ∧ exec (.brk f) s = .next (s.raise c.g
          { x.trap 0x1C8 .after x.lanesOf [] with pc := x.next, addr := f.imm.zeroExtend 64, info := f.imm } none)
      ∧ exec (.trap f) s = .next (s.raise c.g
          { x.trap (0x1E0 + f.imm.toNat % 32) .after x.lanesOf [] with pc := x.next } none)
      ∧ (s.targetCause c.g sl x.l true near.1 near.2 = none →
          (s.quarterAt (qkeyOf c.g)).recs.length + x.act.length ≤ Config.spawnRecords →
          let u : State := s.receiveTargets x (x.nearTargets f)
          SameFibres s u ∧ u = { s with fibres := u.fibres } ∧
          exec (.fspawn f) s = .next (((u.setQuarter (qkeyOf c.g) { s.quarterAt (qkeyOf c.g) with
            recs := (s.quarterAt (qkeyOf c.g)).recs ++ x.act.map fun a =>
              let o := x.read (s.fibre a.2) .n32 0 f.a
              { team := sl.team, word := recWord true sl.role a.1 (x.l.packPc (x.l.pcAt near.1 near.2)) 0 o.val o.lo, ue := false
                ops := [], know := (u.fibre a.2).vec.know, after := s.vecReads (u.fibre a.2).after, since := s.clock } }).modTeam sl.team
            fun u => { u with published := true }).advance x))
      ∧ (∃ t, exec (.fend f) s = .next t
          ∧ (∀ a ∈ x.act, ∀ v, aget? t.fibres a.2 = some v → v.alive = false)
          ∧ (∀ v, aget? t.slots c.g = some v → v.lanes = sl.lanes.filter fun a => !(x.act.any fun b => b.1 == a.1))
          ∧ (∀ k, (∀ a ∈ x.act, a.2 ≠ k) → (t.fibre k).alive = (s.fibre k).alive ∧ ∀ r, (t.fibre k).reg r = (s.fibre k).reg r))
      ∧ (∃ t, exec (.exit f) s = .next t
          ∧ (∀ k v, aget? t.fibres k = some v → v.team = sl.team → v.alive = false)
          ∧ (∀ k v, aget? t.slots k = some v → v.team = sl.team → v.lanes = [])
          ∧ t.recsOf sl.team = [])))
  ∧ ∀ (k : Bool) (role lane : Nat) (pc : Word) (preds : BitVec 16) (high : Nat) (st : Stamp), role < 4 → lane < 64 → high < 2 ^ 32 →
    let r := recWord k role lane pc preds high st
    let f (lo w : Nat) : Nat := bitsN r.toNat lo w
    f 0 32 = pc.toNat ∧ f 32 6 = lane ∧ f 38 2 = role ∧ f 40 7 = 0 ∧ f 47 1 = k.toNat ∧ f 48 16 = (preds ||| 0x8000).toNat
    ∧ f 64 32 = high ∧ f 96 32 = st.toNat

/-- R70, R71, R75, R78: waits that end, and the former's own steps: YIELD and SLEEP end at their conditions; JOIN ends when the slot is full,
when there is nothing to join, or at its limit, at which the fibres become records where others wait elsewhere; the oldest spilled
record returns to a spawn memory that has room, and the chunk's header says how many are left. That it stands there as the youngest and
its place in the chunk are the model's choice (log 71, DESIGN CHOICE); that the device's own record returns, and not what memory holds,
is its reading (log 43, DEDUCED).

R69, R70: the weave former seats the fibre of a record under the slot's PC in its column, when the column is free and the
operations of its former slot are over; a spawned fibre takes a free window, in which register 0 holds its argument. The record
leaves spawn memory. When the oldest KIND 0 record has waited 2,048 clocks, the slot of its team is emptied into records under its PC
and filled with the oldest bucket. That every placement renews the time at which a slot was filled is the model's choice (log 71, DESIGN
CHOICE). -/
def Obligations.WaitsSpillsAndTheFormer : Prop :=
  (∀ (s : State) (g : Nat) (sl : Slot), aget? s.slots g = some sl →
     let l := s.launch (s.team sl.team).launch
     (∀ others till, sl.wait = .yield others till → others = [] ∨ till ≤ s.clock →
       exec (.yieldRelease g) s = .next (s.modSlot g fun u => { u with wait := .none }))
     ∧ (∀ till, sl.wait = .sleep till → till ≤ s.clock → exec (.sleepExpire g) s = .next (s.modSlot g fun u => { u with wait := .none }))
     ∧ (∀ till next, sl.wait = .join till next → sl.lanes.length = l.width ∨ s.nothingToJoin g sl = true →
         exec (.joinRelease g) s = .next (s.modSlot g fun u => { u with wait := .none, pc := next, arrive := .flow }))
     ∧ (∀ till next, sl.wait = .join till next → till ≤ s.clock → sl.lanes.length ≠ l.width → s.nothingToJoin g sl = false →
         sl.handler = false → (∃ r ∈ s.recsHere g sl.team, r.pc ≠ l.packPc next) →
         (∃ t v, exec (.joinRelease g) s = .next t ∧ aget? t.slots g = some v ∧ v.lanes = [] ∧ v.pc = next ∧ v.wait = .none ∧ v.replay = none
           ∧ (t.quarterAt (qkeyOf g)).recs = (s.quarterAt (qkeyOf g)).recs
               ++ sl.lanes.map fun a => s.leaveRec g sl (sl.leavesFor a.1) a.1 a.2)
         ∧ (sl.replay = none → (∀ k ∈ sl.late, k.1.goesBack = false) → ∀ a, sl.leavesFor a = next))
     ∧ (∀ till next, sl.wait = .join till next → s.clock < till → sl.lanes.length ≠ l.width → s.nothingToJoin g sl = false →
         exec (.joinRelease g) s = .next s)
     ∧ (∀ core q k ch r rs base, s.chunks = [(k, ch)] → ch.core = core → ch.q = q → ch.recs = r :: rs →
         s.chunkBase ch.launch ch.index = .ok base → (s.quarterAt (4 * core + q)).recs.length < 3072 →
         ∃ t, exec (.spillReturn core q) s = .next t
           ∧ (t.quarterAt (4 * core + q)).recs = (s.quarterAt (4 * core + q)).recs
               ++ [{ r with ue := r.ue || s.ue.contains ((base + 16 * (rs.length + 1)) / 32) }]
           ∧ t.chunks = (if rs = [] then [] else [(k, { ch with recs := rs })])
           ∧ ∀ i, i < 16 → t.byteAt (base + i) = BitVec.ofNat 8 (s.chunkHeader { ch with recs := rs } / 256 ^ i)))
  ∧ (∀ (s : State) (g : Nat) (sl : Slot) (r : Rec) (q : Quarter), aget? s.slots g = some sl → s.quarterAt (qkeyOf g) = q →
     q.recs = [r] → q.placed < 64 → r.ue = false → r.team = sl.team → s.recReady r = true →
     sl.handler = false → sl.replay = none → sl.late = [] → sl.lanes ≠ [] → sl.wait = .none → (s.team sl.team).state.issues = true →
     let l := s.launch (s.team sl.team).launch
     (r.pc = l.packPc sl.pc → r.role = sl.role → (∀ a ∈ sl.lanes, a.1 ≠ r.lane) →
       (r.kind1 = false → ∃ t, exec (.weaveFormerPlace g) s = .next t ∧ (t.quarterAt (qkeyOf g)).recs = [] ∧ t.fibres = s.fibres
         ∧ aget? t.slots g = some { sl with lanes := aset sl.lanes r.lane r.fibre, lastFill := s.clock })
       ∧ (∀ fid fb, r.kind1 = true → s.freeWindow g sl.team sl.role r.lane = some (fid, fb) →
         ∃ t v, exec (.weaveFormerPlace g) s = .next t ∧ (t.quarterAt (qkeyOf g)).recs = []
           ∧ aget? t.slots g = some { sl with lanes := aset sl.lanes r.lane fid, lastFill := s.clock }
           ∧ aget? t.fibres fid = some v ∧ v.alive = true ∧ (∀ k, v.reg k = if k = 0 then ⟨r.arg, r.argst⟩ else Reg.zero)
           ∧ v.preds = r.preds ||| 0x8000 ∧ v.vec.know = r.know ∧ v.after = r.after))
     ∧ (s.slots = [(g, sl)] → r.kind1 = false → r.pc ≠ l.packPc sl.pc → r.since + 2048 ≤ s.clock →
       ∃ t, exec (.formerEmptySlot (qkeyOf g / 4) (qkeyOf g % 4)) s = .next t
         ∧ aget? t.slots g = some { sl with
             role := r.role, pc := l.pcAt (r.pc.toNat / 8 : Nat) (r.pc.toNat % 8), arrive := .flow, lanes := [(r.lane, r.fibre)]
             lastFill := s.clock }
         ∧ (t.quarterAt (qkeyOf g)).recs = sl.lanes.map fun a => s.leaveRec g sl sl.pc a.1 a.2))

/-! ### Barriers, phases and waits (R228, R235, R236, R257 to R260) -/

/-- R258, R259, R261: BAR counts every fibre of the slot that has not arrived yet, over the team, or over the launch's teams on the die for
`.shd`. While others have not arrived, the fibres wait at the instruction, but for those whose barrier has turned since they arrived,
which go on. The last arrival turns the generation of every team concerned, returns the counts to 0, and the slot goes on. A guard
that is not uniform raises 0x141, BAR `.shd` without a coresident launch 0x142, which is not replayable.

R257, R260, R261: PHASE.arrive writes the open phase to its destination, and every active fibre has arrived in it; it waits where one has
arrived there before. PHASE.wait goes on once its phase is complete, stays while it is open, and raises 0x146 for a phase to come.
Without a coresident launch both raise 0x142, which is not replayable, and 0x143 where no tree is free. -/
def Obligations.BarriersAndPhases : Prop :=
  (∀ (f : SyncF) (s : State) (c : IssueCtx) (sl : Slot) (tm : Team), Issues s c sl → aget? s.teams sl.team = some tm →
     let x := s.ctx c sl f.g
     let id := f.imm.toNat % 16
     let ts := s.barTeams sl.team id
     let turned (a : Nat × Nat) : Bool := (s.fibre a.2).arrived.getLsbD id && (s.fibre a.2).gen.getLsbD id != tm.gens.getLsbD id
     let fresh := (sl.lanes.filter fun a => !(s.fibre a.2).arrived.getLsbD id).length
     let own := mget 0 tm.counts id + fresh
     let all := (ts.map fun k => if k = sl.team then own else mget 0 (s.team k).counts id).sum
     let complete : Prop := all ≠ 0 ∧ all = (ts.map s.existing).sum
     x.act ≠ [] →
     (x.act.length ≠ x.takingPart.length → exec (.bar f) s = .next (s.raise c.g (x.trap 0x141 .precise x.lanesOf x.lanesOf) none))
     ∧ (x.act.length = x.takingPart.length → 12 ≤ id → x.l.coresident = false →
         exec (.bar f) s = .next (s.raise c.g (x.trap 0x142 .after x.lanesOf []) none))
     ∧ (x.act = sl.lanes → x.takingPart = sl.lanes → id < 12 ∨ x.l.coresident = true → x.next ≠ sl.pc →
         (∀ a ∈ sl.lanes, (aget? s.fibres a.2).isSome) → sl.team ∈ ts → ts.Nodup →
         ∃ t u v, exec (.bar f) s = .next t ∧ aget? t.teams sl.team = some u
           ∧ (¬ complete → sl.handler = false ∨ (∀ a ∈ sl.lanes, turned a = false) ∨ (∀ a ∈ sl.lanes, turned a = true) →
               let dest (a : Nat × Nat) : DWord := if turned a then x.next else sl.pc
               SameBytes s t ∧ mget 0 u.counts id = own ∧ u.gens = tm.gens ∧ (∀ k, k ≠ sl.team → aget? t.teams k = aget? s.teams k)
               ∧ aget? t.slots c.g = some v ∧ (∃ a ∈ sl.lanes, v.pc = dest a) ∧ v.lanes = (sl.lanes.filter fun a => dest a == v.pc)
               ∧ v.wait = (if v.pc = sl.pc then .bar id else sl.wait)
               ∧ (t.quarterAt (qkeyOf c.g)).recs = (s.quarterAt (qkeyOf c.g)).recs ++
                   ((sl.lanes.filter fun a => dest a != v.pc).map fun a => s.leaveRec c.g sl (dest a) a.1 a.2)
               ∧ ∀ a ∈ sl.lanes, (t.fibre a.2).arrived.getLsbD id = !turned a)
           ∧ (complete → (∀ a ∈ sl.lanes, turned a = false) →
               SameBytes s t ∧ (∀ k ∈ ts, ∀ y, aget? s.teams k = some y → ∃ z, aget? t.teams k = some z ∧ mget 0 z.counts id = 0
                 ∧ z.gens.getLsbD id = !y.gens.getLsbD id)
               ∧ aget? t.slots c.g = some v ∧ v.pc = x.next ∧ v.lanes = sl.lanes
               ∧ ∀ a ∈ sl.lanes, (t.fibre a.2).arrived.getLsbD id = false)))
  ∧ (∀ (f : SyncF) (s : State) (c : IssueCtx) (sl : Slot), Issues s c sl →
     let x := s.ctx c sl f.g
     let lid := (s.team sl.team).launch
     x.act ≠ [] →
     (x.l.coresident = false → exec (.phaseArrive f) s = .next (s.raise c.g (x.trap 0x142 .after x.lanesOf []) none)
       ∧ exec (.phaseWait f) s = .next (s.raise c.g (x.trap 0x142 .after x.lanesOf []) none))
     ∧ (x.l.coresident = true → s.treeOf lid = none →
         exec (.phaseArrive f) s = .next (s.raise c.g (x.trap 0x143 .precise x.lanesOf x.lanesOf) none)
         ∧ exec (.phaseWait f) s = .next (s.raise c.g (x.trap 0x143 .precise x.lanesOf x.lanesOf) none))
     ∧ (∀ k, x.l.coresident = true → s.treeOf lid = some k →
         let ph := (s.tree k lid).c
         let n : Word := BitVec.ofNat 32 (x.read (x.first s) .n32 f.imm f.a).val
         ((∀ a ∈ x.act, (s.fibre a.2).phase ≠ some ph) →
           ∃ t v, exec (.phaseArrive f) s = .next t ∧ aget? t.slots c.g = some v ∧ v.pc = c.thenPc.getD x.next
             ∧ (∀ a ∈ x.act, (aget? s.fibres a.2).isSome → (t.fibre a.2).phase = some ph)
             ∧ (∀ m, f.d = .scl m → ∀ r, v.reg r = if r = m.toNat then ⟨ph, 0⟩ else sl.reg r))
         ∧ ((∃ a ∈ x.act, (s.fibre a.2).phase = some ph) → exec (.phaseArrive f) s = .next s)
         ∧ (0 < (ph - n).toInt → ∃ t, exec (.phaseWait f) s = .next t ∧ SameBytes s t
             ∧ aget? t.slots c.g = some { sl with
                 pc := c.thenPc.getD x.next, arrive := if c.thenPc.isSome then .resumption else .flow })
         ∧ (n = ph → ∃ t, exec (.phaseWait f) s = .next t ∧ t.slots = s.slots ∧ t.fibres = s.fibres)
         ∧ (0 < (n - ph).toInt → exec (.phaseWait f) s = .next (s.raise c.g (x.trap 0x146 .precise x.lanesOf x.lanesOf) none))))

/-- R228, R235, R236: WAIT goes on once every counter of the slot is at or below its field. WAITSEQ goes on once the team's DONE has
reached the value, waits before that, and raises 0x109 for a value that was never issued. SEQRD reads DONE, ISSUED or the status
word, and with FLAGS bit 2 clears the status after reading it. -/
def Obligations.WaitsForOperations : Prop :=
  ∀ (f : EngF) (s : State) (c : IssueCtx) (sl : Slot) (tm : Team), Issues s c sl → aget? s.teams sl.team = some tm →
    let x := s.ctx c sl f.g
    let n : Word := BitVec.ofNat 32 (x.read (x.first s) .n32 f.imm f.a).val
    x.act ≠ [] →
    (sl.ld ≤ bitsN f.imm.toNat 0 6 ∧ sl.st ≤ bitsN f.imm.toNat 6 6 ∧ sl.cp ≤ bitsN f.imm.toNat 12 6 ∧ sl.tl ≤ bitsN f.imm.toNat 18 6 →
      exec (.wait f) s = .next (s.advance x))
    ∧ (¬ (sl.ld ≤ bitsN f.imm.toNat 0 6 ∧ sl.st ≤ bitsN f.imm.toNat 6 6 ∧ sl.cp ≤ bitsN f.imm.toNat 12 6 ∧ sl.tl ≤ bitsN f.imm.toNat 18 6) →
      exec (.wait f) s = .next s)
    ∧ (0 ≤ (tm.issued - n).toInt → 0 ≤ (tm.done - n).toInt → exec (.waitseq f) s = .next (s.advance x))
    ∧ (0 ≤ (tm.issued - n).toInt → (tm.done - n).toInt < 0 → exec (.waitseq f) s = .next s)
    ∧ ((tm.issued - n).toInt < 0 →
      exec (.waitseq f) s = .next (s.raise c.g (x.trap 0x109 .precise x.lanesOf x.lanesOf) none))
    ∧ (let v : Word := if bitsN f.flags.toNat 0 2 = 0 then tm.done else if bitsN f.flags.toNat 0 2 = 1 then tm.issued
          else BitVec.ofNat 32 (tm.errs * 2 ^ 8 + tm.fx.toNat)
       let t := s.writeDst c.g 0 f.d [(0, ⟨v, 0⟩)]
       exec (.seqrd f) s = .next (if bitsN f.flags.toNat 2 1 = 1 then
          (t.modTeam sl.team fun u => { u with fx := 0, errs := 0 }).advance x else t.advance x))

/-! ### Time, atomics and fences (R138 to R140, R155, R250 to R256) -/

/-- R138 to R140, R157: TIME is an operation whose answer writes the partition's time to its pair, stamped with that time. A tick that is
due advances the time by 1, and at a multiple of the horizon interval sends it to every die of the partition; no message two ticks
old or older is left on its way. A message that takes effect makes its time the die's horizon. When a message may take effect, and that
one two ticks old is dropped at the tick, is the model's reading (log 49, DEDUCED). -/
def Obligations.TimeIsReadAndTicks : Prop :=
  (∀ (f : ArithF) (s : State) (c : IssueCtx) (sl : Slot), Issues s c sl →
    let x := s.ctx c sl f.g
    x.act ≠ [] → exec (.time f) s = .next ((s.startOp x .none (.time (.time f) (s.part x.l.part).time)).advance x))
  ∧ (∀ (o : Nat) (s : State) (h : OpHead) (f : ArithF) (n : BitVec 8) (asked : Nat), aget? s.ops o = some ⟨h, .time (.time f) asked⟩ →
    (∀ p ∈ s.ops, p.1 < o → p.2.head.g = h.g → p.2.head.team = h.team → ∀ i k, p.2.body ≠ .time i k) → f.d = .vec n →
    let now := (s.part h.part).time
    ∃ t, exec (.timeReply o) s = .next t ∧ aget? t.ops o = none ∧ SameBytes s t
      ∧ (∀ a ∈ h.lanes, (aget? s.fibres a.2).isSome →
          (t.fibre a.2).reg n.toNat = ⟨BitVec.ofNat 32 now, tstamp now⟩
          ∧ (t.fibre a.2).reg (n.toNat + 1) = ⟨BitVec.ofNat 32 (now / 2 ^ 32), tstamp now⟩)
      ∧ ∀ k r, (∀ a ∈ h.lanes, a.2 ≠ k) ∨ (r ≠ n.toNat ∧ r ≠ n.toNat + 1) → (t.fibre k).reg r = (s.fibre k).reg r)
  ∧ (∀ (p : Nat) (s : State), s.tickDue p = true →
    let now := ((s.part p).time + 1) % 2 ^ 64
    ∃ t, exec (.partitionTick p) s = .next t ∧ (t.part p).time = now ∧ (∀ k, k ≠ p → t.part k = s.part k)
      ∧ (∀ d, d < 8 → (s.part p).dies.getLsbD d = true → (t.die d).messages =
          ((s.die d).messages ++ if now % (s.part p).interval = 0 then [(now, s.clock)] else []).filter fun m => decide (now < m.1 + 2))
      ∧ (∀ d, d < 8 → (s.part p).dies.getLsbD d = false → t.die d = s.die d)
      ∧ t = { s with parts := t.parts, dies := t.dies })
  ∧ (∀ (d sent now : Nat) (s : State) (rest : List (Nat × Nat)), (s.die d).messages = (now, sent) :: rest → sent < s.clock →
    ∃ t, exec (.horizonMessage d) s = .next t ∧ (t.die d).horizon = tstamp now
      ∧ (t.die d).messages = (rest.filter fun m => m != (now, sent)) ∧ t = { s with dies := t.dies })

/-- R251: an atomic whose lanes all reach bytes of this device is in flight with each lane's operand, counted in `ld` (RED: in
`st`), and its team counts as having published (R290), where its operand passes the egress bound of its port (R147). Registers and memory stay as they were until its home applies it.

R252: an atomic at another device whose answer is lost, or has not come within 2^22 clocks, ends with 0x144 or 0x145 in its lane,
after the instruction (late for RED, and where the slot no longer holds the fibre). Its destination holds an undefined value with an undefined stamp, this device's memory what it held. -/
def Obligations.AtomicsStartAndMayBeLost : Prop :=
  (∀ (f : AtomF) (s : State) (c : IssueCtx) (sl : Slot) (pg : Nat → Page), Issues s c sl →
     let x := s.ctx c sl f.g
     let lanes := x.runLanes f.d
     let ea (a : Nat × Nat) : DWord := effAddr (x.pair (s.fibre a.2) f.a) (x.idx (s.fibre a.2) f.b) f.ext
     let starts (i : Instr) (ctr : Ctr) (expects : Bool) : Prop :=
       ∃ t ls v, exec i s = .next t ∧ aget? t.ops (s.uid + lanes.length) = some ⟨s.head x ctr, .atomic i ls []⟩
         ∧ ls.map (fun l => (l.lane, l.fibre, l.va, l.loc, l.opnd, l.opst)) = lanes.map (fun a =>
             let b := x.read (s.fibre a.2) f.ty 0 f.c
             (a.1, a.2, ea a, (pg a.2).loc, BitVec.ofNat 64 b.val, older x.h b.lo b.hi))
         ∧ ls.map (fun l => l.expect) =
             (lanes.map fun a => if expects then BitVec.ofNat 64 (x.read (s.fibre a.2) f.ty 0 f.d).val else 0)
         ∧ (∀ l ∈ ls, l.remote = none ∧ l.result = none ∧ l.lost = none)
         ∧ aget? t.slots c.g = some v ∧ v.ld = sl.ld + (if ctr = .ld then 1 else 0) ∧ v.st = sl.st + (if ctr = .st then 1 else 0)
         ∧ v.pc = c.thenPc.getD x.next ∧ v.sregs = sl.sregs ∧ v.fflags = sl.fflags
         ∧ ((aget? s.teams sl.team).isSome → (t.team sl.team).published = true)
         ∧ (∀ k r, (t.fibre k).reg r = (s.fibre k).reg r) ∧ (∀ k, (t.fibre k).preds = (s.fibre k).preds) ∧ SameBytes s t
     lanes ≠ [] → (∀ a ∈ lanes, s.placeBytes (x.who s) .atomic (ea a) f.ty.bytes = .ok (pg a.2) ∧ (pg a.2).loc < 2 ^ 62
       ∧ s.atomEgress x.l.part (pg a.2).loc (older x.h (x.read (s.fibre a.2) f.ty 0 f.c).lo (x.read (s.fibre a.2) f.ty 0 f.c).hi) = none) →
     starts (.atom f) .ld false ∧ starts (.atomf f) .ld false ∧ starts (.cas f) .ld true ∧ starts (.red f) .st false)
  ∧ (∀ (o : Nat) (s : State) (h : OpHead) (i : Instr) (f : AtomF) (k : AtomKind) (l : AtomLane) (tag : Nat) (sl : Slot) (n : BitVec 8),
     atomOf i = some (f, k) → aget? s.ops o = some ⟨h, .atomic i [l] []⟩ → l.remote = some tag → 2 ^ 62 ≤ l.loc →
     l.result = none → l.lost = none →
     f.d = .vec n → aget? s.slots h.g = some sl → sl.team = h.team → sl.lanes ≠ [] →
     let ends (t : State) (cause : Nat) : Prop :=
       aget? t.ops o = none ∧ SameBytes s t
       ∧ (∃ v τ, aget? t.slots h.g = some v ∧ v.late = sl.late ++ [(τ, none)] ∧ τ.cause = cause ∧ τ.lmask = [l.lane]
           ∧ τ.kind = (if k = .red ∨ (l.lane, l.fibre) ∉ sl.lanes then .late else .after) ∧ τ.addr = l.va ∧ τ.pc = h.pc ∧ τ.next = h.next)
       ∧ (k = .red → ∀ q r, (t.fibre q).reg r = (s.fibre q).reg r)
       ∧ (k ≠ .red → (aget? s.fibres l.fibre).isSome → ∃ m, s.free ≤ m ∧ m < t.free ∧ ∀ r, (t.fibre l.fibre).reg r =
           written n.toNat (resultRegs f.ty ((Config.freeValue m).toNat : Int) (Config.freeStamp m) (Config.freeStamp m)) r
             ((s.fibre l.fibre).reg r))
     (∃ t, exec (.atomicResponseLost o l.lane) s = .next t ∧ ends t 0x144)
     ∧ (h.issuedAt + 2 ^ 22 ≤ s.clock → ∃ t, exec (.atomicTimeout o l.lane) s = .next t ∧ ends t 0x145)
     ∧ (s.clock < h.issuedAt + 2 ^ 22 → exec (.atomicTimeout o l.lane) s = .next s))

/-- R251, R165, R247: the home of an atomic applies its lanes at one address in ascending order, each as one step: it reads the value, computes
the new one by the table of operations and writes it; the granule's stamp becomes the older of itself and the operand's, but on a
timeless page. Every lane but RED's receives the value and the stamp from before its own step, the exceptions go to FFLAGS, and the
operation is over. A CAS that does not find what it expects, bit for bit, writes nothing and leaves the stamp. -/
def Obligations.AtomicsApplyInOneStep : Prop :=
  (∀ (ty : Ty) (old b e : Nat) (aop : Nat),
    atomNew .cas ty aop old b e = (if old = e then some b else none, 0)
    ∧ (ty ∈ tysInt → old < 2 ^ ty.bits → b < 2 ^ ty.bits → ∀ k ∈ [AtomKind.atom, .red],
        let v (aop : Nat) : Nat := ((atomNew k ty aop old b e).1).getD 0
        v 0 = (old + b) % 2 ^ ty.bits ∧ numOf ty (v 1) = min (numOf ty old) (numOf ty b) ∧ numOf ty (v 2) = max (numOf ty old) (numOf ty b)
        ∧ v 3 = old &&& b ∧ v 4 = old ||| b ∧ v 5 = old ^^^ b ∧ v 6 = b
        ∧ ∀ aop, (atomNew k ty aop old b e).1.isSome ∧ (atomNew k ty aop old b e).2 = 0)
    ∧ (ty = .f32 ∨ ty = .f64 → ∀ k ∈ [AtomKind.atomf, .red],
        let t := fmtOf ty
        let both (r : Nat × Flags) : Option Nat × Flags := (some r.1, r.2)
        atomNew k ty 0 old b e = both (addV t .rne (decodeF t old) (decodeF t b))
        ∧ atomNew k ty 1 old b e = both (minMaxF t false old b) ∧ atomNew k ty 2 old b e = both (minMaxF t true old b)))
  ∧ ∀ (o lane loc : Nat) (s : State) (h : OpHead) (i : Instr) (f : AtomF) (k : AtomKind) (ls : List AtomLane),
    atomOf i = some (f, k) → aget? s.ops o = some ⟨h, .atomic i ls []⟩ → (ls.head?.map fun l => l.lane) = some lane →
    (∀ l ∈ ls, l.loc = loc ∧ l.remote = none ∧ l.result = none ∧ l.lost = none ∧ l.swm = false) →
    (ls.map fun l => l.lane).Nodup → (ls.map fun l => l.fibre).Nodup → s.homeCause true loc f.ty.bytes = none →
    (∀ l ∈ ls, s.atomEgress h.part l.loc l.opst = none) →
    loc < 2 ^ 62 → s.heldBack (ls.flatMap fun l => from_ l.loc f.ty.bytes) (ls.flatMap fun l => l.preds) (ls.flatMap fun l => l.carry)
      (ls.flatMap fun l => l.after) = false →
    let now (j : Nat) : Nat := (ls.take j).foldl (fun v l =>
      (((atomNew k f.ty f.aop.toNat v l.opnd.toNat l.expect.toNat).1).getD v) % 256 ^ f.ty.bytes) (s.natAt loc f.ty.bytes)
    let stamp (j : Nat) : Stamp := (List.range j).foldl (fun st i => match ls[i]? with
      | some l => if l.timeless || (atomNew k f.ty f.aop.toNat (now i) l.opnd.toNat l.expect.toNat).1.isNone then st
          else older (s.homeHz h.core (loc / 32 * 32)) st l.opst
      | none => st) (s.stampAt loc)
    let exc (j : Nat) : Flags := match ls[j]? with
      | some l => (atomNew k f.ty f.aop.toNat (now j) l.opnd.toNat l.expect.toNat).2
      | none => 0
    ∃ t, exec (.atomicApply o lane) s = .next t ∧ aget? t.ops o = none ∧ t.natAt loc f.ty.bytes = now ls.length
      ∧ t.stampAt loc = stamp ls.length
      ∧ (∀ a, a < loc ∨ loc + f.ty.bytes ≤ a → t.byteAt a = s.byteAt a)
      ∧ (k ≠ .red → ∀ (n : BitVec 8) (j : Nat) l, f.d = .vec n → ls[j]? = some l → (aget? s.fibres l.fibre).isSome →
          let st := if l.timeless then 0 else stamp j
          ∀ r, (t.fibre l.fibre).reg r = written n.toNat (resultRegs f.ty ((now j : Nat) : Int) st st) r ((s.fibre l.fibre).reg r))
      ∧ (∀ q, k = .red ∨ (∀ l ∈ ls, l.fibre ≠ q) → ∀ r, (t.fibre q).reg r = (s.fibre q).reg r)
      ∧ (∀ sl, aget? s.slots h.g = some sl → sl.team = h.team → ∃ v, aget? t.slots h.g = some v ∧ v.pc = sl.pc ∧ v.late = sl.late
          ∧ v.fflags = (List.range ls.length).foldl (fun m j => m ||| exc j) sl.fflags
          ∧ (h.ctr = .ld → v.ld = sl.ld - 1) ∧ (h.ctr = .st → v.st = sl.st - 1))

/-- R253 to R256: that a FENCE waits is the model's choice of how to keep the order (log 25, DEDUCED); XFENCE waits by its rule. FENCE with
`.acq` waits for the slot's loads and atomics in flight, and then what they carried is hb what follows; with `.rel`,
what the fibre knows is carried by its later writes; without either it does both. XFENCE waits for the slot's operations
on the paths of its mask, and what a fibre knows on one of them it then knows on all. Both change nothing else. -/
def Obligations.FencesOrder : Prop :=
  ∀ (f : SyncF) (s : State) (c : IssueCtx) (sl : Slot), Issues s c sl →
    let x := s.ctx c sl f.g
    let here := s.opsHere c.g sl
    let read (o : Op) : Prop := (∃ i r m, o.body = .load i r m) ∨ ∃ i l m, o.body = .atomic i l m
    let on (o : Op) (ps : List Path) : Prop := ∃ p ∈ ps, o.body.path = some p
    let paths := maskPaths f.mask
    let plain (t : State) : Prop := SameBytes s t
      ∧ aget? t.slots c.g = some { sl with
          pc := c.thenPc.getD x.next, arrive := if c.thenPc.isSome then .resumption else .flow }
      ∧ ∀ k r, (t.fibre k).reg r = (s.fibre k).reg r ∧ (t.fibre k).preds = (s.fibre k).preds
    let acq : Prop := f.ord = .acq ∨ f.ord = .ar ∨ f.ord = .plain
    let rel : Prop := f.ord = .rel ∨ f.ord = .ar ∨ f.ord = .plain
    x.act ≠ [] →
    ((∃ o ∈ here, read o.2) → f.ord ≠ .rel → exec (.fence f) s = .next s)
    ∧ ((f.ord = .rel ∨ ∀ o ∈ here, ¬ read o.2) → ∃ t, exec (.fence f) s = .next t ∧ plain t
        ∧ ∀ a ∈ x.act, (aget? s.fibres a.2).isSome →
          (acq → ∀ w ∈ (s.fibre a.2).pendAcq, w ∈ (t.fibre a.2).vec.know)
          ∧ (rel → ∃ k, (t.fibre a.2).relFence = some k ∧ ∀ w ∈ (s.fibre a.2).vec.know, w ∈ k)
          ∧ (f.ord = .plain → (∀ w ∈ s.scSet, w ∈ (t.fibre a.2).vec.know) ∧ ∀ w ∈ (s.fibre a.2).vec.know, w ∈ t.scSet))
    ∧ ((∃ o ∈ here, on o.2 paths) → exec (.xfence f) s = .next s)
    ∧ ((∀ o ∈ here, ¬ on o.2 paths) →
        (.coll ∈ paths → ∀ r ∈ s.runs, (∃ a ∈ sl.lanes, a.2 = r.2.fibre) → r.2.state = .complete) →
        ∃ t, exec (.xfence f) s = .next t ∧ plain t
          ∧ ∀ a ∈ x.act, (aget? s.fibres a.2).isSome → ∀ p ∈ paths, ∀ q ∈ paths,
            ∀ w ∈ ((s.fibre a.2).view p).know, w ∈ ((t.fibre a.2).view q).know)

/-! ### The matrix engine (R188 to R210) -/

/-- R189, R191, R193 to R196, R206 to R209: a tile instruction whose operands are good starts once no instruction of the core that names a tile
of its runs is still to retire; it holds the registers it reads and counts in `tl`. MMA, TZERO, TLDM and TSCL act for one active
fibre (else 0x100), TRD and TWR for every active lane. An instruction that may issue and is not good raises its first cause: MMA 0x103 for
its parameter block, 0x104 for the alignment of B, 0x102 for its runs, 0x004 for A's registers; TLDM 0x104 and 0x102; TZERO and TSCL
0x102; TRD and TWR 0x102 and 0x105. The interlock comes first (log 71). -/
def Obligations.TileInstructionsStart : Prop :=
  ∀ (f : EngF) (s : State) (c : IssueCtx) (sl : Slot) (a : Nat × Nat) (more : List (Nat × Nat)), Issues s c sl →
    let x := s.ctx c sl f.g
    let ok (k : Nat) : Prop := k % accTiles f.acc = 0 ∧ k + accTiles f.acc ≤ x.l.tiles
    let t := f.imm.toNat % 32
    let p := mmaParam fun k => (sl.reg (specNum f.b + k)).val
    let n := (16 + mmaExpo f.ty) * p.ksteps
    let w := if f.acc = 0 then 4 else 8
    let trapped (k : Nat) : State := s.raise c.g (x.trap k .precise x.lanesOf x.lanesOf) none
    let waitsOrStarts (i : Instr) (t step : Nat) (resumed : Bool) (opnds : List (Nat × Reg)) : Prop :=
      exec i s = .next (if s.tileReady x i then (s.startOp x .tl (.tile i t a.2 a.1 opnds step [] resumed)).advance x else s)
    let starts (i : Instr) (t : Nat) (opnds : List (Nat × Reg)) : Prop := waitsOrStarts i t (c.rstep.getD 0) c.rstep.isSome opnds
    x.act = a :: more →
    (more = [] →
      (specNum f.b % 4 = 0 → p.rsv = false → 1 ≤ p.mrows → p.mrows ≤ 64 → p.mrows ≤ x.l.width → canonical p.baddr = true →
        p.baddr.toNat % 32 = 0 → p.pitch % 32 = 0 → ok p.ct → ok p.dt → specNum f.a + n ≤ x.l.allot sl.role →
        starts (.mma f) p.dt (laneRuns s sl.lanes f.a n ++ x.sclRun f.b 4))
      ∧ (ok t → starts (.tzero f) t [])
      ∧ (ok t → (x.pair (x.first s) f.a).toNat % w = 0 → (sl.reg (specNum f.b)).val.toNat % w = 0 →
          starts (.tldm f) t (x.sclRun f.a 2 ++ [(sclKey 2, sl.reg (specNum f.b))]))
      ∧ (ok t → ok (f.imm.toNat / 32 % 32) → starts (.tscl f) t (x.sclRun f.a (if f.acc = 0 then 1 else 2)))
      ∧ (let bad : Prop := specNum f.b % 4 ≠ 0 ∨ p.rsv = true ∨ p.mrows = 0 ∨ 64 < p.mrows ∨ x.l.width < p.mrows ∨ canonical p.baddr = false
         let odd : Prop := p.baddr.toNat % 32 ≠ 0 ∨ p.pitch % 32 ≠ 0
         let raised (k : Nat) : Prop := exec (.mma f) s = .next (trapped k)
         s.tileReady x (.mma f) = true →
          (bad → raised 0x103) ∧ (¬ bad → odd → raised 0x104) ∧ (¬ bad → ¬ odd → ¬ ok p.ct ∨ ¬ ok p.dt → raised 0x102)
          ∧ (¬ bad → ¬ odd → ok p.ct → ok p.dt → x.l.allot sl.role < specNum f.a + n → raised 0x004))
      ∧ (let odd : Prop := (x.pair (x.first s) f.a).toNat % w ≠ 0 ∨ (sl.reg (specNum f.b)).val.toNat % w ≠ 0
         s.tileReady x (.tldm f) = true → (odd → exec (.tldm f) s = .next (trapped 0x104))
          ∧ (¬ odd → ¬ ok t → exec (.tldm f) s = .next (trapped 0x102)))
      ∧ (¬ ok t → s.tileReady x (.tzero f) = true → exec (.tzero f) s = .next (trapped 0x102))
      ∧ (¬ ok t ∨ ¬ ok (f.imm.toNat / 32 % 32) → s.tileReady x (.tscl f) = true → exec (.tscl f) s = .next (trapped 0x102)))
    ∧ (more ≠ [] → ∀ i ∈ [Instr.mma f, .tzero f, .tldm f, .tscl f], s.tileReady x i = true → exec i s = .next (trapped 0x100))
    ∧ (ok t → immRow f + x.l.width ≤ 64 → immCol f + immN f ≤ 64 →
        waitsOrStarts (.trd f) t 0 false []
        ∧ waitsOrStarts (.twr f) t 0 false (laneRuns s x.act f.a (immN f * (if f.acc = 0 then 1 else 2))))
    ∧ (s.tileReady x (.trd f) = true →
        (¬ ok t → exec (.trd f) s = .next (trapped 0x102) ∧ exec (.twr f) s = .next (trapped 0x102))
        ∧ (ok t → 64 < immRow f + x.l.width ∨ 64 < immCol f + immN f →
          exec (.trd f) s = .next (trapped 0x105) ∧ exec (.twr f) s = .next (trapped 0x105)))

/-- R194, R195, R197, R199 to R201: one step of an MMA. Each element of the rows in use becomes the exact sum of the products of its A row and B column and of
the element it continues (of C in the first step, else of D), rounded once into the accumulator, with the oldest stamp of that element,
of the lane's registers of the step and of its B column; every other element of D, memory and the registers stay. The exceptions join
the flags of the run.

R207: one row of a TLDM. Each of its 64 elements becomes the 4 or 8 bytes, little-endian, at its place in memory, with the oldest
stamp of their granules, or none from a timeless page; the first row clears the run's flags. The other rows, memory and the registers
stay.

R190, R202, R206 to R209: what a tile instruction has done when it retires, and leaves `tl`. TZERO leaves every element +0 and timeless; TRD has
written its elements to the lanes' registers, with their stamps, and raised in the slot the run's flags and those of its own rounding; TWR has written registers to its elements; TSCL has multiplied
every element; MMA and TLDM retire after their last step. Memory stays as it was. -/
def Obligations.TilesRoundOnceAndRetire : Prop :=
  (∀ (o : Nat) (s : State) (h : OpHead) (f : EngF) (t fid lane st : Nat) (opnds : List (Nat × Reg)) (resumed : Bool) (first : Page)
       (e : Nat → Nat → ElemAt) (m : EMem) (got : List WEv) (u : State),
     aget? s.ops o = some ⟨h, .tile (.mma f) t fid lane opnds st [] resumed⟩ →
     let p := mmaParam fun k => (opReg opnds (sclKey k)).val
     let k := mmaK f.ty
     let half := (s.team h.team).halfOf h.core
     let old := (s.team h.team).run half f.acc p.dt
     let src := if st = 0 ∧ resumed = false then (s.team h.team).run half f.acc p.ct else old
     let z := fmtElem first.fmt
     st < p.ksteps → s.engineOn h = true → s.tileBlocked o h (.mma f) fid opnds st = false → (aget? s.teams h.team).isSome →
     s.placeBytes h.who .load p.baddr 1 = .ok first → first.fmt = tyFmt f.ty →
     (∀ j, j < k → ∀ c, c < 64 →
       s.elemAt h.who first (bAddr first p.baddr p.pitch (st * k + j) c).1 (bAddr first p.baddr p.pitch (st * k + j) c).2 = .ok (e j c)) →
     (∀ b ∈ src.ue, p.mrows ≤ b / 64) →
     s.farTurn h.part (s.engineReader o h fid lane .mx) ((List.range k).flatMap fun j => (List.range 64).flatMap fun c => (e j c).bytes z) = .ready →
     s.readEngine (s.engineReader o h fid lane .mx) (if z = 8 then 8 else 4)
       ((List.range k).flatMap fun j => (List.range 64).flatMap fun c => (e j c).bytes z) = some (m, got, u) →
     let out (r c : Nat) : Nat × Flags := sumAcc f.acc f.rm ((List.range k).map fun j => aValue f opnds p.ksteps st r j)
       ((List.range k).map fun j => (e j c).value m (tyFmt f.ty)) (accTerms f.acc (src.elem r c))
     let aOld (r : Nat) : Stamp := olderAll (u.hz h.core)
       (((List.range 16).map fun q => (opReg opnds (opKey r (16 * st + q))).st)
         ++ (List.range (mmaExpo f.ty)).map fun q => (opReg opnds (opKey r (16 * p.ksteps + mmaExpo f.ty * st + q))).st)
     let bOld (c : Nat) : Stamp := olderAll (u.hz h.core) ((List.range k).flatMap fun j => (e j c).stamps m z)
     ∃ v, exec (.mmaStep o) s = .next v
       ∧ aget? v.ops o = some ⟨h, .tile (.mma f) t fid lane opnds (st + 1) [] resumed⟩
       ∧ (let d := (v.team h.team).run half f.acc p.dt
          (∀ r c, c < 64 → d.elem r c = if r < p.mrows then (out r c).1 % 2 ^ 128 else old.elem r c)
          ∧ (∀ r c, c < 64 → d.stamp r c = if r < p.mrows then olderAll (u.hz h.core) [src.stamp r c, aOld r, bOld c] else old.stamp r c)
          ∧ ∀ b : Nat, d.flags.getLsbD b = (src.flags.getLsbD b || (List.range p.mrows).any fun r => (List.range 64).any fun c =>
              (out r c).2.getLsbD b))
       ∧ SameBytes s v ∧ v.slots = s.slots ∧ ∀ q r, (v.fibre q).reg r = (s.fibre q).reg r)
  ∧ (∀ (o : Nat) (s : State) (h : OpHead) (f : EngF) (t fid lane row : Nat) (opnds : List (Nat × Reg)) (resumed : Bool) (pg : Nat → Page)
       (m : EMem) (got : List WEv) (u : State),
     aget? s.ops o = some ⟨h, .tile (.tldm f) t fid lane opnds row [] resumed⟩ → row < 64 → s.engineOn h = true →
     s.tileBlocked o h (.tldm f) fid opnds row = false → (aget? s.teams h.team).isSome →
     let w := if f.acc = 0 then 4 else 8
     let base : DWord := BitVec.ofNat 64 ((opReg opnds (sclKey 0)).val.toNat + (opReg opnds (sclKey 1)).val.toNat * 2 ^ 32)
     let va (c : Nat) : DWord := base + BitVec.ofNat 64 (row * (opReg opnds (sclKey 2)).val.toNat + c * w)
     let bytes (c : Nat) : List EByte := (from_ (pg c).loc w).map fun a => ⟨a, (pg c).timeless⟩
     (∀ c, c < 64 → s.placeBytes h.who .load (va c) w = .ok (pg c) ∧ s.homeCause true (pg c).loc w = none) →
     s.farTurn h.part (s.engineReader o h fid lane .mx) ((List.range 64).flatMap bytes) = .ready →
     s.readEngine (s.engineReader o h fid lane .mx) w ((List.range 64).flatMap bytes) = some (m, got, u) →
     let half := (s.team h.team).halfOf h.core
     let old := (s.team h.team).run half f.acc t
     ∃ v, exec (.tileRetire o) s = .next v ∧ aget? v.ops o = some ⟨h, .tile (.tldm f) t fid lane opnds (row + 1) [] resumed⟩
       ∧ (let d := (v.team h.team).run half f.acc t
          (∀ c, c < 64 → d.elem row c = emNat m (pg c).loc w % 2 ^ 128
           ∧ d.stamp row c = olderAll (u.hz h.core) ((bytes c).map fun b => emStamp m b.loc))
          ∧ (∀ r c, r ≠ row → c < 64 → d.elem r c = old.elem r c ∧ d.stamp r c = old.stamp r c)
          ∧ d.flags = if row = 0 then 0 else old.flags)
       ∧ SameBytes s v ∧ v.slots = s.slots ∧ ∀ q r, (v.fibre q).reg r = (s.fibre q).reg r)
  ∧ (∀ (o : Nat) (s : State) (h : OpHead) (i : Instr) (f : EngF) (t fid lane st : Nat) (opnds : List (Nat × Reg)) (resumed : Bool),
     aget? s.ops o = some ⟨h, .tile i t fid lane opnds st [] resumed⟩ → s.engineOn h = true → (aget? s.teams h.team).isSome →
     let half := (s.team h.team).halfOf h.core
     let run (u : State) (k : Nat) : Tile := (u.team h.team).run half f.acc k
     let d := run s t
     let spot (a : Nat × Nat) (j r c : Nat) : Prop := r = immRow f + a.1 ∧ c = immCol f + j ∧ j < immN f
     let ends (v : State) : Prop := aget? v.ops o = none ∧ SameBytes s v
       ∧ ∀ sl, aget? s.slots h.g = some sl → sl.team = h.team → h.ctr = .tl →
           ∃ w, aget? v.slots h.g = some w ∧ w.tl = sl.tl - 1 ∧ w.pc = sl.pc ∧ w.late = sl.late
     let still (v : State) : Prop := ∀ q r, (v.fibre q).reg r = (s.fibre q).reg r
     (i = .tzero f → ∃ v, exec (.tileRetire o) s = .next v ∧ ends v ∧ still v ∧ (run v t).flags = 0
       ∧ ∀ r c, (run v t).elem r c = 0 ∧ (run v t).stamp r c = 0)
     ∧ (i = .mma f → (mmaParam fun k => (opReg opnds (sclKey k)).val).ksteps ≤ st →
         ∃ v, exec (.tileRetire o) s = .next v ∧ ends v ∧ still v ∧ SameTeams s v)
     ∧ (i = .tldm f → 64 ≤ st → ∃ v, exec (.tileRetire o) s = .next v ∧ ends v ∧ still v ∧ SameTeams s v)
     ∧ (i = .trd f → d.ue = [] → (∀ a ∈ h.lanes, (s.fibre a.2).alive = true) → (h.lanes.map fun a => a.2).Nodup →
         let sum (r c : Nat) : Nat × Flags :=
           addV (fmtOf .f64) f.rm (decodeF (fmtOf .f64) (d.elem r c % 2 ^ 64)) (decodeF (fmtOf .f64) (d.elem r c / 2 ^ 64))
         ∃ v, exec (.tileRetire o) s = .next v ∧ ends v ∧ SameTeams s v
         ∧ (∀ sl, aget? s.slots h.g = some sl → sl.team = h.team → h.ctr = .tl → ∃ w, aget? v.slots h.g = some w ∧ ∀ b : Nat,
             w.fflags.getLsbD b = (sl.fflags.getLsbD b || d.flags.getLsbD b || (decide (f.acc = 2 ∧ f.part = 0) && h.lanes.any fun a =>
               (List.range (immN f)).any fun j => (sum (immRow f + a.1) (immCol f + j)).2.getLsbD b)))
         ∧ ∀ a ∈ h.lanes, ∀ (n : BitVec 8) (j : Nat), f.d = .vec n → j < immN f →
           let e := d.elem (immRow f + a.1) (immCol f + j)
           let w : Nat := if f.acc = 2 then
               (if f.part = 0 then (sum (immRow f + a.1) (immCol f + j)).1
                else if f.part = 1 then e % 2 ^ 64 else e / 2 ^ 64)
             else e
           let at_ := d.stamp (immRow f + a.1) (immCol f + j)
           if f.acc = 0 then (v.fibre a.2).reg (n.toNat + j) = ⟨BitVec.ofNat 32 w, at_⟩
           else (v.fibre a.2).reg (n.toNat + 2 * j) = ⟨BitVec.ofNat 32 w, at_⟩
             ∧ (v.fibre a.2).reg (n.toNat + 2 * j + 1) = ⟨BitVec.ofNat 32 (w / 2 ^ 32), at_⟩)
     ∧ (i = .twr f → (h.lanes.map fun a => a.1).Nodup → immCol f + immN f ≤ 64 →
         ∃ v, exec (.tileRetire o) s = .next v ∧ ends v ∧ still v
           ∧ (∀ a ∈ h.lanes, ∀ j r c, spot a j r c →
               let lo := (opReg opnds (opKey a.1 (if f.acc = 0 then j else 2 * j))).val.toNat
               let hi := (opReg opnds (opKey a.1 (2 * j + 1))).val.toNat
               let w := if f.acc = 0 then lo else lo + hi * 2 ^ 32
               let e := d.elem r c
               (run v t).elem r c = (if f.acc = 2 ∧ f.part = 1 then w + e / 2 ^ 64 * 2 ^ 64
                 else if f.acc = 2 ∧ f.part = 2 then e % 2 ^ 64 + w * 2 ^ 64 else w) % 2 ^ 128)
           ∧ ∀ r c, c < 64 → (∀ a ∈ h.lanes, ∀ j, ¬ spot a j r c) →
               (run v t).elem r c = d.elem r c ∧ (run v t).stamp r c = d.stamp r c)
     ∧ (i = .tscl f → (run s (f.imm.toNat / 32 % 32)).ue = [] →
         let lo := (opReg opnds (sclKey 0)).val.toNat
         let by_ := decodeF (accFmt f.acc) (if f.acc = 0 then lo else lo + (opReg opnds (sclKey 1)).val.toNat * 2 ^ 32)
         ∃ v, exec (.tileRetire o) s = .next v ∧ ends v ∧ still v ∧ ∀ r c, r < 64 → c < 64 →
           let xs := accTerms f.acc ((run s (f.imm.toNat / 32 % 32)).elem r c)
           (run v t).elem r c = (if f.acc = 2 then sumAcc 2 .rne xs (xs.map fun _ => by_) []
             else mulV (accFmt f.acc) f.rm (xs.headD (.zero false)) by_).1 % 2 ^ 128))

/-! ### The vocabulary projection (R211 to R226) -/

/-- R191, R214 to R216, R220 to R225: a projection instruction with one active fibre (else 0x100) and a good parameter block (else 0x106) whose arrays can be
reached starts, once no earlier one of the core works on its records or writes its target words: it holds its records, its hidden rows and the places
where it is to write, and counts in `tl`. Registers and memory stay as they were.

R216 to R219, R222, R223, R225: the work of the projection. A chunk of VPROJ offers the logits of up to 64 columns to every row's record. At its
retirement VPROJ writes its records, without PART; VMERGE those that the merge of R223 gives; VRSET empty ones; VPROJB writes the
gradients of its columns to its tile. No other byte of memory changes, and registers stay. -/
def Obligations.Projections : Prop :=
  (∀ (f : EngF) (s : State) (c : IssueCtx) (sl : Slot) (a : Nat × Nat), Issues s c sl →
     let x := s.ctx c sl f.g
     let n := sl.block (specNum f.b)
     let p := vparam n
     let m := (sl.reg (specNum f.b)).val.toNat
     let da := x.pair (x.first s) f.a
     let starts (i : Instr) (chunk : Nat) (holds : ProjData → Prop) : Prop :=
       ∃ t h d, exec i s = .next t ∧ aget? t.ops s.uid = some ⟨h, .proj i a.2 a.1 d chunk []⟩ ∧ holds d
         ∧ h.g = c.g ∧ h.team = sl.team ∧ h.ctr = .tl ∧ h.know = ((s.fibre a.2).vp.know) ∧ SameBytes s t
         ∧ aget? t.slots c.g = some { sl with
             tl := sl.tl + 1, pc := c.thenPc.getD x.next, arrive := if c.thenPc.isSome then .resumption else .flow }
         ∧ ∀ q r, (t.fibre q).reg r = (s.fibre q).reg r
     let trapped (k : Nat) : State := s.raise c.g (x.trap k .precise x.lanesOf x.lanesOf) none
     let tileFree : Prop := s.tileBusy sl.team (coreOf c.g) [(p.dt, 1)] = false
     (2 ≤ x.act.length → ∀ i ∈ [Instr.vproj f, .vprojb f, .vmerge f, .vrset f], (i = .vprojb f → tileFree) →
       exec i s = .next (trapped 0x100))
     ∧ (x.act = [a] →
       (specNum f.b % 16 ≠ 0 ∨ vparamBad f.ty true n = true → exec (.vproj f) s = .next (trapped 0x106))
       ∧ (specNum f.b % 16 ≠ 0 ∨ vparamBad f.ty false n = true → tileFree → exec (.vprojb f) s = .next (trapped 0x106))
       ∧ (∀ locs hid hst u, specNum f.b % 16 = 0 → vparamBad f.ty true n = false → p.mrows * p.k ≤ Config.heapEntries ∨ p.spok = true →
           p.hoff + p.mrows * p.hpitch ≤ x.l.scratch * 4096 → s.recordLocs (x.who s) .store p.raddr p.k p.mrows = .ok locs →
           s.hiddenCause x f.ty p = none → s.readHidden x a f.ty p = some (hid, hst, u) →
           (∀ tgt, p.init = true → c.rstep = none →
             (if p.taddr = 0 then tgt = [] else s.piecesOf (x.who s) .load p.taddr 16 p.mrows = .ok tgt) →
             s.projBusy (coreOf c.g) (tgt :: locs) = false →
             starts (.vproj f) 0 fun d =>
               d.param = n ∧ d.rows = p.mrows ∧ d.dst = locs ∧ d.tgt = tgt ∧ d.hidden = hid ∧ d.recs = [])
           ∧ (∀ recs sts src v, p.init = false ∨ c.rstep ≠ none → s.projBusy (coreOf c.g) ([] :: locs) = false → s.recordCause locs = none → u.readRows x.l.part (u.vpReader x a) locs = .rows locs recs sts src v →
             vprojOk p (rmCode f.rm).toNat recs = true →
             starts (.vproj f) ((VRec.decode (recs.headD 0)).vcount / 64) fun d =>
               d.param = n ∧ d.rows = p.mrows ∧ d.dst = locs ∧ d.tgt = [] ∧ d.hidden = hid ∧ d.recs = recs))
       ∧ (∀ locs recs sts src u hid hst v, specNum f.b % 16 = 0 → vparamBad f.ty false n = false → p.dt < x.l.tiles →
           p.hoff + p.mrows * p.hpitch ≤ x.l.scratch * 4096 →
           s.readArray (x.who s) .load (s.vpReader x a) p.raddr p.mrows = .rows locs recs sts src u →
           tileFree →
           (∀ r ∈ recs, recConsistent r = true ∧ (VRec.decode r).part = false) → s.hiddenCause x f.ty p = none → u.readHidden x a f.ty p = some (hid, hst, v) →
           starts (.vprojb f) 0 fun d => d.param = n ∧ d.rows = p.mrows ∧ d.src = locs ∧ d.recs = recs ∧ d.hidden = hid)
       ∧ (∀ dl ds dst src1 u ql qs qst src2 v, firstSome (s.arrayAlign (x.who s)) [da, x.pair (x.first s) f.b] = none →
           s.readArray (x.who s) .atomic (s.vpReader x a) da (f.imm.toNat % 128) = .rows dl ds dst src1 u →
           u.readArray (x.who s) .load (s.vpReader x a) (x.pair (x.first s) f.b) (f.imm.toNat % 128) = .rows ql qs qst src2 v →
           vmergeOk ds qs dl ql = true →
           starts (.vmerge f) 0 fun d => d.rows = f.imm.toNat % 128 ∧ d.dst = dl ∧ d.recs = ds ∧ d.src = ql ∧ d.srcs = qs)
       ∧ (canonical da = true → s.badRegion (x.who s) false da.toNat = false → da.toNat % 64 ≠ 0 → exec (.vmerge f) s = .next (s.raise c.g
           { x.trap 0x042 .precise x.lanesOf x.lanesOf with addr := da } none))
       ∧ (∀ locs tgt, m / 2 ^ 16 = 0 → 1 ≤ bitsN m 6 7 → bitsN m 6 7 ≤ 64 → bitsN m 13 3 ≤ 3 → da.toNat % 64 = 0 → regionOf da.toNat = 0 →
           s.recordLocs (x.who s) .store da (m % 64 + 1) (bitsN m 6 7) = .ok locs → s.projBusy (coreOf c.g) (tgt :: locs) = false →
           (if f.c = .zero then tgt = [] else (x.pair (x.first s) f.c).toNat % 16 = 0 ∧ regionOf (x.pair (x.first s) f.c).toNat = 0
             ∧ s.piecesOf (x.who s) .load (x.pair (x.first s) f.c) 16 (bitsN m 6 7) = .ok tgt) →
           starts (.vrset f) 0 fun d => d.param = m ∧ d.rows = bitsN m 6 7 ∧ d.dst = locs ∧ d.tgt = tgt)))
  ∧ (∀ (o : Nat) (s : State) (h : OpHead) (i : Instr) (f : EngF) (fid lane j : Nat) (d : ProjData),
     aget? s.ops o = some ⟨h, .proj i fid lane d j []⟩ → s.engineOn h = true →
     let p := vparam d.param
     let granules : List ELoc := d.dst.flatMap id
     let near : Prop := d.out = none ∧ d.bad = [] ∧ s.engineHeld h .vp (recLocs d.dst) = false ∧ s.ue = [] ∧ d.dst.length ≤ d.rows ∧ (granules.map ELoc.loc).Nodup ∧ ∀ e : ELoc, e ∈ granules → e.loc % 32 = 0 ∧ isRemote e.loc = false
       ∧ e.swm = false ∧ s.egressPort h.part e.loc = none ∧ s.homeCause false e.loc 1 = none
     let still (t : State) : Prop := ∀ q r, (t.fibre q).reg r = (s.fibre q).reg r
     let written (t : State) (recs : List Nat) : Prop :=
       aget? t.ops o = none ∧ still t ∧ SameTeams s t
       ∧ (∀ (r k : Nat) (row : List ELoc) (e : ELoc) (n : Nat), d.dst[r]? = some row → row[k]? = some e → recs[r]? = some n →
           ∀ b, b < 32 → t.byteAt (e.loc + b) = BitVec.ofNat 8 (n / 256 ^ (32 * k + b)))
       ∧ ∀ a, (∀ e : ELoc, e ∈ granules → a < e.loc ∨ e.loc + 32 ≤ a) → t.byteAt a = s.byteAt a
     (∀ cols src u, i = .vproj f → d.recs ≠ [] → 64 * j < p.vn → p.mrows * p.k ≤ Config.heapEntries → s.projBlocked o h i fid d j = false →
       s.readW o h f.ty p fid lane (64 * j) (min (64 * j + 64) p.vn) = .cols cols src u →
       ∃ t e, exec (.vprojChunk o) s = .next t ∧ aget? t.ops o = some ⟨h, .proj (.vproj f) fid lane e (j + 1) []⟩
         ∧ SameBytes s t ∧ still t ∧ e.dst = d.dst ∧ e.hidden = d.hidden
         ∧ e.recs = (d.hidden.zip d.recs).map fun r =>
             (({ VRec.decode r.2 with part := false, spill := false : VRec }).chunk
               ((logits f.rm (hidRow f.ty p.ksteps r.1) cols).map fun z => (p.vbase + z.1, z.2)) (min (64 * j + 64) p.vn)).encode)
     ∧ (i = .vproj f → p.vn ≤ 64 * j → near → ∃ t, exec (.tileRetire o) s = .next t
         ∧ written t (d.recs.map fun n => { VRec.decode n with part := false : VRec }.encode))
     ∧ (i = .vmerge f → near → d.dst.length ≤ d.recSt.length → d.dst.length ≤ d.srcSt.length → ∃ t, exec (.tileRetire o) s = .next t
         ∧ written t ((d.recs.zip d.srcs).map fun r => ((VRec.decode r.1).merge (VRec.decode r.2)).encode))
     ∧ (∀ tr u, i = .vrset f → near → s.readTargets o h fid lane d.rows d.tgt = some (tr, u) → tr.bad = [] →
         u.engineHeld h .vp (recLocs d.dst) = false → d.dst.length ≤ tr.sts.length →
         ∃ t, exec (.tileRetire o) s = .next t
           ∧ written t (tr.words.map fun t => (VRec.empty (bitsN d.param 0 6 + 1) (bitsN d.param 13 3) t).encode))
     ∧ (∀ cols src u, i = .vprojb f → d.out = none → s.projBlocked o h i fid d j = false → (aget? s.teams h.team).isSome → p.vn ≤ 64 → s.readW o h f.ty p fid lane 0 p.vn = .cols cols src u →
         let half := (s.team h.team).halfOf h.core
         ∃ t, exec (.tileRetire o) s = .next t ∧ aget? t.ops o = none ∧ SameBytes s t ∧ still t
           ∧ (cols.length = p.vn → (∀ k < cols.length, (cols[k]?.map fun g => g.1) = some k) →
             ∀ r c hid n (e : Nat × List FV × List Stamp), d.hidden[r]? = some hid → d.recs[r]? = some n → cols[c]? = some e →
               let y := (VRec.decode n).tgts.headD (0, 0)
               let z := sumAcc 0 (rmOf (BitVec.ofNat 3 (VRec.decode n).rm)) (hidRow f.ty p.ksteps hid) e.2.1 []
               ((t.team h.team).run half 0 p.dt).elem r c = (gradOf f.rm (VRec.decode n) z.1 (p.vbase + c == y.1)).1 % 2 ^ 128)))

/-! ### Copies, collectives and appends (R227 to R234, R311 to R325) -/

/-- R227, R228, R232, R233: a copy instruction with one active fibre (else 0x100) and good operands appends an entry with the next sequence number of
its team once the cluster's chain store has room, writes the number, timeless, to its destination, and counts in `cp`. A count of 0
or above 2^24 raises 0x10A.

R228, R229, R231, R233, R234: an entry whose turn it is and that no earlier one of its chain holds back. XCOPY and XFILL within one line write exactly
their destination, `.push` and `.pop` of one entry move it between memory and chute, XCONV writes its elements converted; the granules
take the stamps of what supplied their bytes. A longer entry is carried on by whole lines, as many as the engine freely takes. Then, or
when nothing is left to move, it completes: DONE takes its number and it leaves `cp`. An entry with a cause adds 1 to the errors, and
the cause waits late.

R113, R132, R134, R234: the elements and the exponent or scale word of a block that XCONV makes of 32 values. -/
def Obligations.Copies : Prop :=
  (∀ (f : EngF) (s : State) (c : IssueCtx) (sl : Slot) (a : Nat × Nat) (more : List (Nat × Nat)), Issues s c sl →
     let x := s.ctx c sl f.g
     let n := (x.read (x.first s) .n32 f.imm f.c).val
     let da := x.pair (x.first s) f.a
     let sa := x.pair (x.first s) f.b
     let ca := (sl.reg (specNum f.a)).val.toNat
     let cb := (sl.reg (specNum f.b)).val.toNat
     let pat := x.read (x.first s) .n32 f.imm f.b
     let seq := (s.team sl.team).issued + 1
     let trapped (k : Nat) : State := s.raise c.g (x.trap k .precise x.lanesOf x.lanesOf) none
     let appends (i : Instr) (d : CopyData) : Prop := exec i s = .next (if s.chainReady (coreOf c.g) then
         ((((s.startOp x .cp (.copy i a.2 a.1 { d with seq, cnt := n })).modTeam sl.team fun t => { t with issued := seq }).writeDst
           c.g a.2 f.d [(0, ⟨seq, 0⟩)]).advance x)
       else s)
     let all : List Instr := [.xcopy f, .xcopyPush f, .xcopyPop f, .xfill f, .xconv f]
     x.act = a :: more →
     (more ≠ [] → ∀ i ∈ all, exec i s = .next (trapped 0x100))
     ∧ (more = [] → n = 0 ∨ 2 ^ 24 < n → ∀ i ∈ all, exec i s = .next (trapped 0x10A))
     ∧ (more = [] → 1 ≤ n → n ≤ 2 ^ 24 → n % 4 = 0 → overlaps da.toNat n sa.toNat n = false → da.toNat % 4 = 0 → sa.toNat % 4 = 0 →
         appends (.xcopy f) { CopyData.zero with dst := da, src := sa })
     ∧ (more = [] → 1 ≤ n → n ≤ 2 ^ 24 → n % 8 = 0 → sa.toNat % 4 = 0 → ca < x.l.chutes →
         appends (.xcopyPush f) { CopyData.zero with dst := BitVec.ofNat 64 ca, src := sa })
     ∧ (more = [] → 1 ≤ n → n ≤ 2 ^ 24 → n % 8 = 0 → da.toNat % 4 = 0 → cb < x.l.chutes →
         appends (.xcopyPop f) { CopyData.zero with dst := da, src := BitVec.ofNat 64 cb })
     ∧ (more = [] → 1 ≤ n → n ≤ 2 ^ 24 → n % 4 = 0 → da.toNat % 4 = 0 →
         appends (.xfill f) { CopyData.zero with dst := da, pat := BitVec.ofNat 32 pat.val, patSt := pat.lo })
     ∧ (more = [] → xconvCheck f da sa n (match s.placeBytes (x.who s) .load sa 1 with | .ok pg => pg.fmt | .error _ => 0) = none →
         appends (.xconv f) { CopyData.zero with dst := da, src := sa }))
  ∧ (∀ (o : Nat) (s : State) (h : OpHead) (i : Instr) (fid lane : Nat) (d : CopyData) (tm : Team),
     aget? s.ops o = some ⟨h, .copy i fid lane d⟩ → s.engineOn h = true → aget? s.teams h.team = some tm → tm.done + 1 = d.seq →
     d.held = [] → d.ue = false →
     s.chainBlocked o h i fid d = false →
     let ends (t : State) (errs : Nat) : Prop :=
       aget? t.ops o = none ∧ (t.team h.team).done = d.seq ∧ (t.team h.team).issued = tm.issued ∧ (t.team h.team).errs = errs
       ∧ (∀ sl, aget? s.slots h.g = some sl → sl.team = h.team → h.ctr = .cp →
           ∃ w, aget? t.slots h.g = some w ∧ w.cp = sl.cp - 1 ∧ w.pc = sl.pc ∧ (d.failed = none → w.late = sl.late))
       ∧ ∀ q r, (t.fibre q).reg r = (s.fibre q).reg r
     let last (f : EngF) : Prop := i = .xcopy f ∨ i = .xcopyPush f → f.flags.getLsbD 2 = false
     let fresh : Prop := d.pos = 0 ∧ d.buf = [] ∧ d.failed = none ∧ d.waits = []
     let span (acc : Acc) (va : DWord) (n base : Nat) (tl : Bool) : Prop := ∃ ls : List ELoc, s.wordsAt h.who acc va (n / 4) = .ok ls
       ∧ ∀ (k : Nat) (e : ELoc), ls[k]? = some e → e.loc = base + 4 * k ∧ e.swm = false ∧ e.timeless = tl
     let home (base n : Nat) : Prop := s.ue = [] ∧ s.engineHeld h .cp (from_ base n) = false ∧ ∀ a, base ≤ a → a < base + n →
       isRemote a = false ∧ s.egressPort h.part a = none ∧ s.homeCause false a 1 = none
     let quiet (base n : Nat) : Prop := ∀ a, base ≤ a → a < base + n → isRemote a = false
       ∧ (∀ w ∈ s.hist, w.touches a = false ∧ ∀ g ∈ w.gBefore, g.1 ≠ a / 32) ∧ ∀ p ∈ s.pending, a ∉ p.2.1
     let wrote (t : State) (base n : Nat) (byte : Nat → Byte) : Prop :=
       (∀ k, k < n → t.byteAt (base + k) = byte k) ∧ ∀ a, a < base ∨ base + n ≤ a → t.byteAt a = s.byteAt a
     let stamped (t : State) (base n : Nat) (tl : Bool) (from_stamp : Nat → Stamp) : Prop := ∀ a,
       let mine := (from_ base n).filter fun b => b / 32 == a / 32
       let hz := s.homeHz h.core (a / 32 * 32)
       let data := olderAll hz (mine.map fun b => from_stamp (b - base))
       t.stampAt a = if mine = [] ∨ tl = true then s.stampAt a else if mine.length = 32 then data else older hz (s.stampAt a) data
     let goesOn (t : State) (n : Nat) : Prop :=
       (n = d.cnt ∨ (d.dst.toNat + n) % 128 = 0) ∧ (n = d.cnt → ends t tm.errs)
       ∧ (n < d.cnt → aget? t.ops o = some ⟨h, .copy i fid lane { d with pos := n / 4, hz := some (d.hz.getD (s.hz h.core)) }⟩)
     let begun : Prop := d.buf = [] ∧ d.failed = none ∧ d.waits = [] ∧ 4 * d.pos < d.cnt ∧ d.cnt % 4 = 0 ∧ d.dst.toNat % 4 = 0
     (∀ k a sl, d.failed = some (k, a) → aget? s.slots h.g = some sl → sl.team = h.team → sl.lanes ≠ [] →
       ∃ t w τ, exec (.copyEntryComplete o) s = .next t ∧ ends t (min 255 (tm.errs + 1)) ∧ SameBytes s t
         ∧ aget? t.slots h.g = some w ∧ w.late = sl.late ++ [(τ, none)] ∧ τ.cause = k ∧ τ.kind = .late ∧ τ.addr = a ∧ τ.lmask = [lane])
     ∧ (d.failed = none → d.moved i = true → d.waits = [] → (∀ f, last f) →
         ∃ t, exec (.copyEntryComplete o) s = .next t ∧ ends t tm.errs ∧ SameBytes s t)
     ∧ (∀ f base tl, i = .xfill f → fresh → 0 < d.cnt → d.cnt % 4 = 0 → d.dst.toNat % 128 + d.cnt ≤ 128 →
         span .store d.dst d.cnt base tl → home base d.cnt →
         ∃ t, exec (.copyEntryComplete o) s = .next t ∧ ends t tm.errs
           ∧ wrote t base d.cnt (fun k => BitVec.ofNat 8 (d.pat.toNat / 256 ^ (k % 4))) ∧ stamped t base d.cnt tl fun _ => d.patSt)
     ∧ (∀ f base from0 tl tm0, i = .xcopy f → last f → fresh → 0 < d.cnt → d.cnt % 4 = 0 → d.dst.toNat % 128 + d.cnt ≤ 128 →
         span .store d.dst d.cnt base tl → home base d.cnt → span .load d.src d.cnt from0 tm0 → quiet from0 d.cnt →
         ∃ t, exec (.copyEntryComplete o) s = .next t ∧ ends t tm.errs ∧ wrote t base d.cnt (fun k => s.byteAt (from0 + k))
           ∧ stamped t base d.cnt tl fun k => if tm0 then 0 else s.stampAt (from0 + k))
     ∧ (∀ f base tl, i = .xfill f → begun → span .store d.dst d.cnt base tl → home base d.cnt →
         ∃ t n, exec (.copyEntryComplete o) s = .next t ∧ 4 * d.pos < n ∧ n ≤ d.cnt ∧ goesOn t n
           ∧ (∀ k, 4 * d.pos ≤ k → k < n → t.byteAt (base + k) = BitVec.ofNat 8 (d.pat.toNat / 256 ^ (k % 4)))
           ∧ ∀ a, a < base + 4 * d.pos ∨ base + n ≤ a → t.byteAt a = s.byteAt a)
     ∧ (∀ f base from0 tl tm0, i = .xcopy f → last f → begun → span .store d.dst d.cnt base tl → home base d.cnt →
         span .load d.src d.cnt from0 tm0 → quiet from0 d.cnt →
         (∀ j k, j < d.cnt → k < d.cnt → (base + j) / 32 ≠ (from0 + k) / 32) →
         ∃ t n, exec (.copyEntryComplete o) s = .next t ∧ 4 * d.pos < n ∧ n ≤ d.cnt ∧ goesOn t n
           ∧ (∀ k, 4 * d.pos ≤ k → k < n → t.byteAt (base + k) = s.byteAt (from0 + k))
           ∧ ∀ a, a < base + 4 * d.pos ∨ base + n ≤ a → t.byteAt a = s.byteAt a)
     ∧ (∀ f base tl pg es m src u, i = .xconv f → fresh → s.placeBytes h.who .load d.src 1 = .ok pg → pg.fmt ≠ 0 →
         xconvCheck f d.dst d.src d.cnt pg.fmt = none → tyFmt f.ty ∈ [1, 2, 3, 4, 5, 6] →
         let z := fmtElem (tyFmt f.ty)
         let s1 : State := { s with free := s.free + 1 }
         let bs := es.flatMap fun e => e.bytes (fmtElem pg.fmt)
         let value (k : Nat) : Nat := ((es[k]?).map fun e => (cvtV (fmtOf f.ty) f.rm (e.value m pg.fmt)).1).getD 0
         let at_ (k : Nat) : Stamp := ((es[k]?).map fun e => olderAll (d.hz.getD (s.hz h.core)) (e.stamps m (fmtElem pg.fmt))).getD 0
         0 < d.cnt → d.dst.toNat % 128 + d.cnt * z ≤ 128 → span .store d.dst (d.cnt * z) base tl → home base (d.cnt * z) →
         s.dstFmtBad h.who i d.dst (d.cnt * z / 4) = false → mapE (s.convElem h.who d pg.fmt) (from_ 0 d.cnt) = .ok es →
         s1.farTurn h.part (s.engineReader o h fid lane .cp) bs = .ready →
         s1.readEngine (s.engineReader o h fid lane .cp) (if fmtElem pg.fmt = 8 then 8 else 4) bs = some (m, src, u) →
         ∃ t, exec (.copyEntryComplete o) s = .next t ∧ ends t tm.errs
           ∧ wrote t base (d.cnt * z) (fun k => BitVec.ofNat 8 (value (k / z) / 256 ^ (k % z)))
           ∧ stamped t base (d.cnt * z) tl fun k => at_ (k / z))
     ∧ (∀ f from0 tm0, i = .xcopyPush f → last f → fresh → d.cnt = 8 → (tm.chuteAt h.core d.dst.toNat).length < Config.chuteEntries →
         span .load d.src 8 from0 tm0 → quiet from0 8 →
         let st := olderAll (s.hz h.core) ((from_ from0 8).map fun a => if tm0 then 0 else s.stampAt a)
         ∃ t, exec (.copyEntryComplete o) s = .next t ∧ ends t tm.errs ∧ SameBytes s t
           ∧ ((t.team h.team).chuteAt h.core d.dst.toNat).map (fun e => (e.val, e.st)) =
               (tm.chuteAt h.core d.dst.toNat).map (fun e => (e.val, e.st)) ++ [(BitVec.ofNat 64 (s.natAt from0 8), st)])
     ∧ (∀ f base tl e rest, i = .xcopyPop f → fresh → d.cnt = 8 → tm.chuteAt h.core d.src.toNat = e :: rest → d.dst.toNat % 128 ≤ 120 →
         span .store d.dst 8 base tl → home base 8 →
         ∃ t, exec (.copyEntryComplete o) s = .next t ∧ ends t tm.errs
           ∧ ((t.team h.team).chuteAt h.core d.src.toNat).map (fun e => (e.val, e.st)) = rest.map (fun e => (e.val, e.st))
           ∧ wrote t base 8 (fun k => BitVec.ofNat 8 (e.val.toNat / 256 ^ k)) ∧ stamped t base 8 tl fun _ => e.st))
  ∧ (∀ (f : EngF) (vs : List FV), vs.length = 32 →
     (f.ty = .mx8 → convBlock f vs =
       ((quantMx f.rm vs).2.1.map fun c => BitVec.ofNat 8 c, (quantMx f.rm vs).1, (quantMx f.rm vs).2.2))
     ∧ (f.ty = .tx8 ∨ f.ty = .tx4 →
       let q := quantTx (txOf f.ty) f.rm f.flags.toNat vs
       let n := leNat (convBlock f vs).1
       (convBlock f vs).1.length = (if f.ty = .tx8 then 32 else 16)
       ∧ (∀ (j c : Nat), q.2.2.1[j]? = some c → bitsN n ((txOf f.ty).bits * j) (txOf f.ty).bits = c)
       ∧ (convBlock f vs).2.1 = q.1 + 256 * q.2.1 ∧ (convBlock f vs).2.2 = q.2.2.2))

/-- R311, R312, R314, R315, R320, R324: CGLOAD puts a good graph image into the lowest-numbered free slot and gives its number; a
header that breaks R312 raises 0x182. CGRUN starts the next run of a graph of the partition, CGSTAT gives the number of runs
done, CGFREE waits for them and frees the slot. A slot that holds no graph of the partition raises 0x183.

R321, R322: CAPPEND sends every active lane to its descriptor, counted in `st`. The home takes a lane's index from TAIL and adds 1 to it; then it copies
the row to its place and adds 1 to DONE, after what the fibre did on the same bytes on path coll before (R241). A ring that is full adds 1 to DROPS, leaves the row unwritten and the cause 0x186 for
the slot, late. -/
def Obligations.GraphsAndAppends : Prop :=
  (∀ (f : EngF) (s : State) (c : IssueCtx) (sl : Slot) (a : Nat × Nat) (k : BitVec 6), Issues s c sl →
     let x := s.ctx c sl f.g
     let slot := (x.read (x.first s) .n32 f.imm f.a).val
     let trapped (k : Nat) (va : DWord) (info : Nat) : State :=
       s.raise c.g { x.trap k .precise x.lanesOf x.lanesOf with addr := va, info := BitVec.ofNat 32 info } none
     let gives (t : State) (n : Nat) : Prop := ∃ v, aget? t.slots c.g = some v ∧ v.reg k.toNat = ⟨BitVec.ofNat 32 n, 0⟩
       ∧ v.pc = c.thenPc.getD x.next ∧ ∀ r, r ≠ k.toNat → v.reg r = sl.reg r
     x.act = [a] →
     (f.d = .scl k → (x.pair (x.first s) f.a).toNat % 64 = 0 →
       (∀ hd src u n, s.collRead x a (x.pair (x.first s) f.a) 2 = .got hd src u → headerInfo hd = some n →
         exec (.cgload f) s = .next (trapped 0x182 0 n))
       ∧ ∀ hd src u body src2 v image n, s.collRead x a (x.pair (x.first s) f.a) 2 = .got hd src u → headerInfo hd = none →
         u.collRead x a (x.pair (x.first s) f.a + 64) (bitsN hd 244 12) = .got body src2 v →
         let nodes : List (BitVec 256) := (List.range (bitsN hd 244 12)).map fun j => BitVec.ofNat 256 (body / 2 ^ (256 * j))
         let xs := nodes.map gnode
         (∀ y ∈ xs, y.bad xs.length (bitsN hd 263 9) = false) → arcsInfo xs = none →
         (v.receive a.2 .coll false (src ++ src2)).redCheck x.l.part (BitVec.ofNat 64 (bitsN hd 320 64)) (xs.any fun n => n.op == 5) = .ok image →
         s.freeGraph = some n →
         ∃ t, exec (.cgload f) s = .next t ∧ gives t n ∧ SameBytes s t ∧ aget? t.graphs n = some
           { part := x.l.part, header := BitVec.ofNat 512 hd, nodes, redImage := image, issued := 0, done := 0, carry := [] })
     ∧ (s.graphAt x.l.part slot = none → ∀ i ∈ [Instr.cgrun f, .cgstat f, .cgfree f], exec i s = .next (trapped 0x183 0 0))
     ∧ ∀ g, s.graphAt x.l.part slot = some g →
       (∀ tb src u, f.d = .scl k → (x.pair (x.first s) f.b).toNat % 64 = 0 → s.collRead x a (x.pair (x.first s) f.b) 4 = .got tb src u →
         tableCause tb = none → bitsN tb 576 448 = 0 →
         ∃ t r, exec (.cgrun f) s = .next t ∧ gives t ((g.issued + 1) % 2 ^ 32) ∧ SameBytes s t
           ∧ aget? t.graphs slot = some { g with issued := (g.issued + 1) % 2 ^ 32 } ∧ aget? t.runs s.uid = some r
           ∧ r.slot = slot ∧ r.run = (g.issued + 1) % 2 ^ 32 ∧ r.state = .waiting ∧ r.table = BitVec.ofNat 1024 tb
           ∧ r.launch = (s.team sl.team).launch ∧ r.fibre = a.2 ∧ r.part = x.l.part ∧ r.nodes = g.freshNodes)
       ∧ (f.d = .scl k → ∃ t, exec (.cgstat f) s = .next t ∧ gives t g.done ∧ SameBytes s t ∧ t.graphs = s.graphs
           ∧ ∀ q ∈ g.carry, q.1 ≤ g.done → (aget? s.fibres a.2).isSome → ∀ w ∈ q.2, w ∈ (t.fibre a.2).vec.know)
       ∧ (g.done ≠ g.issued → exec (.cgfree f) s = .next s)
       ∧ (g.done = g.issued → exec (.cgfree f) s = .next ({ s with graphs := adel s.graphs slot }.advance x)))
  ∧ ((∀ (f : EngF) (s : State) (c : IssueCtx) (sl : Slot), Issues s c sl →
     let x := s.ctx c sl f.g
     x.act ≠ [] → (∀ a ∈ x.act, (∃ pg, s.placeBytes (x.who s) .atomic (x.pair (s.fibre a.2) f.a) 32 = .ok pg ∧ isRemote pg.loc = false)
         ∧ ∃ pg, s.placeBytes (x.who s) .load (x.pair (s.fibre a.2) f.b) 1 = .ok pg) →
     ∃ t ls, exec (.cappend f) s = .next t ∧ aget? t.ops s.uid = some ⟨s.head x .st, .append ls⟩
       ∧ ls.map (fun l => (l.lane, l.fibre, l.desc, l.row, l.remote, l.begun)) =
           (x.act.map fun a => (a.1, a.2, x.pair (s.fibre a.2) f.a, x.pair (s.fibre a.2) f.b, none, none))
       ∧ aget? t.slots c.g = some { sl with
           st := sl.st + 1, pc := c.thenPc.getD x.next, arrive := if c.thenPc.isSome then .resumption else .flow }
       ∧ (∀ k fb, aget? s.fibres k = some fb → ∃ l, aget? t.fibres k = some { fb with after := l }) ∧ SameBytes s t)
   ∧ ∀ (o : Nat) (s : State) (h : OpHead) (l : AppendLane) (ls : List AppendLane) (pg : Page), aget? s.ops o = some ⟨h, .append (l :: ls)⟩ →
     l.remote = none → l.waits = [] → l.held = [] → (∀ m ∈ ls, l.lane < m.lane) → s.placeBytes h.who .atomic l.desc 32 = .ok pg → pg.swm = false →
     isRemote pg.loc = false → s.homeCause true pg.loc 32 = none → s.ue = [] →
     ∀ m, s.collEarlier o l.fibre (s.appendReaches h.who l) = some m →
     let know := union l.know m
     let d := appendDesc (s.natAt pg.loc 32)
     let word (t : State) (k n : Nat) : Prop := t.natAt (pg.loc + k) 4 = n % 2 ^ 32
     let late (sl : Slot) (t : State) (cause : Nat) : Prop :=
       (∃ v τ, aget? t.slots h.g = some v ∧ v.late = sl.late ++ [(τ, none)] ∧ τ.cause = cause ∧ τ.kind = .late ∧ τ.lmask = [l.lane] ∧ τ.addr = l.desc)
       ∧ (ls = [] → aget? t.ops o = none) ∧ (ls ≠ [] → aget? t.ops o = some ⟨h, .append ls⟩)
     (l.begun = none → s.heldBack (from_ pg.loc 4) know [] l.after = false → ∃ t, exec (.appendApply o l.lane) s = .next t ∧ word t 0 (d.tail + 1)
       ∧ (∀ a, a < pg.loc ∨ pg.loc + 4 ≤ a → t.byteAt a = s.byteAt a) ∧ SameFibres s t ∧ t.slots = s.slots
       ∧ aget? t.ops o = some ⟨h, .append ({ l with begun := some d.tail, know } :: ls)⟩)
     ∧ (∀ idx sl, l.begun = some idx → aget? s.slots h.g = some sl → sl.team = h.team → sl.lanes ≠ [] →
       s.heldBack (from_ pg.loc 16) (union know l.carry) [0] l.after = false →
       (d.broken = true → ∃ t, exec (.appendApply o l.lane) s = .next t ∧ word t 4 (d.done + 1) ∧ late sl t 0x185
         ∧ ∀ a, a < pg.loc + 4 ∨ pg.loc + 8 ≤ a → t.byteAt a = s.byteAt a)
       ∧ (d.broken = false → d.cap ≤ idx → ∃ t, exec (.appendApply o l.lane) s = .next t ∧ word t 4 (d.done + 1) ∧ word t 12 (d.drops + 1)
         ∧ late sl t 0x186 ∧ ∀ a, a < pg.loc + 4 ∨ (pg.loc + 8 ≤ a ∧ a < pg.loc + 12) ∨ pg.loc + 16 ≤ a → t.byteAt a = s.byteAt a)
       ∧ (∀ base from0 sp sq, d.broken = false → idx < d.cap →
         let va := d.rows + BitVec.ofNat 64 (idx * d.rowb)
         regionOf va.toNat = 0 → s.spanLocs h.who .store va d.rowb = .ok sp → s.spanLocs h.who .load l.row d.rowb = .ok sq →
         spanBytes sp = (from_ base d.rowb).map (fun b => ⟨b, false⟩) → spanBytes sq = (from_ from0 d.rowb).map (fun b => ⟨b, false⟩) →
         s.engineHeld { h with know, after := l.after } .coll (sp.flatMap fun p => from_ p.1.loc p.2) = false →
         (∀ e ∈ sp, e.1.swm = false) → base + d.rowb ≤ pg.loc ∨ pg.loc + 32 ≤ base →
         (∀ a, base ≤ a → a < base + d.rowb → isRemote a = false ∧ s.egressPort h.part a = none ∧ s.homeCause false a 1 = none) →
         (∀ a, from0 ≤ a → a < from0 + d.rowb → isRemote a = false
           ∧ (∀ w ∈ s.hist, w.touches a = false ∧ ∀ g ∈ w.gBefore, g.1 ≠ a / 32) ∧ ∀ p ∈ s.pending, a ∉ p.2.1) →
         ∃ t, exec (.appendApply o l.lane) s = .next t ∧ word t 4 (d.done + 1) ∧ (∀ k, k < d.rowb → t.byteAt (base + k) = s.byteAt (from0 + k))
           ∧ (∀ a, (a < pg.loc + 4 ∨ pg.loc + 8 ≤ a) → (a < base ∨ base + d.rowb ≤ a) → t.byteAt a = s.byteAt a)
           ∧ (ls = [] → aget? t.ops o = none) ∧ (ls ≠ [] → aget? t.ops o = some ⟨h, .append ls⟩))))

/-! ### System instructions, launching, the groom and pre-emption (R20 to R38, R284 to R307) -/

/-- R90, R296: SRD reads each special register for its fibre, once, in the lowest active lane, for a scalar destination; the wide ones take
a pair; what it writes is timeless. SWR writes FFLAGS, FMASK, or ENABLE of `%cont`; any other register raises 0x1C0. SRD and SWR
of FFLAGS wait for operations of the slot that may still raise flags. -/
def Obligations.SpecialRegisters : Prop :=
  ∀ (f : CtrlF) (s : State) (c : IssueCtx) (sl : Slot), Issues s c sl →
    let x := s.ctx c sl f.g
    let n := f.imm.toNat % 64
    let core := c.g / 256
    let pt := s.part x.l.part
    let dies := bitList 8 pt.dies.toNat
    let value (k : Nat) : Nat :=
      let fb := s.fibre k
      ([fb.lane, fb.w * x.l.width + fb.lane, x.l.nweave * x.l.width, fb.w, x.l.nweave, x.l.width, sl.role, (s.team sl.team).index.toNat,
        x.l.nteam, (dies.filter fun d => decide (d < core / 16)).length, dies.length, x.l.id, core, core / 4, x.h.toNat, pt.k,
        sl.fflags.toNat, sl.fmask.toNat, sl.frame.toNat, sl.cont.toNat][n]?).getD x.l.seq
    let regs (k r : Nat) (old : Reg) (d : Nat) : Reg :=
      if r = d then ⟨BitVec.ofNat 32 (value k), 0⟩
      else if r = d + 1 ∧ n ∈ [11, 18, 19, 20] then ⟨BitVec.ofNat 32 (value k / 2 ^ 32), 0⟩ else old
    let ready : Prop := n ≠ 16 ∨ ∀ o ∈ s.ops, o.2.head.g = c.g → o.2.head.team = sl.team →
      (∀ i t a b r st hd w, o.2.body = .tile i t a b r st hd w → ∀ e, i ≠ .trd e) ∧ (∀ i r m, o.2.body = .load i r m → ∀ e, i ≠ .lde e)
      ∧ ∀ i ls m, o.2.body = .atomic i ls m → ∀ e k, atomOf i = some (e, k) → e.ty ∉ tysFloat
    let v (t : Ty) : Nat := (x.read (x.first s) t 0 f.a).val
    let to_ (u : Slot) : State := (s.setSlot c.g u).advance x
    x.act ≠ [] →
    (ready → ∃ t w, exec (.srd f) s = .next t ∧ SameBytes s t ∧ aget? t.slots c.g = some w ∧ w.pc = c.thenPc.getD x.next
      ∧ (∀ d, f.d = .scl d → (∀ r, w.reg r = regs (x.act.headD (0, 0)).2 r (sl.reg r) d.toNat) ∧ t.fibres = s.fibres)
      ∧ (∀ d, f.d = .vec d → w.sregs = sl.sregs ∧ (∀ a ∈ x.act, (aget? s.fibres a.2).isSome →
          ∀ r, (t.fibre a.2).reg r = regs a.2 r ((s.fibre a.2).reg r) d.toNat)
          ∧ ∀ k, (∀ a ∈ x.act, a.2 ≠ k) → t.fibre k = s.fibre k))
    ∧ (¬ ready → exec (.srd f) s = .next s ∧ exec (.swr f) s = .next s)
    ∧ (n = 16 → ready → exec (.swr f) s = .next (to_ { sl with fflags := BitVec.ofNat 5 (v .b32) }))
    ∧ (n = 17 → exec (.swr f) s = .next (to_ { sl with fmask := BitVec.ofNat 5 (v .b32) }))
    ∧ (n = 19 → ∃ u, exec (.swr f) s = .next (to_ { sl with cont := u })
        ∧ ∀ j, j < 64 → u.getLsbD j = if j = 0 then decide (v .b64 % 2 = 1) else sl.cont.getLsbD j)
    ∧ (n ≠ 16 → n ≠ 17 → n ≠ 19 → exec (.swr f) s = .next (s.raise c.g (x.trap 0x1C0 .precise x.lanesOf x.lanesOf) none))

/-- R297, R298: PROG sets the team's progress to the low byte of its operand. KCALL with a known service over a range of the
owner's pages makes the slot wait at its next PC, else raises 0x1C1; its end writes what the service counted and the slot goes on.
A query counts the pages of the range that are present. -/
def Obligations.ProgressAndServices : Prop :=
  (∀ (f : CtrlF) (s : State) (c : IssueCtx) (sl : Slot) (tm : Team), Issues s c sl → aget? s.teams sl.team = some tm →
    let x := s.ctx c sl f.g
    let base := x.pair (x.first s) f.a
    let len := (x.read (x.first s) .n32 0 f.b).val
    x.act ≠ [] →
    (tm.progAt ≤ s.clock → ∃ t, exec (.prog f) s = .next t ∧ (t.team sl.team).prog = (x.read (x.first s) .n32 f.imm f.a).val % 256
      ∧ aget? t.slots c.g = some { sl with
          pc := c.thenPc.getD x.next, arrive := if c.thenPc.isSome then .resumption else .flow }
      ∧ SameBytes s t ∧ t.fibres = s.fibres)
    ∧ ∀ (i : Instr) (svc : Nat), (i, svc) ∈ [(Instr.kcallPageIn f, 0), (.kcallPageOut f, 1), (.kcallQuery f, f.imm.toNat % 256)] →
      (2 < svc ∨ s.rangeOk x.l.part base len = false → exec i s =
        .next (s.raise c.g { x.trap 0x1C1 .precise x.lanesOf x.lanesOf with info := BitVec.ofNat 32 svc } none))
      ∧ (svc ≤ 2 → s.rangeOk x.l.part base len = true → ∃ t, exec i s = .next t
          ∧ aget? t.ops s.uid = some ⟨s.head x .none, .kcall svc base len f.d 0⟩
          ∧ aget? t.slots c.g = some { sl with
              pc := c.thenPc.getD x.next, arrive := if c.thenPc.isSome then .resumption else .flow, wait := .kcall s.uid }
          ∧ (t.team sl.team).published = true
          ∧ SameBytes s t ∧ t.fibres = s.fibres))
  ∧ ∀ (o svc len : Nat) (ok : Bool) (s : State) (h : OpHead) (base : DWord) (d : BitVec 6) (sl : Slot) (z : Nat),
    aget? s.ops o = some ⟨h, .kcall svc base len (.scl d) z⟩ → aget? s.slots h.g = some sl → sl.team = h.team →
    let present (va : Nat) : Bool := match s.pageEntry h.part va with
      | some (_, level, e) => level != 4 && e % 2 == 1
      | none => false
    let goesOn (t : State) (n : Nat) : Prop := aget? t.ops o = none ∧ ∃ v, aget? t.slots h.g = some v ∧ v.wait = .none ∧ v.pc = sl.pc
      ∧ ∀ r, v.reg r = if r = d.toNat then ⟨BitVec.ofNat 32 n, 0⟩ else sl.reg r
    let pages := (List.range (len / 65536)).map fun k => base.toNat + 65536 * k
    (svc = 2 → ∃ t, exec (.kcallDone o ok) s = .next t ∧ goesOn t (pages.filter present).length ∧ SameBytes s t ∧ t.ptes = s.ptes)
    ∧ (svc = 0 → (∀ va ∈ pages, present va = true) → sl.contPark = none → sl.wait = .kcall o →
        ∃ t, exec (.kcallDone o ok) s = .next t ∧ goesOn t 0 ∧ SameBytes s t ∧ t.ptes = s.ptes)
    ∧ (svc = 1 → (∀ va ∈ pages, present va = false) → ∃ t, exec (.kcallDone o ok) s = .next t ∧ goesOn t 0 ∧ SameBytes s t ∧ t.ptes = s.ptes)

/-- R26 to R31: the queue unit. It observes a write of the tail word that it has not observed: a value below the old one, or above 48 bits,
halts the queue with HERR 1; a value within the ring makes its block a queued launch; one beyond the ring makes launches of the blocks up to its end
and halts the queue with HERR 2; a block that cannot be read halts it with HERR 3. The launch at the head of a queue, once the one before it has
no team left to place and its prerequisites are complete, is claimed if its image and block are good, and the queue's ticket
starts at 0.

R20, R22, R23, R26, R35, R37, R38, R304, R306, R346: a retiring team with nothing in flight ends, and gives back its fibres, slots and banks. A launch
whose teams have all ended completes: its state is complete, with status 0 or 1 by its errors, its error record holds STATUS and, once it has had an
error, the fields of the first one and the counts, its completion word stands at COMPA, and CSEQ passes every launch that is complete. A
completion word that meets a cause is dropped and counted in WFAIL (once: log 75). While a write of it to another device has no answer, or a
write hb the completion word has not reached its expander, it waits. The watchdog ends every claimed launch of its queue whose completion word is
not written with status 3 and halts the queue with HERR 4; a launch that has not ended within 2^20 clocks after that resets its partition: its
launches end with status 5, its queues halt with HERR 5, its slots are free, and the host gets the partition's interrupt. -/
def Obligations.LaunchesFromQueueToEnd : Prop :=
  (∀ (q : Nat) (s : State), (s.queue q).enable = true → (s.queue q).halt = false →
     (∀ (loc : Nat) (ws : List WEv) (w : WEv) (block : List Byte), (s.queue q).granted = true → s.tailWrites (s.queue q) = some (loc, ws) →
       (s.queue q).reread = false → (s.queue q).tailAt = loc + 1 → ((s.queue q).splitSeen ws).2 = [w] →
       let x := s.queue q
       let v := (s.tailAfter loc ((x.splitSeen ws).1 ++ [w])).1
       (2 ^ 48 ≤ v ∨ v < x.tail → ∃ t, exec (.tailWrite q) s = .next t ∧ (t.queue q).halt = true ∧ (t.queue q).herr = 1
         ∧ (t.queue q).tailSeen = some w.id ∧ t.launches = s.launches)
       ∧ (v < 2 ^ 48 → x.tail ≤ v → v ≤ x.cseq + 2 ^ x.logn → v = x.read + 1 →
         s.devRead x.part .load (x.ringa + BitVec.ofNat 64 (128 * (x.read % 2 ^ x.logn))) 128 = .ok block →
         ∃ t l, exec (.tailWrite q) s = .next t ∧ (t.queue q).tail = v ∧ (t.queue q).read = v ∧ (t.queue q).halt = false
           ∧ (t.queue q).tailSeen = some w.id ∧ aget? t.launches s.uid = some l ∧ l.queue = q ∧ l.seq = v ∧ l.part = x.part ∧ l.state = .queued
           ∧ l.block = BitVec.ofNat 1024 (leNat block) ∧ ∀ k, k ≠ s.uid → aget? t.launches k = aget? s.launches k)
       ∧ (let top := x.cseq + 2 ^ x.logn
          let slot (n : Nat) := s.devRead x.part .load (x.ringa + BitVec.ofNat 64 (128 * ((n - 1) % 2 ^ x.logn))) 128
          v < 2 ^ 48 → x.tail ≤ v →
          (∀ m, x.read < min v top → slot (x.read + 1) = .error m → ∃ t, exec (.tailWrite q) s = .next t ∧ (t.queue q).halt = true
            ∧ (t.queue q).herr = 3 ∧ (t.queue q).read = x.read ∧ (t.queue q).tail = v ∧ t.launches = s.launches)
          ∧ (top < v → x.read ≤ top → (∀ n, x.read < n → n ≤ top → ∃ b, slot n = .ok b) → ∃ t, exec (.tailWrite q) s = .next t
            ∧ (t.queue q).halt = true ∧ (t.queue q).herr = 2 ∧ (t.queue q).read = top ∧ (t.queue q).tail = v
            ∧ (∀ n b, x.read < n → n ≤ top → slot n = .ok b → ∃ k l, aget? t.launches k = some l ∧ l.queue = q ∧ l.seq = n
                ∧ l.state = .queued ∧ l.block = BitVec.ofNat 1024 (leNat b))
            ∧ ∀ k l, aget? t.launches k = some l → aget? s.launches k = some l ∨ (l.queue = q ∧ l.state = .queued ∧ l.seq ≤ top))))
     ∧ ∀ (lid : Nat) (l m : Launch), s.headLaunch q = some (lid, l) → s.prevClaimed l = true →
       s.preqReason l = none →
       (s.preqsMet l = false → exec (.launchStart q) s = .next s)
       ∧ (s.preqsMet l = true → s.validate lid = .ok m → ∃ t u, exec (.launchStart q) s = .next t
           ∧ aget? t.launches lid = some u ∧ u.state = .claiming ∧ u.image = m.image ∧ u.block = m.block ∧ (t.queue q).ticket = 0
           ∧ (∀ k, k ≠ lid → aget? t.launches k = aget? s.launches k) ∧ SameBytes s t))
  ∧ ((∀ (k : Nat) (s : State) (tm : Team), aget? s.teams k = some tm → tm.state = .retiring →
     (∀ o ∈ s.ops, o.2.head.team ≠ k) → ∃ t u, exec (.teamEnd k) s = .next t ∧ aget? t.teams k = some u ∧ u.state = .ended
       ∧ u.units = [] ∧ u.chuteBanks = [] ∧ u.tiles = [] ∧ u.chutes = []
       ∧ (∀ g v, aget? t.slots g = some v → v.team ≠ k) ∧ (∀ g v, aget? t.fibres g = some v → v.team ≠ k) ∧ SameBytes s t)
   ∧ (∀ (lid : Nat) (s : State) (l : Launch), aget? s.launches lid = some l → l.state = .claiming → l.ending = none → l.parent = none →
       (let ts := s.teams.filter fun t => s.root t.2.launch == lid
        l.nteam ≤ (ts.filter fun t => t.2.node.isNone).length ∧ ∀ t ∈ ts, t.2.state = .ended) →
       (∀ o ∈ s.ops, s.root o.2.head.launch ≠ lid) → (∀ r ∈ s.runs, s.root r.2.launch = lid → r.2.state = .complete) →
       s.endWaits l = none → l.erra.toNat % 64 = 0 → l.compa.toNat % 8 = 0 →
       regionOf (ownVa l.erra).toNat ≠ 1 → regionOf (ownVa l.compa).toNat ≠ 1 → l.stage = 0 → l.waits = [] →
       (∀ w ∈ s.pending, w.2.1.any isCxl = false) →
       let record := s.devLocs l.part .store (ownVa l.erra) 64
       let word := s.devLocs l.part .store (ownVa l.compa) 8
       ∃ t u, exec (.launchComplete lid) s = .next t ∧ aget? t.launches lid = some u ∧ u.state = .complete
         ∧ u.status = (if l.errcnt = 0 then 0 else 1)
         ∧ (l.seq = (s.queue l.queue).cseq + 1 → l.seq ≤ (t.queue l.queue).cseq)
         ∧ (∀ loc ls, s.ue = [] → word = .ok ls → ls.map (fun x => x.1) = from_ loc 8 → l.seq < 2 ^ 48 →
             t.natAt loc 8 = u.status * 2 ^ 56 + l.seq)
         ∧ (∀ loc ls ws, s.ue = [] → (s.part l.part).wlogOn = false → record = .ok ls → ls.map (fun x => x.1) = from_ loc 64 → word = .ok ws →
             (∀ w ∈ ws, w.1 < loc ∨ loc + 64 ≤ w.1) →
             t.natAt loc 2 = u.status
             ∧ (l.recDue = [] → ∀ a, loc + 2 ≤ a → a < loc + 64 → t.byteAt a = s.byteAt a)
             ∧ (0 ∈ l.recDue → l.errcnt < 2 ^ 32 → l.late < 2 ^ 32 → l.firstRole < 4 → l.firstCore < 128 → (∀ f, l.first = some f → f.cause < 2 ^ 9) →
                 RecordOf l (t.natAt loc 64)))
         ∧ ∀ m ls, s.ue = [] → l.recDue = [] → record = .ok ls → word = .error m →
             (t.queue l.queue).wfail = min 255 ((s.queue l.queue).wfail + 1))
   ∧ (∀ (lid : Nat) (s : State) (l : Launch), aget? s.launches lid = some l → l.stage ≠ 0 → l.waits ≠ [] ∨ (l.stage = 1 ∧ s.wordHeld l = true) →
       exec (.launchComplete lid) s = .next s)
   ∧ (∀ (q : Nat) (s : State), s.watchdogDue q = true → ∃ t, exec (.watchdogFire q) s = .next t
       ∧ (t.queue q).halt = true ∧ (t.queue q).herr = 4 ∧ (t.queue q).wdSince = none
       ∧ ∀ lid l, aget? s.launches lid = some l → l.queue = q → l.state = .claiming → (∀ m, (lid, m) ∈ s.launches → m = l) →
           (l.stage ≠ 2 → (∀ e, l.ending = some e → e.1 ≠ 3) →
             ∃ u, aget? t.launches lid = some u ∧ u.ending = some (3, 0, s.clock) ∧ u.stage = 0)
           ∧ (l.stage = 2 → ∃ u, aget? t.launches lid = some u ∧ u.ending = l.ending))
   ∧ (∀ (q : Nat) (s : State), (s.endingLate q = false → exec (.terminationTimeout q) s = .next s)
       ∧ (s.endingLate q = true → (aget? s.parts (s.queue q).part).isSome →
           exec (.terminationTimeout q) s = exec (.partitionReset (s.queue q).part) s))
   ∧ ∀ (q lid why since : Nat) (s : State) (l : Launch), aget? s.launches lid = some l → l.queue = q → l.state = .claiming →
       l.ending = some (3, why, since) → since + 2 ^ 20 ≤ s.clock →
       ∃ t, exec (.terminationTimeout q) s = .next t ∧ PartReset (s.queue q).part s t)

/-- R21, R32 to R36, R63: a processor places a team of the first launch in order that a core fits, but of none behind one that has found no
core for 2^20 clocks: the team takes the queue's next
ticket, its fibres start with zero registers, its slots at their roles' entries. Draws are served in ascending die order, and one that finds the
counter at NTEAM claims nothing. The teams of a coresident launch start together, in the clock after the last was placed. A first launch
without a core is noted. -/
def Obligations.TeamsArePlaced : Prop :=
  (∀ (die p lid core : Nat) (s : State) (l : Launch) (pre rest : List (Nat × Launch)) (a : Alloc), s.partOfDie die = some p →
    (s.part p).suspended = false → (s.die die).drew ≠ s.clock + 1 → s.claimOrder die (s.claimers p) = pre ++ (lid, l) :: rest →
    aget? s.launches lid = some l → (∀ m, (lid, m) ∉ pre ∧ (lid, m) ∉ rest) →
    (∀ x ∈ pre, s.findCore x.2 die = none ∧ s.starved die x.2 = false) →
    let free : Prop := s.turnPassed die = false ∧ s.restoreFirst die (s.prioOf l) = false ∧ s.reduceWaits p die = false
    (s.turnPassed die = true → exec (.placeTeam die) s = .next s)
    ∧ (s.findCore l die = some (core, a) → free → l.nteam ≤ (s.queue l.queue).ticket → ∃ t, exec (.placeTeam die) s = .next t
        ∧ (t.die die).drew = s.clock + 1 ∧ t.queues = s.queues ∧ t.teams = s.teams ∧ t.slots = s.slots ∧ SameBytes s t)
    ∧ (s.findCore l die = some (core, a) → free → (s.queue l.queue).ticket < l.nteam →
      ∃ t tm, exec (.placeTeam die) s = .next t ∧ aget? t.teams s.uid = some tm ∧ tm.launch = lid ∧ tm.core = core
        ∧ tm.index = BitVec.ofNat 32 (s.queue l.queue).ticket ∧ tm.units = a.units ∧ tm.chuteBanks = a.chuteBanks
        ∧ (tm.state = .held ∨ tm.state = .running) ∧ (l.coresident = true → tm.state = .held)
        ∧ (t.queue l.queue).ticket = (s.queue l.queue).ticket + 1 ∧ (t.die die).drew = s.clock + 1
        ∧ (t.die die).rotation = (l.queue + 1) % 64 ∧ (t.die die).robin = (core % 16 + l.halves.length) % 16
        ∧ (∀ w ∈ a.wins, ∃ f, aget? t.fibres (fibreKey s.uid w.1 w.2.1) = some f ∧ f.team = s.uid ∧ f.alive = true
            ∧ f.size = l.allot f.role ∧ (∀ r, f.reg r = Reg.zero) ∧ f.preds = 0x8000)
        ∧ (∀ g v, aget? t.slots g = some v → aget? s.slots g = none → v.team = s.uid ∧ v.lanes.length = l.width
            ∧ v.pc = l.pcAt (l.entry v.role / 8 : Nat) (l.entry v.role % 8) ∧ v.wait = .none
            ∧ (∀ k, k < 8 → v.reg k = ⟨l.arg k, 0⟩) ∧ v.reg 8 = ⟨BitVec.ofNat 32 l.argp, 0⟩
            ∧ v.reg 9 = ⟨BitVec.ofNat 32 (l.argp / 2 ^ 32), 0⟩ ∧ ∀ k, 10 ≤ k → v.reg k = Reg.zero)
        ∧ SameBytes s t)
    ∧ (s.findCore l die = none → s.starved die l = true → ∃ t, exec (.placeTeam die) s = .next t ∧ t.queues = s.queues
        ∧ t.teams = s.teams ∧ t.slots = s.slots ∧ SameBytes s t)
    ∧ (pre = [] → s.findCore l die = none → aget? l.starving die = none → ∃ t u, exec (.placementStarvation die) s = .next t
        ∧ aget? t.launches lid = some u ∧ aget? u.starving die = some s.clock ∧ t.teams = s.teams ∧ t.slots = s.slots))
  ∧ ∀ (lid : Nat) (s : State) (l : Launch), aget? s.launches lid = some l → l.coresident = true → l.state = .claiming → l.ending = none →
    (let ts := s.teams.filter fun t => t.2.launch == lid && t.2.node.isNone
     l.nteam ≤ ts.length ∧ ts ≠ [] ∧ ∀ t ∈ ts, t.2.state = .held ∧ t.2.placedAt < s.clock ∧ s.banksDrained t.2 = true) →
    ∃ t, exec (.coresidentStart lid) s = .next t ∧ t = { s with teams := t.teams }
      ∧ ∀ k tm, aget? s.teams k = some tm → aget? t.teams k =
          some (if tm.launch = lid ∧ tm.state = .held then { tm with state := .running } else tm)

/-- R284, R336: page-in fills a free page of the entry's tier with the image that the backing map names, bytes and stamps together, and makes the
entry present there; a slot that was parked for that page alone issues its instruction again for the lanes that missed. A service without
its storage delivers 0x1C6 to the handler. Page-out puts the page's bytes and stamps on the drive, with their digest, and leaves
an entry that only GROOM marks. -/
def Obligations.GroomMovesPages : Prop :=
  (∀ (p : Nat) (va : BitVec 64) (s : State) (at_ e : Nat) (g : Nat) (sl : Slot) (τ : TrapInfo),
    let v := va.toNat / 65536 * 65536
    s.pageWanted p v = true → regionOf v ≠ 1 → s.pageEntry p v = some (at_, 1, e) → e % 2 = 0 →
    aget? s.slots g = some sl → s.partOfTeam sl.team = p → s.observeTails.partOfTeam sl.team = p →
    sl.wait = .park ⟨τ, .pages [v]⟩ → sl.contPark = none →
    (∀ b img base, s.backedImage p v = some (b, img) → s.freePage p (bitsN b.entry.toNat 60 2) 65536 = some base →
      s.ownsFrame p 1 b.entry.toNat = false → exec (.groomPageIn p va true) s = .next (s.pageFails p v))
    ∧ (∀ b img base, s.backedImage p v = some (b, img) → img.bytes.length = 65536 → img.stamps.length = 2048 → s.ownsFrame p 1 b.entry.toNat = true →
      s.freePage p (bitsN b.entry.toNat 60 2) 65536 = some base → base % 65536 = 0 → base < 2 ^ 52 → b.entry.getLsbD 0 = false →
      ∃ t n, exec (.groomPageIn p va true) s = .next t
        ∧ aget? t.ptes at_ = some n ∧ n.getLsbD 0 = true ∧ bitsN n.toNat 8 40 = base / 4096
        ∧ (∀ k (y : Byte), img.bytes[k]? = some y → t.byteAt (base + k) = y)
        ∧ (∀ k (y : Stamp), img.stamps[k]? = some y → t.stampAt (base + 32 * k) = y)
        ∧ (∀ a, a < base ∨ base + 65536 ≤ a → t.byteAt a = s.byteAt a)
        ∧ aget? t.slots g = some { sl with
            wait := .none, pc := τ.pc, arrive := .resumption
            replay := some ⟨(bitList 64 (laneMask τ.rmask)).filter fun i => τ.rmask.contains i && sl.lanes.any fun x => x.1 == i,
              τ.again.map fun a => a.1, τ.again.map fun a => a.2, τ.next, τ.bounds⟩ })
    ∧ ((s.launch (s.team sl.team).launch).trapp = true → sl.handler = false → (∀ k x, (k, x) ∈ s.slots → k = g) →
        (∀ o ∈ s.ops, o.2.body.held = []) →
        ∃ t w, exec (.groomPageIn p va false) s = .next t ∧ aget? t.slots g = some w ∧ w.handler = true
          ∧ w.handling = some { τ with cause := 0x1C6, bounds := [] } ∧ t.ptes = s.ptes))
  ∧ ∀ (p : Nat) (va : BitVec 64) (s : State) (at_ e : Nat) (pt : Part),
    let v := va.toNat / 65536 * 65536
    let base := bitsN e 8 40 * 4096
    aget? s.parts p = some pt → s.pageEntry p v = some (at_, 1, e) → e % 2 = 1 → inFrames v = false → s.rangeBusy base 65536 = false →
    ∃ t r img, exec (.groomPageOut p va) s = .next t ∧ aget? t.ptes at_ = some 2 ∧ (∀ k, k ≠ at_ → aget? t.ptes k = aget? s.ptes k)
      ∧ aget? (t.part p).backing v = some r ∧ aget? t.storage (imageKey r.drive r.nspace r.lba) = some img
      ∧ r.digest = Config.sha512 img.raw ∧ r.entry = BitVec.ofNat 128 e
      ∧ img = ⟨s.keySerial p, memRun s.mem base 65536, (List.range 2048).map fun k => s.stampAt (base + 32 * k)⟩
      ∧ SameBytes s t ∧ t.slots = s.slots ∧ t.fibres = s.fibres

/-- R148 to R150: the groom takes up a stale load that may re-fire: where its descriptor names a launch that is pending it waits for that launch, else it
appends one and waits for it; where a fibre of it has re-fired twice 0x085 is delivered, without a descriptor, with a queue that is halted, or where an access of the append meets a cause 0x086. Once the
producer is complete with status 0 the load issues again for the lanes that were stale, one more re-fire counted than at its service; with another status
0x086 is delivered. -/
def Obligations.RefiresWaitForTheProducer : Prop :=
  ∀ (g : Nat) (s : State) (sl : Slot) (τ : TrapInfo), g < 32768 → aget? s.slots g = some sl → sl.contPark = none →
    let p := s.partOfTeam sl.team
    let fids := (sl.lanes.filter fun a => τ.lmask.contains a.1).map fun a => a.2
    let most := fids.foldl (fun m f => max m (s.fibre f).refires) 0
    let delivered (i : Instr) (cause : Nat) : Prop := sl.handler = false → (s.launch (s.team sl.team).launch).trapp = true →
      ∃ t w, exec i s = .next t ∧ aget? t.slots g = some w ∧ w.handler = true ∧ w.handling = some { τ with cause, bounds := [] }
        ∧ ∀ f ∈ fids, (t.fibre f).refires = 0
    (∀ rd, sl.wait = .park ⟨τ, .refireNew rd⟩ →
      (most = 2 → delivered (.refireServe g) 0x085)
      ∧ (most ≠ 2 → s.refreshDesc p rd = none → delivered (.refireServe g) 0x086)
      ∧ (∀ d, most ≠ 2 → s.refreshDesc p rd = some d →
          ((s.queue d.queue).enable = false ∨ (s.queue d.queue).halt = true → delivered (.refireServe g) 0x086)
          ∧ ((s.queue d.queue).enable = true → (s.queue d.queue).halt = false → s.pendingProducer d = true →
              exec (.refireServe g) s = .next (s.setSlot g { sl with wait := .park ⟨τ, .refireWait d.queue d.pendseq most⟩ }))
          ∧ (∀ n u, (s.queue d.queue).enable = true → (s.queue d.queue).halt = false → s.pendingProducer d = false →
              s.appendProducer p rd d = some (.ok (n, u)) → ∃ t, exec (.refireServe g) s = .next t
                ∧ aget? t.slots g = some { sl with wait := .park ⟨τ, .refireWait d.queue n most⟩ } ∧ SameBytes u t)
          ∧ ((s.queue d.queue).enable = true → (s.queue d.queue).halt = false → s.pendingProducer d = false →
              (s.appendProducer p rd d = none → exec (.refireServe g) s = .next s)
              ∧ (s.appendProducer p rd d = some (.error ()) → delivered (.refireServe g) 0x086))))
    ∧ (∀ q seq n, sl.wait = .park ⟨τ, .refireWait q seq n⟩ →
      (s.seqComplete q seq = false → exec (.refireReplay g) s = .next s)
      ∧ (∀ l, s.seqComplete q seq = true →
          s.launches.find? (fun x => x.2.queue == q && x.2.seq == seq && x.2.state == .complete) = some l →
          (l.2.status % 256 ≠ 0 → delivered (.refireReplay g) 0x086)
          ∧ (l.2.status % 256 = 0 → ∃ t, exec (.refireReplay g) s = .next t ∧ SameBytes s t
              ∧ (∀ f ∈ fids, (aget? s.fibres f).isSome → (t.fibre f).refires = n + 1)
              ∧ (∀ f ∈ sl.fids, (aget? s.fibres f).isSome → ∀ w ∈ l.2.out, w ∈ (t.fibre f).vec.know)
              ∧ aget? t.slots g = some { sl with
                  wait := .none, pc := τ.pc, arrive := .resumption
                  replay := some ⟨(bitList 64 (laneMask τ.rmask)).filter fun i =>
                    τ.rmask.contains i && sl.lanes.any fun x => x.1 == i,
                    τ.again.map fun a => a.1, τ.again.map fun a => a.2, τ.next, τ.bounds⟩ })))

/-- R288 to R293: a request acts on a team's state: switch-out saves every team of a core on which slots have been parked too long, one that drains
among them; the first launch, in the order of claims, that starves and has teams to displace requests those of a core. Then R290 chooses:
with CORES the launch goes as a whole, to drain where all its teams have come to DRAINP, else to be saved; else a team that has come to
DRAINP drains, an idempotent one below FLUSHP that has published nothing is flushed, and any other is saved. A drained team is saved when
its 65,536 clocks pass; a save keeps its slots, registers and frames (that the frames go with it is the model's reading, log 48, DEDUCED) and
gives its core back, a flush discards what it had done; a save that does not end in 2^20 clocks ends the team with 0x1C2. A saved team comes back
where it fits, its registers as they were; one whose save area is uncorrectable ends (R294). -/
def Obligations.PreemptionMovesTeams : Prop :=
  ∀ (k : Nat) (s : State) (tm : Team), aget? s.teams k = some tm →
    let gone (t : State) : Prop := (∀ g v, aget? t.slots g = some v → v.team ≠ k) ∧ t.recsOf k = []
    (tm.state = .running → tm.why ≠ .none → exec (.preemptDrain k) s = .next (s.setTeam k { tm with state := .draining (s.clock + 65536) }))
    ∧ (∀ till, tm.state = .draining till → till ≤ s.clock →
        exec (.drainTimeout k) s = .next (s.setTeam k { tm with state := .saving (s.clock + 2 ^ 20) }))
    ∧ (∀ till, tm.state = .saving till → s.saveReady k = true → ∃ t u, exec (.preemptSave k) s = .next t ∧ gone t
        ∧ aget? t.teams k = some u ∧ u.state = .saved ∧ t.fibres = s.fibres ∧ SameBytes s t
        ∧ ∀ g v, aget? s.slots g = some v → v.team = k → (∀ x ∈ s.slots, x.2.team = k → x.2.w = v.w → x = (g, v)) →
            aget? u.savedSlots v.w = some v ∧ aget? u.savedFrames v.w = some (s.bytesAt (Config.framePhys + 256 * g) 256))
    ∧ (tm.state = .flushing → (∀ o ∈ s.ops, o.2.head.team = k → (∀ ws, o.2.body ≠ .store ws) ∧ (∀ m, o.2.body ≠ .wlog m)
          ∧ ∀ ls lu sys, o.2.body ≠ .cctl ls lu sys) → (∀ x ∈ s.slots, x.2.team = k → x.2.late = []) →
        ∃ t u, exec (.preemptFlush k) s = .next t ∧ gone t ∧ aget? t.teams k = some u ∧ u.state = .flushed ∧ u.index = tm.index
          ∧ u.issued = 0 ∧ u.done = 0 ∧ u.prog = 0 ∧ u.tiles = [] ∧ u.chutes = [] ∧ (∀ f v, aget? t.fibres f = some v → v.team ≠ k)
          ∧ (∀ o ∈ t.ops, o.2.head.team ≠ k) ∧ t.chunks = (s.chunks.filter fun x => x.2.team != k) ∧ (s.chunksOf k = [] → SameBytes s t))
    ∧ (∀ till l, tm.state = .saving till → till ≤ s.clock → aget? s.launches (s.root tm.launch) = some l → l.first = none →
        ∃ t u r, exec (.saveTimeout k) s = .next t ∧ aget? t.launches (s.root tm.launch) = some u ∧ u.first = some r ∧ r.cause = 0x1C2
          ∧ (∀ f v, aget? t.fibres f = some v → v.team = k → v.alive = false) ∧ ∀ g v, aget? t.slots g = some v → v.team = k → v.lanes = [])
    ∧ (∀ core a, tm.state = .saved → tm.why ≠ .switchOut ∨ s.stillServed tm = false →
        let l := s.launch tm.launch
        (s.part l.part).suspended = false → s.higherFirst tm.die l.part (s.prioOf l) = false → s.findCore l tm.die = some (core, a) →
        (tm.saveUe = true → ∃ t, exec (.teamRestore k) s = .next t ∧ ∀ f v, aget? t.fibres f = some v → v.team = k → v.alive = false)
        ∧ (tm.saveUe = false → ∃ t u, exec (.teamRestore k) s = .next t ∧ aget? t.teams k = some u ∧ u.core = core ∧ u.units = a.units ∧ u.savedSlots = []
          ∧ (u.state = .running ∨ u.state = .held) ∧ u.issued = tm.issued ∧ u.done = tm.done ∧ u.tiles = tm.tiles ∧ u.chutes = tm.chutes
          ∧ ∀ f r, (t.fibre f).reg r = (s.fibre f).reg r ∧ (t.fibre f).preds = (s.fibre f).preds))
    ∧ (∀ core p since, s.partOfDie (dieOf core) = some p → aget? (s.die (dieOf core)).parkedSince (core % 16) = some since →
        since + 4096 ≤ s.clock → ((s.claimers p).any fun x => (s.findCore x.2 (dieOf core)).isNone) = true →
        (∀ t ∈ s.teamsAt core, (s.launch t.2.launch).coresident = false) → (k, tm) ∈ s.teamsAt core →
        tm.mayPreempt = true ∨ tm.drains = true →
        ∃ t u, exec (.switchOut core) s = .next t ∧ aget? t.teams k = some u ∧ u.state = .saving (s.clock + 2 ^ 20) ∧ u.why = .switchOut)
    ∧ (∀ die p lid l older rest since more, s.partOfDie die = some p → s.claimOrder die (s.claimers p) = older ++ (lid, l) :: rest →
        (∀ x ∈ older, s.displaces die x.2 = none) →
        aget? l.starving die = some since → since + 2 ^ 20 ≤ s.clock → s.findCore l die = none → s.preempting die = false →
        s.victims die (s.prioOf l) = (k, tm) :: more → aget? s.teams k = some tm →
        let lt := s.launch tm.launch
        let pt := s.part lt.part
        let saved : TeamState := .saving (s.clock + 2 ^ 20)
        ∃ t u, exec (.priorityPreempt die) s = .next t ∧ aget? t.teams k = some u ∧ u.why = .priority
          ∧ (lt.coresident = false → u.state = if pt.drainp ≤ tm.prog then tm.state
              else if lt.idemp = true ∧ tm.prog < pt.flushp ∧ tm.published = false then .flushing else saved)
          ∧ (lt.coresident = true → ∀ j tj, aget? s.teams j = some tj → tj.launch = tm.launch → tj.mayPreempt = true →
              ∃ v, aget? t.teams j = some v ∧ v.why = .priority
                ∧ ((∀ x ∈ s.placedTeams tm.launch, pt.drainp ≤ x.2.prog) → v.state = tj.state)
                ∧ ((∃ x ∈ s.placedTeams tm.launch, x.2.prog < pt.drainp) → v.state = saved)))

/-! ### Links, the host and runs (R143, R147, R174, R308 to R320, R332 to R335) -/

/-- R147, R174, R308, R309, R343: a flit whose tag fails under the link key counts as lost (log 18); one with a reserved KIND or NGR, or whose LDOM and
SRC name no partition of this device (log 50), is counted and dropped. A read flit is answered with the 32 bytes of its granule and their stamp, or
with 0x083 in a KIND 10 flit where that fails the port's egress bound (log 50), a write flit whose granules can be
written with an acknowledgement, a cause with a flit of KIND 10; one whose page the groom must bring waits for it, and where it could not bring
it 0x1C6 is the cause (log 21). A flit that has waited 2^14 clocks is sent again or, where an acknowledgement has come that no flit showed (the
model's free choice, log 18), forgotten; a port without one for 2^20 clocks is down, and its flits take the next port, whose egress bound they
must pass (log 18), or their requests meet 0x083, or 0x180 where none is left. -/
def Obligations.FlitsAreServed : Prop :=
  (∀ (port : Nat) (f : Flit) (s : State), (s.port port).down = false → f.dst = Config.deviceId → 1 ≤ port → port ≤ 16 → f.kind ≠ 8 →
    let seen := s.ackPort port
    let answered (t : State) (kind aux : Nat) (payload : List Byte) (stamps : List Stamp) : Prop :=
      ∃ a, t.outFlits = s.outFlits ++ [(port, a)] ∧ a.dst = f.src ∧ a.src = Config.deviceId ∧ a.tag = f.tag ∧ a.kind = BitVec.ofNat 4 kind
        ∧ a.aux = BitVec.ofNat 32 aux ∧ a.payload = payload ∧ a.stamps = stamps
    (s.badSeal f = true → exec (.flitReceive port f) s = .next (s.setPort port { s.port port with losses := (s.port port).losses + 1 }))
    ∧ (s.badSeal f = false → 11 ≤ f.kind.toNat ∨ f.ngr.toNat = 7 ∨ s.flitPart f = none → ∃ t, exec (.flitReceive port f) s = .next t
      ∧ (t.port port).drops = (s.port port).drops + 1 ∧ SameBytes s t ∧ t.outFlits = s.outFlits)
    ∧ ∀ p, s.badSeal f = false → s.flitPart f = some p → f.ngr.toNat < 7 →
      (f.kind = 0 → ∀ pg, s.translate p .load (f.off.zeroExtend 64) = .ok pg → pg.loc % 32 = 0 → s.homeCause true pg.loc 32 = none →
        (∀ a, pg.loc ≤ a → a < pg.loc + 32 → (∀ w ∈ s.hist, w.touches a = false ∧ ∀ g ∈ w.gBefore, g.1 ≠ a / 32) ∧ ∀ q ∈ s.pending, a ∉ q.2.1) →
        let st := if pg.timeless then 0 else s.stampAt pg.loc
        ∃ t, exec (.flitReceive port f) s = .next t ∧ SameBytes s t
          ∧ if s.egressOk p port st then answered t 1 0 (s.bytesAt pg.loc 32) [st] else answered t 10 0x083 [] [])
      ∧ (f.kind = 0 → ∀ m, s.translate p .load (f.off.zeroExtend 64) = .error m →
        let page := (p, f.off.toNat / 65536 * 65536)
        (m.groom = false → ∃ t, exec (.flitReceive port f) s = .next t ∧ SameBytes s t ∧ answered t 10 m.cause [] [])
        ∧ (m.groom = true → page ∉ s.denied → ∃ t, exec (.flitReceive port f) s = .next t ∧ SameBytes s t ∧ t.outFlits = s.outFlits
            ∧ (port, f) ∈ t.heldFlits ∧ page ∈ t.asked)
        ∧ (m.groom = true → page ∈ s.denied → ∃ t, exec (.flitReceive port f) s = .next t ∧ SameBytes s t ∧ answered t 10 0x1C6 [] []))
      ∧ (f.kind = 2 → f.ngr = 1 → enabledBytes f 0 ≠ [] → ∀ u,
          seen.ingress port p (f.off.zeroExtend 64 + 0) (enabledBytes f 0) ((f.stamps[0]?).getD 0) s.farKnow = .ok u →
        ∃ t, exec (.flitReceive port f) s = .next t ∧ SameBytes u t ∧ answered t 3 0 [] []))
  ∧ (∀ (port : Nat) (tag : BitVec 16) (s : State) (u : Flit × Nat × Nat), (s.port port).unacked = [u] → u.1.tag = tag →
    (s.port port).down = false →
    (s.clock < u.2.2 + 2 ^ 14 → exec (.flitResend port tag) s = .next s)
    ∧ (u.2.2 + 2 ^ 14 ≤ s.clock → ∃ t, exec (.flitResend port tag) s = .next t ∧ SameBytes s t
        ∧ (((t.port port).unacked = [] ∧ t.outFlits = s.outFlits)
          ∨ ((t.port port).unacked = [(u.1, u.2.1, s.clock)] ∧ t.outFlits = s.outFlits ++ [(port, u.1)]))))
  ∧ (∀ (port : Nat) (s : State) (u : Flit × Nat × Nat), (s.port port).down = false → (s.port port).unacked = [u] → u.2.1 + 2 ^ 20 ≤ s.clock →
    let d := s.setPort port { s.port port with down := true, unacked := [] }
    (s.outPart u.1 = none → exec (.portDown port) s = .next d)
    ∧ ∀ p, s.outPart u.1 = some p →
      (d.route p u.1.dst.toNat = none → u.1.kind ∈ [0, 2, 4, 6] → exec (.portDown port) s = .next (d.fail u.1.tag.toNat 0x180 false))
      ∧ ∀ q e, d.route p u.1.dst.toNat = some (q, e) →
        ((∀ (i : Nat) st, u.1.stamps[i]? = some st → enabledBytes u.1 i ≠ [] → s.egressOk p q st = true) →
          ∃ t a, exec (.portDown port) s = .next t ∧ SameBytes s t ∧ t.outFlits = s.outFlits ++ [(q, a)] ∧ a.kind = u.1.kind ∧ a.tag = u.1.tag
            ∧ a.off = u.1.off ∧ a.payload = u.1.payload ∧ a.stamps = u.1.stamps ∧ (t.port port).down = true)
        ∧ (∀ (i : Nat) st, u.1.stamps[i]? = some st → enabledBytes u.1 i ≠ [] → s.egressOk p q st = false → u.1.kind ∈ [2, 4, 6] →
          exec (.portDown port) s = .next (d.fail u.1.tag.toNat 0x083 false)))

/-- R143, R147, R165, R173, R186, R332, R333, R335: a host read through a window gives the bytes there, one without a window poisoned data and a refusal
of the partition, and one whose data fail the egress bound of port 0 poisoned data and a refusal of the port. A host write, or a write that
arrives at a link port or a CXL root port, is in memory, and its granule takes the stamp of its port by OMODE, combined with the old
one where the write covers only part of it; a stamp from the future counts a mismatch. A host write without a window is refused. A root
port writes pages of TIER 0b10 behind it alone, and any other write there is dropped (log 52). A back-invalidate changes no value. -/
def Obligations.TheHostAndThePorts : Prop :=
  let stamped (s : State) (p port base : Nat) (sent : Stamp) (x : Stamp) (mismatch : Nat) : Prop :=
    let r := mget PortStamp.zero (s.part p).ports port
    let h := s.homeHz 0 base
    let given (g : Stamp) : Prop := if ageOf (s.part p).interval h g = .future then x = h ∧ mismatch = 1 else x = g ∧ mismatch = 0
    (r.omode = 1 → given r.origin) ∧ (r.omode = 2 → given sent) ∧ (r.omode ≠ 1 → r.omode ≠ 2 → x = h ∧ mismatch = 0)
  (∀ (p : Nat) (off : BitVec 64) (len : Nat) (bytes : List Byte) (s : State) (pt : Part), aget? s.parts p = some pt →
    (pt.window false off.toNat len = none → ∃ t, exec (.hostRead p off len) s = .next t ∧ t.module.reads = s.module.reads ++ [none]
      ∧ (t.part p).refusals = pt.refusals + 1 ∧ SameBytes s t)
    ∧ (∀ va pg, pt.window false off.toNat len = some va → 0 < len → va % 32 + len ≤ 32 →
      s.translate p .load (BitVec.ofNat 64 va) = .ok pg → pg.loc % 32 = va % 32 → s.homeCause true pg.loc len = none →
      (∀ a, pg.loc ≤ a → a < pg.loc + len → (∀ w ∈ s.hist, w.touches a = false ∧ ∀ g ∈ w.gBefore, g.1 ≠ a / 32) ∧ ∀ q ∈ s.pending, a ∉ q.2.1) →
      ∃ t, exec (.hostRead p off len) s = .next t ∧ SameBytes s t
        ∧ if s.egressOk p 0 (if pg.timeless then 0 else s.stampAt pg.loc) then
            t.module.reads = s.module.reads ++ [some (s.bytesAt pg.loc len)] ∧ t.part p = pt
          else t.module.reads = s.module.reads ++ [none] ∧ (t.port 0).refusals = (s.port 0).refusals + 1)
    ∧ (pt.window true off.toNat bytes.length = none → ∃ t, exec (.hostWrite p off bytes) s = .next t ∧ SameBytes s t
        ∧ (t.part p).refusals = pt.refusals + 1)
    ∧ (∀ va pg, pt.window true off.toNat bytes.length = some va → bytes ≠ [] → va % 32 + bytes.length ≤ 32 → va < 2 ^ 64 →
      s.translate p .store (BitVec.ofNat 64 va) = .ok pg → pg.swm = false → s.ue = [] → va % 32 ≤ pg.loc →
      s.homeCause false (pg.loc - va % 32) 32 = none →
      ∃ t, exec (.hostWrite p off bytes) s = .next t ∧ (t.part p).refusals = pt.refusals
        ∧ (∀ k (y : Byte), bytes[k]? = some y → t.byteAt (pg.loc + k) = y)
        ∧ (∀ a, a < pg.loc ∨ pg.loc + bytes.length ≤ a → t.byteAt a = s.byteAt a)
        ∧ (pg.loc % 32 = va % 32 → ∃ x c, stamped s p 0 (pg.loc - va % 32) 0 x c ∧ (t.port 0).mismatches = (s.port 0).mismatches + c
          ∧ (pg.timeless = false → t.stampAt pg.loc =
              if bytes.length = 32 then x else older (s.homeHz 0 (pg.loc - va % 32)) (s.stampAt pg.loc) x))))
  ∧ (∀ (port p : Nat) (va : BitVec 64) (bytes : List Byte) (st : Stamp) (s : State) (pg : Page), (aget? s.parts p).isSome → 1 ≤ port → port ≤ 20 →
    canonical va = true → regionOf va.toNat = 0 → va.toNat % 32 = 0 → bytes.length = 32 → s.translate p .store va = .ok pg → pg.swm = false →
    s.ue = [] → pg.loc % 32 = 0 → s.homeCause false pg.loc 32 = none →
    let behind : Prop := pg.tier = 2 ∧ s.egressPort p pg.loc = some port
    (17 ≤ port → ¬ behind → ∃ t, exec (.ingressWrite port p va bytes st) s = .next t ∧ SameBytes s t ∧ t.stamps = s.stamps
      ∧ (t.port port).drops = (s.port port).drops + 1)
    ∧ (port ≤ 16 ∨ behind → ∃ t, exec (.ingressWrite port p va bytes st) s = .next t ∧ (∀ k (y : Byte), bytes[k]? = some y → t.byteAt (pg.loc + k) = y)
      ∧ (∀ a, a < pg.loc ∨ pg.loc + 32 ≤ a → t.byteAt a = s.byteAt a)
      ∧ ∃ x c, stamped s p port pg.loc st x c ∧ (t.port port).mismatches = (s.port port).mismatches + c
        ∧ (pg.timeless = false → t.stampAt pg.loc = x)))
  ∧ (∀ (line : Nat) (s : State), ∃ t, exec (.backInvalidate line) s = .next t ∧ SameBytes s t ∧ t.stamps = s.stamps
      ∧ t = { s with parts := t.parts })

/-- R311, R315, R319: the start of a run. Of the waiting runs whose turn it is the one with the lowest COLLID takes its staging where that is free, and its GRANT
goes to the coordinator; where it is not, each granted run of a higher COLLID is revoked. The coordinator counts each device's GRANT and, once it holds
those of all NDEVM1 + 1 devices, sends START to each; a granted run starts at START, and a started one stays as it is. A REVOKE that the coordinator takes
gives staging back, unless START was sent; one that has overtaken its GRANT waits for it (log 39). ABORT, or the end of the launch, stops a
run, and every participant is told (log 74 says which those are). A message for this device itself needs no link; one for another leaves as a
KIND 9 flit. A chunk flit whose tag fails counts as lost (R343; log 18), and one for a run that this device has not granted is dropped and counted. A granule of a
chunk reaches its node with the stamp of its port; the chunk of a granted run starts it; and the last granule (log 16) takes 1 from
the node's count.

R314, R316, R318 to R320: the nodes of a run. A node whose count is 0 acts once: RECV, COPY and REDUCE write their results to their destination, MERGE its records, NOP
nothing; SEND to this device hands its chunk to the paired node, and to another sends it as KIND 8 flits, unless it fails the port's egress bound (R317); each then takes 1 from its successors' counts. TEAM places a team
of REDK and acts when it has ended. When every node has acted or failed, or the run is aborted, it completes: its record's header
is written and DONE takes its number. -/
def Obligations.RunsOfGraphs : Prop :=
  (∀ (k : Nat) (r : Run) (s : State), aget? s.runs k = some r →
     (∀ x ∈ s.runs, x.2.collid = r.collid → x.2.run % 2 ^ 20 = r.run % 2 ^ 20 → x.2.state = .complete ∨ x = (k, r)) →
     let own := Config.deviceId.toNat
     let run : BitVec 20 := BitVec.ofNat 20 r.run
     let msg (what dev : Nat) : Nat × Nat × Nat × Nat := (what, r.collid.toNat, r.run % 2 ^ 20, dev)
     let g := s.graph r.slot
     let turn (x : Run) : Prop := ((s.graph x.slot).done + 1) % 2 ^ 32 = x.run
     let held := ((s.runs.filter fun x => x.2.state == .granted || x.2.state == .started).map fun x => x.2.staging).sum
     let tells (u : State) (what : Nat) (devs : List Nat) : State := devs.foldl (fun w d => w.tellRun r d what) u
     let after (x : Run) (ms : List (Nat × Nat × Nat × Nat)) : State := { s with runs := aset s.runs k x, control := ms }
     (∀ what, s.tellRun r own what = { s with control := s.control ++ [msg what own] })
     ∧ (∀ what dev port e, dev ≠ own → s.route r.part dev = some (port, e) → dev < 256 → what < 4 →
         (s.tellRun r dev what).control = s.control ∧ ∃ a, (s.tellRun r dev what).outFlits = s.outFlits ++ [(port, a)] ∧ a.kind = 9
           ∧ a.dst.toNat = dev ∧ a.ldom = e.ldom ∧ a.off.toNat = r.collid.toNat * 2 ^ 15 ∧ a.aux.toNat = what + (r.run % 2 ^ 20) * 2 ^ 12)
     ∧ (r.state = .waiting → r.aborted = false → turn r →
         (∀ x ∈ s.runs, x ≠ (k, r) → x.2.state = .waiting → x.2.aborted = false → turn x.2 →
           r.collid.toNat < x.2.collid.toNat ∨ (r.collid = x.2.collid ∧ r.run < x.2.run)) →
         (r.staging ≤ Config.stagingUnits - held → exec .runTake s = .next (tells (after { r with state := .granted } s.control) 0 [g.coord]))
         ∧ (Config.stagingUnits - held < r.staging →
             let later (x : Run) : Prop := x.state = .granted ∧ x.revoking = false ∧ r.collid.toNat < x.collid.toNat
             ∃ t, exec .runTake s = .next t ∧ SameBytes s t
               ∧ (∀ j y, aget? s.runs j = some y → (∀ z, (j, z) ∈ s.runs → z = y) →
                   (later y → aget? t.runs j = some { y with revoking := true }) ∧ (¬ later y → aget? t.runs j = some y))
               ∧ ((∀ x ∈ s.runs, (s.graph x.2.slot).coord = own) → ∀ j y, (j, y) ∈ s.runs → later y →
                   (2, y.collid.toNat, y.run % 2 ^ 20, own) ∈ t.control)))
     ∧ (∀ dev pre post, r.state ≠ .complete → s.control = pre ++ msg 0 dev :: post →
         (∀ m ∈ pre, ¬ (m.1 = 0 ∧ m.2.1 = r.collid.toNat ∧ m.2.2.1 = r.run % 2 ^ 20)) →
         let got := union r.grants [dev]
         (got.length = g.ndev → r.startSent = false →
           exec (.runGrant r.collid run) s = .next (tells (after { r with grants := got, startSent := true } (pre ++ post)) 1 got))
         ∧ (got.length ≠ g.ndev ∨ r.startSent = true → exec (.runGrant r.collid run) s = .next (after { r with grants := got } (pre ++ post))))
     ∧ (∀ dev pre post, s.control = pre ++ msg 1 dev :: post →
         (∀ m ∈ pre, ¬ (m.1 = 1 ∧ m.2.1 = r.collid.toNat ∧ m.2.2.1 = r.run % 2 ^ 20)) →
         (r.state = .granted → ∃ t, exec (.runStart r.collid run) s = .next t ∧ t.control = pre ++ post ∧ SameBytes s t
           ∧ aget? t.runs k = some { r with state := .started, revoking := false })
         ∧ (r.state = .started → ∃ t, exec (.runStart r.collid run) s = .next t ∧ t.control = pre ++ post ∧ SameBytes s t
           ∧ aget? t.runs k = some r))
     ∧ (∀ (dev : BitVec 8) pre post, r.state ≠ .complete → s.control = pre ++ msg 2 dev.toNat :: post →
         (∀ m ∈ pre, ¬ (m.1 = 2 ∧ m.2.1 = r.collid.toNat ∧ m.2.2.1 = r.run % 2 ^ 20 ∧ m.2.2.2 = dev.toNat)) →
         let back := r.grants.filter fun d => d != dev.toNat
         (g.coord = own → r.startSent = true → exec (.runRevoke r.collid run dev) s = .next { s with control := pre ++ post })
         ∧ (g.coord = own → r.startSent = false → dev.toNat ∉ r.grants → exec (.runRevoke r.collid run dev) s = .next s)
         ∧ (g.coord = own → r.startSent = false → dev.toNat ∈ r.grants → dev.toNat = own → r.state = .granted → r.revoking = true →
             ∃ t, exec (.runRevoke r.collid run dev) s = .next t ∧ t.control = pre ++ post ∧ SameBytes s t
               ∧ aget? t.runs k = some { r with grants := back, state := .waiting, revoking := false })
         ∧ (g.coord = own → r.startSent = false → dev.toNat ∈ r.grants → dev.toNat ≠ own → ∃ t, exec (.runRevoke r.collid run dev) s = .next t
             ∧ t.control = pre ++ post ∧ SameBytes s t ∧ aget? t.runs k = some { r with grants := back }
             ∧ ∀ port e, s.route r.part dev.toNat = some (port, e) → ∃ a, t.outFlits = s.outFlits ++ [(port, a)] ∧ a.kind = 9 ∧ a.dst = dev)
         ∧ (g.coord ≠ own → g.coord = dev.toNat → r.state = .granted → r.revoking = true → ∃ t, exec (.runRevoke r.collid run dev) s = .next t
             ∧ t.control = pre ++ post ∧ SameBytes s t ∧ aget? t.runs k = some { r with state := .waiting, revoking := false }))
     ∧ (∀ dev pre post, r.state ≠ .complete → r.aborted = false → s.control = pre ++ msg 3 dev :: post →
         (∀ m ∈ pre, ¬ (m.1 = 3 ∧ m.2.1 = r.collid.toNat ∧ m.2.2.1 = r.run % 2 ^ 20)) →
         exec (.runAbort r.collid run) s = .next (tells (after { r with aborted := true } (pre ++ post)) 3 (s.abortTo r)))
     ∧ (∀ st why since, r.state ≠ .complete → r.aborted = false → (s.launch (s.root r.launch)).ending = some (st, why, since) → st ≠ 2 →
         (∀ m ∈ s.control, ¬ (m.1 = 3 ∧ m.2.1 = r.collid.toNat ∧ m.2.2.1 = r.run % 2 ^ 20)) →
         exec (.runAbort r.collid run) s = .next (tells (after { r with aborted := true } s.control) 3 (s.abortTo r)))
     ∧ ∀ port (f : Flit), f.kind = 8 → (s.port port).down = false → f.dst = Config.deviceId →
       let names (x : Run) : Prop := f.off.toNat / 2 ^ 15 = x.collid.toNat ∧ f.aux.toNat / 2 ^ 12 = x.run % 2 ^ 20
       let dropped : Prop := ∃ t, exec (.chunkReceive port f) s = .next t ∧ (t.port port).drops = (s.port port).drops + 1
         ∧ t.runs = s.runs ∧ SameBytes s t
       (s.badSeal f = true → exec (.chunkReceive port f) s = .next (s.setPort port { s.port port with losses := (s.port port).losses + 1 }))
       ∧ (s.badSeal f = false → (∀ x ∈ s.runs, names x.2 → x.2.state = .complete) ∨ (names r ∧ r.state = .waiting) → dropped)
       ∧ (s.badSeal f = false → s.flitPart f = some r.part → f.ngr = 1 → names r → r.state = .started ∨ r.state = .granted →
         let j := f.aux.toNat % 2 ^ 12
         let n := f.gixh.toNat * 2 ^ 16 + f.tag.toNat
         let y := g.node j
         let m := r.node j
         y.peer = f.src.toNat → y.op = 1 ∨ y.op = 2 → m.acted = false → m.failed = false → aget? m.arrived n = none →
         (granuleOf f 0 ≠ [] → (∀ e ∈ m.arrived, e.2 ≠ []) →
           ∃ t u, exec (.chunkReceive port f) s = .next t ∧ aget? t.runs k = some u ∧ SameBytes s t ∧ u.state = .started
             ∧ aget? (u.node j).arrived n = some ((granuleOf f 0).map fun b =>
                 (b, (s.ingressStamp r.part port (s.runHz r) ((f.stamps[0]?).getD 0)).1))
             ∧ (u.node j).deps = m.deps)
         ∧ (let whole := aset m.arrived n []
            granuleOf f 0 = [] → (f.stamps[0]?).getD 0 = wireMark y.wt → chunkWhole whole = true →
            (whole.map fun e => e.2.length).sum = wireBytes y.wt y.n →
            ∃ t u, exec (.chunkReceive port f) s = .next t ∧ aget? t.runs k = some u ∧ SameBytes s t ∧ u.state = .started
             ∧ (u.node j).arrived = whole ∧ (u.node j).deps = m.deps - 1)))
  ∧ ((∀ (k i : Nat) (r : Run) (s : State) (x : GNode) (m0 : List Nat), aget? s.runs k = some r → r.state = .started → r.aborted = false →
     i < (s.graph r.slot).nodes.length → (s.graph r.slot).node i = x → (r.node i).ready = true → s.collEarlier k r.fibre (r.reaches x) = some m0 →
     let know := union (union r.know (r.node i).carry) m0
     let h := s.runHz r
     let free (u : State) (dst : List (ELoc × Nat)) : Prop :=
       u.engineHeld (u.runHead r know) .coll (dst.flatMap fun p => from_ p.1.loc p.2) = false
     let acted (t : State) : Prop := ∃ u, aget? t.runs k = some u ∧ (u.node i).acted = true ∧ (u.node i).failed = false
       ∧ ∀ j, x.succ.Nodup → j ∈ x.succ → j ≠ i → (u.node j).deps = (r.node j).deps - 1
     let lands (n : Nat) (dst : List (ELoc × Nat)) (base : Nat) : Prop :=
       s.bufLocs k r .store x.dbuf x.doff n = .ok dst ∧ spanBytes dst = (from_ base n).map (fun a => ⟨a, false⟩) ∧ (∀ d ∈ dst, d.1.swm = false)
       ∧ s.ue = [] ∧ ∀ a, base ≤ a → a < base + n → isRemote a = false ∧ s.egressPort r.part a = none ∧ s.homeCause false a 1 = none
     let wrote (t : State) (base : Nat) (bs : List (Byte × Stamp)) : Prop :=
       (∀ (j : Nat) b, bs[j]? = some b → t.byteAt (base + j) = b.1) ∧ ∀ a, a < base ∨ base + bs.length ≤ a → t.byteAt a = s.byteAt a
     let wire := wireElems h x.wt x.n (r.node i).chunk
     let unit := if gsize x.st = 8 then 8 else 4
     (x.op = 6 → ∃ t, exec (.nodeNop k i) s = .next t ∧ acted t ∧ SameBytes s t)
     ∧ (∀ dst base, x.op = 1 → lands (x.n * gsize x.dt) dst base → free s dst → wire.length = x.n →
         ∃ t, exec (.nodeRecv k i) s = .next t ∧ acted t ∧ wrote t base (elemBytes x.dt (wire.map fun e => ((recvElem x e).1, e.st))))
     ∧ (∀ dst base bs u, x.op = 3 → lands (x.n * gsize x.dt) dst base → s.nodeRead k r know x.sbuf x.soff (x.n * gsize x.st) unit = .got bs u →
         free u dst → ∃ t, exec (.nodeCopy k i) s = .next t ∧ acted t ∧ wrote t base
           (elemBytes x.dt ((elemsIn h x.st x.n bs).map fun e => ((wireCvt x.dt x.st (rmOf (BitVec.ofNat 3 x.rm)) e.1).1, e.2))))
     ∧ (∀ dst base bs u, x.op = 2 → lands (x.n * gsize x.dt) dst base → s.nodeRead k r know x.sbuf x.soff (x.n * gsize x.st) unit = .got bs u →
         free u dst → wire.length = x.n →
         ∃ t, exec (.nodeReduce k i) s = .next t ∧ acted t ∧ wrote t base (elemBytes x.dt (((elemsIn h x.st x.n bs).zip wire).map fun p =>
           ((reduceElem x p.1.1 p.2).1, older h p.1.2 p.2.st))))
     ∧ (∀ bs u m, x.op = 0 → s.nodeRead k r know x.sbuf x.soff (x.n * gsize x.st) unit = .got bs u → x.peer = Config.deviceId.toNat →
         x.pair ≠ i → x.pair ∉ x.succ → r.node x.pair = m → m.acted = false → m.failed = false →
         let y := (s.graph r.slot).node x.pair
         let w := sendWire h x (elemsIn h x.st x.n bs)
         (y.op = 1 ∨ y.op = 2) → y.wt = x.wt → wireBytes y.wt y.n = w.1.length →
         ∃ t v, exec (.nodeSend k i) s = .next t ∧ acted t ∧ SameBytes s t ∧ aget? t.runs k = some v
           ∧ (v.node x.pair).chunk = w.1 ∧ (v.node x.pair).deps = m.deps - 1)
     ∧ (∀ bs u port e, x.op = 0 → s.nodeRead k r know x.sbuf x.soff (x.n * gsize x.st) unit = .got bs u → x.peer ≠ Config.deviceId.toNat →
         u.route r.part x.peer = some (port, e) → x.peer < 256 →
         let w := sendWire h x (elemsIn h x.st x.n bs)
         ((∀ b ∈ w.1, u.egressOk r.part port b.2 = true) → ∃ t fs, exec (.nodeSend k i) s = .next t ∧ acted t ∧ SameBytes s t
           ∧ t.outFlits = u.outFlits ++ fs ∧ ∀ f ∈ fs, f.1 = port ∧ f.2.kind = 8 ∧ f.2.dst.toNat = x.peer
             ∧ f.2.off.toNat = r.collid.toNat * 2 ^ 15 ∧ (x.pair < 2 ^ 12 → f.2.aux.toNat = (r.run % 2 ^ 20) * 2 ^ 12 + x.pair))
         ∧ ((∃ b ∈ w.1, u.egressOk r.part port b.2 = false) → ∃ t v, exec (.nodeSend k i) s = .next t ∧ SameBytes s t
           ∧ aget? t.runs k = some v ∧ (v.node i).failed = true ∧ (v.node i).cause = 0x083))
     ∧ (∀ dl ds dst u ql qs qst v base n, x.op = 4 → s.nodeRecs k r know .atomic x.dbuf x.doff x.n = .recs dl ds dst u →
         u.nodeRecs k r know .load x.sbuf x.soff x.n = .recs ql qs qst v →
         vmergeOk ds qs (dl.map fun row => row.map fun p => p.1) (ql.map fun row => row.map fun p => p.1) = true →
         (∀ row ∈ dl, row.length = n) → ds.length = dl.length → qs.length = dl.length → dst.length = dl.length → qst.length = dl.length →
         spanBytes (dl.flatMap id) = (from_ base (32 * n * dl.length)).map (fun a => ⟨a, false⟩) → (∀ d ∈ dl.flatMap id, d.1.swm = false ∧ d.2 = 32) →
         free v (dl.flatMap id) → s.ue = [] → (∀ a, base ≤ a → a < base + 32 * n * dl.length →
           isRemote a = false ∧ s.egressPort r.part a = none ∧ s.homeCause false a 1 = none) →
         ∃ t, exec (.nodeMerge k i) s = .next t ∧ acted t
           ∧ ∀ (j : Nat) d q, ds[j]? = some d → qs[j]? = some q → ∀ b, b < 32 * n → t.byteAt (base + 32 * n * j + b) =
               BitVec.ofNat 8 (((VRec.decode d).merge (VRec.decode q)).encode / 256 ^ b))
     ∧ (x.op = 5 → (∀ tm, (r.node i).team = some tm →
           ((s.team tm).state = .ended → ∃ t, exec (.nodeTeam k i) s = .next t ∧ acted t ∧ SameBytes s t)
           ∧ ((s.team tm).state ≠ .ended → exec (.nodeTeam k i) s = .next s))
         ∧ ((r.node i).team = none → ∀ core a,
           firstSome (fun c => (s.fits ((s.launch r.launch).reduce r.launch (s.graph r.slot)) c).map fun a => (c, a)) (s.reduceCores r.part)
             = some (core, a) →
           ∃ t u tm, exec (.nodeTeam k i) s = .next t ∧ aget? t.runs k = some u ∧ (u.node i).team = some (s.uid + 1)
             ∧ aget? t.teams (s.uid + 1) = some tm ∧ tm.core = core ∧ tm.node = some (k, i) ∧ tm.launch = s.uid ∧ SameBytes s t)))
   ∧ ∀ (k : Nat) (r : Run) (s : State) (ws hd : List (ELoc × Nat)) (e : List Nat), aget? s.runs k = some r → r.state ≠ .complete →
     ((s.graph r.slot).done + 1) % 2 ^ 32 = r.run → s.earlierRecords k r = some e → r.aborted = true ∨ (r.state = .started ∧ ∀ n ∈ r.nodes, n.2.acted = true ∨ n.2.failed = true) →
     s.spanLocs (s.runHead r []).who .store (tableReca r.table.toNat + 64) (8 * r.nodes.length) = .ok ws →
     s.spanLocs (s.runHead r []).who .store (tableReca r.table.toNat) 64 = .ok hd →
     s.heldBack ((ws ++ hd).flatMap fun p => from_ p.1.loc p.2) (r.nodes.foldl (fun m n => union m n.2.carry) (union r.know e)) [0] r.after = false →
     ∃ t u, exec (.runComplete k) s = .next t ∧ aget? t.runs k = some u ∧ u.state = .complete ∧ u.nodes = r.nodes
       ∧ ((aget? s.graphs r.slot).isSome → (t.graph r.slot).done = r.run)
       ∧ ∀ base, spanBytes hd = (from_ base 64).map (fun a => ⟨a, false⟩) → base + 64 ≤ 2 ^ 60 → s.ue = [] → (∀ d ∈ hd, d.1.swm = false) →
           t.natAt base 64 = r.header % 2 ^ 512)

/-! ### Commands, reset, power (R26, R138, R143, R287, R310, R333, R334, R337 to R348) -/

/-- R331, R341 to R343, R347: the gate of the firmware. Before bring-up has ended no command is answered (log 53). A command from the wrong function or
without a session gets status 3, a seal that does not verify or a SEQ not above the last one status 2, an unknown code status 1, one with a payload that
does not fit or a reserved bit status 4; that 3 comes before 2 and 2 before 4, and that such a header gives 4, is the model's reading (log 53), as is
status 2 for a SESSION_OPEN whose signature does not verify (log 58). Each raises its function's vector, and nothing but the buffers of that
function changes. A command that comes while others wait waits behind them with its header (log 53). -/
def Obligations.CommandsPassTheirGate : Prop :=
  ∀ (h : Cmd) (s : State) (a : BitVec 64) (dies : BitVec 8) (k256 : BitVec 256) (queue n lvl : Nat) (e : BitVec 128) (b : Bool) (rec : Backing)
      (q : QueueFields) (seq : BitVec 48) (six : BitVec 6) (c16 : BitVec 16) (st : Stamp) (o : BitVec 2) (x29 : BitVec 29) (l4 : BitVec 4)
      (p7 : BitVec 7) (l3 : BitVec 3),
    let owners : List Instr := [.keyRotate h, .rootSet h a, .map h a lvl e, .backingSet h a rec, .hostwin h n a a a b b, .kernelBind h a,
      .queueCfg h queue q, .queueRead h queue, .cancel h queue seq, .suspend h, .fwResume h, .timeCfg h six six a,
      .portStamp h n st o b x29, .wlogCfg h a l4 b, .preemptCfg h dies dies p7, .domainSet h dies b l3 c16 k256]
    let operators : List Instr := [.partCreate h dies, .memGrant h n queue b, .memRevoke h n queue, .queueGrant h queue b, .linkRetrain h n,
      .powerCap h n]
    let refused (i : Instr) (status : Nat) : Prop := ∃ t r, exec i s = .next t ∧ aget? t.module.responses h.fn = some r ∧ r.tells h status []
      ∧ t.module.interrupts = s.module.interrupts ++ [64 + (h.fn - 1)]
      ∧ t = { s with module := { s.module with
          responses := t.module.responses, interrupts := t.module.interrupts, mailboxes := t.module.mailboxes } }
    let ill : Prop := 4064 < h.len.toNat ∨ h.res47 ≠ 0 ∨ h.res31 ≠ 0
    (s.module.stage ≠ 5 → s.module.failed = none → ∀ i ∈ owners ++ operators ++ [.unknownCommand h c16, .sessionOpen h k256 k256 b b,
        .attest h k256, .partDestroy h, .identify h], exec i s = .next s)
    ∧ (s.module.stage = 5 → s.module.failed = none → h.fn ≤ 8 → s.module.waiting ≠ [] →
        ∀ i ∈ owners ++ operators ++ [.unknownCommand h c16], ∃ t, exec i s = .next t ∧ t.module.waiting = s.module.waiting ++ [i]
          ∧ t.module.responses = s.module.responses ∧ SameBytes s t)
    ∧ (s.module.stage = 5 → s.module.failed = none → h.fn ≤ 8 → s.module.waiting = [] →
      refused (.unknownCommand h c16) 1
      ∧ (h.fn ≠ 0 ∨ h.isSealed = true → ∀ i ∈ operators, refused i 3)
      ∧ (h.fn ≠ h.part.toNat + 1 ∨ h.isSealed = false ∨ (s.part h.part.toNat).session = none → ∀ i ∈ owners, refused i 3)
      ∧ (h.fn = h.part.toNat + 1 → h.isSealed = true → ∀ se, (s.part h.part.toNat).session = some se → ∀ i ∈ owners,
          (se.verifies i h = false ∨ (∃ last, se.seq = some last ∧ h.seq.toNat ≤ last) → refused i 2)
          ∧ (ill → se.verifies i h = true → (∀ last, se.seq = some last → last < h.seq.toNat) → refused i 4))
      ∧ (h.fn = 0 → h.isSealed = false → ill → ∀ i ∈ operators, refused i 4)
      ∧ (h.fn = h.part.toNat + 1 → h.isSealed = false → cmdFits h → (aget? s.parts h.part.toNat).isSome → refused (.sessionOpen h k256 k256 false b) 2))

/-- R26, R138, R143, R186, R282, R287, R310, R333, R338, R340, R341, R343: what an owner's command does once it passes the gate and no access of the
partition is in flight: status 0 in a response that is sealed under the command key (log 53 says when one is), its SEQ is the last accepted,
and the state it configures holds what it was given. KERNEL_BIND returns the digest least significant byte first (log 9). An owner's PART_DESTROY
ends its partition. -/
def Obligations.OwnersConfigureTheirPartition : Prop :=
  ∀ (h : Cmd) (s : State) (pt : Part) (se : Session), s.answers h = true → h.isSealed = true → s.module.waiting = [] → s.inUse h.part.toNat = false →
    aget? s.parts h.part.toNat = some pt → pt.session = some se →
    let p := h.part.toNat
    let does (i : Instr) (res : List Byte) (eff : State → Part → Prop) : Prop := s.gate i h .own = none →
      ∃ t u v r, exec i s = .next t ∧ aget? t.module.responses h.fn = some r ∧ r.tells h 0 res ∧ r.sealedBy se.commandKey ∧ aget? t.parts p = some u ∧ u.session = some v
        ∧ v = { se with seq := some h.seq.toNat } ∧ eff t u
    (∀ a, canonical a = true → a.toNat % 16 = 0 → does (.rootSet h a) [] fun _ u => u.root = true ∧ u.rdbase = a)
    ∧ (∀ va lvl e at_, inFrames va.toNat = false → canonical va = true → regionOf va.toNat = 0 → 1 ≤ lvl → lvl ≤ 4 → pt.root = true →
        s.entryAllowed p lvl e.toNat = true → s.entryAt (bitsN va.toNat 0 55) lvl 4 (Config.rootPhys p) = some at_ →
        does (.map h va lvl e) [] fun t _ => mget 0 t.ptes at_ = e ∧ (∀ k, k ≠ at_ → mget 0 t.ptes k = mget 0 s.ptes k) ∧ SameBytes s t)
    ∧ (∀ va rec, canonical va = true → regionOf va.toNat = 0 → va.toNat % 65536 = 0 → rec.drive < 8 → rec.nspace < 4 →
        does (.backingSet h va rec) [] fun _ u => aget? u.backing va.toNat = some rec)
    ∧ (∀ n base off size hr hw, n < 8 → canonical base = true → regionOf base.toNat = 0 → base.toNat % 65536 = 0 → off.toNat % 65536 = 0 →
        size.toNat % 65536 = 0 → size.toNat < 2 ^ 40 →
        does (.hostwin h n base off size hr hw) [] fun _ u => mget HostWin.zero u.wins n = ⟨base, off, size.toNat, hw, hr⟩)
    ∧ (∀ va img t1, s.readImage p va [] = .ok img → s.devWrite p (va + 32) (bytesLE 16 (bindTag se.secret img)) [] = .ok t1 →
        does (.kernelBind h va) (bytesLE 64 (imageDigest img).toNat) fun t u => SameBytes t1 t ∧ u.measured = pt.measured ++ [imageDigest img])
    ∧ (∀ queue f, queue < Config.queues → s.ownsQueue p queue = true → f.taila.toNat % 8 = 0 → f.ringa.toNat % 4096 = 0 → f.enable = true →
        f.logn ≠ 0 → (s.queue queue).enable = false → (s.queue queue).halt = false →
        does (.queueCfg h queue f) [] fun t _ => let q := t.queue queue
          q.enable = true ∧ q.qprio = f.qprio.toNat ∧ q.wdog = f.wdog.toNat ∧ q.logn = f.logn.toNat ∧ q.taila = f.taila ∧ q.ringa = f.ringa
            ∧ q.cseq = (s.queue queue).cseq ∧ q.granted = true ∧ q.part = p)
    ∧ (∀ queue, queue < Config.queues → s.ownsQueue p queue = true → does (.queueRead h queue) (bytesLE 32 (s.queue queue).register) fun t _ =>
        t.queues = s.queues)
    ∧ (∀ queue seq lid l, queue < Config.queues → s.ownsQueue p queue = true →
        s.launches.find? (fun x => x.2.queue == queue && x.2.seq == seq.toNat && x.2.parent.isNone) = some (lid, l) → l.state = .claiming →
        l.ending = none → l.stage ≠ 2 → aget? s.launches lid = some l →
        does (.cancel h queue seq) [] fun t _ => ∃ m, aget? t.launches lid = some m ∧ m.ending = some (4, 0, s.clock))
    ∧ (does (.suspend h) [] fun t u => u.suspended = true ∧ ∀ k tm, aget? s.teams k = some tm → (s.launch tm.launch).part = p →
        tm.state = .running → tm.why = .none → (s.launch tm.launch).coresident = false →
        ∃ w, aget? t.teams k = some w ∧ w.state = .saving (s.clock + 2 ^ 20) ∧ w.why = .suspension)
    ∧ (does (.fwResume h) [] fun _ u => u.suspended = false)
    ∧ (∀ hzi k t0, k.toNat ≤ 40 → (∀ l ∈ s.launches, l.2.part = p → l.2.state ≠ .claiming) → does (.timeCfg h hzi k t0) [] fun t u =>
        u.hzi = hzi.toNat ∧ u.k = k.toNat ∧ u.time = t0.toNat ∧ ∀ d, d < 8 → pt.dies.getLsbD d = true → (t.die d).horizon = tstamp t0.toNat)
    ∧ (∀ port st (om : BitVec 2) eg mx, port ≤ 20 → om ≠ 3 → (om = 2 → 1 ≤ port ∧ port ≤ 16) → om = 0 ∨ se.stampAuth = true →
        does (.portStamp h port st om eg mx) [] fun _ u => mget PortStamp.zero u.ports port = ⟨st, om.toNat, eg, mx.toNat⟩)
    ∧ (∀ a n en, a.toNat % 4096 = 0 → en = false ∨ 4 ≤ n.toNat → does (.wlogCfg h a n en) [] fun _ u =>
        u.wlogRing = a ∧ u.wlogN = n.toNat ∧ u.wlogOn = en)
    ∧ (∀ d f k, k.toNat ≤ 100 → does (.preemptCfg h d f k) [] fun _ u => u.drainp = d.toNat ∧ u.flushp = f.toNat ∧ u.parkth = k.toNat)
    ∧ (∀ dev ldom ports key, (∀ q ∈ s.parts, q.1 ≠ p → ∀ e, aget? q.2.domain dev.toNat = some e → e.ldom ≠ ldom) →
        does (.domainSet h dev true ldom ports key) [] fun _ u => aget? u.domain dev.toNat = some ⟨ldom, ports, key⟩)
    ∧ (s.gate (.partDestroy h) h .own = none → ∃ t r, exec (.partDestroy h) s = .next t ∧ aget? t.module.responses h.fn = some r ∧ r.tells h 0 []
        ∧ r.sealedBy se.commandKey ∧ aget? t.parts p = none ∧ (∀ g ∈ t.grants, g.part ≠ p) ∧ aget? t.module.keys pt.key = none
        ∧ ∀ q v, aget? t.queues q = some v → v.part = p → v.granted = false)
    ∧ (∀ k, s.freeKey (some pt.key) = some k → s.gate (.keyRotate h) h .own = none → ∃ t u, exec (.keyRotate h) s = .next t
        ∧ aget? t.parts p = some u ∧ u.key = k ∧ k ≠ pt.key ∧ (aget? t.module.keys k).isSome ∧ aget? t.module.keys pt.key = none
        ∧ ∀ q v, aget? t.slots q = some v → pt.dies.getLsbD (dieOf (coreOf q)) = false)

/-- R334, R337, R339, R340, R343, R344, R348: what the operator's commands do, and those that open and identify. PART_CREATE makes a partition of free dies with a
free key and its horizon at time 0; PART_DESTROY takes it away with its grants and queues; a range is granted once, is refused a second time
with status 5 and one that may not be granted with 4, and leaves every other byte as it was; MEM_REVOKE frees a range that one partition holds,
in however many grants, and leaves every other piece granted as it was, or answers 5; SESSION_OPEN starts a session and ends the old one.
The bytes of the results of IDENTIFY and SESSION_OPEN stand in the order that log 77 chooses. -/
def Obligations.OperatorsShareTheDevice : Prop :=
  ∀ (h : Cmd) (s : State), s.answers h = true → h.isSealed = false → s.module.waiting = [] → cmdFits h →
    let p := h.part.toNat
    let gives (i : Instr) (status : Nat) (res : List Byte) (eff : State → Prop) : Prop :=
      ∃ t r, exec i s = .next t ∧ aget? t.module.responses h.fn = some r ∧ r.tells h status res ∧ eff t
    let does (i : Instr) (eff : State → Prop) : Prop := gives i 0 [] eff
    (h.fn = 0 →
      (∀ dies k, dies ≠ 0 → aget? s.parts p = none → (∀ q ∈ s.parts, q.2.dies &&& dies = 0) → s.freeKey none = some k →
        does (.partCreate h dies) fun t => ∃ u, aget? t.parts p = some u ∧ u.dies = dies ∧ u.key = k ∧ u.time = 0 ∧ u.root = false
          ∧ u.session = none ∧ u.parkth = 50 ∧ u.drainp = 224 ∧ u.flushp = 64 ∧ k ∉ s.module.keysUsed ∧ k ∈ t.module.keysUsed ∧ (aget? t.module.keys k).isSome
          ∧ ∀ d, d < 8 → dies.getLsbD d = true → (t.die d).horizon = 0xFFFFFFFF)
      ∧ ((aget? s.parts p).isSome → does (.partDestroy h) fun t => aget? t.parts p = none ∧ (∀ g ∈ t.grants, g.part ≠ p)
          ∧ ∀ q v, aget? t.queues q = some v → v.part = p → v.granted = false)
      ∧ (∀ lo len db, (aget? s.parts p).isSome → grantable lo len db = true → (∀ g ∈ s.grants, overlaps lo len g.lo g.len = false) →
          does (.memGrant h lo len db) fun t => t.grants = s.grants ++ [⟨lo, len, p, grantKind lo db⟩]
            ∧ ∀ a, a < lo ∨ lo + len ≤ a → t.byteAt a = s.byteAt a)
      ∧ (∀ lo len db, (aget? s.parts p).isSome → grantable lo len db = true → (∃ g ∈ s.grants, overlaps lo len g.lo g.len = true) →
          gives (.memGrant h lo len db) 5 [] fun t => t.grants = s.grants ∧ SameBytes s t)
      ∧ (∀ lo len db, grantable lo len db = false → gives (.memGrant h lo len db) 4 [] fun t => t.grants = s.grants ∧ SameBytes s t)
      ∧ (∀ lo len, 0 < len → lo % 65536 = 0 → len % 65536 = 0 →
          let piece (w : State) (q a : Nat) : Prop := ∃ x ∈ w.grants, x.part = q ∧ x.lo ≤ a ∧ a + 65536 ≤ x.lo + x.len
          let owner := s.grants.find? fun g => overlaps lo 1 g.lo g.len
          let mapped (g : Grant) : Prop := ∃ u ∈ (s.entriesOf g.part).flatMap entryRanges, overlaps lo len u.1 u.2 = true
          (∀ g, owner = some g → (∀ a, a % 65536 = 0 → lo ≤ a → a < lo + len → piece s g.part a) → ¬ mapped g → s.inUse g.part = false →
            does (.memRevoke h lo len) fun t => SameBytes s t ∧ (∀ x ∈ t.grants, overlaps lo len x.lo x.len = false)
              ∧ ∀ q a, a % 65536 = 0 → a + 65536 ≤ lo ∨ lo + len ≤ a → (piece t q a ↔ piece s q a))
          ∧ ((owner = none ∨ ∃ g, owner = some g ∧ (mapped g ∨ ∃ a, a % 65536 = 0 ∧ lo ≤ a ∧ a < lo + len ∧ ¬ piece s g.part a)) →
            gives (.memRevoke h lo len) 5 [] fun t => t.grants = s.grants ∧ SameBytes s t))
      ∧ (∀ queue, queue < Config.queues → (aget? s.parts p).isSome → (s.queue queue).enable = false → s.busyQueue queue = false →
          (does (.queueGrant h queue false) fun t => (t.queue queue).granted = true ∧ (t.queue queue).part = p
            ∧ (t.queue queue).cseq = (s.queue queue).cseq)
          ∧ does (.queueGrant h queue true) fun t => (t.queue queue).granted = false)
      ∧ (∀ port, 1 ≤ port → port ≤ 16 → does (.linkRetrain h port) fun t => (t.port port).down = false)
      ∧ (∀ w, 1200 ≤ w → w ≤ 2200 → does (.powerCap h w) fun t => t.module.cap = w)
      ∧ (∀ w, w < 1200 ∨ 2200 < w → gives (.powerCap h w) 4 [] fun t => t.module.cap = s.module.cap)
      ∧ (∀ nonce, (aget? s.parts p).isSome → gives (.attest h nonce) 0
          (bytesLE 384 ((Config.reportSignature (BitVec.ofNat 2560 (s.reportBody p nonce))).toNat * 2 ^ 2560 + s.reportBody p nonce))
          fun t => t.parts = s.parts)
      ∧ gives (.identify h) 0 (bytesLE 1 Config.deviceId.toNat ++ bytesLE 8 Config.romVersion.toNat ++ bytesLE 64 Config.romDigest.toNat
          ++ bytesLE 1 (s.module.failed.getD 0)) fun t => t.parts = s.parts)
    ∧ (h.fn = p + 1 → (aget? s.parts p).isSome → ∀ key share auth,
        let own := Config.deviceShare share s.free
        gives (.sessionOpen h key share true auth) 0 (bytesLE 32 own.toNat ++ bytesLE 64 (Config.shareSignature own).toNat)
          fun t => (t.part p).session = some ⟨key, Config.bindingSecret share s.free, Config.commandKey share s.free, auth, none⟩)

/-- R20, R338, R345 to R348: a partition reset ends its claimed launches with status 5, halts its queues with HERR 5 and leaves no slot on its dies and
no operation, graph, run or phase tree of it; keys and sessions stay; one that needs a page first completes once the groom has brought it (log 59). A
module reset leaves nothing but the drives and what has left the device, beside the model's own agenda and its counts of free values and of
identities (log 1, 2, 59); the model's clock is 0 again (log 3). Bring-up goes on stage by stage and zeroes
reserved HBM in the third. A memory side goes down and comes back, one event each (log 7); what other
homes hold stays. Above the cap or 95 °C the device throttles, below both it ends,
at 110 °C it resets. -/
def Obligations.ResetsAndPower : Prop :=
  (∀ (p : Nat) (s : State), (aget? s.parts p).isSome → ∃ t, exec (.partitionReset p) s = .next t ∧ PartReset p s t
    ∧ (∀ k v, aget? s.parts k = some v → ∃ u, aget? t.parts k = some u ∧ u.key = v.key ∧ u.session = v.session ∧ u.root = v.root)
    ∧ t.module.keys = s.module.keys ∧ ∀ x ∈ t.trees, (s.launch x.2.launch).part ≠ p)
  ∧ (∀ s : State, exec .moduleReset s =
      .next { State.reset with agenda := s.agenda, free := s.free, uid := s.uid, storage := s.storage, outFlits := s.outFlits })
  ∧ (∀ (temp : Nat) (s : State), exec (.overtempReset temp) s = if 110 ≤ temp then exec .moduleReset s else .next s)
  ∧ (∀ (s : State), s.module.stage < 5 → s.module.failed = none →
      exec (.bringUp false) s = .next { s with module := { s.module with failed := some (s.module.stage + 1) } }
      ∧ ∃ t, exec (.bringUp true) s = .next t ∧ t.module.stage = s.module.stage + 1 ∧ t.module.failed = none
        ∧ (s.module.stage = 2 → ∀ a, inReserved a = true → t.byteAt a = 0) ∧ ∀ a, inReserved a = false → t.byteAt a = s.byteAt a)
  ∧ (∀ (die : Nat) (s : State), die < 8 → ∃ t, exec (.memorySideReset die) s = .next t ∧ (t.die die).memUp = !(s.die die).memUp
      ∧ ∀ a, Config.hbmEnd ≤ a ∨ homeDie a ≠ die → t.byteAt a = s.byteAt a)
  ∧ (∀ (watts temp : Nat) (s : State),
      exec (.powerThrottle watts temp) s =
        .next (if s.module.cap < watts ∨ 95 < temp then { s with module := { s.module with throttled := true } } else s)
      ∧ exec (.throttlingEnd watts temp) s =
        .next (if watts < s.module.cap ∧ temp < 95 then { s with module := { s.module with throttled := false } } else s))
end

