-- ==== Sys2Proof/Laws/Encoding.lean ====
section
/-!
SUPPORT. Laws of the encoding: the codes of the small fields read back, a word's fields read back, and each layout reads back
from the fields that the encoder gives it.
-/
namespace Sys2Proof.Laws

open Sys2Proof.Machine

/-! ### Codes -/

/-- A spec that is no reserved code. -/
def plainSpec : Spec → Bool
  | .rsv _ => false
  | _ => true

def plainTy : Ty → Bool
  | .rsv _ => false
  | _ => true

def plainRm : RM → Bool
  | .rsv _ => false
  | _ => true

theorem plainTy_or (t : Ty) : plainTy t = true ∨ ∃ c, t = .rsv c := by cases t <;> simp [plainTy]
theorem plainRm_or (m : RM) : plainRm m = true ∨ ∃ c, m = .rsv c := by cases m <;> simp [plainRm]

@[simp] theorem four_rsv (c : BitVec 3) : (RM.rsv c).four = false := rfl
@[simp] theorem five_rsv (c : BitVec 3) : (RM.rsv c).five = false := rfl

/-- R86: no reduction admits a reserved type. -/
@[simp] theorem rsv_redTypes (c : BitVec 5) (n : Nat) : Ty.rsv c ∉ redTypes n := by
  unfold redTypes; split <;> simp

/-- R250: nor does an atomic. -/
@[simp] theorem rsv_atomTypes (c : BitVec 5) (n : Nat) : Ty.rsv c ∉ atomTypes n := by
  unfold atomTypes; split <;> simp
@[simp] theorem rsv_atomfTypes (c : BitVec 5) (n : Nat) : Ty.rsv c ∉ atomfTypes n := by
  unfold atomfTypes; split <;> simp

/-- R47: a spec's code reads back. -/
theorem specOf_specCode {s : Spec} (h : plainSpec s = true) : specOf (specCode s) = s := by
  cases s with
  | vec n =>
    have := n.isLt
    have e : (BitVec.ofNat 9 n.toNat).toNat = n.toNat := by simp; omega
    simp only [specCode, specOf, e]
    rw [if_pos (by omega)]; simp
  | scl n =>
    have := n.isLt
    have e : (BitVec.ofNat 9 (0x100 + n.toNat)).toNat = 0x100 + n.toNat := by simp; omega
    simp only [specCode, specOf, e]
    rw [if_neg (by omega), if_pos (by omega)]
    congr 1
    apply BitVec.eq_of_toNat_eq
    simp; omega
  | pred n =>
    have := n.isLt
    have e : (BitVec.ofNat 9 (0x180 + n.toNat)).toNat = 0x180 + n.toNat := by simp; omega
    simp only [specCode, specOf, e]
    rw [if_neg (by omega), if_neg (by omega), if_neg (by omega), if_neg (by omega), if_neg (by omega), if_neg (by omega), if_pos (by omega)]
    congr 1
    apply BitVec.eq_of_toNat_eq
    simp; omega
  | zero => rfl
  | lane => rfl
  | fibre => rfl
  | imm => rfl
  | rsv c => cases h

/-- R47: a code is the code of the spec it reads as. -/
theorem specCode_specOf (x : BitVec 9) : specCode (specOf x) = x := by
  have hx := x.isLt
  unfold specOf
  simp only
  split
  · apply BitVec.eq_of_toNat_eq; simp [specCode]; omega
  split
  · apply BitVec.eq_of_toNat_eq; simp [specCode]; omega
  split
  · apply BitVec.eq_of_toNat_eq; simp [specCode]; omega
  split
  · apply BitVec.eq_of_toNat_eq; simp [specCode]; omega
  split
  · apply BitVec.eq_of_toNat_eq; simp [specCode]; omega
  split
  · rfl
  split
  · apply BitVec.eq_of_toNat_eq; simp [specCode]; omega
  split
  · apply BitVec.eq_of_toNat_eq; simp [specCode]; omega
  · rfl

theorem tyOf_tyCode {t : Ty} (h : plainTy t = true) : tyOf (tyCode t) = t := by cases t <;> first | rfl | cases h
theorem tyCode_tyOf : ∀ c, tyCode (tyOf c) = c := by decide
theorem rmOf_rmCode {m : RM} (h : plainRm m = true) : rmOf (rmCode m) = m := by cases m <;> first | rfl | cases h
theorem rmCode_rmOf : ∀ c, rmCode (rmOf c) = c := by decide
theorem scopeOf_scopeCode (x : Scope) : scopeOf (scopeCode x) = x := by cases x <;> rfl
theorem scopeCode_scopeOf : ∀ c, scopeCode (scopeOf c) = c := by decide
theorem ordOf_ordCode (x : MemOrd) : ordOf (ordCode x) = x := by cases x <;> rfl
theorem ordCode_ordOf : ∀ c, ordCode (ordOf c) = c := by decide

theorem extOf_extBits (e : Ext) : extOf (extBits e) = e := by
  obtain ⟨off, scale, refire, layout, maxage⟩ := e
  have h1 := off.isLt
  have h2 := scale.isLt
  have h3 := layout.isLt
  have h4 := maxage.isLt
  have hb : (if refire = true then (0x2000 : Nat) else 0) = if refire = true then 0x2000 else 0 := rfl
  cases refire
  all_goals
    simp only [extOf, extBits, bitsN, Ext.mk.injEq, BitVec.toNat_ofNat, Nat.shiftRight_eq_div_pow]
    refine ⟨?_, ?_, ?_, ?_, ?_⟩
    all_goals first
      | (apply BitVec.eq_of_toNat_eq; simp; omega)
      | (simp; omega)

theorem extBits_extOf (x : BitVec 32) : extBits (extOf x) = x := by
  have hx := x.isLt
  apply BitVec.eq_of_toNat_eq
  simp only [extOf, extBits, bitsN, BitVec.toNat_ofNat, Nat.shiftRight_eq_div_pow, beq_iff_eq]
  split <;> omega

/-! ### Layouts -/

@[simp] theorem guard_raw {opc : BitVec 10} {d a b c : BitVec 9} {mod : BitVec 13} {imm : BitVec 32} (g : Guard) :
    Raw.guard { opc, gneg := g.bit, gp := g.p, d, a, b, c, mod, imm } = g := by
  obtain ⟨n, p⟩ := g
  cases n <;> rfl

/-- The four specs of an instruction are no reserved codes. -/
def plainOps (o : Ops) : Bool := plainSpec o.d && plainSpec o.a && plainSpec o.b && plainSpec o.c

theorem ctrl_raw (f : CtrlF) (opc : BitVec 10) (h : plainOps f.ops = true) : (f.raw opc).ctrl = f := by
  simp only [plainOps, CtrlF.ops, Bool.and_eq_true] at h
  obtain ⟨⟨⟨h1, h2⟩, h3⟩, h4⟩ := h
  obtain ⟨g, d, a, b, c, top, sub, imm⟩ := f
  have := top.isLt
  have := sub.isLt
  simp only [Raw.ctrl, CtrlF.raw, guard_raw, specOf_specCode h1, specOf_specCode h2, specOf_specCode h3, specOf_specCode h4,
    CtrlF.mk.injEq, true_and, and_true]
  constructor <;> (apply BitVec.eq_of_toNat_eq; simp; omega)

theorem arith_raw (f : ArithF) (opc : BitVec 10) (h : plainOps f.ops = true) (ht : plainTy f.ty = true) (hr : plainRm f.rm = true) :
    (f.raw opc).arith = f ∧ (f.raw opc).sub5 = f.sub ∧ (f.raw opc).ty = f.ty := by
  simp only [plainOps, ArithF.ops, Bool.and_eq_true] at h
  obtain ⟨⟨⟨h1, h2⟩, h3⟩, h4⟩ := h
  obtain ⟨g, d, a, b, c, ty, rm, sub, imm⟩ := f
  have l1 := (tyCode ty).isLt
  have l2 := (rmCode rm).isLt
  have l3 := sub.isLt
  have e1 : (BitVec.ofNat 5 ((BitVec.ofNat 13 ((tyCode ty).toNat * 2 ^ 8 + (rmCode rm).toNat * 2 ^ 5 + sub.toNat)).toNat / 2 ^ 8)) = tyCode ty := by
    apply BitVec.eq_of_toNat_eq; simp; omega
  have e2 : (BitVec.ofNat 3 ((BitVec.ofNat 13 ((tyCode ty).toNat * 2 ^ 8 + (rmCode rm).toNat * 2 ^ 5 + sub.toNat)).toNat / 2 ^ 5)) = rmCode rm := by
    apply BitVec.eq_of_toNat_eq; simp; omega
  have e3 : (BitVec.ofNat 5 (BitVec.ofNat 13 ((tyCode ty).toNat * 2 ^ 8 + (rmCode rm).toNat * 2 ^ 5 + sub.toNat)).toNat) = sub := by
    apply BitVec.eq_of_toNat_eq; simp; omega
  simp only [Raw.arith, ArithF.raw, guard_raw, specOf_specCode h1, specOf_specCode h2, specOf_specCode h3, specOf_specCode h4,
    Raw.ty, Raw.rm, Raw.sub5, e1, e2, e3, tyOf_tyCode ht, rmOf_rmCode hr, and_self]

theorem eng_raw (f : EngF) (opc : BitVec 10) (h : plainOps f.ops = true) (ht : plainTy f.ty = true) (hr : plainRm f.rm = true) :
    (f.raw opc).eng = f ∧ (f.raw opc).sub5 = f.flags := by
  simp only [plainOps, EngF.ops, Bool.and_eq_true] at h
  obtain ⟨⟨⟨h1, h2⟩, h3⟩, h4⟩ := h
  obtain ⟨g, d, a, b, c, ty, rm, sub, imm⟩ := f
  have l1 := (tyCode ty).isLt
  have l2 := (rmCode rm).isLt
  have l3 := sub.isLt
  have e1 : (BitVec.ofNat 5 ((BitVec.ofNat 13 ((tyCode ty).toNat * 2 ^ 8 + (rmCode rm).toNat * 2 ^ 5 + sub.toNat)).toNat / 2 ^ 8)) = tyCode ty := by
    apply BitVec.eq_of_toNat_eq; simp; omega
  have e2 : (BitVec.ofNat 3 ((BitVec.ofNat 13 ((tyCode ty).toNat * 2 ^ 8 + (rmCode rm).toNat * 2 ^ 5 + sub.toNat)).toNat / 2 ^ 5)) = rmCode rm := by
    apply BitVec.eq_of_toNat_eq; simp; omega
  have e3 : (BitVec.ofNat 5 (BitVec.ofNat 13 ((tyCode ty).toNat * 2 ^ 8 + (rmCode rm).toNat * 2 ^ 5 + sub.toNat)).toNat) = sub := by
    apply BitVec.eq_of_toNat_eq; simp; omega
  simp only [Raw.eng, EngF.raw, guard_raw, specOf_specCode h1, specOf_specCode h2, specOf_specCode h3, specOf_specCode h4,
    Raw.ty, Raw.rm, Raw.sub5, e1, e2, e3, tyOf_tyCode ht, rmOf_rmCode hr, and_self]

theorem mem_raw (f : MemF) (opc : BitVec 10) (h : plainOps f.ops = true) (ht : plainTy f.ty = true) : (f.raw opc).mem = f := by
  simp only [plainOps, MemF.ops, Bool.and_eq_true] at h
  obtain ⟨⟨⟨h1, h2⟩, h3⟩, h4⟩ := h
  obtain ⟨g, d, a, b, c, ty, scope, ord, evp, lu, ext⟩ := f
  have l1 := (tyCode ty).isLt
  have l2 := (scopeCode scope).isLt
  have l3 := (ordCode ord).isLt
  have l4 := evp.isLt
  have l5 : (if lu = true then 1 else 0) < 2 := by split <;> omega
  generalize hn : (tyCode ty).toNat * 2 ^ 8 + (scopeCode scope).toNat * 2 ^ 5 + (ordCode ord).toNat * 2 ^ 3 + evp.toNat * 2
    + (if lu = true then 1 else 0) = n
  have e1 : BitVec.ofNat 5 ((BitVec.ofNat 13 n).toNat / 2 ^ 8) = tyCode ty := by apply BitVec.eq_of_toNat_eq; simp; omega
  have e2 : BitVec.ofNat 3 ((BitVec.ofNat 13 n).toNat / 2 ^ 5) = scopeCode scope := by apply BitVec.eq_of_toNat_eq; simp; omega
  have e3 : BitVec.ofNat 2 ((BitVec.ofNat 13 n).toNat / 2 ^ 3) = ordCode ord := by apply BitVec.eq_of_toNat_eq; simp; omega
  have e4 : BitVec.ofNat 2 ((BitVec.ofNat 13 n).toNat / 2) = evp := by apply BitVec.eq_of_toNat_eq; simp; omega
  have e5 : (BitVec.ofNat 1 (BitVec.ofNat 13 n).toNat == 1) = lu := by
    cases lu
    · have : BitVec.ofNat 1 (BitVec.ofNat 13 n).toNat = 0 := by
        apply BitVec.eq_of_toNat_eq; simp only [Bool.false_eq_true, if_false] at hn; simp; omega
      rw [this]; rfl
    · have : BitVec.ofNat 1 (BitVec.ofNat 13 n).toNat = 1 := by
        apply BitVec.eq_of_toNat_eq; simp only [if_true] at hn; simp; omega
      rw [this]; rfl
  simp only [Raw.mem, MemF.raw, guard_raw, specOf_specCode h1, specOf_specCode h2, specOf_specCode h3, specOf_specCode h4,
    Raw.ty, Raw.scope, Raw.ord, hn, e1, e2, e3, e4, e5, tyOf_tyCode ht, scopeOf_scopeCode, ordOf_ordCode, extOf_extBits]

theorem atom_raw (f : AtomF) (opc : BitVec 10) (h : plainOps f.ops = true) (ht : plainTy f.ty = true) : (f.raw opc).atom = f := by
  simp only [plainOps, AtomF.ops, Bool.and_eq_true] at h
  obtain ⟨⟨⟨h1, h2⟩, h3⟩, h4⟩ := h
  obtain ⟨g, d, a, b, c, ty, scope, ord, aop, ext⟩ := f
  have l1 := (tyCode ty).isLt
  have l2 := (scopeCode scope).isLt
  have l3 := (ordCode ord).isLt
  have l4 := aop.isLt
  generalize hn : (tyCode ty).toNat * 2 ^ 8 + (scopeCode scope).toNat * 2 ^ 5 + (ordCode ord).toNat * 2 ^ 3 + aop.toNat = n
  have e1 : BitVec.ofNat 5 ((BitVec.ofNat 13 n).toNat / 2 ^ 8) = tyCode ty := by apply BitVec.eq_of_toNat_eq; simp; omega
  have e2 : BitVec.ofNat 3 ((BitVec.ofNat 13 n).toNat / 2 ^ 5) = scopeCode scope := by apply BitVec.eq_of_toNat_eq; simp; omega
  have e3 : BitVec.ofNat 2 ((BitVec.ofNat 13 n).toNat / 2 ^ 3) = ordCode ord := by apply BitVec.eq_of_toNat_eq; simp; omega
  have e4 : BitVec.ofNat 3 (BitVec.ofNat 13 n).toNat = aop := by apply BitVec.eq_of_toNat_eq; simp; omega
  simp only [Raw.atom, AtomF.raw, guard_raw, specOf_specCode h1, specOf_specCode h2, specOf_specCode h3, specOf_specCode h4,
    Raw.ty, Raw.scope, Raw.ord, hn, e1, e2, e3, e4, tyOf_tyCode ht, scopeOf_scopeCode, ordOf_ordCode, extOf_extBits]

theorem sync_raw (f : SyncF) (opc : BitVec 10) (h : plainOps f.ops = true) :
    (f.raw opc).sync = f ∧ bitsN (f.raw opc).mod.toNat 0 3 = f.aop.toNat := by
  simp only [plainOps, SyncF.ops, Bool.and_eq_true] at h
  obtain ⟨⟨⟨h1, h2⟩, h3⟩, h4⟩ := h
  obtain ⟨g, d, a, b, c, mask, scope, ord, aop, imm⟩ := f
  have l1 := mask.isLt
  have l2 := (scopeCode scope).isLt
  have l3 := (ordCode ord).isLt
  have l4 := aop.isLt
  generalize hn : mask.toNat * 2 ^ 8 + (scopeCode scope).toNat * 2 ^ 5 + (ordCode ord).toNat * 2 ^ 3 + aop.toNat = n
  have e1 : BitVec.ofNat 5 ((BitVec.ofNat 13 n).toNat / 2 ^ 8) = mask := by apply BitVec.eq_of_toNat_eq; simp; omega
  have e2 : BitVec.ofNat 3 ((BitVec.ofNat 13 n).toNat / 2 ^ 5) = scopeCode scope := by apply BitVec.eq_of_toNat_eq; simp; omega
  have e3 : BitVec.ofNat 2 ((BitVec.ofNat 13 n).toNat / 2 ^ 3) = ordCode ord := by apply BitVec.eq_of_toNat_eq; simp; omega
  have e4 : BitVec.ofNat 3 (BitVec.ofNat 13 n).toNat = aop := by apply BitVec.eq_of_toNat_eq; simp; omega
  have e5 : bitsN (BitVec.ofNat 13 n).toNat 0 3 = aop.toNat := by simp [bitsN]; omega
  simp only [Raw.sync, SyncF.raw, guard_raw, specOf_specCode h1, specOf_specCode h2, specOf_specCode h3, specOf_specCode h4,
    Raw.scope, Raw.ord, hn, e1, e2, e3, e4, e5, scopeOf_scopeCode, ordOf_ordCode, and_self]

/-! ### What well-formedness gives -/

theorem anyUsed_false {o : Ops} {fm : Form} {p : Adm → Spec → Bool} (h : anyUsed o fm p = false) :
    (∀ x, fm.d = some x → p x o.d = false) ∧ (∀ x, fm.a = some x → p x o.a = false)
      ∧ (∀ x, fm.b = some x → p x o.b = false) ∧ (∀ x, fm.c = some x → p x o.c = false) := by
  simp only [anyUsed, List.any_cons, List.any_nil, Bool.or_false, Bool.or_eq_false_iff] at h
  obtain ⟨h1, h2, h3, h4⟩ := h
  refine ⟨?_, ?_, ?_, ?_⟩ <;> (intro x hx; simp_all)

theorem plain_of_used {fd : Option Adm} {s : Spec} (h : ∀ x, fd = some x → Adm.isRsv x s = false) (hn : fd = none → s = .vec 0) :
    plainSpec s = true := by
  cases fd with
  | none => rw [hn rfl]; rfl
  | some x =>
    have := h x rfl
    cases s <;> simp_all [Adm.isRsv, plainSpec]

/-- R48, R59: a well-formed instruction names no reserved spec its modifier fields are accepted, and its IMM obeys its layout. -/
theorem wellFormed_fields {i : Instr} {o : Ops} {fm : Form} (h : wellFormed i = true) (hf : formOf 3 i = some (o, fm)) :
    plainOps o = true ∧ fm.mods = true ∧ fm.immOk = true := by
  unfold wellFormed firstCause at h
  rw [hf] at h
  simp only at h
  split at h
  · simp at h
  split at h
  · simp at h
  split at h
  · simp at h
  split at h
  · simp at h
  split at h
  · simp at h
  split at h
  · simp at h
  split at h
  · simp at h
  rename_i _ _ h3 _ _ h6 h7
  have hu := anyUsed_false (by simpa using h3 : anyUsed o fm Adm.isRsv = false)
  have hi : fm.immOk = true := by
    have : badUnused o fm = false := by simpa using h7
    unfold badUnused at this
    simp only [Bool.or_eq_false_iff] at this
    simpa using this.1.2
  have hb : ([(fm.d, o.d), (fm.a, o.a), (fm.b, o.b), (fm.c, o.c)].any fun x => x.1.isNone && x.2 != .vec 0) = false := by
    have : badUnused o fm = false := by simpa using h7
    unfold badUnused at this
    simp only [Bool.or_eq_false_iff] at this
    exact this.1.1
  simp only [List.any_cons, List.any_nil, Bool.or_false, Bool.or_eq_false_iff, Bool.and_eq_false_iff] at hb
  obtain ⟨b1, b2, b3, b4⟩ := hb
  refine ⟨?_, by simpa using h6, hi⟩
  simp only [plainOps, Bool.and_eq_true]
  refine ⟨⟨⟨plain_of_used hu.1 ?_, plain_of_used hu.2.1 ?_⟩, plain_of_used hu.2.2.1 ?_⟩, plain_of_used hu.2.2.2 ?_⟩
  · intro e; rcases b1 with b | b <;> simp_all
  · intro e; rcases b2 with b | b <;> simp_all
  · intro e; rcases b3 with b | b <;> simp_all
  · intro e; rcases b4 with b | b <;> simp_all

end Sys2Proof.Laws
end

