-- ==== Sys2Proof/Laws/Maps.lean ====
section
/-!
SUPPORT. Laws of the sorted association lists: reading after writing, and that each operation keeps the keys rising.
-/
namespace Sys2Proof.Laws

open Sys2Proof.Machine

variable {α : Type}

@[simp] theorem aget_nil (k : Nat) : aget? ([] : List (Nat × α)) k = none := rfl

@[simp] theorem aget_aset_same (m : List (Nat × α)) (k : Nat) (v : α) : aget? (aset m k v) k = some v := by
  induction m with
  | nil => simp [aset, aget?]
  | cons x m ih =>
    obtain ⟨j, w⟩ := x
    simp only [aset]
    split
    · simp [aget?]
    · rename_i h
      split
      · simp [aget?]
      · simp [aget?, h, ih]

theorem aget_aset_other (m : List (Nat × α)) {k j : Nat} (v : α) (h : j ≠ k) : aget? (aset m k v) j = aget? m j := by
  induction m with
  | nil => simp [aset, aget?, Ne.symm h]
  | cons x m ih =>
    obtain ⟨i, w⟩ := x
    simp only [aset]
    split
    · subst i; simp [aget?, Ne.symm h]
    · split
      · simp [aget?, Ne.symm h]
      · simp only [aget?, ih]

theorem aget_aset (m : List (Nat × α)) (k j : Nat) (v : α) :
    aget? (aset m k v) j = if j = k then some v else aget? m j := by
  split
  · subst j; simp
  · exact aget_aset_other m v ‹_›

theorem sortedFrom_le {lo lo' : Nat} {m : List (Nat × α)} (h : sortedFrom lo m = true) (hl : lo' ≤ lo) :
    sortedFrom lo' m = true := by
  cases m with
  | nil => rfl
  | cons x m =>
    simp only [sortedFrom, Bool.and_eq_true, decide_eq_true_eq] at *
    exact ⟨by omega, h.2⟩

/-- Below its lowest key a sorted list has no entry. -/
theorem aget_below {lo k : Nat} {m : List (Nat × α)} (h : sortedFrom lo m = true) (hk : k < lo) : aget? m k = none := by
  induction m generalizing lo with
  | nil => rfl
  | cons x m ih =>
    simp only [sortedFrom, Bool.and_eq_true, decide_eq_true_eq] at h
    have h1 : x.1 ≠ k := by omega
    simpa [aget?, h1] using ih h.2 (by omega)

theorem sortedFrom_aset {lo k : Nat} {m : List (Nat × α)} (v : α) (h : sortedFrom lo m = true) (hk : lo ≤ k) :
    sortedFrom lo (aset m k v) = true := by
  induction m generalizing lo with
  | nil => simp [aset, sortedFrom, hk]
  | cons x m ih =>
    obtain ⟨j, w⟩ := x
    simp only [sortedFrom, Bool.and_eq_true, decide_eq_true_eq] at h
    simp only [aset]
    split
    · subst j; simp [sortedFrom, h.1, h.2]
    · split
      · simp only [sortedFrom, Bool.and_eq_true, decide_eq_true_eq]; exact ⟨hk, by omega, h.2⟩
      · simp only [sortedFrom, Bool.and_eq_true, decide_eq_true_eq]; exact ⟨h.1, ih h.2 (by omega)⟩

theorem sortedFrom_filter {lo : Nat} {m : List (Nat × α)} (p : Nat × α → Bool) (h : sortedFrom lo m = true) :
    sortedFrom lo (m.filter p) = true := by
  induction m generalizing lo with
  | nil => rfl
  | cons x m ih =>
    obtain ⟨j, w⟩ := x
    simp only [sortedFrom, Bool.and_eq_true, decide_eq_true_eq] at h
    simp only [List.filter_cons]
    split
    · simp only [sortedFrom, Bool.and_eq_true, decide_eq_true_eq]; exact ⟨h.1, ih h.2⟩
    · exact sortedFrom_le (ih h.2) (by omega)

theorem sortedFrom_adel {lo : Nat} {m : List (Nat × α)} (k : Nat) (h : sortedFrom lo m = true) :
    sortedFrom lo (adel m k) = true := sortedFrom_filter _ h

@[simp] theorem aget_adel_same (m : List (Nat × α)) (k : Nat) : aget? (adel m k) k = none := by
  induction m with
  | nil => rfl
  | cons x m ih =>
    by_cases h : x.1 = k
    · simpa [adel, List.filter_cons, h] using ih
    · simpa [adel, List.filter_cons, h, aget?] using ih

theorem aget_adel_other (m : List (Nat × α)) {k j : Nat} (h : j ≠ k) : aget? (adel m k) j = aget? m j := by
  induction m with
  | nil => rfl
  | cons x m ih =>
    by_cases hk : x.1 = k
    · simpa [adel, List.filter_cons, hk, aget?, Ne.symm h] using ih
    · by_cases hj : x.1 = j
      · simp [adel, aget?, hj, h]
      · simpa [adel, List.filter_cons, hk, aget?, hj] using ih

/-- What a list holds at a key is one of its entries. -/
theorem mem_of_aget {m : List (Nat × α)} {k : Nat} {v : α} (h : aget? m k = some v) : (k, v) ∈ m := by
  induction m with
  | nil => simp [aget?] at h
  | cons x m ih =>
    obtain ⟨j, w⟩ := x
    simp only [aget?] at h
    split at h
    · subst j; simp only [Option.some.injEq] at h; simp [h]
    · exact List.mem_cons_of_mem _ (ih h)

/-- An entry of a sorted list is what the list holds at its key. -/
theorem aget_of_mem {lo : Nat} {m : List (Nat × α)} {k : Nat} {v : α} (h : sortedFrom lo m = true) (hm : (k, v) ∈ m) :
    aget? m k = some v := by
  induction m generalizing lo with
  | nil => simp at hm
  | cons x m ih =>
    obtain ⟨j, w⟩ := x
    simp only [sortedFrom, Bool.and_eq_true, decide_eq_true_eq] at h
    rcases List.mem_cons.1 hm with e | e
    · obtain ⟨rfl, rfl⟩ := Prod.mk.inj e; simp [aget?]
    · have hk := ih h.2 e
      have hne : j ≠ k := fun he => by rw [aget_below h.2 (by omega)] at hk; cases hk
      simp [aget?, hne, hk]

theorem aget_map (m : List (Nat × α)) (f : Nat → α → α) (k : Nat) :
    aget? (m.map fun x => (x.1, f x.1 x.2)) k = (aget? m k).map (f k) := by
  induction m with
  | nil => rfl
  | cons x m ih =>
    obtain ⟨j, w⟩ := x
    simp only [List.map_cons, aget?]
    split
    · subst j; rfl
    · exact ih

theorem sortedFrom_map {β : Type} {lo : Nat} {m : List (Nat × α)} (f : Nat × α → β) (h : sortedFrom lo m = true) :
    sortedFrom lo (m.map fun x => (x.1, f x)) = true := by
  induction m generalizing lo with
  | nil => rfl
  | cons x m ih =>
    simp only [sortedFrom, Bool.and_eq_true, decide_eq_true_eq, List.map_cons] at *
    exact ⟨h.1, ih h.2⟩

theorem sortedFrom_aupd {lo : Nat} {m : List (Nat × α)} (k : Nat) (f : α → α) (h : sortedFrom lo m = true) :
    sortedFrom lo (aupd m k f) = true := by
  unfold aupd
  split
  · rename_i v hv
    have hlo : lo ≤ k := by
      rcases Nat.lt_or_ge k lo with hl | hl
      · rw [aget_below h hl] at hv; cases hv
      · exact hl
    exact sortedFrom_aset _ h hlo
  · exact h

theorem aget_aupd_same (m : List (Nat × α)) (k : Nat) (f : α → α) : aget? (aupd m k f) k = (aget? m k).map f := by
  unfold aupd
  split
  · rename_i v hv; simp [hv]
  · rename_i hv; simp [hv]

theorem aget_aupd_other (m : List (Nat × α)) {k j : Nat} (f : α → α) (h : j ≠ k) : aget? (aupd m k f) j = aget? m j := by
  unfold aupd
  split
  · exact aget_aset_other m _ h
  · rfl

/-- The total view of a map: what stands at a key after a write. -/
theorem mget_mset [DecidableEq α] (d : α) (m : List (Nat × α)) (k j : Nat) (v : α) :
    mget d (mset d m k v) j = if j = k then v else mget d m j := by
  unfold mget mset
  by_cases hj : j = k
  · subst j
    split
    · simp [*]
    · simp
  · simp only [hj, if_false]
    split
    · rw [aget_adel_other m hj]
    · rw [aget_aset_other m v hj]

theorem sortedFrom_mset [DecidableEq α] (d : α) {lo k : Nat} {m : List (Nat × α)} (v : α) (h : sortedFrom lo m = true) (hk : lo ≤ k) :
    sortedFrom lo (mset d m k v) = true := by
  unfold mset
  split
  · exact sortedFrom_adel k h
  · exact sortedFrom_aset v h hk

/-- `n` consecutive numbers: which they are. -/
theorem mem_from {a n x : Nat} : x ∈ from_ a n ↔ a ≤ x ∧ x < a + n := by
  induction n generalizing a with
  | zero => simp [from_]
  | succ n ih => simp only [from_, List.mem_cons, ih]; omega

@[simp] theorem length_from (a n : Nat) : (from_ a n).length = n := by
  induction n generalizing a with
  | zero => rfl
  | succ n ih => simp [from_, ih]

@[simp] theorem length_bytesLE (n x : Nat) : (bytesLE n x).length = n := by
  induction n generalizing x with
  | zero => rfl
  | succ n ih => simp [bytesLE, ih]

/-- R3: little-endian bytes, read back. -/
theorem leNat_bytesLE (n x : Nat) : leNat (bytesLE n x) = x % 256 ^ n := by
  induction n generalizing x with
  | zero => simp [bytesLE, leNat, Nat.mod_one]
  | succ n ih =>
    simp only [bytesLE, leNat, ih, BitVec.toNat_ofNat]
    rw [show (2 : Nat) ^ 8 = 256 from rfl, Nat.pow_succ, Nat.mul_comm (256 ^ n) 256, Nat.mod_mul]

end Sys2Proof.Laws
end

