-- ==== Sys2Proof/Laws/Memory.lean ====
section
/-!
SUPPORT. Laws of memory: reading after writing, and that every memory operation keeps the canonical form.
-/
namespace Sys2Proof.Laws

open Sys2Proof.Machine

theorem wf_iff (m : List Host.Cell) :
    Memory.wf m = true ↔ sortedFrom 0 m = true ∧ ∀ c ∈ m, unlisted c.1 ≠ some c.2 := by
  simp [Memory.wf, List.all_eq_true]

@[simp] theorem memRead_memWrite_same (m : List Host.Cell) (a : Nat) (b : Byte) : memRead (memWrite m a b) a = b := by
  unfold memWrite
  split
  · rename_i hu; simp [memRead, hu]
  · simp [memRead]

theorem memRead_memWrite_other (m : List Host.Cell) {a x : Nat} (b : Byte) (hx : x ≠ a) :
    memRead (memWrite m a b) x = memRead m x := by
  unfold memWrite
  split
  · rw [memRead, aget_adel_other m hx, memRead]
  · rw [memRead, aget_aset_other m b hx, memRead]

theorem mem_adel {α : Type} {m : List (Nat × α)} {k : Nat} {c : Nat × α} (h : c ∈ adel m k) : c ∈ m := (List.mem_filter.1 h).1

theorem mem_aset {α : Type} {m : List (Nat × α)} {k : Nat} {v : α} {c : Nat × α} (h : c ∈ aset m k v) : c = (k, v) ∨ c ∈ m := by
  induction m with
  | nil => simp [aset] at h; exact .inl h
  | cons x m ih =>
    simp only [aset] at h
    split at h
    · rcases List.mem_cons.1 h with e | e
      · exact .inl e
      · exact .inr (List.mem_cons_of_mem _ e)
    · split at h
      · rcases List.mem_cons.1 h with e | e
        · exact .inl e
        · exact .inr e
      · rcases List.mem_cons.1 h with e | e
        · exact .inr (e ▸ List.mem_cons_self ..)
        · exact (ih e).imp id (List.mem_cons_of_mem _)

theorem memWrite_wf {m : List Host.Cell} (a : Nat) (b : Byte) (h : Memory.wf m = true) : Memory.wf (memWrite m a b) = true := by
  obtain ⟨hs, ha⟩ := (wf_iff m).1 h
  unfold memWrite
  split
  · exact (wf_iff _).2 ⟨sortedFrom_adel a hs, fun c hc => ha c (mem_adel hc)⟩
  · rename_i hu
    refine (wf_iff _).2 ⟨sortedFrom_aset b hs (Nat.zero_le a), fun c hc => ?_⟩
    rcases mem_aset hc with e | e
    · rw [e]; exact hu
    · exact ha c e

theorem memFilter_wf {m : List Host.Cell} (p : Host.Cell → Bool) (h : Memory.wf m = true) : Memory.wf (m.filter p) = true := by
  obtain ⟨hs, ha⟩ := (wf_iff m).1 h
  exact (wf_iff _).2 ⟨sortedFrom_filter p hs, fun c hc => ha c ((List.mem_filter.1 hc).1)⟩

/-- Writing a list of bytes one after the other. -/
theorem foldl_memWrite_wf {β : Type} (l : List β) (f : β → Nat) (g : β → Byte) {m : List Host.Cell} (h : Memory.wf m = true) :
    Memory.wf (l.foldl (fun m b => memWrite m (f b) (g b)) m) = true := by
  induction l generalizing m with
  | nil => exact h
  | cons x l ih => exact ih (memWrite_wf _ _ h)

/-- Away from the places that are written, memory reads as before. -/
theorem memRead_foldl_other {β : Type} (l : List β) (f : β → Nat) (g : β → Byte) (m : List Host.Cell) {x : Nat}
    (hx : ∀ b ∈ l, f b ≠ x) : memRead (l.foldl (fun m b => memWrite m (f b) (g b)) m) x = memRead m x := by
  induction l generalizing m with
  | nil => rfl
  | cons b l ih =>
    rw [List.foldl_cons, ih _ (fun c hc => hx c (List.mem_cons_of_mem _ hc)),
      memRead_memWrite_other _ _ (Ne.symm (hx b (List.mem_cons_self ..)))]

/-- Where every write at a place writes the byte that stands there, it reads as before. -/
theorem memRead_foldl_keep {β : Type} (l : List β) (f : β → Nat) (g : β → Byte) {m : List Host.Cell} {x : Nat} {v : Byte}
    (hv : memRead m x = v) (hu : ∀ c ∈ l, f c = x → g c = v) :
    memRead (l.foldl (fun m b => memWrite m (f b) (g b)) m) x = v := by
  induction l generalizing m with
  | nil => exact hv
  | cons c l ih =>
    refine ih ?_ (fun d hd => hu d (List.mem_cons_of_mem _ hd))
    by_cases hc : f c = x
    · rw [← hc, memRead_memWrite_same]; exact hu c (List.mem_cons_self ..) hc
    · rw [memRead_memWrite_other _ _ (Ne.symm hc), hv]

/-- At a place where all writes write one byte, memory reads that byte. -/
theorem memRead_foldl_one {β : Type} (l : List β) (f : β → Nat) (g : β → Byte) (m : List Host.Cell) {b : β}
    (hb : b ∈ l) (hu : ∀ c ∈ l, f c = f b → g c = g b) :
    memRead (l.foldl (fun m b => memWrite m (f b) (g b)) m) (f b) = g b := by
  induction l generalizing m with
  | nil => cases hb
  | cons c l ih =>
    rcases List.mem_cons.1 hb with e | e
    · subst e
      exact memRead_foldl_keep l f g (memRead_memWrite_same ..) fun d hd => hu d (List.mem_cons_of_mem _ hd)
    · exact ih _ e fun d hd => hu d (List.mem_cons_of_mem _ hd)

theorem sortedFrom_append {α : Type} {lo mid : Nat} {a b : List (Nat × α)} (ha : sortedFrom lo a = true)
    (hm : ∀ c ∈ a, c.1 < mid) (hb : sortedFrom mid b = true) (hl : lo ≤ mid) : sortedFrom lo (a ++ b) = true := by
  induction a generalizing lo with
  | nil => exact sortedFrom_le hb hl
  | cons x a ih =>
    simp only [sortedFrom, Bool.and_eq_true, decide_eq_true_eq, List.cons_append] at *
    exact ⟨ha.1, ih ha.2 (fun c hc => hm c (List.mem_cons_of_mem _ hc)) (hm x (List.mem_cons_self ..))⟩

theorem sortedFrom_zip_from (a : Nat) {β : Type} (bs : List β) : sortedFrom a ((from_ a bs.length).zip bs) = true := by
  induction bs generalizing a with
  | nil => rfl
  | cons b bs ih => simp [from_, sortedFrom, ih]

theorem zip_from_lt {a : Nat} {β : Type} {bs : List β} {c : Nat × β} (h : c ∈ (from_ a bs.length).zip bs) :
    a ≤ c.1 ∧ c.1 < a + bs.length := mem_from.1 (List.of_mem_zip h).1

theorem sortedFrom_above {α : Type} {lo mid : Nat} {m : List (Nat × α)} (h : sortedFrom lo m = true) :
    sortedFrom mid (m.filter fun c => decide (mid ≤ c.1)) = true := by
  induction m generalizing lo with
  | nil => rfl
  | cons x m ih =>
    simp only [sortedFrom, Bool.and_eq_true, decide_eq_true_eq] at h
    simp only [List.filter_cons, decide_eq_true_eq]
    split
    · rename_i hx
      simp only [sortedFrom, Bool.and_eq_true, decide_eq_true_eq]
      refine ⟨hx, ?_⟩
      have : m.filter (fun c => decide (mid ≤ c.1)) = m.filter (fun c => decide (x.1 + 1 ≤ c.1) && decide (mid ≤ c.1)) := by
        apply List.filter_congr
        intro c hc
        have : x.1 + 1 ≤ c.1 := by
          clear ih
          have h2 := h.2
          clear h hx
          generalize x.1 + 1 = l at *
          induction m generalizing l with
          | nil => simp at hc
          | cons y m ih' =>
            simp only [sortedFrom, Bool.and_eq_true, decide_eq_true_eq] at h2
            rcases List.mem_cons.1 hc with e | e
            · subst e; exact h2.1
            · exact ih' e l (sortedFrom_le h2.2 (by omega))
        simp [this]
      rw [this]
      have hsort := sortedFrom_filter (fun c => decide (mid ≤ c.1)) h.2
      rwa [this] at hsort
    · exact ih h.2

theorem memFill_wf {m : List Host.Cell} (a : Nat) (bs : List Byte) (h : Memory.wf m = true) : Memory.wf (memFill m a bs) = true := by
  obtain ⟨hs, ha⟩ := (wf_iff m).1 h
  refine (wf_iff _).2 ⟨?_, ?_⟩
  · unfold memFill
    rw [List.append_assoc]
    refine sortedFrom_append (mid := a) (sortedFrom_filter _ hs) (fun c hc => by simpa using (List.mem_filter.1 hc).2) ?_ (Nat.zero_le a)
    refine sortedFrom_append (mid := a + bs.length) (sortedFrom_filter _ (sortedFrom_zip_from a bs))
      (fun c hc => (zip_from_lt ((List.mem_filter.1 hc).1)).2) (sortedFrom_above hs) (by omega)
  · intro c hc
    simp only [memFill, List.mem_append, List.mem_filter] at hc
    rcases hc with (hc | hc) | hc
    · exact ha c hc.1
    · simpa using hc.2
    · exact ha c hc.1

/-- The stamps after a list of writes to single granules keep their keys rising. -/
theorem foldl_aset_sorted {α β : Type} (l : List β) (f : β → Nat) (g : β → α) {m : List (Nat × α)} (h : sortedFrom 0 m = true) :
    sortedFrom 0 (l.foldl (fun m x => aset m (f x) (g x)) m) = true := by
  induction l generalizing m with
  | nil => exact h
  | cons x l ih => exact ih (sortedFrom_aset _ h (Nat.zero_le _))

/-- Reading a run in one pass is reading its bytes one by one. -/
theorem aget_dropWhile {α : Type} {lo a k : Nat} {m : List (Nat × α)} (h : sortedFrom lo m = true) (hk : a < k) :
    aget? (m.dropWhile fun c => decide (c.1 ≤ a)) k = aget? m k := by
  induction m generalizing lo with
  | nil => rfl
  | cons x m ih =>
    simp only [sortedFrom, Bool.and_eq_true, decide_eq_true_eq] at h
    simp only [List.dropWhile_cons, decide_eq_true_eq]
    split
    · rename_i hx
      rw [ih h.2]
      have h1 : x.1 ≠ k := by omega
      simp [aget?, h1]
    · rfl

theorem sortedFrom_dropWhile {α : Type} {lo : Nat} {m : List (Nat × α)} (p : Nat × α → Bool) (h : sortedFrom lo m = true) :
    sortedFrom lo (m.dropWhile p) = true := by
  induction m generalizing lo with
  | nil => rfl
  | cons x m ih =>
    have h' := h
    simp only [sortedFrom, Bool.and_eq_true, decide_eq_true_eq] at h'
    simp only [List.dropWhile_cons]
    split
    · exact sortedFrom_le (ih h'.2) (by omega)
    · exact h

theorem memRun_eq {m : List Host.Cell} {lo : Nat} (a n : Nat) (h : sortedFrom lo m = true) : memRun m a n = (from_ a n).map (memRead m) := by
  induction n generalizing m a with
  | zero => rfl
  | succ n ih =>
    simp only [memRun, from_, List.map_cons, ih _ (sortedFrom_dropWhile _ h), List.cons.injEq, true_and]
    apply List.map_congr_left
    intro x hx
    unfold memRead
    rw [aget_dropWhile h (by have := (mem_from.1 hx).1; omega)]

/-- R244: committing writes keeps the canonical form. -/
theorem commit_wf (s : State) (core : Nat) (timeless : Bool) (reqs : List WReq) (h : Memory.wf s.mem = true) :
    Memory.wf (s.commit core timeless reqs).mem = true := foldl_memWrite_wf _ _ _ h

theorem commit_stamps_sorted (s : State) (core : Nat) (timeless : Bool) (reqs : List WReq) (h : sortedFrom 0 s.stamps = true) :
    sortedFrom 0 (s.commit core timeless reqs).stamps = true := foldl_aset_sorted _ _ _ h

/-- R244: a byte that no committed write names reads as before. -/
theorem commit_other (s : State) (core : Nat) (timeless : Bool) (reqs : List WReq) (x : Nat)
    (hx : ∀ r ∈ reqs, ∀ b ∈ r.bytes, b.1 ≠ x) : (s.commit core timeless reqs).byteAt x = s.byteAt x := by
  refine memRead_foldl_other _ _ _ _ fun b hb => ?_
  obtain ⟨r, hr, hbr⟩ := List.mem_flatMap.1 (List.mem_filter.1 hb).1
  exact hx r hr b hbr

/-- R244: everything but memory, stamps, errors and the home order stands as it was. -/
theorem commit_rest (s : State) (core : Nat) (timeless : Bool) (reqs : List WReq) :
    s.commit core timeless reqs = { s with mem := (s.commit core timeless reqs).mem, stamps := (s.commit core timeless reqs).stamps
                                           ue := (s.commit core timeless reqs).ue, hist := (s.commit core timeless reqs).hist } := rfl

theorem sysWrite_wf (s : State) (core : Nat) (timeless : Bool) (bytes : List (Nat × (Byte × Stamp))) (carry : List Nat)
    (h : Memory.wf s.mem = true) : Memory.wf (s.sysWrite core timeless bytes carry).1.mem = true := commit_wf _ _ _ _ h

theorem sysWrite_other (s : State) (core : Nat) (timeless : Bool) (bytes : List (Nat × (Byte × Stamp))) (carry : List Nat) (x : Nat)
    (hx : ∀ b ∈ bytes, b.1 ≠ x) :
    (s.sysWrite core timeless bytes carry).1.byteAt x = s.byteAt x :=
  commit_other s.bump _ _ _ _ fun r hr b hb => by
    simp only [List.mem_singleton] at hr
    subst hr
    exact hx b hb

/-- The memory of the device right after reset is canonical. -/
theorem reset_wf : Memory.wf State.reset.mem = true := rfl

end Sys2Proof.Laws
end

