-- ==== Sys2Proof/Laws/State.lean ====
section
/-!
SUPPORT. Reading a field of the state after each of its updates: one lemma for each field of each update, true by unfolding,
and what the readers of slots, fibres, teams and launches give after a write.
-/
namespace Sys2Proof.Laws

open Sys2Proof.Machine

/-! ### setSlot -/

section
variable (s : State) (g : Nat) (x : Slot)

@[simp] theorem setSlot_clock : (s.setSlot g x).clock = s.clock := rfl
@[simp] theorem setSlot_free : (s.setSlot g x).free = s.free := rfl
@[simp] theorem setSlot_uid : (s.setSlot g x).uid = s.uid := rfl
@[simp] theorem setSlot_agenda : (s.setSlot g x).agenda = s.agenda := rfl
@[simp] theorem setSlot_cur : (s.setSlot g x).cur = s.cur := rfl
@[simp] theorem setSlot_mem : (s.setSlot g x).mem = s.mem := rfl
@[simp] theorem setSlot_stamps : (s.setSlot g x).stamps = s.stamps := rfl
@[simp] theorem setSlot_ue : (s.setSlot g x).ue = s.ue := rfl
@[simp] theorem setSlot_hist : (s.setSlot g x).hist = s.hist := rfl
@[simp] theorem setSlot_scSet : (s.setSlot g x).scSet = s.scSet := rfl
@[simp] theorem setSlot_sysKnow : (s.setSlot g x).sysKnow = s.sysKnow := rfl
@[simp] theorem setSlot_hostKnow : (s.setSlot g x).hostKnow = s.hostKnow := rfl
@[simp] theorem setSlot_ptes : (s.setSlot g x).ptes = s.ptes := rfl
@[simp] theorem setSlot_slots : (s.setSlot g x).slots = aset s.slots g x := rfl
@[simp] theorem setSlot_fibres : (s.setSlot g x).fibres = s.fibres := rfl
@[simp] theorem setSlot_teams : (s.setSlot g x).teams = s.teams := rfl
@[simp] theorem setSlot_launches : (s.setSlot g x).launches = s.launches := rfl
@[simp] theorem setSlot_ops : (s.setSlot g x).ops = s.ops := rfl
@[simp] theorem setSlot_quarters : (s.setSlot g x).quarters = s.quarters := rfl
@[simp] theorem setSlot_chunks : (s.setSlot g x).chunks = s.chunks := rfl
@[simp] theorem setSlot_clusters : (s.setSlot g x).clusters = s.clusters := rfl
@[simp] theorem setSlot_queues : (s.setSlot g x).queues = s.queues := rfl
@[simp] theorem setSlot_parts : (s.setSlot g x).parts = s.parts := rfl
@[simp] theorem setSlot_dies : (s.setSlot g x).dies = s.dies := rfl
@[simp] theorem setSlot_graphs : (s.setSlot g x).graphs = s.graphs := rfl
@[simp] theorem setSlot_runs : (s.setSlot g x).runs = s.runs := rfl
@[simp] theorem setSlot_control : (s.setSlot g x).control = s.control := rfl
@[simp] theorem setSlot_trees : (s.setSlot g x).trees = s.trees := rfl
@[simp] theorem setSlot_ports : (s.setSlot g x).ports = s.ports := rfl
@[simp] theorem setSlot_grants : (s.setSlot g x).grants = s.grants := rfl
@[simp] theorem setSlot_asked : (s.setSlot g x).asked = s.asked := rfl
@[simp] theorem setSlot_denied : (s.setSlot g x).denied = s.denied := rfl
@[simp] theorem setSlot_storage : (s.setSlot g x).storage = s.storage := rfl
@[simp] theorem setSlot_outFlits : (s.setSlot g x).outFlits = s.outFlits := rfl
@[simp] theorem setSlot_turnAt : (s.setSlot g x).turnAt = s.turnAt := rfl
@[simp] theorem setSlot_heldFlits : (s.setSlot g x).heldFlits = s.heldFlits := rfl
@[simp] theorem setSlot_farRel : (s.setSlot g x).farRel = s.farRel := rfl
@[simp] theorem setSlot_farKnow : (s.setSlot g x).farKnow = s.farKnow := rfl
@[simp] theorem setSlot_far : (s.setSlot g x).far = s.far := rfl
@[simp] theorem setSlot_module : (s.setSlot g x).module = s.module := rfl

end

/-! ### setFibre -/

section
variable (s : State) (f : Nat) (x : Fibre)

@[simp] theorem setFibre_clock : (s.setFibre f x).clock = s.clock := rfl
@[simp] theorem setFibre_free : (s.setFibre f x).free = s.free := rfl
@[simp] theorem setFibre_uid : (s.setFibre f x).uid = s.uid := rfl
@[simp] theorem setFibre_agenda : (s.setFibre f x).agenda = s.agenda := rfl
@[simp] theorem setFibre_cur : (s.setFibre f x).cur = s.cur := rfl
@[simp] theorem setFibre_mem : (s.setFibre f x).mem = s.mem := rfl
@[simp] theorem setFibre_stamps : (s.setFibre f x).stamps = s.stamps := rfl
@[simp] theorem setFibre_ue : (s.setFibre f x).ue = s.ue := rfl
@[simp] theorem setFibre_hist : (s.setFibre f x).hist = s.hist := rfl
@[simp] theorem setFibre_scSet : (s.setFibre f x).scSet = s.scSet := rfl
@[simp] theorem setFibre_sysKnow : (s.setFibre f x).sysKnow = s.sysKnow := rfl
@[simp] theorem setFibre_hostKnow : (s.setFibre f x).hostKnow = s.hostKnow := rfl
@[simp] theorem setFibre_ptes : (s.setFibre f x).ptes = s.ptes := rfl
@[simp] theorem setFibre_slots : (s.setFibre f x).slots = s.slots := rfl
@[simp] theorem setFibre_fibres : (s.setFibre f x).fibres = aset s.fibres f x := rfl
@[simp] theorem setFibre_teams : (s.setFibre f x).teams = s.teams := rfl
@[simp] theorem setFibre_launches : (s.setFibre f x).launches = s.launches := rfl
@[simp] theorem setFibre_ops : (s.setFibre f x).ops = s.ops := rfl
@[simp] theorem setFibre_quarters : (s.setFibre f x).quarters = s.quarters := rfl
@[simp] theorem setFibre_chunks : (s.setFibre f x).chunks = s.chunks := rfl
@[simp] theorem setFibre_clusters : (s.setFibre f x).clusters = s.clusters := rfl
@[simp] theorem setFibre_queues : (s.setFibre f x).queues = s.queues := rfl
@[simp] theorem setFibre_parts : (s.setFibre f x).parts = s.parts := rfl
@[simp] theorem setFibre_dies : (s.setFibre f x).dies = s.dies := rfl
@[simp] theorem setFibre_graphs : (s.setFibre f x).graphs = s.graphs := rfl
@[simp] theorem setFibre_runs : (s.setFibre f x).runs = s.runs := rfl
@[simp] theorem setFibre_control : (s.setFibre f x).control = s.control := rfl
@[simp] theorem setFibre_trees : (s.setFibre f x).trees = s.trees := rfl
@[simp] theorem setFibre_ports : (s.setFibre f x).ports = s.ports := rfl
@[simp] theorem setFibre_grants : (s.setFibre f x).grants = s.grants := rfl
@[simp] theorem setFibre_asked : (s.setFibre f x).asked = s.asked := rfl
@[simp] theorem setFibre_denied : (s.setFibre f x).denied = s.denied := rfl
@[simp] theorem setFibre_storage : (s.setFibre f x).storage = s.storage := rfl
@[simp] theorem setFibre_outFlits : (s.setFibre f x).outFlits = s.outFlits := rfl
@[simp] theorem setFibre_turnAt : (s.setFibre f x).turnAt = s.turnAt := rfl
@[simp] theorem setFibre_heldFlits : (s.setFibre f x).heldFlits = s.heldFlits := rfl
@[simp] theorem setFibre_farRel : (s.setFibre f x).farRel = s.farRel := rfl
@[simp] theorem setFibre_farKnow : (s.setFibre f x).farKnow = s.farKnow := rfl
@[simp] theorem setFibre_far : (s.setFibre f x).far = s.far := rfl
@[simp] theorem setFibre_module : (s.setFibre f x).module = s.module := rfl

end

/-! ### setTeam -/

section
variable (s : State) (t : Nat) (x : Team)

@[simp] theorem setTeam_clock : (s.setTeam t x).clock = s.clock := rfl
@[simp] theorem setTeam_free : (s.setTeam t x).free = s.free := rfl
@[simp] theorem setTeam_uid : (s.setTeam t x).uid = s.uid := rfl
@[simp] theorem setTeam_agenda : (s.setTeam t x).agenda = s.agenda := rfl
@[simp] theorem setTeam_cur : (s.setTeam t x).cur = s.cur := rfl
@[simp] theorem setTeam_mem : (s.setTeam t x).mem = s.mem := rfl
@[simp] theorem setTeam_stamps : (s.setTeam t x).stamps = s.stamps := rfl
@[simp] theorem setTeam_ue : (s.setTeam t x).ue = s.ue := rfl
@[simp] theorem setTeam_hist : (s.setTeam t x).hist = s.hist := rfl
@[simp] theorem setTeam_scSet : (s.setTeam t x).scSet = s.scSet := rfl
@[simp] theorem setTeam_sysKnow : (s.setTeam t x).sysKnow = s.sysKnow := rfl
@[simp] theorem setTeam_hostKnow : (s.setTeam t x).hostKnow = s.hostKnow := rfl
@[simp] theorem setTeam_ptes : (s.setTeam t x).ptes = s.ptes := rfl
@[simp] theorem setTeam_slots : (s.setTeam t x).slots = s.slots := rfl
@[simp] theorem setTeam_fibres : (s.setTeam t x).fibres = s.fibres := rfl
@[simp] theorem setTeam_teams : (s.setTeam t x).teams = aset s.teams t x := rfl
@[simp] theorem setTeam_launches : (s.setTeam t x).launches = s.launches := rfl
@[simp] theorem setTeam_ops : (s.setTeam t x).ops = s.ops := rfl
@[simp] theorem setTeam_quarters : (s.setTeam t x).quarters = s.quarters := rfl
@[simp] theorem setTeam_chunks : (s.setTeam t x).chunks = s.chunks := rfl
@[simp] theorem setTeam_clusters : (s.setTeam t x).clusters = s.clusters := rfl
@[simp] theorem setTeam_queues : (s.setTeam t x).queues = s.queues := rfl
@[simp] theorem setTeam_parts : (s.setTeam t x).parts = s.parts := rfl
@[simp] theorem setTeam_dies : (s.setTeam t x).dies = s.dies := rfl
@[simp] theorem setTeam_graphs : (s.setTeam t x).graphs = s.graphs := rfl
@[simp] theorem setTeam_runs : (s.setTeam t x).runs = s.runs := rfl
@[simp] theorem setTeam_control : (s.setTeam t x).control = s.control := rfl
@[simp] theorem setTeam_trees : (s.setTeam t x).trees = s.trees := rfl
@[simp] theorem setTeam_ports : (s.setTeam t x).ports = s.ports := rfl
@[simp] theorem setTeam_grants : (s.setTeam t x).grants = s.grants := rfl
@[simp] theorem setTeam_asked : (s.setTeam t x).asked = s.asked := rfl
@[simp] theorem setTeam_denied : (s.setTeam t x).denied = s.denied := rfl
@[simp] theorem setTeam_storage : (s.setTeam t x).storage = s.storage := rfl
@[simp] theorem setTeam_outFlits : (s.setTeam t x).outFlits = s.outFlits := rfl
@[simp] theorem setTeam_turnAt : (s.setTeam t x).turnAt = s.turnAt := rfl
@[simp] theorem setTeam_heldFlits : (s.setTeam t x).heldFlits = s.heldFlits := rfl
@[simp] theorem setTeam_farRel : (s.setTeam t x).farRel = s.farRel := rfl
@[simp] theorem setTeam_farKnow : (s.setTeam t x).farKnow = s.farKnow := rfl
@[simp] theorem setTeam_far : (s.setTeam t x).far = s.far := rfl
@[simp] theorem setTeam_module : (s.setTeam t x).module = s.module := rfl

end

/-! ### setLaunch -/

section
variable (s : State) (l : Nat) (x : Launch)

@[simp] theorem setLaunch_clock : (s.setLaunch l x).clock = s.clock := rfl
@[simp] theorem setLaunch_free : (s.setLaunch l x).free = s.free := rfl
@[simp] theorem setLaunch_uid : (s.setLaunch l x).uid = s.uid := rfl
@[simp] theorem setLaunch_agenda : (s.setLaunch l x).agenda = s.agenda := rfl
@[simp] theorem setLaunch_cur : (s.setLaunch l x).cur = s.cur := rfl
@[simp] theorem setLaunch_mem : (s.setLaunch l x).mem = s.mem := rfl
@[simp] theorem setLaunch_stamps : (s.setLaunch l x).stamps = s.stamps := rfl
@[simp] theorem setLaunch_ue : (s.setLaunch l x).ue = s.ue := rfl
@[simp] theorem setLaunch_hist : (s.setLaunch l x).hist = s.hist := rfl
@[simp] theorem setLaunch_scSet : (s.setLaunch l x).scSet = s.scSet := rfl
@[simp] theorem setLaunch_sysKnow : (s.setLaunch l x).sysKnow = s.sysKnow := rfl
@[simp] theorem setLaunch_hostKnow : (s.setLaunch l x).hostKnow = s.hostKnow := rfl
@[simp] theorem setLaunch_ptes : (s.setLaunch l x).ptes = s.ptes := rfl
@[simp] theorem setLaunch_slots : (s.setLaunch l x).slots = s.slots := rfl
@[simp] theorem setLaunch_fibres : (s.setLaunch l x).fibres = s.fibres := rfl
@[simp] theorem setLaunch_teams : (s.setLaunch l x).teams = s.teams := rfl
@[simp] theorem setLaunch_launches : (s.setLaunch l x).launches = aset s.launches l x := rfl
@[simp] theorem setLaunch_ops : (s.setLaunch l x).ops = s.ops := rfl
@[simp] theorem setLaunch_quarters : (s.setLaunch l x).quarters = s.quarters := rfl
@[simp] theorem setLaunch_chunks : (s.setLaunch l x).chunks = s.chunks := rfl
@[simp] theorem setLaunch_clusters : (s.setLaunch l x).clusters = s.clusters := rfl
@[simp] theorem setLaunch_queues : (s.setLaunch l x).queues = s.queues := rfl
@[simp] theorem setLaunch_parts : (s.setLaunch l x).parts = s.parts := rfl
@[simp] theorem setLaunch_dies : (s.setLaunch l x).dies = s.dies := rfl
@[simp] theorem setLaunch_graphs : (s.setLaunch l x).graphs = s.graphs := rfl
@[simp] theorem setLaunch_runs : (s.setLaunch l x).runs = s.runs := rfl
@[simp] theorem setLaunch_control : (s.setLaunch l x).control = s.control := rfl
@[simp] theorem setLaunch_trees : (s.setLaunch l x).trees = s.trees := rfl
@[simp] theorem setLaunch_ports : (s.setLaunch l x).ports = s.ports := rfl
@[simp] theorem setLaunch_grants : (s.setLaunch l x).grants = s.grants := rfl
@[simp] theorem setLaunch_asked : (s.setLaunch l x).asked = s.asked := rfl
@[simp] theorem setLaunch_denied : (s.setLaunch l x).denied = s.denied := rfl
@[simp] theorem setLaunch_storage : (s.setLaunch l x).storage = s.storage := rfl
@[simp] theorem setLaunch_outFlits : (s.setLaunch l x).outFlits = s.outFlits := rfl
@[simp] theorem setLaunch_turnAt : (s.setLaunch l x).turnAt = s.turnAt := rfl
@[simp] theorem setLaunch_heldFlits : (s.setLaunch l x).heldFlits = s.heldFlits := rfl
@[simp] theorem setLaunch_farRel : (s.setLaunch l x).farRel = s.farRel := rfl
@[simp] theorem setLaunch_farKnow : (s.setLaunch l x).farKnow = s.farKnow := rfl
@[simp] theorem setLaunch_far : (s.setLaunch l x).far = s.far := rfl
@[simp] theorem setLaunch_module : (s.setLaunch l x).module = s.module := rfl

end

/-! ### setPart -/

section
variable (s : State) (p : Nat) (x : Part)

@[simp] theorem setPart_clock : (s.setPart p x).clock = s.clock := rfl
@[simp] theorem setPart_free : (s.setPart p x).free = s.free := rfl
@[simp] theorem setPart_uid : (s.setPart p x).uid = s.uid := rfl
@[simp] theorem setPart_agenda : (s.setPart p x).agenda = s.agenda := rfl
@[simp] theorem setPart_cur : (s.setPart p x).cur = s.cur := rfl
@[simp] theorem setPart_mem : (s.setPart p x).mem = s.mem := rfl
@[simp] theorem setPart_stamps : (s.setPart p x).stamps = s.stamps := rfl
@[simp] theorem setPart_ue : (s.setPart p x).ue = s.ue := rfl
@[simp] theorem setPart_hist : (s.setPart p x).hist = s.hist := rfl
@[simp] theorem setPart_scSet : (s.setPart p x).scSet = s.scSet := rfl
@[simp] theorem setPart_sysKnow : (s.setPart p x).sysKnow = s.sysKnow := rfl
@[simp] theorem setPart_hostKnow : (s.setPart p x).hostKnow = s.hostKnow := rfl
@[simp] theorem setPart_ptes : (s.setPart p x).ptes = s.ptes := rfl
@[simp] theorem setPart_slots : (s.setPart p x).slots = s.slots := rfl
@[simp] theorem setPart_fibres : (s.setPart p x).fibres = s.fibres := rfl
@[simp] theorem setPart_teams : (s.setPart p x).teams = s.teams := rfl
@[simp] theorem setPart_launches : (s.setPart p x).launches = s.launches := rfl
@[simp] theorem setPart_ops : (s.setPart p x).ops = s.ops := rfl
@[simp] theorem setPart_quarters : (s.setPart p x).quarters = s.quarters := rfl
@[simp] theorem setPart_chunks : (s.setPart p x).chunks = s.chunks := rfl
@[simp] theorem setPart_clusters : (s.setPart p x).clusters = s.clusters := rfl
@[simp] theorem setPart_queues : (s.setPart p x).queues = s.queues := rfl
@[simp] theorem setPart_parts : (s.setPart p x).parts = aset s.parts p x := rfl
@[simp] theorem setPart_dies : (s.setPart p x).dies = s.dies := rfl
@[simp] theorem setPart_graphs : (s.setPart p x).graphs = s.graphs := rfl
@[simp] theorem setPart_runs : (s.setPart p x).runs = s.runs := rfl
@[simp] theorem setPart_control : (s.setPart p x).control = s.control := rfl
@[simp] theorem setPart_trees : (s.setPart p x).trees = s.trees := rfl
@[simp] theorem setPart_ports : (s.setPart p x).ports = s.ports := rfl
@[simp] theorem setPart_grants : (s.setPart p x).grants = s.grants := rfl
@[simp] theorem setPart_asked : (s.setPart p x).asked = s.asked := rfl
@[simp] theorem setPart_denied : (s.setPart p x).denied = s.denied := rfl
@[simp] theorem setPart_storage : (s.setPart p x).storage = s.storage := rfl
@[simp] theorem setPart_outFlits : (s.setPart p x).outFlits = s.outFlits := rfl
@[simp] theorem setPart_turnAt : (s.setPart p x).turnAt = s.turnAt := rfl
@[simp] theorem setPart_heldFlits : (s.setPart p x).heldFlits = s.heldFlits := rfl
@[simp] theorem setPart_farRel : (s.setPart p x).farRel = s.farRel := rfl
@[simp] theorem setPart_farKnow : (s.setPart p x).farKnow = s.farKnow := rfl
@[simp] theorem setPart_far : (s.setPart p x).far = s.far := rfl
@[simp] theorem setPart_module : (s.setPart p x).module = s.module := rfl

end

/-! ### setQueue -/

section
variable (s : State) (q : Nat) (x : Queue)

@[simp] theorem setQueue_clock : (s.setQueue q x).clock = s.clock := rfl
@[simp] theorem setQueue_free : (s.setQueue q x).free = s.free := rfl
@[simp] theorem setQueue_uid : (s.setQueue q x).uid = s.uid := rfl
@[simp] theorem setQueue_agenda : (s.setQueue q x).agenda = s.agenda := rfl
@[simp] theorem setQueue_cur : (s.setQueue q x).cur = s.cur := rfl
@[simp] theorem setQueue_mem : (s.setQueue q x).mem = s.mem := rfl
@[simp] theorem setQueue_stamps : (s.setQueue q x).stamps = s.stamps := rfl
@[simp] theorem setQueue_ue : (s.setQueue q x).ue = s.ue := rfl
@[simp] theorem setQueue_hist : (s.setQueue q x).hist = s.hist := rfl
@[simp] theorem setQueue_scSet : (s.setQueue q x).scSet = s.scSet := rfl
@[simp] theorem setQueue_sysKnow : (s.setQueue q x).sysKnow = s.sysKnow := rfl
@[simp] theorem setQueue_hostKnow : (s.setQueue q x).hostKnow = s.hostKnow := rfl
@[simp] theorem setQueue_ptes : (s.setQueue q x).ptes = s.ptes := rfl
@[simp] theorem setQueue_slots : (s.setQueue q x).slots = s.slots := rfl
@[simp] theorem setQueue_fibres : (s.setQueue q x).fibres = s.fibres := rfl
@[simp] theorem setQueue_teams : (s.setQueue q x).teams = s.teams := rfl
@[simp] theorem setQueue_launches : (s.setQueue q x).launches = s.launches := rfl
@[simp] theorem setQueue_ops : (s.setQueue q x).ops = s.ops := rfl
@[simp] theorem setQueue_quarters : (s.setQueue q x).quarters = s.quarters := rfl
@[simp] theorem setQueue_chunks : (s.setQueue q x).chunks = s.chunks := rfl
@[simp] theorem setQueue_clusters : (s.setQueue q x).clusters = s.clusters := rfl
@[simp] theorem setQueue_queues : (s.setQueue q x).queues = aset s.queues q x := rfl
@[simp] theorem setQueue_parts : (s.setQueue q x).parts = s.parts := rfl
@[simp] theorem setQueue_dies : (s.setQueue q x).dies = s.dies := rfl
@[simp] theorem setQueue_graphs : (s.setQueue q x).graphs = s.graphs := rfl
@[simp] theorem setQueue_runs : (s.setQueue q x).runs = s.runs := rfl
@[simp] theorem setQueue_control : (s.setQueue q x).control = s.control := rfl
@[simp] theorem setQueue_trees : (s.setQueue q x).trees = s.trees := rfl
@[simp] theorem setQueue_ports : (s.setQueue q x).ports = s.ports := rfl
@[simp] theorem setQueue_grants : (s.setQueue q x).grants = s.grants := rfl
@[simp] theorem setQueue_asked : (s.setQueue q x).asked = s.asked := rfl
@[simp] theorem setQueue_denied : (s.setQueue q x).denied = s.denied := rfl
@[simp] theorem setQueue_storage : (s.setQueue q x).storage = s.storage := rfl
@[simp] theorem setQueue_outFlits : (s.setQueue q x).outFlits = s.outFlits := rfl
@[simp] theorem setQueue_turnAt : (s.setQueue q x).turnAt = s.turnAt := rfl
@[simp] theorem setQueue_heldFlits : (s.setQueue q x).heldFlits = s.heldFlits := rfl
@[simp] theorem setQueue_farRel : (s.setQueue q x).farRel = s.farRel := rfl
@[simp] theorem setQueue_farKnow : (s.setQueue q x).farKnow = s.farKnow := rfl
@[simp] theorem setQueue_far : (s.setQueue q x).far = s.far := rfl
@[simp] theorem setQueue_module : (s.setQueue q x).module = s.module := rfl

end

/-! ### setDie -/

section
variable (s : State) (d : Nat) (x : Die)

@[simp] theorem setDie_clock : (s.setDie d x).clock = s.clock := rfl
@[simp] theorem setDie_free : (s.setDie d x).free = s.free := rfl
@[simp] theorem setDie_uid : (s.setDie d x).uid = s.uid := rfl
@[simp] theorem setDie_agenda : (s.setDie d x).agenda = s.agenda := rfl
@[simp] theorem setDie_cur : (s.setDie d x).cur = s.cur := rfl
@[simp] theorem setDie_mem : (s.setDie d x).mem = s.mem := rfl
@[simp] theorem setDie_stamps : (s.setDie d x).stamps = s.stamps := rfl
@[simp] theorem setDie_ue : (s.setDie d x).ue = s.ue := rfl
@[simp] theorem setDie_hist : (s.setDie d x).hist = s.hist := rfl
@[simp] theorem setDie_scSet : (s.setDie d x).scSet = s.scSet := rfl
@[simp] theorem setDie_sysKnow : (s.setDie d x).sysKnow = s.sysKnow := rfl
@[simp] theorem setDie_hostKnow : (s.setDie d x).hostKnow = s.hostKnow := rfl
@[simp] theorem setDie_ptes : (s.setDie d x).ptes = s.ptes := rfl
@[simp] theorem setDie_slots : (s.setDie d x).slots = s.slots := rfl
@[simp] theorem setDie_fibres : (s.setDie d x).fibres = s.fibres := rfl
@[simp] theorem setDie_teams : (s.setDie d x).teams = s.teams := rfl
@[simp] theorem setDie_launches : (s.setDie d x).launches = s.launches := rfl
@[simp] theorem setDie_ops : (s.setDie d x).ops = s.ops := rfl
@[simp] theorem setDie_quarters : (s.setDie d x).quarters = s.quarters := rfl
@[simp] theorem setDie_chunks : (s.setDie d x).chunks = s.chunks := rfl
@[simp] theorem setDie_clusters : (s.setDie d x).clusters = s.clusters := rfl
@[simp] theorem setDie_queues : (s.setDie d x).queues = s.queues := rfl
@[simp] theorem setDie_parts : (s.setDie d x).parts = s.parts := rfl
@[simp] theorem setDie_dies : (s.setDie d x).dies = aset s.dies d x := rfl
@[simp] theorem setDie_graphs : (s.setDie d x).graphs = s.graphs := rfl
@[simp] theorem setDie_runs : (s.setDie d x).runs = s.runs := rfl
@[simp] theorem setDie_control : (s.setDie d x).control = s.control := rfl
@[simp] theorem setDie_trees : (s.setDie d x).trees = s.trees := rfl
@[simp] theorem setDie_ports : (s.setDie d x).ports = s.ports := rfl
@[simp] theorem setDie_grants : (s.setDie d x).grants = s.grants := rfl
@[simp] theorem setDie_asked : (s.setDie d x).asked = s.asked := rfl
@[simp] theorem setDie_denied : (s.setDie d x).denied = s.denied := rfl
@[simp] theorem setDie_storage : (s.setDie d x).storage = s.storage := rfl
@[simp] theorem setDie_outFlits : (s.setDie d x).outFlits = s.outFlits := rfl
@[simp] theorem setDie_turnAt : (s.setDie d x).turnAt = s.turnAt := rfl
@[simp] theorem setDie_heldFlits : (s.setDie d x).heldFlits = s.heldFlits := rfl
@[simp] theorem setDie_farRel : (s.setDie d x).farRel = s.farRel := rfl
@[simp] theorem setDie_farKnow : (s.setDie d x).farKnow = s.farKnow := rfl
@[simp] theorem setDie_far : (s.setDie d x).far = s.far := rfl
@[simp] theorem setDie_module : (s.setDie d x).module = s.module := rfl

end

/-! ### setQuarter -/

section
variable (s : State) (k : Nat) (x : Quarter)

@[simp] theorem setQuarter_clock : (s.setQuarter k x).clock = s.clock := rfl
@[simp] theorem setQuarter_free : (s.setQuarter k x).free = s.free := rfl
@[simp] theorem setQuarter_uid : (s.setQuarter k x).uid = s.uid := rfl
@[simp] theorem setQuarter_agenda : (s.setQuarter k x).agenda = s.agenda := rfl
@[simp] theorem setQuarter_cur : (s.setQuarter k x).cur = s.cur := rfl
@[simp] theorem setQuarter_mem : (s.setQuarter k x).mem = s.mem := rfl
@[simp] theorem setQuarter_stamps : (s.setQuarter k x).stamps = s.stamps := rfl
@[simp] theorem setQuarter_ue : (s.setQuarter k x).ue = s.ue := rfl
@[simp] theorem setQuarter_hist : (s.setQuarter k x).hist = s.hist := rfl
@[simp] theorem setQuarter_scSet : (s.setQuarter k x).scSet = s.scSet := rfl
@[simp] theorem setQuarter_sysKnow : (s.setQuarter k x).sysKnow = s.sysKnow := rfl
@[simp] theorem setQuarter_hostKnow : (s.setQuarter k x).hostKnow = s.hostKnow := rfl
@[simp] theorem setQuarter_ptes : (s.setQuarter k x).ptes = s.ptes := rfl
@[simp] theorem setQuarter_slots : (s.setQuarter k x).slots = s.slots := rfl
@[simp] theorem setQuarter_fibres : (s.setQuarter k x).fibres = s.fibres := rfl
@[simp] theorem setQuarter_teams : (s.setQuarter k x).teams = s.teams := rfl
@[simp] theorem setQuarter_launches : (s.setQuarter k x).launches = s.launches := rfl
@[simp] theorem setQuarter_ops : (s.setQuarter k x).ops = s.ops := rfl
@[simp] theorem setQuarter_quarters : (s.setQuarter k x).quarters = aset s.quarters k x := rfl
@[simp] theorem setQuarter_chunks : (s.setQuarter k x).chunks = s.chunks := rfl
@[simp] theorem setQuarter_clusters : (s.setQuarter k x).clusters = s.clusters := rfl
@[simp] theorem setQuarter_queues : (s.setQuarter k x).queues = s.queues := rfl
@[simp] theorem setQuarter_parts : (s.setQuarter k x).parts = s.parts := rfl
@[simp] theorem setQuarter_dies : (s.setQuarter k x).dies = s.dies := rfl
@[simp] theorem setQuarter_graphs : (s.setQuarter k x).graphs = s.graphs := rfl
@[simp] theorem setQuarter_runs : (s.setQuarter k x).runs = s.runs := rfl
@[simp] theorem setQuarter_control : (s.setQuarter k x).control = s.control := rfl
@[simp] theorem setQuarter_trees : (s.setQuarter k x).trees = s.trees := rfl
@[simp] theorem setQuarter_ports : (s.setQuarter k x).ports = s.ports := rfl
@[simp] theorem setQuarter_grants : (s.setQuarter k x).grants = s.grants := rfl
@[simp] theorem setQuarter_asked : (s.setQuarter k x).asked = s.asked := rfl
@[simp] theorem setQuarter_denied : (s.setQuarter k x).denied = s.denied := rfl
@[simp] theorem setQuarter_storage : (s.setQuarter k x).storage = s.storage := rfl
@[simp] theorem setQuarter_outFlits : (s.setQuarter k x).outFlits = s.outFlits := rfl
@[simp] theorem setQuarter_turnAt : (s.setQuarter k x).turnAt = s.turnAt := rfl
@[simp] theorem setQuarter_heldFlits : (s.setQuarter k x).heldFlits = s.heldFlits := rfl
@[simp] theorem setQuarter_farRel : (s.setQuarter k x).farRel = s.farRel := rfl
@[simp] theorem setQuarter_farKnow : (s.setQuarter k x).farKnow = s.farKnow := rfl
@[simp] theorem setQuarter_far : (s.setQuarter k x).far = s.far := rfl
@[simp] theorem setQuarter_module : (s.setQuarter k x).module = s.module := rfl

end

/-! ### setPort -/

section
variable (s : State) (p : Nat) (x : Port)

@[simp] theorem setPort_clock : (s.setPort p x).clock = s.clock := rfl
@[simp] theorem setPort_free : (s.setPort p x).free = s.free := rfl
@[simp] theorem setPort_uid : (s.setPort p x).uid = s.uid := rfl
@[simp] theorem setPort_agenda : (s.setPort p x).agenda = s.agenda := rfl
@[simp] theorem setPort_cur : (s.setPort p x).cur = s.cur := rfl
@[simp] theorem setPort_mem : (s.setPort p x).mem = s.mem := rfl
@[simp] theorem setPort_stamps : (s.setPort p x).stamps = s.stamps := rfl
@[simp] theorem setPort_ue : (s.setPort p x).ue = s.ue := rfl
@[simp] theorem setPort_hist : (s.setPort p x).hist = s.hist := rfl
@[simp] theorem setPort_scSet : (s.setPort p x).scSet = s.scSet := rfl
@[simp] theorem setPort_sysKnow : (s.setPort p x).sysKnow = s.sysKnow := rfl
@[simp] theorem setPort_hostKnow : (s.setPort p x).hostKnow = s.hostKnow := rfl
@[simp] theorem setPort_ptes : (s.setPort p x).ptes = s.ptes := rfl
@[simp] theorem setPort_slots : (s.setPort p x).slots = s.slots := rfl
@[simp] theorem setPort_fibres : (s.setPort p x).fibres = s.fibres := rfl
@[simp] theorem setPort_teams : (s.setPort p x).teams = s.teams := rfl
@[simp] theorem setPort_launches : (s.setPort p x).launches = s.launches := rfl
@[simp] theorem setPort_ops : (s.setPort p x).ops = s.ops := rfl
@[simp] theorem setPort_quarters : (s.setPort p x).quarters = s.quarters := rfl
@[simp] theorem setPort_chunks : (s.setPort p x).chunks = s.chunks := rfl
@[simp] theorem setPort_clusters : (s.setPort p x).clusters = s.clusters := rfl
@[simp] theorem setPort_queues : (s.setPort p x).queues = s.queues := rfl
@[simp] theorem setPort_parts : (s.setPort p x).parts = s.parts := rfl
@[simp] theorem setPort_dies : (s.setPort p x).dies = s.dies := rfl
@[simp] theorem setPort_graphs : (s.setPort p x).graphs = s.graphs := rfl
@[simp] theorem setPort_runs : (s.setPort p x).runs = s.runs := rfl
@[simp] theorem setPort_control : (s.setPort p x).control = s.control := rfl
@[simp] theorem setPort_trees : (s.setPort p x).trees = s.trees := rfl
@[simp] theorem setPort_ports : (s.setPort p x).ports = aset s.ports p x := rfl
@[simp] theorem setPort_grants : (s.setPort p x).grants = s.grants := rfl
@[simp] theorem setPort_asked : (s.setPort p x).asked = s.asked := rfl
@[simp] theorem setPort_denied : (s.setPort p x).denied = s.denied := rfl
@[simp] theorem setPort_storage : (s.setPort p x).storage = s.storage := rfl
@[simp] theorem setPort_outFlits : (s.setPort p x).outFlits = s.outFlits := rfl
@[simp] theorem setPort_turnAt : (s.setPort p x).turnAt = s.turnAt := rfl
@[simp] theorem setPort_heldFlits : (s.setPort p x).heldFlits = s.heldFlits := rfl
@[simp] theorem setPort_farRel : (s.setPort p x).farRel = s.farRel := rfl
@[simp] theorem setPort_farKnow : (s.setPort p x).farKnow = s.farKnow := rfl
@[simp] theorem setPort_far : (s.setPort p x).far = s.far := rfl
@[simp] theorem setPort_module : (s.setPort p x).module = s.module := rfl

end

/-! ### setOp -/

section
variable (s : State) (o : Nat) (x : Op)

@[simp] theorem setOp_clock : (s.setOp o x).clock = s.clock := rfl
@[simp] theorem setOp_free : (s.setOp o x).free = s.free := rfl
@[simp] theorem setOp_uid : (s.setOp o x).uid = s.uid := rfl
@[simp] theorem setOp_agenda : (s.setOp o x).agenda = s.agenda := rfl
@[simp] theorem setOp_cur : (s.setOp o x).cur = s.cur := rfl
@[simp] theorem setOp_mem : (s.setOp o x).mem = s.mem := rfl
@[simp] theorem setOp_stamps : (s.setOp o x).stamps = s.stamps := rfl
@[simp] theorem setOp_ue : (s.setOp o x).ue = s.ue := rfl
@[simp] theorem setOp_hist : (s.setOp o x).hist = s.hist := rfl
@[simp] theorem setOp_scSet : (s.setOp o x).scSet = s.scSet := rfl
@[simp] theorem setOp_sysKnow : (s.setOp o x).sysKnow = s.sysKnow := rfl
@[simp] theorem setOp_hostKnow : (s.setOp o x).hostKnow = s.hostKnow := rfl
@[simp] theorem setOp_ptes : (s.setOp o x).ptes = s.ptes := rfl
@[simp] theorem setOp_slots : (s.setOp o x).slots = s.slots := rfl
@[simp] theorem setOp_fibres : (s.setOp o x).fibres = s.fibres := rfl
@[simp] theorem setOp_teams : (s.setOp o x).teams = s.teams := rfl
@[simp] theorem setOp_launches : (s.setOp o x).launches = s.launches := rfl
@[simp] theorem setOp_ops : (s.setOp o x).ops = aset s.ops o x := rfl
@[simp] theorem setOp_quarters : (s.setOp o x).quarters = s.quarters := rfl
@[simp] theorem setOp_chunks : (s.setOp o x).chunks = s.chunks := rfl
@[simp] theorem setOp_clusters : (s.setOp o x).clusters = s.clusters := rfl
@[simp] theorem setOp_queues : (s.setOp o x).queues = s.queues := rfl
@[simp] theorem setOp_parts : (s.setOp o x).parts = s.parts := rfl
@[simp] theorem setOp_dies : (s.setOp o x).dies = s.dies := rfl
@[simp] theorem setOp_graphs : (s.setOp o x).graphs = s.graphs := rfl
@[simp] theorem setOp_runs : (s.setOp o x).runs = s.runs := rfl
@[simp] theorem setOp_control : (s.setOp o x).control = s.control := rfl
@[simp] theorem setOp_trees : (s.setOp o x).trees = s.trees := rfl
@[simp] theorem setOp_ports : (s.setOp o x).ports = s.ports := rfl
@[simp] theorem setOp_grants : (s.setOp o x).grants = s.grants := rfl
@[simp] theorem setOp_asked : (s.setOp o x).asked = s.asked := rfl
@[simp] theorem setOp_denied : (s.setOp o x).denied = s.denied := rfl
@[simp] theorem setOp_storage : (s.setOp o x).storage = s.storage := rfl
@[simp] theorem setOp_outFlits : (s.setOp o x).outFlits = s.outFlits := rfl
@[simp] theorem setOp_turnAt : (s.setOp o x).turnAt = s.turnAt := rfl
@[simp] theorem setOp_heldFlits : (s.setOp o x).heldFlits = s.heldFlits := rfl
@[simp] theorem setOp_farRel : (s.setOp o x).farRel = s.farRel := rfl
@[simp] theorem setOp_farKnow : (s.setOp o x).farKnow = s.farKnow := rfl
@[simp] theorem setOp_far : (s.setOp o x).far = s.far := rfl
@[simp] theorem setOp_module : (s.setOp o x).module = s.module := rfl

end

/-! ### modSlot -/

section
variable (s : State) (g : Nat) (f : Slot → Slot)

@[simp] theorem modSlot_clock : (s.modSlot g f).clock = s.clock := rfl
@[simp] theorem modSlot_free : (s.modSlot g f).free = s.free := rfl
@[simp] theorem modSlot_uid : (s.modSlot g f).uid = s.uid := rfl
@[simp] theorem modSlot_agenda : (s.modSlot g f).agenda = s.agenda := rfl
@[simp] theorem modSlot_cur : (s.modSlot g f).cur = s.cur := rfl
@[simp] theorem modSlot_mem : (s.modSlot g f).mem = s.mem := rfl
@[simp] theorem modSlot_stamps : (s.modSlot g f).stamps = s.stamps := rfl
@[simp] theorem modSlot_ue : (s.modSlot g f).ue = s.ue := rfl
@[simp] theorem modSlot_hist : (s.modSlot g f).hist = s.hist := rfl
@[simp] theorem modSlot_scSet : (s.modSlot g f).scSet = s.scSet := rfl
@[simp] theorem modSlot_sysKnow : (s.modSlot g f).sysKnow = s.sysKnow := rfl
@[simp] theorem modSlot_hostKnow : (s.modSlot g f).hostKnow = s.hostKnow := rfl
@[simp] theorem modSlot_ptes : (s.modSlot g f).ptes = s.ptes := rfl
@[simp] theorem modSlot_slots : (s.modSlot g f).slots = aupd s.slots g f := rfl
@[simp] theorem modSlot_fibres : (s.modSlot g f).fibres = s.fibres := rfl
@[simp] theorem modSlot_teams : (s.modSlot g f).teams = s.teams := rfl
@[simp] theorem modSlot_launches : (s.modSlot g f).launches = s.launches := rfl
@[simp] theorem modSlot_ops : (s.modSlot g f).ops = s.ops := rfl
@[simp] theorem modSlot_quarters : (s.modSlot g f).quarters = s.quarters := rfl
@[simp] theorem modSlot_chunks : (s.modSlot g f).chunks = s.chunks := rfl
@[simp] theorem modSlot_clusters : (s.modSlot g f).clusters = s.clusters := rfl
@[simp] theorem modSlot_queues : (s.modSlot g f).queues = s.queues := rfl
@[simp] theorem modSlot_parts : (s.modSlot g f).parts = s.parts := rfl
@[simp] theorem modSlot_dies : (s.modSlot g f).dies = s.dies := rfl
@[simp] theorem modSlot_graphs : (s.modSlot g f).graphs = s.graphs := rfl
@[simp] theorem modSlot_runs : (s.modSlot g f).runs = s.runs := rfl
@[simp] theorem modSlot_control : (s.modSlot g f).control = s.control := rfl
@[simp] theorem modSlot_trees : (s.modSlot g f).trees = s.trees := rfl
@[simp] theorem modSlot_ports : (s.modSlot g f).ports = s.ports := rfl
@[simp] theorem modSlot_grants : (s.modSlot g f).grants = s.grants := rfl
@[simp] theorem modSlot_asked : (s.modSlot g f).asked = s.asked := rfl
@[simp] theorem modSlot_denied : (s.modSlot g f).denied = s.denied := rfl
@[simp] theorem modSlot_storage : (s.modSlot g f).storage = s.storage := rfl
@[simp] theorem modSlot_outFlits : (s.modSlot g f).outFlits = s.outFlits := rfl
@[simp] theorem modSlot_turnAt : (s.modSlot g f).turnAt = s.turnAt := rfl
@[simp] theorem modSlot_heldFlits : (s.modSlot g f).heldFlits = s.heldFlits := rfl
@[simp] theorem modSlot_farRel : (s.modSlot g f).farRel = s.farRel := rfl
@[simp] theorem modSlot_farKnow : (s.modSlot g f).farKnow = s.farKnow := rfl
@[simp] theorem modSlot_far : (s.modSlot g f).far = s.far := rfl
@[simp] theorem modSlot_module : (s.modSlot g f).module = s.module := rfl

end

/-! ### modFibre -/

section
variable (s : State) (k : Nat) (f : Fibre → Fibre)

@[simp] theorem modFibre_clock : (s.modFibre k f).clock = s.clock := rfl
@[simp] theorem modFibre_free : (s.modFibre k f).free = s.free := rfl
@[simp] theorem modFibre_uid : (s.modFibre k f).uid = s.uid := rfl
@[simp] theorem modFibre_agenda : (s.modFibre k f).agenda = s.agenda := rfl
@[simp] theorem modFibre_cur : (s.modFibre k f).cur = s.cur := rfl
@[simp] theorem modFibre_mem : (s.modFibre k f).mem = s.mem := rfl
@[simp] theorem modFibre_stamps : (s.modFibre k f).stamps = s.stamps := rfl
@[simp] theorem modFibre_ue : (s.modFibre k f).ue = s.ue := rfl
@[simp] theorem modFibre_hist : (s.modFibre k f).hist = s.hist := rfl
@[simp] theorem modFibre_scSet : (s.modFibre k f).scSet = s.scSet := rfl
@[simp] theorem modFibre_sysKnow : (s.modFibre k f).sysKnow = s.sysKnow := rfl
@[simp] theorem modFibre_hostKnow : (s.modFibre k f).hostKnow = s.hostKnow := rfl
@[simp] theorem modFibre_ptes : (s.modFibre k f).ptes = s.ptes := rfl
@[simp] theorem modFibre_slots : (s.modFibre k f).slots = s.slots := rfl
@[simp] theorem modFibre_fibres : (s.modFibre k f).fibres = aupd s.fibres k f := rfl
@[simp] theorem modFibre_teams : (s.modFibre k f).teams = s.teams := rfl
@[simp] theorem modFibre_launches : (s.modFibre k f).launches = s.launches := rfl
@[simp] theorem modFibre_ops : (s.modFibre k f).ops = s.ops := rfl
@[simp] theorem modFibre_quarters : (s.modFibre k f).quarters = s.quarters := rfl
@[simp] theorem modFibre_chunks : (s.modFibre k f).chunks = s.chunks := rfl
@[simp] theorem modFibre_clusters : (s.modFibre k f).clusters = s.clusters := rfl
@[simp] theorem modFibre_queues : (s.modFibre k f).queues = s.queues := rfl
@[simp] theorem modFibre_parts : (s.modFibre k f).parts = s.parts := rfl
@[simp] theorem modFibre_dies : (s.modFibre k f).dies = s.dies := rfl
@[simp] theorem modFibre_graphs : (s.modFibre k f).graphs = s.graphs := rfl
@[simp] theorem modFibre_runs : (s.modFibre k f).runs = s.runs := rfl
@[simp] theorem modFibre_control : (s.modFibre k f).control = s.control := rfl
@[simp] theorem modFibre_trees : (s.modFibre k f).trees = s.trees := rfl
@[simp] theorem modFibre_ports : (s.modFibre k f).ports = s.ports := rfl
@[simp] theorem modFibre_grants : (s.modFibre k f).grants = s.grants := rfl
@[simp] theorem modFibre_asked : (s.modFibre k f).asked = s.asked := rfl
@[simp] theorem modFibre_denied : (s.modFibre k f).denied = s.denied := rfl
@[simp] theorem modFibre_storage : (s.modFibre k f).storage = s.storage := rfl
@[simp] theorem modFibre_outFlits : (s.modFibre k f).outFlits = s.outFlits := rfl
@[simp] theorem modFibre_turnAt : (s.modFibre k f).turnAt = s.turnAt := rfl
@[simp] theorem modFibre_heldFlits : (s.modFibre k f).heldFlits = s.heldFlits := rfl
@[simp] theorem modFibre_farRel : (s.modFibre k f).farRel = s.farRel := rfl
@[simp] theorem modFibre_farKnow : (s.modFibre k f).farKnow = s.farKnow := rfl
@[simp] theorem modFibre_far : (s.modFibre k f).far = s.far := rfl
@[simp] theorem modFibre_module : (s.modFibre k f).module = s.module := rfl

end

/-! ### modTeam -/

section
variable (s : State) (t : Nat) (f : Team → Team)

@[simp] theorem modTeam_clock : (s.modTeam t f).clock = s.clock := rfl
@[simp] theorem modTeam_free : (s.modTeam t f).free = s.free := rfl
@[simp] theorem modTeam_uid : (s.modTeam t f).uid = s.uid := rfl
@[simp] theorem modTeam_agenda : (s.modTeam t f).agenda = s.agenda := rfl
@[simp] theorem modTeam_cur : (s.modTeam t f).cur = s.cur := rfl
@[simp] theorem modTeam_mem : (s.modTeam t f).mem = s.mem := rfl
@[simp] theorem modTeam_stamps : (s.modTeam t f).stamps = s.stamps := rfl
@[simp] theorem modTeam_ue : (s.modTeam t f).ue = s.ue := rfl
@[simp] theorem modTeam_hist : (s.modTeam t f).hist = s.hist := rfl
@[simp] theorem modTeam_scSet : (s.modTeam t f).scSet = s.scSet := rfl
@[simp] theorem modTeam_sysKnow : (s.modTeam t f).sysKnow = s.sysKnow := rfl
@[simp] theorem modTeam_hostKnow : (s.modTeam t f).hostKnow = s.hostKnow := rfl
@[simp] theorem modTeam_ptes : (s.modTeam t f).ptes = s.ptes := rfl
@[simp] theorem modTeam_slots : (s.modTeam t f).slots = s.slots := rfl
@[simp] theorem modTeam_fibres : (s.modTeam t f).fibres = s.fibres := rfl
@[simp] theorem modTeam_teams : (s.modTeam t f).teams = aupd s.teams t f := rfl
@[simp] theorem modTeam_launches : (s.modTeam t f).launches = s.launches := rfl
@[simp] theorem modTeam_ops : (s.modTeam t f).ops = s.ops := rfl
@[simp] theorem modTeam_quarters : (s.modTeam t f).quarters = s.quarters := rfl
@[simp] theorem modTeam_chunks : (s.modTeam t f).chunks = s.chunks := rfl
@[simp] theorem modTeam_clusters : (s.modTeam t f).clusters = s.clusters := rfl
@[simp] theorem modTeam_queues : (s.modTeam t f).queues = s.queues := rfl
@[simp] theorem modTeam_parts : (s.modTeam t f).parts = s.parts := rfl
@[simp] theorem modTeam_dies : (s.modTeam t f).dies = s.dies := rfl
@[simp] theorem modTeam_graphs : (s.modTeam t f).graphs = s.graphs := rfl
@[simp] theorem modTeam_runs : (s.modTeam t f).runs = s.runs := rfl
@[simp] theorem modTeam_control : (s.modTeam t f).control = s.control := rfl
@[simp] theorem modTeam_trees : (s.modTeam t f).trees = s.trees := rfl
@[simp] theorem modTeam_ports : (s.modTeam t f).ports = s.ports := rfl
@[simp] theorem modTeam_grants : (s.modTeam t f).grants = s.grants := rfl
@[simp] theorem modTeam_asked : (s.modTeam t f).asked = s.asked := rfl
@[simp] theorem modTeam_denied : (s.modTeam t f).denied = s.denied := rfl
@[simp] theorem modTeam_storage : (s.modTeam t f).storage = s.storage := rfl
@[simp] theorem modTeam_outFlits : (s.modTeam t f).outFlits = s.outFlits := rfl
@[simp] theorem modTeam_turnAt : (s.modTeam t f).turnAt = s.turnAt := rfl
@[simp] theorem modTeam_heldFlits : (s.modTeam t f).heldFlits = s.heldFlits := rfl
@[simp] theorem modTeam_farRel : (s.modTeam t f).farRel = s.farRel := rfl
@[simp] theorem modTeam_farKnow : (s.modTeam t f).farKnow = s.farKnow := rfl
@[simp] theorem modTeam_far : (s.modTeam t f).far = s.far := rfl
@[simp] theorem modTeam_module : (s.modTeam t f).module = s.module := rfl

end

/-! ### modLaunch -/

section
variable (s : State) (l : Nat) (f : Launch → Launch)

@[simp] theorem modLaunch_clock : (s.modLaunch l f).clock = s.clock := rfl
@[simp] theorem modLaunch_free : (s.modLaunch l f).free = s.free := rfl
@[simp] theorem modLaunch_uid : (s.modLaunch l f).uid = s.uid := rfl
@[simp] theorem modLaunch_agenda : (s.modLaunch l f).agenda = s.agenda := rfl
@[simp] theorem modLaunch_cur : (s.modLaunch l f).cur = s.cur := rfl
@[simp] theorem modLaunch_mem : (s.modLaunch l f).mem = s.mem := rfl
@[simp] theorem modLaunch_stamps : (s.modLaunch l f).stamps = s.stamps := rfl
@[simp] theorem modLaunch_ue : (s.modLaunch l f).ue = s.ue := rfl
@[simp] theorem modLaunch_hist : (s.modLaunch l f).hist = s.hist := rfl
@[simp] theorem modLaunch_scSet : (s.modLaunch l f).scSet = s.scSet := rfl
@[simp] theorem modLaunch_sysKnow : (s.modLaunch l f).sysKnow = s.sysKnow := rfl
@[simp] theorem modLaunch_hostKnow : (s.modLaunch l f).hostKnow = s.hostKnow := rfl
@[simp] theorem modLaunch_ptes : (s.modLaunch l f).ptes = s.ptes := rfl
@[simp] theorem modLaunch_slots : (s.modLaunch l f).slots = s.slots := rfl
@[simp] theorem modLaunch_fibres : (s.modLaunch l f).fibres = s.fibres := rfl
@[simp] theorem modLaunch_teams : (s.modLaunch l f).teams = s.teams := rfl
@[simp] theorem modLaunch_launches : (s.modLaunch l f).launches = aupd s.launches l f := rfl
@[simp] theorem modLaunch_ops : (s.modLaunch l f).ops = s.ops := rfl
@[simp] theorem modLaunch_quarters : (s.modLaunch l f).quarters = s.quarters := rfl
@[simp] theorem modLaunch_chunks : (s.modLaunch l f).chunks = s.chunks := rfl
@[simp] theorem modLaunch_clusters : (s.modLaunch l f).clusters = s.clusters := rfl
@[simp] theorem modLaunch_queues : (s.modLaunch l f).queues = s.queues := rfl
@[simp] theorem modLaunch_parts : (s.modLaunch l f).parts = s.parts := rfl
@[simp] theorem modLaunch_dies : (s.modLaunch l f).dies = s.dies := rfl
@[simp] theorem modLaunch_graphs : (s.modLaunch l f).graphs = s.graphs := rfl
@[simp] theorem modLaunch_runs : (s.modLaunch l f).runs = s.runs := rfl
@[simp] theorem modLaunch_control : (s.modLaunch l f).control = s.control := rfl
@[simp] theorem modLaunch_trees : (s.modLaunch l f).trees = s.trees := rfl
@[simp] theorem modLaunch_ports : (s.modLaunch l f).ports = s.ports := rfl
@[simp] theorem modLaunch_grants : (s.modLaunch l f).grants = s.grants := rfl
@[simp] theorem modLaunch_asked : (s.modLaunch l f).asked = s.asked := rfl
@[simp] theorem modLaunch_denied : (s.modLaunch l f).denied = s.denied := rfl
@[simp] theorem modLaunch_storage : (s.modLaunch l f).storage = s.storage := rfl
@[simp] theorem modLaunch_outFlits : (s.modLaunch l f).outFlits = s.outFlits := rfl
@[simp] theorem modLaunch_turnAt : (s.modLaunch l f).turnAt = s.turnAt := rfl
@[simp] theorem modLaunch_heldFlits : (s.modLaunch l f).heldFlits = s.heldFlits := rfl
@[simp] theorem modLaunch_farRel : (s.modLaunch l f).farRel = s.farRel := rfl
@[simp] theorem modLaunch_farKnow : (s.modLaunch l f).farKnow = s.farKnow := rfl
@[simp] theorem modLaunch_far : (s.modLaunch l f).far = s.far := rfl
@[simp] theorem modLaunch_module : (s.modLaunch l f).module = s.module := rfl

end

/-! ### modPart -/

section
variable (s : State) (p : Nat) (f : Part → Part)

@[simp] theorem modPart_clock : (s.modPart p f).clock = s.clock := rfl
@[simp] theorem modPart_free : (s.modPart p f).free = s.free := rfl
@[simp] theorem modPart_uid : (s.modPart p f).uid = s.uid := rfl
@[simp] theorem modPart_agenda : (s.modPart p f).agenda = s.agenda := rfl
@[simp] theorem modPart_cur : (s.modPart p f).cur = s.cur := rfl
@[simp] theorem modPart_mem : (s.modPart p f).mem = s.mem := rfl
@[simp] theorem modPart_stamps : (s.modPart p f).stamps = s.stamps := rfl
@[simp] theorem modPart_ue : (s.modPart p f).ue = s.ue := rfl
@[simp] theorem modPart_hist : (s.modPart p f).hist = s.hist := rfl
@[simp] theorem modPart_scSet : (s.modPart p f).scSet = s.scSet := rfl
@[simp] theorem modPart_sysKnow : (s.modPart p f).sysKnow = s.sysKnow := rfl
@[simp] theorem modPart_hostKnow : (s.modPart p f).hostKnow = s.hostKnow := rfl
@[simp] theorem modPart_ptes : (s.modPart p f).ptes = s.ptes := rfl
@[simp] theorem modPart_slots : (s.modPart p f).slots = s.slots := rfl
@[simp] theorem modPart_fibres : (s.modPart p f).fibres = s.fibres := rfl
@[simp] theorem modPart_teams : (s.modPart p f).teams = s.teams := rfl
@[simp] theorem modPart_launches : (s.modPart p f).launches = s.launches := rfl
@[simp] theorem modPart_ops : (s.modPart p f).ops = s.ops := rfl
@[simp] theorem modPart_quarters : (s.modPart p f).quarters = s.quarters := rfl
@[simp] theorem modPart_chunks : (s.modPart p f).chunks = s.chunks := rfl
@[simp] theorem modPart_clusters : (s.modPart p f).clusters = s.clusters := rfl
@[simp] theorem modPart_queues : (s.modPart p f).queues = s.queues := rfl
@[simp] theorem modPart_parts : (s.modPart p f).parts = aupd s.parts p f := rfl
@[simp] theorem modPart_dies : (s.modPart p f).dies = s.dies := rfl
@[simp] theorem modPart_graphs : (s.modPart p f).graphs = s.graphs := rfl
@[simp] theorem modPart_runs : (s.modPart p f).runs = s.runs := rfl
@[simp] theorem modPart_control : (s.modPart p f).control = s.control := rfl
@[simp] theorem modPart_trees : (s.modPart p f).trees = s.trees := rfl
@[simp] theorem modPart_ports : (s.modPart p f).ports = s.ports := rfl
@[simp] theorem modPart_grants : (s.modPart p f).grants = s.grants := rfl
@[simp] theorem modPart_asked : (s.modPart p f).asked = s.asked := rfl
@[simp] theorem modPart_denied : (s.modPart p f).denied = s.denied := rfl
@[simp] theorem modPart_storage : (s.modPart p f).storage = s.storage := rfl
@[simp] theorem modPart_outFlits : (s.modPart p f).outFlits = s.outFlits := rfl
@[simp] theorem modPart_turnAt : (s.modPart p f).turnAt = s.turnAt := rfl
@[simp] theorem modPart_heldFlits : (s.modPart p f).heldFlits = s.heldFlits := rfl
@[simp] theorem modPart_farRel : (s.modPart p f).farRel = s.farRel := rfl
@[simp] theorem modPart_farKnow : (s.modPart p f).farKnow = s.farKnow := rfl
@[simp] theorem modPart_far : (s.modPart p f).far = s.far := rfl
@[simp] theorem modPart_module : (s.modPart p f).module = s.module := rfl

end

/-! ### delOp -/

section
variable (s : State) (o : Nat)

@[simp] theorem delOp_clock : (s.delOp o).clock = s.clock := rfl
@[simp] theorem delOp_free : (s.delOp o).free = s.free := rfl
@[simp] theorem delOp_uid : (s.delOp o).uid = s.uid := rfl
@[simp] theorem delOp_agenda : (s.delOp o).agenda = s.agenda := rfl
@[simp] theorem delOp_cur : (s.delOp o).cur = s.cur := rfl
@[simp] theorem delOp_mem : (s.delOp o).mem = s.mem := rfl
@[simp] theorem delOp_stamps : (s.delOp o).stamps = s.stamps := rfl
@[simp] theorem delOp_ue : (s.delOp o).ue = s.ue := rfl
@[simp] theorem delOp_hist : (s.delOp o).hist = s.hist := rfl
@[simp] theorem delOp_scSet : (s.delOp o).scSet = s.scSet := rfl
@[simp] theorem delOp_sysKnow : (s.delOp o).sysKnow = s.sysKnow := rfl
@[simp] theorem delOp_hostKnow : (s.delOp o).hostKnow = s.hostKnow := rfl
@[simp] theorem delOp_ptes : (s.delOp o).ptes = s.ptes := rfl
@[simp] theorem delOp_slots : (s.delOp o).slots = s.slots := rfl
@[simp] theorem delOp_fibres : (s.delOp o).fibres = s.fibres := rfl
@[simp] theorem delOp_teams : (s.delOp o).teams = s.teams := rfl
@[simp] theorem delOp_launches : (s.delOp o).launches = s.launches := rfl
@[simp] theorem delOp_ops : (s.delOp o).ops = adel s.ops o := rfl
@[simp] theorem delOp_quarters : (s.delOp o).quarters = s.quarters := rfl
@[simp] theorem delOp_chunks : (s.delOp o).chunks = s.chunks := rfl
@[simp] theorem delOp_clusters : (s.delOp o).clusters = s.clusters := rfl
@[simp] theorem delOp_queues : (s.delOp o).queues = s.queues := rfl
@[simp] theorem delOp_parts : (s.delOp o).parts = s.parts := rfl
@[simp] theorem delOp_dies : (s.delOp o).dies = s.dies := rfl
@[simp] theorem delOp_graphs : (s.delOp o).graphs = s.graphs := rfl
@[simp] theorem delOp_runs : (s.delOp o).runs = s.runs := rfl
@[simp] theorem delOp_control : (s.delOp o).control = s.control := rfl
@[simp] theorem delOp_trees : (s.delOp o).trees = s.trees := rfl
@[simp] theorem delOp_ports : (s.delOp o).ports = s.ports := rfl
@[simp] theorem delOp_grants : (s.delOp o).grants = s.grants := rfl
@[simp] theorem delOp_asked : (s.delOp o).asked = s.asked := rfl
@[simp] theorem delOp_denied : (s.delOp o).denied = s.denied := rfl
@[simp] theorem delOp_storage : (s.delOp o).storage = s.storage := rfl
@[simp] theorem delOp_outFlits : (s.delOp o).outFlits = s.outFlits := rfl
@[simp] theorem delOp_turnAt : (s.delOp o).turnAt = s.turnAt := rfl
@[simp] theorem delOp_heldFlits : (s.delOp o).heldFlits = s.heldFlits := rfl
@[simp] theorem delOp_farRel : (s.delOp o).farRel = s.farRel := rfl
@[simp] theorem delOp_farKnow : (s.delOp o).farKnow = s.farKnow := rfl
@[simp] theorem delOp_far : (s.delOp o).far = s.far.filter fun f => !ofOp o f.1 := rfl
@[simp] theorem delOp_module : (s.delOp o).module = s.module := rfl

end

/-! ### bump -/

section
variable (s : State)

@[simp] theorem bump_clock : s.bump.clock = s.clock := rfl
@[simp] theorem bump_free : s.bump.free = s.free := rfl
@[simp] theorem bump_uid : s.bump.uid = s.uid + 1 := rfl
@[simp] theorem bump_agenda : s.bump.agenda = s.agenda := rfl
@[simp] theorem bump_cur : s.bump.cur = s.cur := rfl
@[simp] theorem bump_mem : s.bump.mem = s.mem := rfl
@[simp] theorem bump_stamps : s.bump.stamps = s.stamps := rfl
@[simp] theorem bump_ue : s.bump.ue = s.ue := rfl
@[simp] theorem bump_hist : s.bump.hist = s.hist := rfl
@[simp] theorem bump_scSet : s.bump.scSet = s.scSet := rfl
@[simp] theorem bump_sysKnow : s.bump.sysKnow = s.sysKnow := rfl
@[simp] theorem bump_hostKnow : s.bump.hostKnow = s.hostKnow := rfl
@[simp] theorem bump_ptes : s.bump.ptes = s.ptes := rfl
@[simp] theorem bump_slots : s.bump.slots = s.slots := rfl
@[simp] theorem bump_fibres : s.bump.fibres = s.fibres := rfl
@[simp] theorem bump_teams : s.bump.teams = s.teams := rfl
@[simp] theorem bump_launches : s.bump.launches = s.launches := rfl
@[simp] theorem bump_ops : s.bump.ops = s.ops := rfl
@[simp] theorem bump_quarters : s.bump.quarters = s.quarters := rfl
@[simp] theorem bump_chunks : s.bump.chunks = s.chunks := rfl
@[simp] theorem bump_clusters : s.bump.clusters = s.clusters := rfl
@[simp] theorem bump_queues : s.bump.queues = s.queues := rfl
@[simp] theorem bump_parts : s.bump.parts = s.parts := rfl
@[simp] theorem bump_dies : s.bump.dies = s.dies := rfl
@[simp] theorem bump_graphs : s.bump.graphs = s.graphs := rfl
@[simp] theorem bump_runs : s.bump.runs = s.runs := rfl
@[simp] theorem bump_control : s.bump.control = s.control := rfl
@[simp] theorem bump_trees : s.bump.trees = s.trees := rfl
@[simp] theorem bump_ports : s.bump.ports = s.ports := rfl
@[simp] theorem bump_grants : s.bump.grants = s.grants := rfl
@[simp] theorem bump_asked : s.bump.asked = s.asked := rfl
@[simp] theorem bump_denied : s.bump.denied = s.denied := rfl
@[simp] theorem bump_storage : s.bump.storage = s.storage := rfl
@[simp] theorem bump_outFlits : s.bump.outFlits = s.outFlits := rfl
@[simp] theorem bump_turnAt : s.bump.turnAt = s.turnAt := rfl
@[simp] theorem bump_heldFlits : s.bump.heldFlits = s.heldFlits := rfl
@[simp] theorem bump_farRel : s.bump.farRel = s.farRel := rfl
@[simp] theorem bump_farKnow : s.bump.farKnow = s.farKnow := rfl
@[simp] theorem bump_module : s.bump.module = s.module := rfl

end

/-! ### Readers -/

section
variable (s : State)

theorem slot_of_aget {k : Nat} {x : Slot} (h : aget? s.slots k = some x) : s.slot k = x := by simp [State.slot, h]

@[simp] theorem slot_setSlot_same (k : Nat) (x : Slot) : (s.setSlot k x).slot k = x := by simp [State.slot]

theorem slot_setSlot_other {k j : Nat} (x : Slot) (h : j ≠ k) : (s.setSlot k x).slot j = s.slot j := by
  simp [State.slot, aget_aset_other _ _ h]

theorem slot_modSlot_same {k : Nat} {x : Slot} (f : Slot → Slot) (h : aget? s.slots k = some x) :
    (s.modSlot k f).slot k = f x := by simp [State.slot, aget_aupd_same, h]

theorem slot_modSlot_other {k j : Nat} (f : Slot → Slot) (h : j ≠ k) : (s.modSlot k f).slot j = s.slot j := by
  simp [State.slot, aget_aupd_other _ _ h]

theorem fibre_of_aget {k : Nat} {x : Fibre} (h : aget? s.fibres k = some x) : s.fibre k = x := by simp [State.fibre, h]

@[simp] theorem fibre_setFibre_same (k : Nat) (x : Fibre) : (s.setFibre k x).fibre k = x := by simp [State.fibre]

theorem fibre_setFibre_other {k j : Nat} (x : Fibre) (h : j ≠ k) : (s.setFibre k x).fibre j = s.fibre j := by
  simp [State.fibre, aget_aset_other _ _ h]

theorem fibre_modFibre_same {k : Nat} {x : Fibre} (f : Fibre → Fibre) (h : aget? s.fibres k = some x) :
    (s.modFibre k f).fibre k = f x := by simp [State.fibre, aget_aupd_same, h]

theorem fibre_modFibre_other {k j : Nat} (f : Fibre → Fibre) (h : j ≠ k) : (s.modFibre k f).fibre j = s.fibre j := by
  simp [State.fibre, aget_aupd_other _ _ h]

theorem team_of_aget {k : Nat} {x : Team} (h : aget? s.teams k = some x) : s.team k = x := by simp [State.team, h]

@[simp] theorem team_setTeam_same (k : Nat) (x : Team) : (s.setTeam k x).team k = x := by simp [State.team]

theorem team_setTeam_other {k j : Nat} (x : Team) (h : j ≠ k) : (s.setTeam k x).team j = s.team j := by
  simp [State.team, aget_aset_other _ _ h]

theorem team_modTeam_same {k : Nat} {x : Team} (f : Team → Team) (h : aget? s.teams k = some x) :
    (s.modTeam k f).team k = f x := by simp [State.team, aget_aupd_same, h]

theorem team_modTeam_other {k j : Nat} (f : Team → Team) (h : j ≠ k) : (s.modTeam k f).team j = s.team j := by
  simp [State.team, aget_aupd_other _ _ h]

theorem launch_of_aget {k : Nat} {x : Launch} (h : aget? s.launches k = some x) : s.launch k = x := by simp [State.launch, h]

@[simp] theorem launch_setLaunch_same (k : Nat) (x : Launch) : (s.setLaunch k x).launch k = x := by simp [State.launch]

theorem launch_setLaunch_other {k j : Nat} (x : Launch) (h : j ≠ k) : (s.setLaunch k x).launch j = s.launch j := by
  simp [State.launch, aget_aset_other _ _ h]

theorem launch_modLaunch_same {k : Nat} {x : Launch} (f : Launch → Launch) (h : aget? s.launches k = some x) :
    (s.modLaunch k f).launch k = f x := by simp [State.launch, aget_aupd_same, h]

theorem launch_modLaunch_other {k j : Nat} (f : Launch → Launch) (h : j ≠ k) : (s.modLaunch k f).launch j = s.launch j := by
  simp [State.launch, aget_aupd_other _ _ h]

theorem part_of_aget {k : Nat} {x : Part} (h : aget? s.parts k = some x) : s.part k = x := by simp [State.part, h]

@[simp] theorem part_setPart_same (k : Nat) (x : Part) : (s.setPart k x).part k = x := by simp [State.part]

theorem part_setPart_other {k j : Nat} (x : Part) (h : j ≠ k) : (s.setPart k x).part j = s.part j := by
  simp [State.part, aget_aset_other _ _ h]

theorem part_modPart_same {k : Nat} {x : Part} (f : Part → Part) (h : aget? s.parts k = some x) :
    (s.modPart k f).part k = f x := by simp [State.part, aget_aupd_same, h]

theorem part_modPart_other {k j : Nat} (f : Part → Part) (h : j ≠ k) : (s.modPart k f).part j = s.part j := by
  simp [State.part, aget_aupd_other _ _ h]

@[simp] theorem queue_setQueue_same (k : Nat) (x : Queue) : (s.setQueue k x).queue k = x := by simp [State.queue]

theorem queue_setQueue_other {k j : Nat} (x : Queue) (h : j ≠ k) : (s.setQueue k x).queue j = s.queue j := by
  simp [State.queue, aget_aset_other _ _ h]

@[simp] theorem die_setDie_same (k : Nat) (x : Die) : (s.setDie k x).die k = x := by simp [State.die]

theorem die_setDie_other {k j : Nat} (x : Die) (h : j ≠ k) : (s.setDie k x).die j = s.die j := by
  simp [State.die, aget_aset_other _ _ h]

@[simp] theorem quarterAt_setQuarter_same (k : Nat) (x : Quarter) : (s.setQuarter k x).quarterAt k = x := by simp [State.quarterAt]

theorem quarterAt_setQuarter_other {k j : Nat} (x : Quarter) (h : j ≠ k) : (s.setQuarter k x).quarterAt j = s.quarterAt j := by
  simp [State.quarterAt, aget_aset_other _ _ h]

@[simp] theorem port_setPort_same (k : Nat) (x : Port) : (s.setPort k x).port k = x := by simp [State.port]

theorem port_setPort_other {k j : Nat} (x : Port) (h : j ≠ k) : (s.setPort k x).port j = s.port j := by
  simp [State.port, aget_aset_other _ _ h]

end

@[simp] theorem slot_setFibre (s : State) (j f : Nat) (x : Fibre) : (s.setFibre f x).slot j = s.slot j := rfl
@[simp] theorem slot_setTeam (s : State) (j t : Nat) (x : Team) : (s.setTeam t x).slot j = s.slot j := rfl
@[simp] theorem slot_setLaunch (s : State) (j l : Nat) (x : Launch) : (s.setLaunch l x).slot j = s.slot j := rfl
@[simp] theorem slot_setPart (s : State) (j p : Nat) (x : Part) : (s.setPart p x).slot j = s.slot j := rfl
@[simp] theorem slot_modFibre (s : State) (j f : Nat) (x : Fibre → Fibre) : (s.modFibre f x).slot j = s.slot j := rfl
@[simp] theorem slot_modTeam (s : State) (j t : Nat) (x : Team → Team) : (s.modTeam t x).slot j = s.slot j := rfl
@[simp] theorem slot_modLaunch (s : State) (j l : Nat) (x : Launch → Launch) : (s.modLaunch l x).slot j = s.slot j := rfl
@[simp] theorem slot_modPart (s : State) (j p : Nat) (x : Part → Part) : (s.modPart p x).slot j = s.slot j := rfl
@[simp] theorem fibre_setSlot (s : State) (j g : Nat) (x : Slot) : (s.setSlot g x).fibre j = s.fibre j := rfl
@[simp] theorem fibre_setTeam (s : State) (j t : Nat) (x : Team) : (s.setTeam t x).fibre j = s.fibre j := rfl
@[simp] theorem fibre_setLaunch (s : State) (j l : Nat) (x : Launch) : (s.setLaunch l x).fibre j = s.fibre j := rfl
@[simp] theorem fibre_modSlot (s : State) (j g : Nat) (x : Slot → Slot) : (s.modSlot g x).fibre j = s.fibre j := rfl
@[simp] theorem fibre_modTeam (s : State) (j t : Nat) (x : Team → Team) : (s.modTeam t x).fibre j = s.fibre j := rfl
@[simp] theorem fibre_modLaunch (s : State) (j l : Nat) (x : Launch → Launch) : (s.modLaunch l x).fibre j = s.fibre j := rfl
@[simp] theorem team_setSlot (s : State) (j g : Nat) (x : Slot) : (s.setSlot g x).team j = s.team j := rfl
@[simp] theorem team_setFibre (s : State) (j f : Nat) (x : Fibre) : (s.setFibre f x).team j = s.team j := rfl
@[simp] theorem team_setLaunch (s : State) (j l : Nat) (x : Launch) : (s.setLaunch l x).team j = s.team j := rfl
@[simp] theorem team_modSlot (s : State) (j g : Nat) (x : Slot → Slot) : (s.modSlot g x).team j = s.team j := rfl
@[simp] theorem team_modFibre (s : State) (j f : Nat) (x : Fibre → Fibre) : (s.modFibre f x).team j = s.team j := rfl
@[simp] theorem team_modLaunch (s : State) (j l : Nat) (x : Launch → Launch) : (s.modLaunch l x).team j = s.team j := rfl
@[simp] theorem launch_setSlot (s : State) (j g : Nat) (x : Slot) : (s.setSlot g x).launch j = s.launch j := rfl
@[simp] theorem launch_setFibre (s : State) (j f : Nat) (x : Fibre) : (s.setFibre f x).launch j = s.launch j := rfl
@[simp] theorem launch_setTeam (s : State) (j t : Nat) (x : Team) : (s.setTeam t x).launch j = s.launch j := rfl
@[simp] theorem launch_modSlot (s : State) (j g : Nat) (x : Slot → Slot) : (s.modSlot g x).launch j = s.launch j := rfl
@[simp] theorem launch_modFibre (s : State) (j f : Nat) (x : Fibre → Fibre) : (s.modFibre f x).launch j = s.launch j := rfl
@[simp] theorem launch_modTeam (s : State) (j t : Nat) (x : Team → Team) : (s.modTeam t x).launch j = s.launch j := rfl
@[simp] theorem die_setSlot (s : State) (j g : Nat) (x : Slot) : (s.setSlot g x).die j = s.die j := rfl
@[simp] theorem die_setFibre (s : State) (j f : Nat) (x : Fibre) : (s.setFibre f x).die j = s.die j := rfl
@[simp] theorem die_setTeam (s : State) (j t : Nat) (x : Team) : (s.setTeam t x).die j = s.die j := rfl
@[simp] theorem die_setLaunch (s : State) (j l : Nat) (x : Launch) : (s.setLaunch l x).die j = s.die j := rfl
@[simp] theorem die_modSlot (s : State) (j g : Nat) (x : Slot → Slot) : (s.modSlot g x).die j = s.die j := rfl
@[simp] theorem die_modFibre (s : State) (j f : Nat) (x : Fibre → Fibre) : (s.modFibre f x).die j = s.die j := rfl
@[simp] theorem die_modTeam (s : State) (j t : Nat) (x : Team → Team) : (s.modTeam t x).die j = s.die j := rfl
@[simp] theorem die_modLaunch (s : State) (j l : Nat) (x : Launch → Launch) : (s.modLaunch l x).die j = s.die j := rfl
@[simp] theorem part_setSlot (s : State) (j g : Nat) (x : Slot) : (s.setSlot g x).part j = s.part j := rfl
@[simp] theorem part_setFibre (s : State) (j f : Nat) (x : Fibre) : (s.setFibre f x).part j = s.part j := rfl
@[simp] theorem part_setTeam (s : State) (j t : Nat) (x : Team) : (s.setTeam t x).part j = s.part j := rfl
@[simp] theorem part_setLaunch (s : State) (j l : Nat) (x : Launch) : (s.setLaunch l x).part j = s.part j := rfl
@[simp] theorem part_modSlot (s : State) (j g : Nat) (x : Slot → Slot) : (s.modSlot g x).part j = s.part j := rfl
@[simp] theorem part_modFibre (s : State) (j f : Nat) (x : Fibre → Fibre) : (s.modFibre f x).part j = s.part j := rfl
@[simp] theorem part_modTeam (s : State) (j t : Nat) (x : Team → Team) : (s.modTeam t x).part j = s.part j := rfl
@[simp] theorem part_modLaunch (s : State) (j l : Nat) (x : Launch → Launch) : (s.modLaunch l x).part j = s.part j := rfl

end Sys2Proof.Laws
end

