-- ==== Sys2Proof/Laws/Ops.lean ====
section
/-!
SUPPORT. Laws of the shared operations: the course of an issue, and what an instruction that works lane by lane does.
-/
namespace Sys2Proof.Laws

open Sys2Proof.Machine

/-- R62, R64: an instruction word acts in the slot that issues it. -/
theorem onSlot_next {s : State} {c : IssueCtx} {sl : Slot} (h : Issues s c sl) (g : Guard) (k : Ctx → State → State) :
    onSlot g s k = .next (k (s.ctx c sl g) s) := by
  simp [onSlot, h.1, h.2]

theorem or_eq_zero {w : Nat} (l : List (BitVec w)) (a e : BitVec w) (ha : a &&& e = 0) (h : ∀ x ∈ l, x &&& e = 0) :
    l.foldl (fun m x => m ||| x) a &&& e = 0 := by
  induction l generalizing a with
  | nil => exact ha
  | cons y l ih =>
    refine ih _ ?_ fun x hx => h x (List.mem_cons_of_mem _ hx)
    have hy := h y (List.mem_cons_self ..)
    ext i hi
    have h1 := congrArg (fun v => v.getLsbD i) ha
    have h2 := congrArg (fun v => v.getLsbD i) hy
    simp at h1 h2 ⊢
    cases hA : a[i] <;> cases hY : y[i] <;> simp_all

theorem firstFlag_zero : firstFlag 0 = none := by decide

/-- R115: with no cause and no enabled exception, an instruction that works lane by lane writes what its lanes give. -/
theorem lanewise_acts (x : Ctx) (s : State) (d : Spec) (out : Fibre → LaneOut)
    (h : ∀ a ∈ x.runLanes d, (out (s.fibre a.2)).cause = none ∧ (out (s.fibre a.2)).exc &&& x.sl.fmask = 0) :
    lanewise x s d out = s.acted x d out := by
  have hc : (((x.runLanes d).map fun a => (a.1, a.2, out (s.fibre a.2))).filterMap fun o => o.2.2.cause) = [] := by
    simp only [List.filterMap_eq_nil_iff, List.mem_map, forall_exists_index, and_imp]
    rintro _ a ha rfl
    exact (h a ha).1
  have hf : firstFlag ((((x.runLanes d).map fun a => (a.1, a.2, out (s.fibre a.2))).foldl (fun m o => m ||| o.2.2.exc) (0 : Flags)) &&& x.sl.fmask) = none := by
    have : (((x.runLanes d).map fun a => (a.1, a.2, out (s.fibre a.2))).foldl (fun m o => m ||| o.2.2.exc) (0 : Flags)) =
        ((x.runLanes d).map fun a => (out (s.fibre a.2)).exc).foldl (fun m y => m ||| y) 0 := by
      simp [List.foldl_map]
    rw [this, or_eq_zero _ _ _ (by simp)]
    · exact firstFlag_zero
    · simp only [List.mem_map, forall_exists_index, and_imp]
      rintro _ a ha rfl
      exact (h a ha).2
  simp only [lanewise, State.finishLanes, hc, ne_eq, not_true_eq_false, if_false, hf]
  simp only [State.acted, List.foldl_map]

theorem foldl_or_eq {w : Nat} {β : Type} (l : List β) (f : β → BitVec w) (a : BitVec w) (j : Nat) :
    (l.foldl (fun m x => m ||| f x) a).getLsbD j = (a.getLsbD j || l.any fun x => (f x).getLsbD j) := by
  induction l generalizing a with
  | nil => simp
  | cons y l ih => rw [List.foldl_cons, ih, BitVec.getLsbD_or, List.any_cons, Bool.or_assoc]

/-- R115: the first flag, as a bit number. -/
theorem firstFlag_eq (v : Flags) : firstFlag v =
    ((List.range 5).find? fun k => v.getLsbD (4 - k)).map fun k => (k, BitVec.ofNat 5 (2 ^ (4 - k))) := by
  revert v; decide

theorem and_bit (v : Flags) (k : Nat) (hk : k < 5) : (v &&& BitVec.ofNat 5 (2 ^ (4 - k)) != 0) = v.getLsbD (4 - k) := by
  have : k = 0 ∨ k = 1 ∨ k = 2 ∨ k = 3 ∨ k = 4 := by omega
  rcases this with rfl | rfl | rfl | rfl | rfl <;> revert v <;> decide

/-- R99, R115: a cause, or an enabled exception, in some lane is trapped and nothing is written. -/
theorem lanewise_traps (x : Ctx) (s : State) (d : Spec) (out : Fibre → LaneOut)
    (h : ¬ ∀ a ∈ x.runLanes d, (out (s.fibre a.2)).cause = none ∧ (out (s.fibre a.2)).exc &&& x.sl.fmask = 0) :
    lanewise x s d out = s.raise x.c.g (laneTrap s x d out) none := by
  have hc : (((x.runLanes d).map fun a => (a.1, a.2, out (s.fibre a.2))).filterMap fun o => o.2.2.cause) =
      (x.runLanes d).filterMap fun a => (out (s.fibre a.2)).cause := by rw [List.filterMap_map]; rfl
  have hf (q : LaneOut → Bool) : ((x.runLanes d).map fun a => (a.1, a.2, out (s.fibre a.2))).filter (fun o => q o.2.2) =
      ((x.runLanes d).filter fun a => q (out (s.fibre a.2))).map fun a => (a.1, a.2, out (s.fibre a.2)) := by
    simp [List.filter_map, Function.comp_def]
  unfold lanewise State.finishLanes laneTrap
  simp only [hc]
  cases hk : (x.runLanes d).filterMap fun a => (out (s.fibre a.2)).cause with
  | cons c cs =>
    have h0 : (c :: cs).foldl max 0 = cs.foldl max c := by simp
    simp only [ne_eq, reduceCtorEq, not_false_eq_true, if_true, h0, hf fun o => o.cause == some (cs.foldl max c), List.head?_map,
      List.map_map, Option.map_map]
    rfl
  | nil =>
    have hn : ∀ a ∈ x.runLanes d, (out (s.fibre a.2)).cause = none := by simpa [List.filterMap_eq_nil_iff] using hk
    have hsum : ((x.runLanes d).map fun a => (a.1, a.2, out (s.fibre a.2))).foldl (fun m o => m ||| o.2.2.exc) (0 : Flags) =
        (x.runLanes d).foldl (fun m a => m ||| (out (s.fibre a.2)).exc) 0 := by simp [List.foldl_map]
    simp only [ne_eq, not_true_eq_false, if_false, hsum, firstFlag_eq]
    cases hr : (List.range 5).find? fun k =>
        ((x.runLanes d).foldl (fun m a => m ||| (out (s.fibre a.2)).exc) (0 : Flags) &&& x.sl.fmask).getLsbD (4 - k) with
    | some k =>
      have hk5 : k < 5 := List.mem_range.1 (List.mem_of_find?_eq_some hr)
      simp only [Option.map_some, Option.getD_some, State.trapPrecise]
      rw [hf fun o => o.exc &&& BitVec.ofNat 5 (2 ^ (4 - k)) != 0, List.map_map]
      congr 3
      apply List.filter_congr
      intro a _
      exact and_bit _ k hk5
    | none =>
      refine absurd (fun a ha => ⟨hn a ha, ?_⟩) h
      apply BitVec.eq_of_getLsbD_eq
      intro j hj
      have h1 := (List.find?_eq_none.1 hr) (4 - j) (List.mem_range.2 (by omega))
      rw [BitVec.getLsbD_and, foldl_or_eq, show 4 - (4 - j) = j by omega] at h1
      rw [BitVec.getLsbD_and]
      cases he : (out (s.fibre a.2)).exc.getLsbD j
      · simp
      · have h2 : ((x.runLanes d).any fun a => (out (s.fibre a.2)).exc.getLsbD j) = true := List.any_eq_true.2 ⟨a, ha, he⟩
        simp only [h2, Bool.or_true, Bool.true_and, Bool.not_eq_true] at h1
        simp [h1]

theorem acts_of_lanewise {i : Instr} {g : Guard} {d : Spec} {out : Ctx → State → Fibre → LaneOut}
    (h : ∀ s, exec i s = onSlot g s fun x s => lanewise x s d (out x s)) : ActsAs i g d out :=
  ⟨fun s c sl hi hq => by rw [h, onSlot_next hi, lanewise_acts _ _ _ _ hq],
   fun s c sl hi hq => by rw [h, onSlot_next hi, lanewise_traps _ _ _ _ hq]⟩

/-- R47: registers of a window after a write. -/
theorem fibre_reg_write (f : Fibre) (n : Nat) (rs : List (Nat × Reg)) (k : Nat) : (f.write n rs).reg k = written n rs k (f.reg k) := by
  simp only [Fibre.write, Fibre.reg, written]
  generalize f.win = w
  induction rs generalizing w with
  | nil => rfl
  | cons r rs ih => simp only [List.foldl_cons, ih, mget_mset]; congr 1; simp [eq_comm]

/-- R47: scalar registers of a slot after a write. -/
theorem slot_reg_write (f : Slot) (n : Nat) (rs : List (Nat × Reg)) (k : Nat) : (f.write n rs).reg k = written n rs k (f.reg k) := by
  simp only [Slot.write, Slot.reg, written]
  generalize f.sregs = w
  induction rs generalizing w with
  | nil => rfl
  | cons r rs ih => simp only [List.foldl_cons, ih, mget_mset]; congr 1; simp [eq_comm]

/-- R80: a predicate is written alone; p15 keeps its value. -/
theorem setPred_getLsbD (w : BitVec 16) (p j : Nat) (b : Bool) (hp : p < 16) (hj : j < 16) :
    (setPred w p b).getLsbD j = if j = p ∧ j ≠ 15 then b else w.getLsbD j := by
  have e : (BitVec.ofNat 16 (2 ^ p)).getLsbD j = decide (p = j) := by
    simp only [BitVec.getLsbD_ofNat, hj, Nat.testBit_two_pow, decide_true, Bool.true_and]
  unfold setPred
  split
  · subst p; split
    · omega
    · rfl
  · rename_i h15
    cases b
    · simp only [Bool.false_eq_true, if_false, BitVec.getLsbD_and, BitVec.getLsbD_not, e, hj, decide_true, Bool.true_and]
      by_cases h : j = p
      · subst j; simp [h15]
      · simp [h, Ne.symm h]
    · simp only [if_true, BitVec.getLsbD_or, e]
      by_cases h : j = p
      · subst j; simp [h15]
      · simp [h, Ne.symm h]

/-- What one lane's results make of its fibre, and of the slot. -/
def laneFibre (d : Spec) (o : LaneOut) (f : Fibre) : Fibre :=
  match d with
  | .vec n => f.write n.toNat o.regs
  | .pred p => match o.pred with
    | some b => { f with preds := setPred f.preds p.toNat b }
    | none => f
  | _ => f

def laneSlot (d : Spec) (o : LaneOut) (sl : Slot) : Slot :=
  match d with
  | .scl n => sl.write n.toNat o.regs
  | _ => sl

theorem writeLane_fibre_same (s : State) (g : Nat) (d : Spec) (o : Nat × LaneOut) :
    aget? (s.writeLane g d o).fibres o.1 = (aget? s.fibres o.1).map (laneFibre d o.2) := by
  cases d <;> cases hp : o.2.pred <;>
    simp only [State.writeLane, State.writeDst, State.writePred, hp, State.modFibre, State.modSlot, aget_aupd_same]
  all_goals cases aget? s.fibres o.1 <;> simp [laneFibre, hp]

theorem writeLane_fibre_other (s : State) (g : Nat) (d : Spec) (o : Nat × LaneOut) {k : Nat} (h : k ≠ o.1) :
    aget? (s.writeLane g d o).fibres k = aget? s.fibres k := by
  cases d <;> cases hp : o.2.pred <;>
    simp [State.writeLane, State.writeDst, State.writePred, hp, State.modFibre, State.modSlot, aget_aupd_other, h]

theorem writeLane_slot_same (s : State) (g : Nat) (d : Spec) (o : Nat × LaneOut) :
    aget? (s.writeLane g d o).slots g = (aget? s.slots g).map (laneSlot d o.2) := by
  cases d <;> cases hp : o.2.pred <;>
    simp only [State.writeLane, State.writeDst, State.writePred, hp, State.modFibre, State.modSlot, aget_aupd_same]
  all_goals cases aget? s.slots g <;> simp [laneSlot]

theorem writeLane_slot_other (s : State) (g : Nat) (d : Spec) (o : Nat × LaneOut) {k : Nat} (h : k ≠ g) :
    aget? (s.writeLane g d o).slots k = aget? s.slots k := by
  cases d <;> cases hp : o.2.pred <;>
    simp [State.writeLane, State.writeDst, State.writePred, hp, State.modFibre, State.modSlot, aget_aupd_other, h]

theorem writeLane_rest (s : State) (g : Nat) (d : Spec) (o : Nat × LaneOut) :
    s.writeLane g d o = { s with slots := (s.writeLane g d o).slots, fibres := (s.writeLane g d o).fibres } := by
  cases d <;> cases hp : o.2.pred <;>
    simp [State.writeLane, State.writeDst, State.writePred, hp, State.modFibre, State.modSlot]

end Sys2Proof.Laws
end

