-- ==== Sys2Proof/Laws/PerInstr.lean ====
section
/-!
SUPPORT. The family RoundTrip: for each constructor, the decoder's table reads the encoder's fields of a well-formed instruction
back as that instruction (R45 to R56). A device step has no word.
-/
namespace Sys2Proof.Laws.RoundTrip

open Sys2Proof.Machine

/-- The fields that the encoder gives a well-formed instruction name that instruction. -/
def Statement (i : Instr) : Prop := ∀ r, encodeRaw i = some r → wellFormed i = true → instrOf r = some i

theorem of_ctrl {mk : CtrlF → Instr} {opc : BitVec 10} {f : CtrlF} {fm : Form} (he : encodeRaw (mk f) = some (f.raw opc))
    (hf : formOf 3 (mk f) = some (f.ops, fm)) (hd : fm.immOk = true → (f.raw opc).ctrl = f → instrOf (f.raw opc) = some (mk f)) :
    Statement (mk f) := by
  intro r hr hw
  obtain ⟨hp, hm, hi⟩ := wellFormed_fields hw hf
  obtain rfl : f.raw opc = r := by rw [he] at hr; exact Option.some.inj hr
  exact hd hi (ctrl_raw f opc hp)

theorem of_arith {mk : ArithF → Instr} {opc : BitVec 10} {f : ArithF} {fm : Form} (he : encodeRaw (mk f) = some (f.raw opc))
    (hf : formOf 3 (mk f) = some (f.ops, fm)) (ht : fm.mods = true → plainTy f.ty = true) (hr : fm.mods = true → plainRm f.rm = true)
    (hd : fm.mods = true → (f.raw opc).arith = f → (f.raw opc).sub5 = f.sub → (f.raw opc).ty = f.ty → instrOf (f.raw opc) = some (mk f)) :
    Statement (mk f) := by
  intro r h hw
  obtain ⟨hp, hm, hi⟩ := wellFormed_fields hw hf
  obtain rfl : f.raw opc = r := by rw [he] at h; exact Option.some.inj h
  obtain ⟨h1, h2, h3⟩ := arith_raw f opc hp (ht hm) (hr hm)
  exact hd hm h1 h2 h3

theorem of_eng {mk : EngF → Instr} {opc : BitVec 10} {f : EngF} {fm : Form} (he : encodeRaw (mk f) = some (f.raw opc))
    (hf : formOf 3 (mk f) = some (f.ops, fm)) (ht : fm.mods = true → plainTy f.ty = true) (hr : fm.mods = true → plainRm f.rm = true)
    (hd : fm.mods = true → (f.raw opc).eng = f → (f.raw opc).sub5 = f.flags → instrOf (f.raw opc) = some (mk f)) :
    Statement (mk f) := by
  intro r h hw
  obtain ⟨hp, hm, hi⟩ := wellFormed_fields hw hf
  obtain rfl : f.raw opc = r := by rw [he] at h; exact Option.some.inj h
  obtain ⟨h1, h2⟩ := eng_raw f opc hp (ht hm) (hr hm)
  exact hd hm h1 h2

theorem of_mem {mk : MemF → Instr} {opc : BitVec 10} {f : MemF} {fm : Form} (he : encodeRaw (mk f) = some (f.raw opc))
    (hf : formOf 3 (mk f) = some (f.ops, fm)) (ht : fm.mods = true → plainTy f.ty = true)
    (hd : fm.mods = true → (f.raw opc).mem = f → instrOf (f.raw opc) = some (mk f)) :
    Statement (mk f) := by
  intro r h hw
  obtain ⟨hp, hm, hi⟩ := wellFormed_fields hw hf
  obtain rfl : f.raw opc = r := by rw [he] at h; exact Option.some.inj h
  exact hd hm (mem_raw f opc hp (ht hm))

theorem of_atom {mk : AtomF → Instr} {opc : BitVec 10} {f : AtomF} {fm : Form} (he : encodeRaw (mk f) = some (f.raw opc))
    (hf : formOf 3 (mk f) = some (f.ops, fm)) (ht : fm.mods = true → plainTy f.ty = true)
    (hd : (f.raw opc).atom = f → instrOf (f.raw opc) = some (mk f)) : Statement (mk f) := by
  intro r h hw
  obtain ⟨hp, hm, hi⟩ := wellFormed_fields hw hf
  obtain rfl : f.raw opc = r := by rw [he] at h; exact Option.some.inj h
  exact hd (atom_raw f opc hp (ht hm))

theorem of_sync {mk : SyncF → Instr} {opc : BitVec 10} {f : SyncF} {fm : Form} (he : encodeRaw (mk f) = some (f.raw opc))
    (hf : formOf 3 (mk f) = some (f.ops, fm))
    (hd : fm.mods = true → (f.raw opc).sync = f → bitsN (f.raw opc).mod.toNat 0 3 = f.aop.toNat → instrOf (f.raw opc) = some (mk f)) :
    Statement (mk f) := by
  intro r h hw
  obtain ⟨hp, hm, hi⟩ := wellFormed_fields hw hf
  obtain rfl : f.raw opc = r := by rw [he] at h; exact Option.some.inj h
  obtain ⟨h1, h2⟩ := sync_raw f opc hp
  exact hd hm h1 h2

theorem of_none {i : Instr} (h : encodeRaw i = none) : Statement i := by
  intro r hr
  rw [h] at hr
  cases hr

/-! ### Instructions -/

theorem nop (f : CtrlF) : Statement (.nop f) := of_ctrl (mk := Instr.nop) rfl rfl (fun _ e => congrArg (fun x => some (Instr.nop x)) e)

theorem bra (f : CtrlF) : Statement (.bra f) := of_ctrl (mk := Instr.bra) rfl rfl (fun _ e => congrArg (fun x => some (Instr.bra x)) e)

theorem brx (f : CtrlF) : Statement (.brx f) := of_ctrl (mk := Instr.brx) rfl rfl (fun _ e => congrArg (fun x => some (Instr.brx x)) e)

theorem jmp (f : CtrlF) : Statement (.jmp f) := of_ctrl (mk := Instr.jmp) rfl rfl (fun _ e => congrArg (fun x => some (Instr.jmp x)) e)

theorem call (f : CtrlF) : Statement (.call f) := of_ctrl (mk := Instr.call) rfl rfl (fun _ e => congrArg (fun x => some (Instr.call x)) e)

theorem callx (f : CtrlF) : Statement (.callx f) := of_ctrl (mk := Instr.callx) rfl rfl (fun _ e => congrArg (fun x => some (Instr.callx x)) e)

theorem ret (f : CtrlF) : Statement (.ret f) := of_ctrl (mk := Instr.ret) rfl rfl (fun _ e => congrArg (fun x => some (Instr.ret x)) e)

theorem join (f : CtrlF) : Statement (.join f) := of_ctrl (mk := Instr.join) rfl rfl (fun _ e => congrArg (fun x => some (Instr.join x)) e)

theorem joinRelease (g : Nat) : Statement (.joinRelease g) := of_none rfl

theorem fspawn (f : CtrlF) : Statement (.fspawn f) := of_ctrl (mk := Instr.fspawn) rfl rfl (fun _ e => congrArg (fun x => some (Instr.fspawn x)) e)

theorem spillReturn (core q : Nat) : Statement (.spillReturn core q) := of_none rfl

theorem fend (f : CtrlF) : Statement (.fend f) := of_ctrl (mk := Instr.fend) rfl rfl (fun _ e => congrArg (fun x => some (Instr.fend x)) e)

theorem exit (f : CtrlF) : Statement (.exit f) := of_ctrl (mk := Instr.exit) rfl rfl (fun _ e => congrArg (fun x => some (Instr.exit x)) e)

theorem yield (f : CtrlF) : Statement (.yield f) := of_ctrl (mk := Instr.yield) rfl rfl (fun _ e => congrArg (fun x => some (Instr.yield x)) e)

theorem yieldRelease (g : Nat) : Statement (.yieldRelease g) := of_none rfl

theorem sleep (f : CtrlF) : Statement (.sleep f) := of_ctrl (mk := Instr.sleep) rfl rfl (fun _ e => congrArg (fun x => some (Instr.sleep x)) e)

theorem sleepExpire (g : Nat) : Statement (.sleepExpire g) := of_none rfl

theorem brk (f : CtrlF) : Statement (.brk f) := of_ctrl (mk := Instr.brk) rfl rfl (fun _ e => congrArg (fun x => some (Instr.brk x)) e)

theorem trap (f : CtrlF) : Statement (.trap f) := of_ctrl (mk := Instr.trap) rfl rfl (fun _ e => congrArg (fun x => some (Instr.trap x)) e)

theorem pset (f : ArithF) : Statement (.pset f) := of_arith (mk := Instr.pset) rfl rfl
  (fun h => by
    rcases plainTy_or f.ty with e | ⟨c, e⟩
    · exact e
    · simp [intForm, tysInt, tysI, tysN, tysB, e] at h)
  (fun h => by
    rcases plainRm_or f.rm with e | ⟨c, e⟩
    · exact e
    · simp [intForm, e] at h)
  (fun _ e _ _ => congrArg (fun x => some (Instr.pset x)) e)

theorem plop (f : ArithF) : Statement (.plop f) := of_arith (mk := Instr.plop) rfl rfl
  (fun h => by
    rcases plainTy_or f.ty with e | ⟨c, e⟩
    · exact e
    · simp [e] at h)
  (fun h => by
    rcases plainRm_or f.rm with e | ⟨c, e⟩
    · exact e
    · simp [e] at h)
  (fun _ e _ _ => congrArg (fun x => some (Instr.plop x)) e)

theorem pmovGet (f : ArithF) : Statement (.pmovGet f) := of_arith (mk := Instr.pmovGet) rfl rfl
  (fun h => by
    rcases plainTy_or f.ty with e | ⟨c, e⟩
    · exact e
    · simp [e] at h)
  (fun h => by
    rcases plainRm_or f.rm with e | ⟨c, e⟩
    · exact e
    · simp [e] at h)
  (fun h e e2 _ => by
    have hs : f.sub = 0 := by simp at h; exact h.2
    show some (if (f.raw 0x042).sub5 == 1 then Instr.pmovPut (f.raw 0x042).arith else Instr.pmovGet (f.raw 0x042).arith) = _
    rw [e2, e, hs]; rfl)

theorem pmovPut (f : ArithF) : Statement (.pmovPut f) := of_arith (mk := Instr.pmovPut) rfl rfl
  (fun h => by
    rcases plainTy_or f.ty with e | ⟨c, e⟩
    · exact e
    · simp [e] at h)
  (fun h => by
    rcases plainRm_or f.rm with e | ⟨c, e⟩
    · exact e
    · simp [e] at h)
  (fun h e e2 _ => by
    have hs : f.sub = 1 := by simp at h; exact h.2
    show some (if (f.raw 0x042).sub5 == 1 then Instr.pmovPut (f.raw 0x042).arith else Instr.pmovGet (f.raw 0x042).arith) = _
    rw [e2, e, hs]; rfl)

theorem vote (f : ArithF) : Statement (.vote f) := of_arith (mk := Instr.vote) rfl rfl
  (fun h => by
    rcases plainTy_or f.ty with e | ⟨c, e⟩
    · exact e
    · simp [e] at h)
  (fun h => by
    rcases plainRm_or f.rm with e | ⟨c, e⟩
    · exact e
    · simp [e] at h)
  (fun _ e _ _ => congrArg (fun x => some (Instr.vote x)) e)

theorem elect (f : ArithF) : Statement (.elect f) := of_arith (mk := Instr.elect) rfl rfl
  (fun h => by
    rcases plainTy_or f.ty with e | ⟨c, e⟩
    · exact e
    · simp [e] at h)
  (fun h => by
    rcases plainRm_or f.rm with e | ⟨c, e⟩
    · exact e
    · simp [e] at h)
  (fun _ e _ _ => congrArg (fun x => some (Instr.elect x)) e)

theorem shfl (f : ArithF) : Statement (.shfl f) := of_arith (mk := Instr.shfl) rfl rfl
  (fun h => by
    rcases plainTy_or f.ty with e | ⟨c, e⟩
    · exact e
    · simp [e] at h)
  (fun h => by
    rcases plainRm_or f.rm with e | ⟨c, e⟩
    · exact e
    · simp [e] at h)
  (fun _ e _ _ => congrArg (fun x => some (Instr.shfl x)) e)

theorem vred (f : ArithF) : Statement (.vred f) := of_arith (mk := Instr.vred) rfl rfl
  (fun h => by
    rcases plainTy_or f.ty with e | ⟨c, e⟩
    · exact e
    · simp [laneRedForm, e] at h)
  (fun h => by
    rcases plainRm_or f.rm with e | ⟨c, e⟩
    · exact e
    · simp [laneRedForm, e] at h)
  (fun _ e _ _ => congrArg (fun x => some (Instr.vred x)) e)

theorem vscan (f : ArithF) : Statement (.vscan f) := of_arith (mk := Instr.vscan) rfl rfl
  (fun h => by
    rcases plainTy_or f.ty with e | ⟨c, e⟩
    · exact e
    · simp [laneRedForm, e] at h)
  (fun h => by
    rcases plainRm_or f.rm with e | ⟨c, e⟩
    · exact e
    · simp [laneRedForm, e] at h)
  (fun _ e _ _ => congrArg (fun x => some (Instr.vscan x)) e)

theorem mov (f : ArithF) : Statement (.mov f) := of_arith (mk := Instr.mov) rfl rfl
  (fun h => by
    rcases plainTy_or f.ty with e | ⟨c, e⟩
    · exact e
    · simp [intForm, unForm, tysInt, tysI, tysN, tysB, e] at h)
  (fun h => by
    rcases plainRm_or f.rm with e | ⟨c, e⟩
    · exact e
    · simp [intForm, unForm, e] at h)
  (fun _ e _ _ => congrArg (fun x => some (Instr.mov x)) e)

theorem movi (f : ArithF) : Statement (.movi f) := of_arith (mk := Instr.movi) rfl rfl
  (fun h => by
    rcases plainTy_or f.ty with e | ⟨c, e⟩
    · exact e
    · simp [tysInt, tysI, tysN, tysB, tysFloat, e] at h)
  (fun h => by
    rcases plainRm_or f.rm with e | ⟨c, e⟩
    · exact e
    · simp [e] at h)
  (fun _ e _ _ => congrArg (fun x => some (Instr.movi x)) e)

theorem sel (f : ArithF) : Statement (.sel f) := of_arith (mk := Instr.sel) rfl rfl
  (fun h => by
    rcases plainTy_or f.ty with e | ⟨c, e⟩
    · exact e
    · simp [intForm, tysInt, tysI, tysN, tysB, e] at h)
  (fun h => by
    rcases plainRm_or f.rm with e | ⟨c, e⟩
    · exact e
    · simp [intForm, e] at h)
  (fun _ e _ _ => congrArg (fun x => some (Instr.sel x)) e)

theorem iadd (f : ArithF) : Statement (.iadd f) := of_arith (mk := Instr.iadd) rfl rfl
  (fun h => by
    rcases plainTy_or f.ty with e | ⟨c, e⟩
    · exact e
    · simp [satForm, tysInt, tysI, tysN, tysB, e] at h)
  (fun h => by
    rcases plainRm_or f.rm with e | ⟨c, e⟩
    · exact e
    · simp [satForm, e] at h)
  (fun _ e _ _ => congrArg (fun x => some (Instr.iadd x)) e)

theorem isub (f : ArithF) : Statement (.isub f) := of_arith (mk := Instr.isub) rfl rfl
  (fun h => by
    rcases plainTy_or f.ty with e | ⟨c, e⟩
    · exact e
    · simp [satForm, tysInt, tysI, tysN, tysB, e] at h)
  (fun h => by
    rcases plainRm_or f.rm with e | ⟨c, e⟩
    · exact e
    · simp [satForm, e] at h)
  (fun _ e _ _ => congrArg (fun x => some (Instr.isub x)) e)

theorem imul (f : ArithF) : Statement (.imul f) := of_arith (mk := Instr.imul) rfl rfl
  (fun h => by
    rcases plainTy_or f.ty with e | ⟨c, e⟩
    · exact e
    · simp [satForm, tysInt, tysI, tysN, tysB, e] at h)
  (fun h => by
    rcases plainRm_or f.rm with e | ⟨c, e⟩
    · exact e
    · simp [satForm, e] at h)
  (fun _ e _ _ => congrArg (fun x => some (Instr.imul x)) e)

theorem imulh (f : ArithF) : Statement (.imulh f) := of_arith (mk := Instr.imulh) rfl rfl
  (fun h => by
    rcases plainTy_or f.ty with e | ⟨c, e⟩
    · exact e
    · simp [intForm, binForm, tysI, tysN, e] at h)
  (fun h => by
    rcases plainRm_or f.rm with e | ⟨c, e⟩
    · exact e
    · simp [intForm, binForm, e] at h)
  (fun _ e _ _ => congrArg (fun x => some (Instr.imulh x)) e)

theorem imad (f : ArithF) : Statement (.imad f) := of_arith (mk := Instr.imad) rfl rfl
  (fun h => by
    rcases plainTy_or f.ty with e | ⟨c, e⟩
    · exact e
    · simp [tysI, tysN, e] at h)
  (fun h => by
    rcases plainRm_or f.rm with e | ⟨c, e⟩
    · exact e
    · simp [e] at h)
  (fun _ e _ _ => congrArg (fun x => some (Instr.imad x)) e)

theorem idiv (f : ArithF) : Statement (.idiv f) := of_arith (mk := Instr.idiv) rfl rfl
  (fun h => by
    rcases plainTy_or f.ty with e | ⟨c, e⟩
    · exact e
    · simp [intForm, binForm, tysI, tysN, e] at h)
  (fun h => by
    rcases plainRm_or f.rm with e | ⟨c, e⟩
    · exact e
    · simp [intForm, binForm, e] at h)
  (fun _ e _ _ => congrArg (fun x => some (Instr.idiv x)) e)

theorem irem (f : ArithF) : Statement (.irem f) := of_arith (mk := Instr.irem) rfl rfl
  (fun h => by
    rcases plainTy_or f.ty with e | ⟨c, e⟩
    · exact e
    · simp [intForm, binForm, tysI, tysN, e] at h)
  (fun h => by
    rcases plainRm_or f.rm with e | ⟨c, e⟩
    · exact e
    · simp [intForm, binForm, e] at h)
  (fun _ e _ _ => congrArg (fun x => some (Instr.irem x)) e)

theorem imin (f : ArithF) : Statement (.imin f) := of_arith (mk := Instr.imin) rfl rfl
  (fun h => by
    rcases plainTy_or f.ty with e | ⟨c, e⟩
    · exact e
    · simp [intForm, binForm, tysI, tysN, e] at h)
  (fun h => by
    rcases plainRm_or f.rm with e | ⟨c, e⟩
    · exact e
    · simp [intForm, binForm, e] at h)
  (fun _ e _ _ => congrArg (fun x => some (Instr.imin x)) e)

theorem imax (f : ArithF) : Statement (.imax f) := of_arith (mk := Instr.imax) rfl rfl
  (fun h => by
    rcases plainTy_or f.ty with e | ⟨c, e⟩
    · exact e
    · simp [intForm, binForm, tysI, tysN, e] at h)
  (fun h => by
    rcases plainRm_or f.rm with e | ⟨c, e⟩
    · exact e
    · simp [intForm, binForm, e] at h)
  (fun _ e _ _ => congrArg (fun x => some (Instr.imax x)) e)

theorem iabs (f : ArithF) : Statement (.iabs f) := of_arith (mk := Instr.iabs) rfl rfl
  (fun h => by
    rcases plainTy_or f.ty with e | ⟨c, e⟩
    · exact e
    · simp [intForm, unForm, tysI, e] at h)
  (fun h => by
    rcases plainRm_or f.rm with e | ⟨c, e⟩
    · exact e
    · simp [intForm, unForm, e] at h)
  (fun _ e _ _ => congrArg (fun x => some (Instr.iabs x)) e)

theorem ineg (f : ArithF) : Statement (.ineg f) := of_arith (mk := Instr.ineg) rfl rfl
  (fun h => by
    rcases plainTy_or f.ty with e | ⟨c, e⟩
    · exact e
    · simp [tysInt, tysI, tysN, tysB, e] at h)
  (fun h => by
    rcases plainRm_or f.rm with e | ⟨c, e⟩
    · exact e
    · simp [e] at h)
  (fun _ e _ _ => congrArg (fun x => some (Instr.ineg x)) e)

theorem and (f : ArithF) : Statement (.and f) := of_arith (mk := Instr.and) rfl rfl
  (fun h => by
    rcases plainTy_or f.ty with e | ⟨c, e⟩
    · exact e
    · simp [intForm, binForm, tysB, e] at h)
  (fun h => by
    rcases plainRm_or f.rm with e | ⟨c, e⟩
    · exact e
    · simp [intForm, binForm, e] at h)
  (fun _ e _ _ => congrArg (fun x => some (Instr.and x)) e)

theorem or (f : ArithF) : Statement (.or f) := of_arith (mk := Instr.or) rfl rfl
  (fun h => by
    rcases plainTy_or f.ty with e | ⟨c, e⟩
    · exact e
    · simp [intForm, binForm, tysB, e] at h)
  (fun h => by
    rcases plainRm_or f.rm with e | ⟨c, e⟩
    · exact e
    · simp [intForm, binForm, e] at h)
  (fun _ e _ _ => congrArg (fun x => some (Instr.or x)) e)

theorem xor (f : ArithF) : Statement (.xor f) := of_arith (mk := Instr.xor) rfl rfl
  (fun h => by
    rcases plainTy_or f.ty with e | ⟨c, e⟩
    · exact e
    · simp [intForm, binForm, tysB, e] at h)
  (fun h => by
    rcases plainRm_or f.rm with e | ⟨c, e⟩
    · exact e
    · simp [intForm, binForm, e] at h)
  (fun _ e _ _ => congrArg (fun x => some (Instr.xor x)) e)

theorem not (f : ArithF) : Statement (.not f) := of_arith (mk := Instr.not) rfl rfl
  (fun h => by
    rcases plainTy_or f.ty with e | ⟨c, e⟩
    · exact e
    · simp [intForm, unForm, tysB, e] at h)
  (fun h => by
    rcases plainRm_or f.rm with e | ⟨c, e⟩
    · exact e
    · simp [intForm, unForm, e] at h)
  (fun _ e _ _ => congrArg (fun x => some (Instr.not x)) e)

theorem blop (f : ArithF) : Statement (.blop f) := of_arith (mk := Instr.blop) rfl rfl
  (fun h => by
    rcases plainTy_or f.ty with e | ⟨c, e⟩
    · exact e
    · simp [tysB, e] at h)
  (fun h => by
    rcases plainRm_or f.rm with e | ⟨c, e⟩
    · exact e
    · simp [e] at h)
  (fun _ e _ _ => congrArg (fun x => some (Instr.blop x)) e)

theorem shl (f : ArithF) : Statement (.shl f) := of_arith (mk := Instr.shl) rfl rfl
  (fun h => by
    rcases plainTy_or f.ty with e | ⟨c, e⟩
    · exact e
    · simp [intForm, countForm, tysInt, tysI, tysN, tysB, e] at h)
  (fun h => by
    rcases plainRm_or f.rm with e | ⟨c, e⟩
    · exact e
    · simp [intForm, countForm, e] at h)
  (fun _ e _ _ => congrArg (fun x => some (Instr.shl x)) e)

theorem shr (f : ArithF) : Statement (.shr f) := of_arith (mk := Instr.shr) rfl rfl
  (fun h => by
    rcases plainTy_or f.ty with e | ⟨c, e⟩
    · exact e
    · simp [intForm, countForm, tysInt, tysI, tysN, tysB, e] at h)
  (fun h => by
    rcases plainRm_or f.rm with e | ⟨c, e⟩
    · exact e
    · simp [intForm, countForm, e] at h)
  (fun _ e _ _ => congrArg (fun x => some (Instr.shr x)) e)

theorem sar (f : ArithF) : Statement (.sar f) := of_arith (mk := Instr.sar) rfl rfl
  (fun h => by
    rcases plainTy_or f.ty with e | ⟨c, e⟩
    · exact e
    · simp [intForm, countForm, tysInt, tysI, tysN, tysB, e] at h)
  (fun h => by
    rcases plainRm_or f.rm with e | ⟨c, e⟩
    · exact e
    · simp [intForm, countForm, e] at h)
  (fun _ e _ _ => congrArg (fun x => some (Instr.sar x)) e)

theorem rot (f : ArithF) : Statement (.rot f) := of_arith (mk := Instr.rot) rfl rfl
  (fun h => by
    rcases plainTy_or f.ty with e | ⟨c, e⟩
    · exact e
    · simp [intForm, countForm, tysInt, tysI, tysN, tysB, e] at h)
  (fun h => by
    rcases plainRm_or f.rm with e | ⟨c, e⟩
    · exact e
    · simp [intForm, countForm, e] at h)
  (fun _ e _ _ => congrArg (fun x => some (Instr.rot x)) e)

theorem bfe (f : ArithF) : Statement (.bfe f) := of_arith (mk := Instr.bfe) rfl rfl
  (fun h => by
    rcases plainTy_or f.ty with e | ⟨c, e⟩
    · exact e
    · simp [intForm, countForm, e] at h)
  (fun h => by
    rcases plainRm_or f.rm with e | ⟨c, e⟩
    · exact e
    · simp [intForm, countForm, e] at h)
  (fun _ e _ _ => congrArg (fun x => some (Instr.bfe x)) e)

theorem bfi (f : ArithF) : Statement (.bfi f) := of_arith (mk := Instr.bfi) rfl rfl
  (fun h => by
    rcases plainTy_or f.ty with e | ⟨c, e⟩
    · exact e
    · simp [intForm, countForm, e] at h)
  (fun h => by
    rcases plainRm_or f.rm with e | ⟨c, e⟩
    · exact e
    · simp [intForm, countForm, e] at h)
  (fun _ e _ _ => congrArg (fun x => some (Instr.bfi x)) e)

theorem popc (f : ArithF) : Statement (.popc f) := of_arith (mk := Instr.popc) rfl rfl
  (fun h => by
    rcases plainTy_or f.ty with e | ⟨c, e⟩
    · exact e
    · simp [intForm, e] at h)
  (fun h => by
    rcases plainRm_or f.rm with e | ⟨c, e⟩
    · exact e
    · simp [intForm, e] at h)
  (fun _ e _ _ => congrArg (fun x => some (Instr.popc x)) e)

theorem clz (f : ArithF) : Statement (.clz f) := of_arith (mk := Instr.clz) rfl rfl
  (fun h => by
    rcases plainTy_or f.ty with e | ⟨c, e⟩
    · exact e
    · simp [intForm, e] at h)
  (fun h => by
    rcases plainRm_or f.rm with e | ⟨c, e⟩
    · exact e
    · simp [intForm, e] at h)
  (fun _ e _ _ => congrArg (fun x => some (Instr.clz x)) e)

theorem brev (f : ArithF) : Statement (.brev f) := of_arith (mk := Instr.brev) rfl rfl
  (fun h => by
    rcases plainTy_or f.ty with e | ⟨c, e⟩
    · exact e
    · simp [intForm, unForm, e] at h)
  (fun h => by
    rcases plainRm_or f.rm with e | ⟨c, e⟩
    · exact e
    · simp [intForm, unForm, e] at h)
  (fun _ e _ _ => congrArg (fun x => some (Instr.brev x)) e)

theorem lea (f : ArithF) : Statement (.lea f) := of_arith (mk := Instr.lea) rfl rfl
  (fun h => by
    rcases plainTy_or f.ty with e | ⟨c, e⟩
    · exact e
    · simp [e] at h)
  (fun h => by
    rcases plainRm_or f.rm with e | ⟨c, e⟩
    · exact e
    · simp [e] at h)
  (fun _ e _ _ => congrArg (fun x => some (Instr.lea x)) e)

theorem fadd (f : ArithF) : Statement (.fadd f) := of_arith (mk := Instr.fadd) rfl rfl
  (fun h => by
    rcases plainTy_or f.ty with e | ⟨c, e⟩
    · exact e
    · simp [fpForm, e] at h)
  (fun h => by
    rcases plainRm_or f.rm with e | ⟨c, e⟩
    · exact e
    · simp [fpForm, e] at h)
  (fun _ e _ _ => congrArg (fun x => some (Instr.fadd x)) e)

theorem fsub (f : ArithF) : Statement (.fsub f) := of_arith (mk := Instr.fsub) rfl rfl
  (fun h => by
    rcases plainTy_or f.ty with e | ⟨c, e⟩
    · exact e
    · simp [fpForm, e] at h)
  (fun h => by
    rcases plainRm_or f.rm with e | ⟨c, e⟩
    · exact e
    · simp [fpForm, e] at h)
  (fun _ e _ _ => congrArg (fun x => some (Instr.fsub x)) e)

theorem fmul (f : ArithF) : Statement (.fmul f) := of_arith (mk := Instr.fmul) rfl rfl
  (fun h => by
    rcases plainTy_or f.ty with e | ⟨c, e⟩
    · exact e
    · simp [fpForm, e] at h)
  (fun h => by
    rcases plainRm_or f.rm with e | ⟨c, e⟩
    · exact e
    · simp [fpForm, e] at h)
  (fun _ e _ _ => congrArg (fun x => some (Instr.fmul x)) e)

theorem ffma (f : ArithF) : Statement (.ffma f) := of_arith (mk := Instr.ffma) rfl rfl
  (fun h => by
    rcases plainTy_or f.ty with e | ⟨c, e⟩
    · exact e
    · simp [fpForm, e] at h)
  (fun h => by
    rcases plainRm_or f.rm with e | ⟨c, e⟩
    · exact e
    · simp [fpForm, e] at h)
  (fun _ e _ _ => congrArg (fun x => some (Instr.ffma x)) e)

theorem fmin (f : ArithF) : Statement (.fmin f) := of_arith (mk := Instr.fmin) rfl rfl
  (fun h => by
    rcases plainTy_or f.ty with e | ⟨c, e⟩
    · exact e
    · simp [fpForm, e] at h)
  (fun h => by
    rcases plainRm_or f.rm with e | ⟨c, e⟩
    · exact e
    · simp [fpForm, e] at h)
  (fun _ e _ _ => congrArg (fun x => some (Instr.fmin x)) e)

theorem fmax (f : ArithF) : Statement (.fmax f) := of_arith (mk := Instr.fmax) rfl rfl
  (fun h => by
    rcases plainTy_or f.ty with e | ⟨c, e⟩
    · exact e
    · simp [fpForm, e] at h)
  (fun h => by
    rcases plainRm_or f.rm with e | ⟨c, e⟩
    · exact e
    · simp [fpForm, e] at h)
  (fun _ e _ _ => congrArg (fun x => some (Instr.fmax x)) e)

theorem fabs (f : ArithF) : Statement (.fabs f) := of_arith (mk := Instr.fabs) rfl rfl
  (fun h => by
    rcases plainTy_or f.ty with e | ⟨c, e⟩
    · exact e
    · simp [fpForm, e] at h)
  (fun h => by
    rcases plainRm_or f.rm with e | ⟨c, e⟩
    · exact e
    · simp [fpForm, e] at h)
  (fun _ e _ _ => congrArg (fun x => some (Instr.fabs x)) e)

theorem fneg (f : ArithF) : Statement (.fneg f) := of_arith (mk := Instr.fneg) rfl rfl
  (fun h => by
    rcases plainTy_or f.ty with e | ⟨c, e⟩
    · exact e
    · simp [fpForm, e] at h)
  (fun h => by
    rcases plainRm_or f.rm with e | ⟨c, e⟩
    · exact e
    · simp [fpForm, e] at h)
  (fun _ e _ _ => congrArg (fun x => some (Instr.fneg x)) e)

theorem fdiv (f : ArithF) : Statement (.fdiv f) := of_arith (mk := Instr.fdiv) rfl rfl
  (fun h => by
    rcases plainTy_or f.ty with e | ⟨c, e⟩
    · exact e
    · simp [fpForm, e] at h)
  (fun h => by
    rcases plainRm_or f.rm with e | ⟨c, e⟩
    · exact e
    · simp [fpForm, e] at h)
  (fun _ e _ _ => congrArg (fun x => some (Instr.fdiv x)) e)

theorem fsqrt (f : ArithF) : Statement (.fsqrt f) := of_arith (mk := Instr.fsqrt) rfl rfl
  (fun h => by
    rcases plainTy_or f.ty with e | ⟨c, e⟩
    · exact e
    · simp [fpForm, e] at h)
  (fun h => by
    rcases plainRm_or f.rm with e | ⟨c, e⟩
    · exact e
    · simp [fpForm, e] at h)
  (fun _ e _ _ => congrArg (fun x => some (Instr.fsqrt x)) e)

theorem frcp (f : ArithF) : Statement (.frcp f) := of_arith (mk := Instr.frcp) rfl rfl
  (fun h => by
    rcases plainTy_or f.ty with e | ⟨c, e⟩
    · exact e
    · simp [fpForm, e] at h)
  (fun h => by
    rcases plainRm_or f.rm with e | ⟨c, e⟩
    · exact e
    · simp [fpForm, e] at h)
  (fun _ e _ _ => congrArg (fun x => some (Instr.frcp x)) e)

theorem frsq (f : ArithF) : Statement (.frsq f) := of_arith (mk := Instr.frsq) rfl rfl
  (fun h => by
    rcases plainTy_or f.ty with e | ⟨c, e⟩
    · exact e
    · simp [fpForm, e] at h)
  (fun h => by
    rcases plainRm_or f.rm with e | ⟨c, e⟩
    · exact e
    · simp [fpForm, e] at h)
  (fun _ e _ _ => congrArg (fun x => some (Instr.frsq x)) e)

theorem fexp2 (f : ArithF) : Statement (.fexp2 f) := of_arith (mk := Instr.fexp2) rfl rfl
  (fun h => by
    rcases plainTy_or f.ty with e | ⟨c, e⟩
    · exact e
    · simp [fpForm, e] at h)
  (fun h => by
    rcases plainRm_or f.rm with e | ⟨c, e⟩
    · exact e
    · simp [fpForm, e] at h)
  (fun _ e _ _ => congrArg (fun x => some (Instr.fexp2 x)) e)

theorem flog2 (f : ArithF) : Statement (.flog2 f) := of_arith (mk := Instr.flog2) rfl rfl
  (fun h => by
    rcases plainTy_or f.ty with e | ⟨c, e⟩
    · exact e
    · simp [fpForm, e] at h)
  (fun h => by
    rcases plainRm_or f.rm with e | ⟨c, e⟩
    · exact e
    · simp [fpForm, e] at h)
  (fun _ e _ _ => congrArg (fun x => some (Instr.flog2 x)) e)

theorem fsin (f : ArithF) : Statement (.fsin f) := of_arith (mk := Instr.fsin) rfl rfl
  (fun h => by
    rcases plainTy_or f.ty with e | ⟨c, e⟩
    · exact e
    · simp [fpForm, e] at h)
  (fun h => by
    rcases plainRm_or f.rm with e | ⟨c, e⟩
    · exact e
    · simp [fpForm, e] at h)
  (fun _ e _ _ => congrArg (fun x => some (Instr.fsin x)) e)

theorem fcos (f : ArithF) : Statement (.fcos f) := of_arith (mk := Instr.fcos) rfl rfl
  (fun h => by
    rcases plainTy_or f.ty with e | ⟨c, e⟩
    · exact e
    · simp [fpForm, e] at h)
  (fun h => by
    rcases plainRm_or f.rm with e | ⟨c, e⟩
    · exact e
    · simp [fpForm, e] at h)
  (fun _ e _ _ => congrArg (fun x => some (Instr.fcos x)) e)

theorem fcmp (f : ArithF) : Statement (.fcmp f) := of_arith (mk := Instr.fcmp) rfl rfl
  (fun h => by
    rcases plainTy_or f.ty with e | ⟨c, e⟩
    · exact e
    · simp [e] at h)
  (fun h => by
    rcases plainRm_or f.rm with e | ⟨c, e⟩
    · exact e
    · simp [e] at h)
  (fun _ e _ _ => congrArg (fun x => some (Instr.fcmp x)) e)

theorem fclass (f : ArithF) : Statement (.fclass f) := of_arith (mk := Instr.fclass) rfl rfl
  (fun h => by
    rcases plainTy_or f.ty with e | ⟨c, e⟩
    · exact e
    · simp [e] at h)
  (fun h => by
    rcases plainRm_or f.rm with e | ⟨c, e⟩
    · exact e
    · simp [e] at h)
  (fun _ e _ _ => congrArg (fun x => some (Instr.fclass x)) e)

theorem fscalb (f : ArithF) : Statement (.fscalb f) := of_arith (mk := Instr.fscalb) rfl rfl
  (fun h => by
    rcases plainTy_or f.ty with e | ⟨c, e⟩
    · exact e
    · simp [e] at h)
  (fun h => by
    rcases plainRm_or f.rm with e | ⟨c, e⟩
    · exact e
    · simp [e] at h)
  (fun _ e _ _ => congrArg (fun x => some (Instr.fscalb x)) e)

theorem frnd (f : ArithF) : Statement (.frnd f) := of_arith (mk := Instr.frnd) rfl rfl
  (fun h => by
    rcases plainTy_or f.ty with e | ⟨c, e⟩
    · exact e
    · simp [e] at h)
  (fun h => by
    rcases plainRm_or f.rm with e | ⟨c, e⟩
    · exact e
    · simp [e] at h)
  (fun _ e _ _ => congrArg (fun x => some (Instr.frnd x)) e)

theorem cvt (f : ArithF) : Statement (.cvt f) := of_arith (mk := Instr.cvt) rfl rfl
  (fun h => by
    rcases plainTy_or f.ty with e | ⟨c, e⟩
    · exact e
    · simp [cvtPair, tysFloat, tysCvtInt, e] at h)
  (fun h => by
    rcases plainRm_or f.rm with e | ⟨c, e⟩
    · exact e
    · simp [e] at h)
  (fun h e e2 e3 => by
    have hs : (f.ty == .mx8 || tyOf f.sub == .mx8) = false := by
      cases hx : f.ty == Ty.mx8 <;> cases hy : tyOf f.sub == Ty.mx8 <;> simp_all [cvtPair, tysFloat, tysCvtInt]
    show some (if (f.raw 0x180).ty == .mx8 || tyOf (f.raw 0x180).sub5 == .mx8 then Instr.cvtMx8 (f.raw 0x180).arith else Instr.cvt (f.raw 0x180).arith) = _
    rw [e2, e3, e, hs]; rfl)

theorem cvtMx8 (f : ArithF) : Statement (.cvtMx8 f) := of_arith (mk := Instr.cvtMx8) rfl rfl
  (fun h => by
    rcases plainTy_or f.ty with e | ⟨c, e⟩
    · exact e
    · simp [e] at h)
  (fun h => by
    rcases plainRm_or f.rm with e | ⟨c, e⟩
    · exact e
    · simp [e] at h)
  (fun h e e2 e3 => by
    have hs : (f.ty == .mx8 || tyOf f.sub == .mx8) = true := by
      simp at h; rcases h.2 with h | h <;> simp [h.1, h.2]
    show some (if (f.raw 0x180).ty == .mx8 || tyOf (f.raw 0x180).sub5 == .mx8 then Instr.cvtMx8 (f.raw 0x180).arith else Instr.cvt (f.raw 0x180).arith) = _
    rw [e2, e3, e, hs]; rfl)

theorem qblk (f : ArithF) : Statement (.qblk f) := of_arith (mk := Instr.qblk) rfl rfl
  (fun h => by
    rcases plainTy_or f.ty with e | ⟨c, e⟩
    · exact e
    · simp [e] at h)
  (fun h => by
    rcases plainRm_or f.rm with e | ⟨c, e⟩
    · exact e
    · simp [e] at h)
  (fun _ e _ _ => congrArg (fun x => some (Instr.qblk x)) e)

theorem dqblk (f : ArithF) : Statement (.dqblk f) := of_arith (mk := Instr.dqblk) rfl rfl
  (fun h => by
    rcases plainTy_or f.ty with e | ⟨c, e⟩
    · exact e
    · simp [e] at h)
  (fun h => by
    rcases plainRm_or f.rm with e | ⟨c, e⟩
    · exact e
    · simp [e] at h)
  (fun _ e _ _ => congrArg (fun x => some (Instr.dqblk x)) e)

theorem mxq (f : ArithF) : Statement (.mxq f) := of_arith (mk := Instr.mxq) rfl rfl
  (fun h => by
    rcases plainTy_or f.ty with e | ⟨c, e⟩
    · exact e
    · simp [e] at h)
  (fun h => by
    rcases plainRm_or f.rm with e | ⟨c, e⟩
    · exact e
    · simp [e] at h)
  (fun _ e _ _ => congrArg (fun x => some (Instr.mxq x)) e)

theorem mxdq (f : ArithF) : Statement (.mxdq f) := of_arith (mk := Instr.mxdq) rfl rfl
  (fun h => by
    rcases plainTy_or f.ty with e | ⟨c, e⟩
    · exact e
    · simp [e] at h)
  (fun h => by
    rcases plainRm_or f.rm with e | ⟨c, e⟩
    · exact e
    · simp [e] at h)
  (fun _ e _ _ => congrArg (fun x => some (Instr.mxdq x)) e)

theorem pack (f : ArithF) : Statement (.pack f) := of_arith (mk := Instr.pack) rfl rfl
  (fun h => by
    rcases plainTy_or f.ty with e | ⟨c, e⟩
    · exact e
    · simp [e] at h)
  (fun h => by
    rcases plainRm_or f.rm with e | ⟨c, e⟩
    · exact e
    · simp [e] at h)
  (fun _ e _ _ => congrArg (fun x => some (Instr.pack x)) e)

theorem unpack (f : ArithF) : Statement (.unpack f) := of_arith (mk := Instr.unpack) rfl rfl
  (fun h => by
    rcases plainTy_or f.ty with e | ⟨c, e⟩
    · exact e
    · simp [e] at h)
  (fun h => by
    rcases plainRm_or f.rm with e | ⟨c, e⟩
    · exact e
    · simp [e] at h)
  (fun _ e _ _ => congrArg (fun x => some (Instr.unpack x)) e)

theorem stget (f : ArithF) : Statement (.stget f) := of_arith (mk := Instr.stget) rfl rfl
  (fun h => by
    rcases plainTy_or f.ty with e | ⟨c, e⟩
    · exact e
    · simp [stampForm, e] at h)
  (fun h => by
    rcases plainRm_or f.rm with e | ⟨c, e⟩
    · exact e
    · simp [stampForm, e] at h)
  (fun _ e _ _ => congrArg (fun x => some (Instr.stget x)) e)

theorem stset (f : ArithF) : Statement (.stset f) := of_arith (mk := Instr.stset) rfl rfl
  (fun h => by
    rcases plainTy_or f.ty with e | ⟨c, e⟩
    · exact e
    · simp [stampForm, e] at h)
  (fun h => by
    rcases plainRm_or f.rm with e | ⟨c, e⟩
    · exact e
    · simp [stampForm, e] at h)
  (fun _ e _ _ => congrArg (fun x => some (Instr.stset x)) e)

theorem stless (f : ArithF) : Statement (.stless f) := of_arith (mk := Instr.stless) rfl rfl
  (fun h => by
    rcases plainTy_or f.ty with e | ⟨c, e⟩
    · exact e
    · simp [stampForm, e] at h)
  (fun h => by
    rcases plainRm_or f.rm with e | ⟨c, e⟩
    · exact e
    · simp [stampForm, e] at h)
  (fun _ e _ _ => congrArg (fun x => some (Instr.stless x)) e)

theorem stmin (f : ArithF) : Statement (.stmin f) := of_arith (mk := Instr.stmin) rfl rfl
  (fun h => by
    rcases plainTy_or f.ty with e | ⟨c, e⟩
    · exact e
    · simp [stampForm, e] at h)
  (fun h => by
    rcases plainRm_or f.rm with e | ⟨c, e⟩
    · exact e
    · simp [stampForm, e] at h)
  (fun _ e _ _ => congrArg (fun x => some (Instr.stmin x)) e)

theorem age (f : ArithF) : Statement (.age f) := of_arith (mk := Instr.age) rfl rfl
  (fun h => by
    rcases plainTy_or f.ty with e | ⟨c, e⟩
    · exact e
    · simp [stampForm, e] at h)
  (fun h => by
    rcases plainRm_or f.rm with e | ⟨c, e⟩
    · exact e
    · simp [stampForm, e] at h)
  (fun _ e _ _ => congrArg (fun x => some (Instr.age x)) e)

theorem fresh (f : ArithF) : Statement (.fresh f) := of_arith (mk := Instr.fresh) rfl rfl
  (fun h => by
    rcases plainTy_or f.ty with e | ⟨c, e⟩
    · exact e
    · simp [stampForm, e] at h)
  (fun h => by
    rcases plainRm_or f.rm with e | ⟨c, e⟩
    · exact e
    · simp [stampForm, e] at h)
  (fun _ e _ _ => congrArg (fun x => some (Instr.fresh x)) e)

theorem time (f : ArithF) : Statement (.time f) := of_arith (mk := Instr.time) rfl rfl
  (fun h => by
    rcases plainTy_or f.ty with e | ⟨c, e⟩
    · exact e
    · simp [e] at h)
  (fun h => by
    rcases plainRm_or f.rm with e | ⟨c, e⟩
    · exact e
    · simp [e] at h)
  (fun _ e _ _ => congrArg (fun x => some (Instr.time x)) e)

theorem timeReply (op : Nat) : Statement (.timeReply op) := of_none rfl

theorem hzn (f : ArithF) : Statement (.hzn f) := of_arith (mk := Instr.hzn) rfl rfl
  (fun h => by
    rcases plainTy_or f.ty with e | ⟨c, e⟩
    · exact e
    · simp [e] at h)
  (fun h => by
    rcases plainRm_or f.rm with e | ⟨c, e⟩
    · exact e
    · simp [e] at h)
  (fun _ e _ _ => congrArg (fun x => some (Instr.hzn x)) e)

theorem ld (f : MemF) : Statement (.ld f) := of_mem (mk := Instr.ld) rfl rfl
  (fun h => by
    rcases plainTy_or f.ty with e | ⟨c, e⟩
    · exact e
    · simp [accessForm, tysInt, tysI, tysN, tysB, tysMem, e] at h)
  (fun _ e => congrArg (fun x => some (Instr.ld x)) e)

theorem st (f : MemF) : Statement (.st f) := of_mem (mk := Instr.st) rfl rfl
  (fun h => by
    rcases plainTy_or f.ty with e | ⟨c, e⟩
    · exact e
    · simp [accessForm, tysInt, tysI, tysN, tysB, tysMem, e] at h)
  (fun _ e => congrArg (fun x => some (Instr.st x)) e)

theorem lde (f : MemF) : Statement (.lde f) := of_mem (mk := Instr.lde) rfl rfl
  (fun h => by
    rcases plainTy_or f.ty with e | ⟨c, e⟩
    · exact e
    · simp [e] at h)
  (fun _ e => congrArg (fun x => some (Instr.lde x)) e)

theorem ldg (f : MemF) : Statement (.ldg f) := of_mem (mk := Instr.ldg) rfl rfl
  (fun h => by
    rcases plainTy_or f.ty with e | ⟨c, e⟩
    · exact e
    · simp [accessForm, tysInt, tysI, tysN, tysB, tysMem, e] at h)
  (fun _ e => congrArg (fun x => some (Instr.ldg x)) e)

theorem sct (f : MemF) : Statement (.sct f) := of_mem (mk := Instr.sct) rfl rfl
  (fun h => by
    rcases plainTy_or f.ty with e | ⟨c, e⟩
    · exact e
    · simp [accessForm, tysInt, tysI, tysN, tysB, tysMem, e] at h)
  (fun _ e => congrArg (fun x => some (Instr.sct x)) e)

theorem ldt (f : MemF) : Statement (.ldt f) := of_mem (mk := Instr.ldt) rfl rfl
  (fun h => by
    rcases plainTy_or f.ty with e | ⟨c, e⟩
    · exact e
    · simp [tysB, e] at h)
  (fun _ e => congrArg (fun x => some (Instr.ldt x)) e)

theorem lds (f : MemF) : Statement (.lds f) := of_mem (mk := Instr.lds) rfl rfl
  (fun h => by
    rcases plainTy_or f.ty with e | ⟨c, e⟩
    · exact e
    · simp [accessForm, tysInt, tysI, tysN, tysB, tysMem, e] at h)
  (fun _ e => congrArg (fun x => some (Instr.lds x)) e)

theorem sts (f : MemF) : Statement (.sts f) := of_mem (mk := Instr.sts) rfl rfl
  (fun h => by
    rcases plainTy_or f.ty with e | ⟨c, e⟩
    · exact e
    · simp [accessForm, tysInt, tysI, tysN, tysB, tysMem, e] at h)
  (fun _ e => congrArg (fun x => some (Instr.sts x)) e)

theorem pref (f : MemF) : Statement (.pref f) := of_mem (mk := Instr.pref) rfl rfl
  (fun h => by
    rcases plainTy_or f.ty with e | ⟨c, e⟩
    · exact e
    · simp [e] at h)
  (fun _ e => congrArg (fun x => some (Instr.pref x)) e)

theorem cctlWb (f : MemF) : Statement (.cctlWb f) := of_mem (mk := Instr.cctlWb) rfl rfl
  (fun h => by
    rcases plainTy_or f.ty with e | ⟨c, e⟩
    · exact e
    · simp [e] at h)
  (fun h e => by
    have hs : f.ext.maxage = 0 := by simp at h; exact h.2
    show some (if (f.raw 0x209).mem.ext.maxage == 1 then Instr.cctlInv (f.raw 0x209).mem
      else if (f.raw 0x209).mem.ext.maxage == 2 then Instr.cctlLu (f.raw 0x209).mem else Instr.cctlWb (f.raw 0x209).mem) = _
    rw [e, hs]; rfl)

theorem cctlInv (f : MemF) : Statement (.cctlInv f) := of_mem (mk := Instr.cctlInv) rfl rfl
  (fun h => by
    rcases plainTy_or f.ty with e | ⟨c, e⟩
    · exact e
    · simp [e] at h)
  (fun h e => by
    have hs : f.ext.maxage = 1 := by simp at h; exact h.2
    show some (if (f.raw 0x209).mem.ext.maxage == 1 then Instr.cctlInv (f.raw 0x209).mem
      else if (f.raw 0x209).mem.ext.maxage == 2 then Instr.cctlLu (f.raw 0x209).mem else Instr.cctlWb (f.raw 0x209).mem) = _
    rw [e, hs]; rfl)

theorem cctlLu (f : MemF) : Statement (.cctlLu f) := of_mem (mk := Instr.cctlLu) rfl rfl
  (fun h => by
    rcases plainTy_or f.ty with e | ⟨c, e⟩
    · exact e
    · simp [e] at h)
  (fun h e => by
    have hs : f.ext.maxage = 2 := by simp at h; exact h.2
    show some (if (f.raw 0x209).mem.ext.maxage == 1 then Instr.cctlInv (f.raw 0x209).mem
      else if (f.raw 0x209).mem.ext.maxage == 2 then Instr.cctlLu (f.raw 0x209).mem else Instr.cctlWb (f.raw 0x209).mem) = _
    rw [e, hs]; rfl)

theorem bankcfg (f : MemF) : Statement (.bankcfg f) := of_mem (mk := Instr.bankcfg) rfl rfl
  (fun h => by
    rcases plainTy_or f.ty with e | ⟨c, e⟩
    · exact e
    · simp [e] at h)
  (fun _ e => congrArg (fun x => some (Instr.bankcfg x)) e)

theorem bankDrainDone (cluster bank : Nat) : Statement (.bankDrainDone cluster bank) := of_none rfl

theorem wlog (f : MemF) : Statement (.wlog f) := of_mem (mk := Instr.wlog) rfl rfl
  (fun h => by
    rcases plainTy_or f.ty with e | ⟨c, e⟩
    · exact e
    · simp [e] at h)
  (fun _ e => congrArg (fun x => some (Instr.wlog x)) e)

theorem loadDataArrive (op : Nat) : Statement (.loadDataArrive op) := of_none rfl

theorem storeApply (op gran : Nat) : Statement (.storeApply op gran) := of_none rfl

theorem mma (f : EngF) : Statement (.mma f) := of_eng (mk := Instr.mma) rfl rfl
  (fun h => by
    rcases plainTy_or f.ty with e | ⟨c, e⟩
    · exact e
    · simp [mmaAccOk, e] at h)
  (fun h => by
    rcases plainRm_or f.rm with e | ⟨c, e⟩
    · exact e
    · simp [e] at h)
  (fun _ e _ => congrArg (fun x => some (Instr.mma x)) e)

theorem mmaStep (op : Nat) : Statement (.mmaStep op) := of_none rfl

theorem tzero (f : EngF) : Statement (.tzero f) := of_eng (mk := Instr.tzero) rfl rfl
  (fun h => by
    rcases plainTy_or f.ty with e | ⟨c, e⟩
    · exact e
    · simp [e] at h)
  (fun h => by
    rcases plainRm_or f.rm with e | ⟨c, e⟩
    · exact e
    · simp [e] at h)
  (fun _ e _ => congrArg (fun x => some (Instr.tzero x)) e)

theorem tldm (f : EngF) : Statement (.tldm f) := of_eng (mk := Instr.tldm) rfl rfl
  (fun h => by
    rcases plainTy_or f.ty with e | ⟨c, e⟩
    · exact e
    · simp [e] at h)
  (fun h => by
    rcases plainRm_or f.rm with e | ⟨c, e⟩
    · exact e
    · simp [e] at h)
  (fun _ e _ => congrArg (fun x => some (Instr.tldm x)) e)

theorem trd (f : EngF) : Statement (.trd f) := of_eng (mk := Instr.trd) rfl rfl
  (fun h => by
    rcases plainTy_or f.ty with e | ⟨c, e⟩
    · exact e
    · simp [e] at h)
  (fun h => by
    rcases plainRm_or f.rm with e | ⟨c, e⟩
    · exact e
    · simp [e] at h)
  (fun _ e _ => congrArg (fun x => some (Instr.trd x)) e)

theorem twr (f : EngF) : Statement (.twr f) := of_eng (mk := Instr.twr) rfl rfl
  (fun h => by
    rcases plainTy_or f.ty with e | ⟨c, e⟩
    · exact e
    · simp [e] at h)
  (fun h => by
    rcases plainRm_or f.rm with e | ⟨c, e⟩
    · exact e
    · simp [e] at h)
  (fun _ e _ => congrArg (fun x => some (Instr.twr x)) e)

theorem tscl (f : EngF) : Statement (.tscl f) := of_eng (mk := Instr.tscl) rfl rfl
  (fun h => by
    rcases plainTy_or f.ty with e | ⟨c, e⟩
    · exact e
    · simp [e] at h)
  (fun h => by
    rcases plainRm_or f.rm with e | ⟨c, e⟩
    · exact e
    · simp [e] at h)
  (fun _ e _ => congrArg (fun x => some (Instr.tscl x)) e)

theorem tileRetire (op : Nat) : Statement (.tileRetire op) := of_none rfl

theorem vproj (f : EngF) : Statement (.vproj f) := of_eng (mk := Instr.vproj) rfl rfl
  (fun h => by
    rcases plainTy_or f.ty with e | ⟨c, e⟩
    · exact e
    · simp [projForm, projTypes, e] at h)
  (fun h => by
    rcases plainRm_or f.rm with e | ⟨c, e⟩
    · exact e
    · simp [projForm, e] at h)
  (fun _ e _ => congrArg (fun x => some (Instr.vproj x)) e)

theorem vprojChunk (op : Nat) : Statement (.vprojChunk op) := of_none rfl

theorem vprojb (f : EngF) : Statement (.vprojb f) := of_eng (mk := Instr.vprojb) rfl rfl
  (fun h => by
    rcases plainTy_or f.ty with e | ⟨c, e⟩
    · exact e
    · simp [projForm, projTypes, e] at h)
  (fun h => by
    rcases plainRm_or f.rm with e | ⟨c, e⟩
    · exact e
    · simp [projForm, e] at h)
  (fun _ e _ => congrArg (fun x => some (Instr.vprojb x)) e)

theorem vmerge (f : EngF) : Statement (.vmerge f) := of_eng (mk := Instr.vmerge) rfl rfl
  (fun h => by
    rcases plainTy_or f.ty with e | ⟨c, e⟩
    · exact e
    · simp [cgMods, e] at h)
  (fun h => by
    rcases plainRm_or f.rm with e | ⟨c, e⟩
    · exact e
    · simp [cgMods, e] at h)
  (fun _ e _ => congrArg (fun x => some (Instr.vmerge x)) e)

theorem vrset (f : EngF) : Statement (.vrset f) := of_eng (mk := Instr.vrset) rfl rfl
  (fun h => by
    rcases plainTy_or f.ty with e | ⟨c, e⟩
    · exact e
    · simp [cgMods, e] at h)
  (fun h => by
    rcases plainRm_or f.rm with e | ⟨c, e⟩
    · exact e
    · simp [cgMods, e] at h)
  (fun _ e _ => congrArg (fun x => some (Instr.vrset x)) e)

theorem xcopy (f : EngF) : Statement (.xcopy f) := of_eng (mk := Instr.xcopy) rfl rfl
  (fun h => by
    rcases plainTy_or f.ty with e | ⟨c, e⟩
    · exact e
    · simp [e] at h)
  (fun h => by
    rcases plainRm_or f.rm with e | ⟨c, e⟩
    · exact e
    · simp [e] at h)
  (fun h e e2 => by
    have hs : bitsN f.flags.toNat 0 2 = 0 := by simp at h; exact h.2
    show some (if bitsN (f.raw 0x2E0).sub5.toNat 0 2 == 1 then Instr.xcopyPush (f.raw 0x2E0).eng
      else if bitsN (f.raw 0x2E0).sub5.toNat 0 2 == 2 then Instr.xcopyPop (f.raw 0x2E0).eng else Instr.xcopy (f.raw 0x2E0).eng) = _
    rw [e2, e, hs]; rfl)

theorem xcopyPush (f : EngF) : Statement (.xcopyPush f) := of_eng (mk := Instr.xcopyPush) rfl rfl
  (fun h => by
    rcases plainTy_or f.ty with e | ⟨c, e⟩
    · exact e
    · simp [e] at h)
  (fun h => by
    rcases plainRm_or f.rm with e | ⟨c, e⟩
    · exact e
    · simp [e] at h)
  (fun h e e2 => by
    have hs : bitsN f.flags.toNat 0 2 = 1 := by simp at h; exact h.2
    show some (if bitsN (f.raw 0x2E0).sub5.toNat 0 2 == 1 then Instr.xcopyPush (f.raw 0x2E0).eng
      else if bitsN (f.raw 0x2E0).sub5.toNat 0 2 == 2 then Instr.xcopyPop (f.raw 0x2E0).eng else Instr.xcopy (f.raw 0x2E0).eng) = _
    rw [e2, e, hs]; rfl)

theorem xcopyPop (f : EngF) : Statement (.xcopyPop f) := of_eng (mk := Instr.xcopyPop) rfl rfl
  (fun h => by
    rcases plainTy_or f.ty with e | ⟨c, e⟩
    · exact e
    · simp [e] at h)
  (fun h => by
    rcases plainRm_or f.rm with e | ⟨c, e⟩
    · exact e
    · simp [e] at h)
  (fun h e e2 => by
    have hs : bitsN f.flags.toNat 0 2 = 2 := by simp at h; exact h.2
    show some (if bitsN (f.raw 0x2E0).sub5.toNat 0 2 == 1 then Instr.xcopyPush (f.raw 0x2E0).eng
      else if bitsN (f.raw 0x2E0).sub5.toNat 0 2 == 2 then Instr.xcopyPop (f.raw 0x2E0).eng else Instr.xcopy (f.raw 0x2E0).eng) = _
    rw [e2, e, hs]; rfl)

theorem xfill (f : EngF) : Statement (.xfill f) := of_eng (mk := Instr.xfill) rfl rfl
  (fun h => by
    rcases plainTy_or f.ty with e | ⟨c, e⟩
    · exact e
    · simp [e] at h)
  (fun h => by
    rcases plainRm_or f.rm with e | ⟨c, e⟩
    · exact e
    · simp [e] at h)
  (fun _ e _ => congrArg (fun x => some (Instr.xfill x)) e)

theorem xconv (f : EngF) : Statement (.xconv f) := of_eng (mk := Instr.xconv) rfl rfl
  (fun h => by
    rcases plainTy_or f.ty with e | ⟨c, e⟩
    · exact e
    · simp [e] at h)
  (fun h => by
    rcases plainRm_or f.rm with e | ⟨c, e⟩
    · exact e
    · simp [e] at h)
  (fun _ e _ => congrArg (fun x => some (Instr.xconv x)) e)

theorem copyEntryComplete (op : Nat) : Statement (.copyEntryComplete op) := of_none rfl

theorem wait (f : EngF) : Statement (.wait f) := of_eng (mk := Instr.wait) rfl rfl
  (fun h => by
    rcases plainTy_or f.ty with e | ⟨c, e⟩
    · exact e
    · simp [cgMods, e] at h)
  (fun h => by
    rcases plainRm_or f.rm with e | ⟨c, e⟩
    · exact e
    · simp [cgMods, e] at h)
  (fun _ e _ => congrArg (fun x => some (Instr.wait x)) e)

theorem waitseq (f : EngF) : Statement (.waitseq f) := of_eng (mk := Instr.waitseq) rfl rfl
  (fun h => by
    rcases plainTy_or f.ty with e | ⟨c, e⟩
    · exact e
    · simp [cgMods, e] at h)
  (fun h => by
    rcases plainRm_or f.rm with e | ⟨c, e⟩
    · exact e
    · simp [cgMods, e] at h)
  (fun _ e _ => congrArg (fun x => some (Instr.waitseq x)) e)

theorem seqrd (f : EngF) : Statement (.seqrd f) := of_eng (mk := Instr.seqrd) rfl rfl
  (fun h => by
    rcases plainTy_or f.ty with e | ⟨c, e⟩
    · exact e
    · simp [e] at h)
  (fun h => by
    rcases plainRm_or f.rm with e | ⟨c, e⟩
    · exact e
    · simp [e] at h)
  (fun _ e _ => congrArg (fun x => some (Instr.seqrd x)) e)

theorem atom (f : AtomF) : Statement (.atom f) := of_atom (mk := Instr.atom) rfl rfl
  (fun h => by
    rcases plainTy_or f.ty with e | ⟨c, e⟩
    · exact e
    · simp [atomForm, e] at h)
  (fun e => congrArg (fun x => some (Instr.atom x)) e)

theorem atomf (f : AtomF) : Statement (.atomf f) := of_atom (mk := Instr.atomf) rfl rfl
  (fun h => by
    rcases plainTy_or f.ty with e | ⟨c, e⟩
    · exact e
    · simp [atomForm, e] at h)
  (fun e => congrArg (fun x => some (Instr.atomf x)) e)

theorem cas (f : AtomF) : Statement (.cas f) := of_atom (mk := Instr.cas) rfl rfl
  (fun h => by
    rcases plainTy_or f.ty with e | ⟨c, e⟩
    · exact e
    · simp [atomForm, e] at h)
  (fun e => congrArg (fun x => some (Instr.cas x)) e)

theorem red (f : AtomF) : Statement (.red f) := of_atom (mk := Instr.red) rfl rfl
  (fun h => by
    rcases plainTy_or f.ty with e | ⟨c, e⟩
    · exact e
    · simp [atomForm, e] at h)
  (fun e => congrArg (fun x => some (Instr.red x)) e)

theorem atomicApply (op lane : Nat) : Statement (.atomicApply op lane) := of_none rfl

theorem atomicResponseLost (op lane : Nat) : Statement (.atomicResponseLost op lane) := of_none rfl

theorem atomicTimeout (op lane : Nat) : Statement (.atomicTimeout op lane) := of_none rfl

theorem fence (f : SyncF) : Statement (.fence f) := of_sync (mk := Instr.fence) rfl rfl (fun _ e _ => congrArg (fun x => some (Instr.fence x)) e)

theorem xfence (f : SyncF) : Statement (.xfence f) := of_sync (mk := Instr.xfence) rfl rfl (fun _ e _ => congrArg (fun x => some (Instr.xfence x)) e)

theorem bar (f : SyncF) : Statement (.bar f) := of_sync (mk := Instr.bar) rfl rfl (fun _ e _ => congrArg (fun x => some (Instr.bar x)) e)

theorem phaseArrive (f : SyncF) : Statement (.phaseArrive f) := of_sync (mk := Instr.phaseArrive) rfl rfl (fun h e e2 => by
    have hs : f.aop = 0 := by simp at h; exact h.1.2
    show some (if bitsN (f.raw 0x307).mod.toNat 0 3 == 1 then Instr.phaseWait (f.raw 0x307).sync
      else Instr.phaseArrive (f.raw 0x307).sync) = _
    rw [e2, e, hs]; rfl)

theorem phaseWait (f : SyncF) : Statement (.phaseWait f) := of_sync (mk := Instr.phaseWait) rfl rfl (fun h e e2 => by
    have hs : f.aop = 1 := by simp at h; exact h.1.2
    show some (if bitsN (f.raw 0x307).mod.toNat 0 3 == 1 then Instr.phaseWait (f.raw 0x307).sync
      else Instr.phaseArrive (f.raw 0x307).sync) = _
    rw [e2, e, hs]; rfl)

theorem cgload (f : EngF) : Statement (.cgload f) := of_eng (mk := Instr.cgload) rfl rfl
  (fun h => by
    rcases plainTy_or f.ty with e | ⟨c, e⟩
    · exact e
    · simp [cgMods, e] at h)
  (fun h => by
    rcases plainRm_or f.rm with e | ⟨c, e⟩
    · exact e
    · simp [cgMods, e] at h)
  (fun _ e _ => congrArg (fun x => some (Instr.cgload x)) e)

theorem cgrun (f : EngF) : Statement (.cgrun f) := of_eng (mk := Instr.cgrun) rfl rfl
  (fun h => by
    rcases plainTy_or f.ty with e | ⟨c, e⟩
    · exact e
    · simp [cgMods, e] at h)
  (fun h => by
    rcases plainRm_or f.rm with e | ⟨c, e⟩
    · exact e
    · simp [cgMods, e] at h)
  (fun _ e _ => congrArg (fun x => some (Instr.cgrun x)) e)

theorem cgstat (f : EngF) : Statement (.cgstat f) := of_eng (mk := Instr.cgstat) rfl rfl
  (fun h => by
    rcases plainTy_or f.ty with e | ⟨c, e⟩
    · exact e
    · simp [cgMods, e] at h)
  (fun h => by
    rcases plainRm_or f.rm with e | ⟨c, e⟩
    · exact e
    · simp [cgMods, e] at h)
  (fun _ e _ => congrArg (fun x => some (Instr.cgstat x)) e)

theorem cappend (f : EngF) : Statement (.cappend f) := of_eng (mk := Instr.cappend) rfl rfl
  (fun h => by
    rcases plainTy_or f.ty with e | ⟨c, e⟩
    · exact e
    · simp [cgMods, e] at h)
  (fun h => by
    rcases plainRm_or f.rm with e | ⟨c, e⟩
    · exact e
    · simp [cgMods, e] at h)
  (fun _ e _ => congrArg (fun x => some (Instr.cappend x)) e)

theorem appendApply (op lane : Nat) : Statement (.appendApply op lane) := of_none rfl

theorem cgfree (f : EngF) : Statement (.cgfree f) := of_eng (mk := Instr.cgfree) rfl rfl
  (fun h => by
    rcases plainTy_or f.ty with e | ⟨c, e⟩
    · exact e
    · simp [cgMods, e] at h)
  (fun h => by
    rcases plainRm_or f.rm with e | ⟨c, e⟩
    · exact e
    · simp [cgMods, e] at h)
  (fun _ e _ => congrArg (fun x => some (Instr.cgfree x)) e)

theorem srd (f : CtrlF) : Statement (.srd f) := of_ctrl (mk := Instr.srd) rfl rfl (fun _ e => congrArg (fun x => some (Instr.srd x)) e)

theorem swr (f : CtrlF) : Statement (.swr f) := of_ctrl (mk := Instr.swr) rfl rfl (fun _ e => congrArg (fun x => some (Instr.swr x)) e)

theorem tret (f : CtrlF) : Statement (.tret f) := of_ctrl (mk := Instr.tret) rfl rfl (fun _ e => congrArg (fun x => some (Instr.tret x)) e)

theorem cont (f : CtrlF) : Statement (.cont f) := of_ctrl (mk := Instr.cont) rfl rfl (fun _ e => congrArg (fun x => some (Instr.cont x)) e)

theorem resume (f : CtrlF) : Statement (.resume f) := of_ctrl (mk := Instr.resume) rfl rfl (fun _ e => congrArg (fun x => some (Instr.resume x)) e)

theorem prog (f : CtrlF) : Statement (.prog f) := of_ctrl (mk := Instr.prog) rfl rfl (fun _ e => congrArg (fun x => some (Instr.prog x)) e)

theorem kcallPageIn (f : CtrlF) : Statement (.kcallPageIn f) := of_ctrl (mk := Instr.kcallPageIn) rfl rfl (fun h e => by
    have hi : f.imm = 0 := by simpa [ctrlForm] using h
    show some (if (f.raw 0x366).imm == 0 then Instr.kcallPageIn (f.raw 0x366).ctrl
      else if (f.raw 0x366).imm == 1 then Instr.kcallPageOut (f.raw 0x366).ctrl else Instr.kcallQuery (f.raw 0x366).ctrl) = _
    rw [e]; simp [CtrlF.raw, hi])

theorem kcallPageOut (f : CtrlF) : Statement (.kcallPageOut f) := of_ctrl (mk := Instr.kcallPageOut) rfl rfl (fun h e => by
    have hi : f.imm = 1 := by simpa [ctrlForm] using h
    show some (if (f.raw 0x366).imm == 0 then Instr.kcallPageIn (f.raw 0x366).ctrl
      else if (f.raw 0x366).imm == 1 then Instr.kcallPageOut (f.raw 0x366).ctrl else Instr.kcallQuery (f.raw 0x366).ctrl) = _
    rw [e]; simp [CtrlF.raw, hi])

theorem kcallQuery (f : CtrlF) : Statement (.kcallQuery f) := of_ctrl (mk := Instr.kcallQuery) rfl rfl (fun h e => by
    have hi : f.imm ≠ 0 ∧ f.imm ≠ 1 := by
      simp [ctrlForm] at h
      constructor <;> (intro hi; rw [hi] at h; simp at h)
    show some (if (f.raw 0x366).imm == 0 then Instr.kcallPageIn (f.raw 0x366).ctrl
      else if (f.raw 0x366).imm == 1 then Instr.kcallPageOut (f.raw 0x366).ctrl else Instr.kcallQuery (f.raw 0x366).ctrl) = _
    rw [e]; simp at hi; simp [CtrlF.raw, hi.1, hi.2])

theorem kcallDone (op : Nat) (storageOk : Bool) : Statement (.kcallDone op storageOk) := of_none rfl

theorem tailWrite (queue : Nat) : Statement (.tailWrite queue) := of_none rfl

theorem launchStart (queue : Nat) : Statement (.launchStart queue) := of_none rfl

theorem placeTeam (die : Nat) : Statement (.placeTeam die) := of_none rfl

theorem coresidentStart (launch : Nat) : Statement (.coresidentStart launch) := of_none rfl

theorem placementStarvation (die : Nat) : Statement (.placementStarvation die) := of_none rfl

theorem weaveFormerPlace (g : Nat) : Statement (.weaveFormerPlace g) := of_none rfl

theorem formerEmptySlot (core q : Nat) : Statement (.formerEmptySlot core q) := of_none rfl

theorem watchdogFire (queue : Nat) : Statement (.watchdogFire queue) := of_none rfl

theorem terminationTimeout (queue : Nat) : Statement (.terminationTimeout queue) := of_none rfl

theorem teamEnd (team : Nat) : Statement (.teamEnd team) := of_none rfl

theorem launchComplete (launch : Nat) : Statement (.launchComplete launch) := of_none rfl

theorem partitionTick (part : Nat) : Statement (.partitionTick part) := of_none rfl

theorem horizonMessage (die : Nat) : Statement (.horizonMessage die) := of_none rfl

theorem refireServe (g : Nat) : Statement (.refireServe g) := of_none rfl

theorem refireReplay (g : Nat) : Statement (.refireReplay g) := of_none rfl

theorem groomPageIn (part : Nat) (va : BitVec 64) (storageOk : Bool) : Statement (.groomPageIn part va storageOk) := of_none rfl

theorem groomPageOut (part : Nat) (va : BitVec 64) : Statement (.groomPageOut part va) := of_none rfl

theorem switchOut (core : Nat) : Statement (.switchOut core) := of_none rfl

theorem priorityPreempt (die : Nat) : Statement (.priorityPreempt die) := of_none rfl

theorem preemptSave (team : Nat) : Statement (.preemptSave team) := of_none rfl

theorem preemptDrain (team : Nat) : Statement (.preemptDrain team) := of_none rfl

theorem drainTimeout (team : Nat) : Statement (.drainTimeout team) := of_none rfl

theorem preemptFlush (team : Nat) : Statement (.preemptFlush team) := of_none rfl

theorem saveTimeout (team : Nat) : Statement (.saveTimeout team) := of_none rfl

theorem teamRestore (team : Nat) : Statement (.teamRestore team) := of_none rfl

theorem flitReceive (port : Nat) (flit : Flit) : Statement (.flitReceive port flit) := of_none rfl

theorem flitResend (port : Nat) (tag : BitVec 16) : Statement (.flitResend port tag) := of_none rfl

theorem portDown (port : Nat) : Statement (.portDown port) := of_none rfl

theorem runTake : Statement (.runTake) := of_none rfl

theorem runGrant (collid : BitVec 32) (run : BitVec 20) : Statement (.runGrant collid run) := of_none rfl

theorem runStart (collid : BitVec 32) (run : BitVec 20) : Statement (.runStart collid run) := of_none rfl

theorem runRevoke (collid : BitVec 32) (run : BitVec 20) (dev : BitVec 8) : Statement (.runRevoke collid run dev) := of_none rfl

theorem runAbort (collid : BitVec 32) (run : BitVec 20) : Statement (.runAbort collid run) := of_none rfl

theorem chunkReceive (port : Nat) (flit : Flit) : Statement (.chunkReceive port flit) := of_none rfl

theorem nodeSend (run node : Nat) : Statement (.nodeSend run node) := of_none rfl

theorem nodeRecv (run node : Nat) : Statement (.nodeRecv run node) := of_none rfl

theorem nodeReduce (run node : Nat) : Statement (.nodeReduce run node) := of_none rfl

theorem nodeCopy (run node : Nat) : Statement (.nodeCopy run node) := of_none rfl

theorem nodeMerge (run node : Nat) : Statement (.nodeMerge run node) := of_none rfl

theorem nodeTeam (run node : Nat) : Statement (.nodeTeam run node) := of_none rfl

theorem nodeNop (run node : Nat) : Statement (.nodeNop run node) := of_none rfl

theorem runComplete (run : Nat) : Statement (.runComplete run) := of_none rfl

theorem hostRead (part : Nat) (off : BitVec 64) (len : Nat) : Statement (.hostRead part off len) := of_none rfl

theorem hostWrite (part : Nat) (off : BitVec 64) (bytes : List Byte) : Statement (.hostWrite part off bytes) := of_none rfl

theorem ingressWrite (port part : Nat) (va : BitVec 64) (bytes : List Byte) (carried : Stamp) : Statement (.ingressWrite port part va bytes carried) := of_none rfl

theorem backInvalidate (line : Nat) : Statement (.backInvalidate line) := of_none rfl

theorem identify (h : Cmd) : Statement (.identify h) := of_none rfl

theorem attest (h : Cmd) (nonce : BitVec 256) : Statement (.attest h nonce) := of_none rfl

theorem partCreate (h : Cmd) (dies : BitVec 8) : Statement (.partCreate h dies) := of_none rfl

theorem partDestroy (h : Cmd) : Statement (.partDestroy h) := of_none rfl

theorem sessionOpen (h : Cmd) (ownerKey : BitVec 256) (share : BitVec 256) (sigOk stampAuth : Bool) : Statement (.sessionOpen h ownerKey share sigOk stampAuth) := of_none rfl

theorem keyRotate (h : Cmd) : Statement (.keyRotate h) := of_none rfl

theorem rootSet (h : Cmd) (rdbase : BitVec 64) : Statement (.rootSet h rdbase) := of_none rfl

theorem map (h : Cmd) (va : BitVec 64) (level : Nat) (entry : BitVec 128) : Statement (.map h va level entry) := of_none rfl

theorem backingSet (h : Cmd) (va : BitVec 64) (rec : Backing) : Statement (.backingSet h va rec) := of_none rfl

theorem hostwin (h : Cmd) (win : Nat) (base off : BitVec 64) (size : BitVec 64) (hr hw : Bool) : Statement (.hostwin h win base off size hr hw) := of_none rfl

theorem memGrant (h : Cmd) (lo len : Nat) (cxlKind : Bool) : Statement (.memGrant h lo len cxlKind) := of_none rfl

theorem memRevoke (h : Cmd) (lo len : Nat) : Statement (.memRevoke h lo len) := of_none rfl

theorem kernelBind (h : Cmd) (va : BitVec 64) : Statement (.kernelBind h va) := of_none rfl

theorem queueCfg (h : Cmd) (queue : Nat) (fields : QueueFields) : Statement (.queueCfg h queue fields) := of_none rfl

theorem queueRead (h : Cmd) (queue : Nat) : Statement (.queueRead h queue) := of_none rfl

theorem cancel (h : Cmd) (queue : Nat) (seq : BitVec 48) : Statement (.cancel h queue seq) := of_none rfl

theorem suspend (h : Cmd) : Statement (.suspend h) := of_none rfl

theorem fwResume (h : Cmd) : Statement (.fwResume h) := of_none rfl

theorem queueGrant (h : Cmd) (queue : Nat) (release : Bool) : Statement (.queueGrant h queue release) := of_none rfl

theorem timeCfg (h : Cmd) (hzi k : BitVec 6) (t : BitVec 64) : Statement (.timeCfg h hzi k t) := of_none rfl

theorem portStamp (h : Cmd) (port : Nat) (origin : Stamp) (omode : BitVec 2) (egen : Bool) (egmax : BitVec 29) : Statement (.portStamp h port origin omode egen egmax) := of_none rfl

theorem wlogCfg (h : Cmd) (ringa : BitVec 64) (logn : BitVec 4) (enable : Bool) : Statement (.wlogCfg h ringa logn enable) := of_none rfl

theorem preemptCfg (h : Cmd) (drainp flushp : BitVec 8) (parkth : BitVec 7) : Statement (.preemptCfg h drainp flushp parkth) := of_none rfl

theorem domainSet (h : Cmd) (dev : BitVec 8) (valid : Bool) (ldom : BitVec 3) (ports : BitVec 16) (linkKey : BitVec 256) : Statement (.domainSet h dev valid ldom ports linkKey) := of_none rfl

theorem linkRetrain (h : Cmd) (port : Nat) : Statement (.linkRetrain h port) := of_none rfl

theorem powerCap (h : Cmd) (watts : Nat) : Statement (.powerCap h watts) := of_none rfl

theorem unknownCommand (h : Cmd) (code : BitVec 16) : Statement (.unknownCommand h code) := of_none rfl

theorem partitionReset (part : Nat) : Statement (.partitionReset part) := of_none rfl

theorem moduleReset : Statement (.moduleReset) := of_none rfl

theorem bringUp (ok : Bool) : Statement (.bringUp ok) := of_none rfl

theorem memorySideReset (die : Nat) : Statement (.memorySideReset die) := of_none rfl

theorem powerThrottle (watts temp : Nat) : Statement (.powerThrottle watts temp) := of_none rfl

theorem overtempReset (temp : Nat) : Statement (.overtempReset temp) := of_none rfl

theorem throttlingEnd (watts temp : Nat) : Statement (.throttlingEnd watts temp) := of_none rfl

end Sys2Proof.Laws.RoundTrip
end

