-- ==== Sys2Proof/Laws/Reads.lean ====
section
/-!
SUPPORT. Laws of reads of memory: with no write in the history and none in flight, a read returns at once.
-/
namespace Sys2Proof.Laws

open Sys2Proof.Machine

/-- R245: the initial write is the one candidate. -/
theorem cands_clear (s : State) (r : Reader) (a : Nat) (hh : s.hist = []) (hp : s.pending = []) : s.cands r a = [none] := by
  simp [State.cands, State.writesAt, hh, hp, tails, allowed]

/-- R246: a single-copy unit is read in one go, and nothing changes. -/
theorem readUnit_clear (s : State) (r : Reader) (tl : Bool) (l : List Nat) (hh : s.hist = []) (hp : s.pending = []) :
    ∃ o, s.readUnit r tl l = some (o, s) := by
  cases l with
  | nil => exact ⟨_, rfl⟩
  | cons a as => simp [State.readUnit, cands_clear s r _ hh hp, State.choose]

/-- R246: and so is an element of an engine. -/
theorem readElem_clear (s : State) (r : Reader) (l : List Nat) (hh : s.hist = []) (hp : s.pending = []) :
    ∃ o, s.readElem r l = some (l, o, s) := by
  obtain ⟨o, ho⟩ := readUnit_clear s r false l hh hp
  refine ⟨o, ?_⟩
  simp [State.readElem, cands_clear s r _ hh hp, ho]

/-- A read at another device touches neither the history nor what is in flight. -/
theorem readFar_hist (s : State) (rid : Nat) (l : List Nat) : (s.readFar rid l).2.hist = s.hist := by
  simp only [State.readFar]; split <;> rfl
theorem readFar_pending (s : State) (rid : Nat) (l : List Nat) : (s.readFar rid l).2.pending = s.pending := by
  simp only [State.readFar]; split <;> rfl

theorem readEngine_clear (s : State) (r : Reader) (n : Nat) (bs : List EByte) (hh : s.hist = []) (hp : s.pending = []) :
    (s.readEngine r n bs).isSome = true := by
  simp only [State.readEngine]
  suffices ∀ (ws : List Nat) (m : EMem) (src : List WEv) (t : State), t.hist = [] → t.pending = [] →
      (ws.foldl _ (some (m, src, t))).isSome = true from this _ _ _ _ hh hp
  intro ws
  induction ws with
  | nil => intro _ _ _ _ _; rfl
  | cons w ws ih =>
    intro m src t hh hp
    simp only [List.foldl_cons]
    split
    · exact ih _ _ _ ((readFar_hist ..).trans hh) ((readFar_pending ..).trans hp)
    · obtain ⟨o, ho⟩ := readElem_clear t r (((bs.filter fun b => b.loc / n == w).map fun b => b.loc).eraseDups) hh hp
      rw [ho]
      exact ih _ _ _ hh hp

/-- R174: a read that no flit can help waits for nothing. -/
theorem farTurn_near (s : State) (part : Nat) (r : Reader) (bs : List EByte) (h : ∀ b ∈ bs, isRemote b.loc = false) :
    s.farTurn part r bs = .ready := by
  have : (bs.map fun b => b.loc).filter (fun a => isRemote a && reachable a) = [] := by
    simp only [List.filter_eq_nil_iff, List.mem_map]
    rintro _ ⟨b, hb, rfl⟩
    simp [h b hb]
  simp [State.farTurn, this]

/-- R220: the hidden rows of a projection instruction are read at once, where no earlier load of the fibre there is in flight. -/
theorem readHidden_clear (s : State) (x : Ctx) (a : Nat × Nat) (ty : Ty) (p : VParam) (hh : s.hist = []) (hp : s.pending = [])
    (hl : ((granulesOf ((List.range p.mrows).flatMap (s.hidLocs x ty p))).any fun gr => s.loadingFrom [a.2] gr) = false) :
    (s.readHidden x a ty p).isSome = true := by
  obtain ⟨o, ho⟩ := Option.isSome_iff_exists.mp (readEngine_clear s (s.slotReader x a) 4
    ((List.range p.mrows).flatMap fun r => (s.hidLocs x ty p r).map fun l => (⟨l, false⟩ : EByte)) hh hp)
  simp only [State.readHidden, hl, Bool.false_eq_true, if_false]
  rw [ho]
  rfl

end Sys2Proof.Laws
end

