-- ==== Sys2Proof/Tests/Slice0.lean ====
section
/-!
SUPPORT. Tests, each about one step at most: encodings written out from the spec, results worked out from its rules by hand, and
for every statement a state and operands that meet its hypotheses.
-/
namespace Sys2Proof.Tests
open Sys2Proof Sys2Proof.Machine

section
set_option Elab.async false

/-! ### A small device -/

/-- One team, and one weave of 8 lanes with fibres in lanes 0 and 3, at the line at address 128. -/
def dev : State :=
  let s := State.reset.probe 0
  let f := s.fibre (fibreKey 0 0 0)
  ((s.setFibre (fibreKey 0 0 3) { f with lane := 3 }).modSlot 0 fun sl =>
    { sl with lanes := [(0, fibreKey 0 0 0), (3, fibreKey 0 0 3)] }).setDie 0 { s.die 0 with horizon := 100 }

def k0 : Nat := fibreKey 0 0 0
def k3 : Nat := fibreKey 0 0 3

def ctx0 : IssueCtx := { g := 0, count := 1, word := 0, part := [0, 3], rstep := none, thenPc := none, peers := [], bounds := [] }

/-- Its slot is issuing. -/
def ready : State := { dev with cur := some ctx0 }

def slot0 : Slot := (aget? ready.slots 0).getD Slot.zero

/-- Vector registers of both lanes. -/
def vregs (s : State) (rs : List (Nat × Reg)) : State :=
  [k0, k3].foldl (fun s k => s.modFibre k fun fb => rs.foldl (fun fb r => fb.write r.1 [(0, r.2)]) fb) s

def after (i : Instr) (s : State) : State := match exec i s with
  | .next t => t
  | _ => s

def always : Guard := ⟨false, 15⟩

def ar (d a b : Spec) (ty : Ty) (sub : BitVec 5 := 0) (c : Spec := .vec 0) (imm : BitVec 32 := 0) (rm : RM := .rne) : ArithF :=
  { g := always, d, a, b, c, ty, rm, sub, imm }

def reg (s : State) (n : Nat) : Reg := (s.fibre k0).reg n

def slotOf0 (s : State) : Slot := (aget? s.slots 0).getD Slot.zero
def launch0 (s : State) : Launch := (aget? s.launches 0).getD Launch.zero

theorem ok_with {ε α : Type} {e : Except ε α} (p : α → Bool) (h : (match e with | .ok a => p a | .error _ => false) = true) :
    ∃ a, e = .ok a ∧ p a = true := by
  cases e with
  | ok a => exact ⟨a, rfl, h⟩
  | error _ => cases h
theorem some_with {α : Type} {e : Option α} (p : α → Bool) (h : (match e with | some a => p a | none => false) = true) :
    ∃ a, e = some a ∧ p a = true := by
  cases e with
  | some a => exact ⟨a, rfl, h⟩
  | none => cases h
def yes {α : Type} (_ : α) : Bool := true

/-! ### Well-formed instructions: an ill-formed term for each check (R58, R59) -/

theorem test_wf_good : wellFormed (.iadd (ar (.vec 11) (.vec 1) (.vec 2) .i32 1)) = true := by decide
theorem test_wf_not_in_version_1 : firstCause 1 256 (.mxq (ar (.vec 80) (.vec 16) (.vec 0) .mx8)) = some 0x000 := by decide
theorem test_wf_never_guard : firstCause 3 256 (.iadd { ar (.vec 11) (.vec 1) (.vec 2) .i32 with g := ⟨true, 15⟩ }) = some 0x00E := by decide
theorem test_wf_reserved_spec : firstCause 3 256 (.iadd (ar (.vec 11) (.rsv 0x1FF) (.vec 2) .i32)) = some 0x002 := by decide
theorem test_wf_class : firstCause 3 256 (.iadd (ar (.pred 2) (.vec 1) (.vec 2) .i32)) = some 0x003 := by decide
theorem test_wf_odd_pair : firstCause 3 256 (.iadd (ar (.vec 10) (.vec 1) (.vec 2) .i64)) = some 0x003 := by decide
theorem test_wf_beyond_window : firstCause 3 8 (.iadd (ar (.vec 8) (.vec 1) (.vec 2) .i32)) = some 0x004 := by decide
theorem test_wf_pair_beyond_window : firstCause 3 255 (.iadd (ar (.vec 254) (.vec 2) (.vec 4) .i64)) = some 0x004 := by decide
theorem test_wf_modifier : firstCause 3 256 (.iadd (ar (.vec 11) (.vec 1) (.vec 2) .f32)) = some 0x001 := by decide
theorem test_wf_unused_field : firstCause 3 256 (.iadd (ar (.vec 11) (.vec 1) (.vec 2) .i32 0 (.vec 3))) = some 0x005 := by decide
theorem test_wf_unused_imm : firstCause 3 256 (.iadd (ar (.vec 11) (.vec 1) (.vec 2) .i32 0 (.vec 0) 1)) = some 0x005 := by decide

/-! ### Words written out from the encodings (R45 to R55), one or more for each family -/

def word (hi mid lo : Nat) : Nat := hi * 2 ^ 64 + mid * 2 ^ 32 + lo

def ct (d a : Spec := .vec 0) (sub : BitVec 4 := 0) (imm : BitVec 32 := 0) (b : Spec := .vec 0) : CtrlF :=
  { g := always, d, a, b, c := .vec 0, top := 0, sub, imm }
def en (d a b : Spec) (ty : Ty := .none) (flags : BitVec 5 := 0) (imm : BitVec 32 := 0) (c : Spec := .vec 0) : EngF :=
  { g := always, d, a, b, c, ty, rm := .rne, flags, imm }
def me (d a b c : Spec) (ty : Ty) (ext : Ext := ⟨0, 0, false, 0, 0⟩) : MemF :=
  { g := always, d, a, b, c, ty, scope := .wv, ord := .plain, evp := 0, lu := false, ext }
def sy (d a : Spec := .vec 0) (aop : BitVec 3 := 0) (imm : BitVec 32 := 0) (scope : Scope := .wv) : SyncF :=
  { g := always, d, a, b := .vec 0, c := .vec 0, mask := 0, scope, ord := .plain, aop, imm }
def am (d a b c : Spec) (ty : Ty) (aop : BitVec 3 := 0) : AtomF :=
  { g := always, d, a, b, c, ty, scope := .wv, ord := .plain, aop, ext := ⟨0, 0, false, 0, 0⟩ }

/-- The line worked out in the chapter of R44, and its three slots. -/
theorem test_line_word : (lineCause 0x0886C000, lineCount 0x0886C000, slotCause 0x0886C000 0 (BitVec.ofNat 96 (word 0x20C60402 0x70000300 0x10)),
    linePair 0x0886C000 0) = (none, 3, none, true) := by decide
theorem test_decode_iadd : decodeTableWord 96 (word 0x20C60402 0x70000300 0x10) =
    some (.iadd { ar (.vec 4) (.vec 4) .imm .i32 0 (.vec 0) 16 with g := ⟨false, 3⟩ }) := by decide
theorem test_decode_fmul : decodeTableWord 96 (word 0x409F0583 0x41C01200 0) = some (.fmul (ar (.scl 5) (.scl 6) (.scl 7) .f32)) := by decide
theorem test_decode_bra : decodeTableWord 96 (word 0x00660000 0 0xFFFFFFFA) =
    some (.bra { ct (.vec 0) (.vec 0) 0 0xFFFFFFFA with g := ⟨true, 3⟩ }) := by decide
theorem test_decode_vred : decodeTableWord 96 (word 0x119E0904 0x1200 0) = some (.vred (ar (.vec 9) (.vec 8) (.vec 0) .f32)) := by decide
theorem test_decode_shfl : decodeTableWord 96 (word 0x115E0301 0x70000B03 1) = some (.shfl (ar (.vec 3) (.vec 2) .imm .b32 3 (.vec 0) 1)) := by
  decide
theorem test_decode_qblk : decodeTableWord 96 (word 0x605E2804 0x1704 0) = some (.qblk (ar (.vec 40) (.vec 8) (.vec 0) .tx8 4)) := by decide
theorem test_decode_fresh : decodeTableWord 96 (word 0x715E0002 0xF0000B01 20) = some (.fresh (ar (.vec 0) (.vec 5) .imm .b32 1 (.vec 0) 20)) := by
  decide
theorem test_decode_age_scalar : decodeTableWord 96 (word 0x711F1902 0x0B00 0) = some (.age (ar (.scl 25) (.vec 4) (.vec 0) .b32)) := by decide
theorem test_decode_ld : decodeTableWord 96 (word 0x801E0982 0x02F80B02 0x8190) =
    some (.ld { me (.vec 9) (.scl 4) (.vec 11) .imm .b32 ⟨0, 2, false, 0, 400⟩ with evp := 1 }) := by decide
theorem test_decode_mma : decodeTableWord 96 (word 0xA00A0000 0x45001200 0) =
    some (.mma { en (.vec 0) (.vec 0) (.scl 20) .f32 with g := ⟨false, 5⟩ }) := by decide
theorem test_decode_mma_wide : decodeTableWord 96 (word 0xA00A0000 0x41001304 0) =
    some (.mma { en (.vec 0) (.vec 0) (.scl 4) .f64 4 with g := ⟨false, 5⟩ }) := by decide
theorem test_decode_vproj : decodeTableWord 96 (word 0xB00A0000 0x48001200 0) =
    some (.vproj { en (.vec 0) (.vec 0) (.scl 32) .f32 with g := ⟨false, 5⟩ }) := by decide
theorem test_decode_wait : decodeTableWord 96 (word 0xB8DE0000 0 0x000BFFC0) = some (.wait (en (.vec 0) (.vec 0) (.vec 0) .none 0 0xBFFC0)) := by
  decide
theorem test_decode_atom : decodeTableWord 96 (word 0xC01E0582 0x0080C700 0x8000) =
    some (.atom { am (.vec 5) (.scl 4) (.vec 2) (.vec 6) .n32 with ext := ⟨0, 2, false, 0, 0⟩ }) := by decide
theorem test_decode_bar : decodeTableWord 96 (word 0xC19E0000 0x20 2) = some (.bar (sy (.vec 0) (.vec 0) 0 2 .tm)) := by decide
theorem test_decode_xfence : decodeTableWord 96 (word 0xC15E0000 0x1100 0) = some (.xfence { sy with mask := 0x11 }) := by decide
theorem test_decode_cgrun : decodeTableWord 96 (word 0xD04B0382 0x41800000 0) =
    some (.cgrun { en (.scl 3) (.scl 4) (.scl 6) with g := ⟨false, 5⟩ }) := by decide
theorem test_decode_cgload : decodeTableWord 96 (word 0xD00B0880 0 0) =
    some (.cgload { en (.scl 8) (.scl 0) (.vec 0) with g := ⟨false, 5⟩ }) := by decide
theorem test_decode_cappend : decodeTableWord 96 (word 0xD0DE008A 0x01800000 0) = some (.cappend (en (.vec 0) (.scl 20) (.vec 6))) := by decide
theorem test_decode_srd : decodeTableWord 96 (word 0xD81F0800 0 7) = some (.srd (ct (.scl 8) (.vec 0) 0 7)) := by decide
theorem test_decode_tret : decodeTableWord 96 (word 0xD89E0000 0 0) = some (.tret ct) := by decide
theorem test_decode_unassigned : decodeTableWord 96 (word 0x03DE0000 0 0) = none := by decide

/-! ### Results worked out by hand from the rules -/

/-- v1 = -1 (stamp 5), v2 = 7 (stamp 9), v3 = 0x80000000, v4 = 2 (stamp 99), v11:v10 = 2^32; v5 = 42 (stamp 7) in lane 3 only. -/
def ints : State :=
  (vregs ready [(1, ⟨0xFFFFFFFF, 5⟩), (2, ⟨7, 9⟩), (3, ⟨0x80000000, 0⟩), (4, ⟨2, 99⟩), (11, ⟨1, 0⟩)]).modFibre k3 fun f =>
    f.write 5 [(0, ⟨42, 7⟩)]

/-- 1, 2, 3, 4, 1.5 and a quiet NaN in v1 to v6; -0 in v7. -/
def floats : State := vregs ready [(1, ⟨0x3F800000, 5⟩), (2, ⟨0x40000000, 9⟩), (3, ⟨0x40400000, 0⟩), (4, ⟨0x40800000, 0⟩),
  (5, ⟨0x3FC00000, 0⟩), (6, ⟨0x7FC00000, 0⟩), (7, ⟨0x80000000, 0⟩)]

def flags (s : State) : Flags := ((aget? s.slots 0).getD Slot.zero).fflags
def holds (s : State) (k p : Nat) : Bool := (s.fibre k).preds.getLsbD p

theorem test_iadd_wraps : reg (after (.iadd (ar (.vec 8) (.vec 1) (.vec 2) .i32)) ints) 8 = ⟨6, 5⟩ := by decide
theorem test_iadd_saturates : reg (after (.iadd (ar (.vec 8) (.vec 3) (.vec 1) .i32 1)) ints) 8 = ⟨0x80000000, 5⟩ := by decide
theorem test_isub : reg (after (.isub (ar (.vec 8) (.vec 2) (.vec 4) .i32)) ints) 8 = ⟨5, 9⟩ := by decide
theorem test_imul_wraps : reg (after (.imul (ar (.vec 8) (.vec 3) (.vec 4) .i32)) ints) 8 = ⟨0, 99⟩ := by decide
theorem test_imulh_unsigned : reg (after (.imulh (ar (.vec 8) (.vec 1) (.vec 1) .n32)) ints) 8 = ⟨0xFFFFFFFE, 5⟩ := by decide
theorem test_imad : reg (after (.imad (ar (.vec 8) (.vec 1) (.vec 2) .i32 0 (.vec 4))) ints) 8 = ⟨0xFFFFFFFB, 5⟩ := by decide
theorem test_imad_wide : reg (after (.imad (ar (.vec 8) (.vec 3) (.vec 4) .n32 2 (.vec 10))) ints) 9 = ⟨2, 99⟩ := by decide
theorem test_idiv_least : reg (after (.idiv (ar (.vec 8) (.vec 3) (.vec 1) .i32)) ints) 8 = ⟨0x80000000, 5⟩ := by decide
theorem test_idiv_zero_traps : ((aget? (after (.idiv (ar (.vec 8) (.vec 2) (.vec 0) .i32 1)) ints).launches 0).getD Launch.zero).errcnt = 1 := by
  decide +kernel
theorem test_irem_zero : reg (after (.irem (ar (.vec 8) (.vec 2) (.vec 0) .i32)) ints) 8 = ⟨7, 9⟩ := by decide
theorem test_imin_signed : reg (after (.imin (ar (.vec 8) (.vec 1) (.vec 2) .i32)) ints) 8 = ⟨0xFFFFFFFF, 5⟩ := by decide
theorem test_imax_unsigned : reg (after (.imax (ar (.vec 8) (.vec 1) (.vec 2) .n32)) ints) 8 = ⟨0xFFFFFFFF, 5⟩ := by decide
theorem test_iabs_saturates : reg (after (.iabs (ar (.vec 8) (.vec 3) (.vec 0) .i32 1)) ints) 8 = ⟨0x7FFFFFFF, 0⟩ := by decide
theorem test_ineg : reg (after (.ineg (ar (.vec 8) (.vec 2) (.vec 0) .i32)) ints) 8 = ⟨0xFFFFFFF9, 9⟩ := by decide
theorem test_mov_zero_extends : reg (after (.mov (ar (.vec 8) (.vec 1) (.vec 0) .n8)) ints) 8 = ⟨0xFF, 5⟩ := by decide
theorem test_movi_hi : (fun s => (reg s 10, reg s 11)) (after (.movi (ar (.vec 10) .imm (.vec 0) .b64 1 (.vec 0) 5)) ints) = (⟨0, 0⟩, ⟨5, 0⟩) := by
  decide
theorem test_sel_takes_b : reg (after (.sel (ar (.vec 8) (.vec 1) (.vec 2) .b32 0 (.pred 1))) ints) 8 = ⟨7, 9⟩ := by decide
theorem test_and : reg (after (.and (ar (.vec 8) (.vec 1) (.vec 2) .b32)) ints) 8 = ⟨7, 5⟩ := by decide
theorem test_or : reg (after (.or (ar (.vec 8) (.vec 2) (.vec 3) .b32)) ints) 8 = ⟨0x80000007, 9⟩ := by decide
theorem test_xor : reg (after (.xor (ar (.vec 8) (.vec 1) (.vec 2) .b32)) ints) 8 = ⟨0xFFFFFFF8, 5⟩ := by decide
theorem test_not : reg (after (.not (ar (.vec 8) (.vec 2) (.vec 0) .b32)) ints) 8 = ⟨0xFFFFFFF8, 9⟩ := by decide
theorem test_blop_choice : reg (after (.blop (ar (.vec 8) (.vec 1) (.vec 2) .b32 0 (.vec 4) 0xCA)) ints) 8 = ⟨7, 5⟩ := by decide
theorem test_shl_full_width : reg (after (.shl (ar (.vec 8) (.vec 2) .imm .b32 0 (.vec 0) 32)) ints) 8 = ⟨0, 9⟩ := by decide
theorem test_shr : reg (after (.shr (ar (.vec 8) (.vec 3) .imm .i32 0 (.vec 0) 31)) ints) 8 = ⟨1, 0⟩ := by decide
theorem test_sar_beyond_width : reg (after (.sar (ar (.vec 8) (.vec 3) .imm .n32 0 (.vec 0) 40)) ints) 8 = ⟨0xFFFFFFFF, 0⟩ := by decide
theorem test_rot_reduces : reg (after (.rot (ar (.vec 8) (.vec 3) .imm .b32 0 (.vec 0) 33)) ints) 8 = ⟨1, 0⟩ := by decide
theorem test_bfe_signed : reg (after (.bfe (ar (.vec 8) (.vec 2) .imm .i32 0 (.vec 0) 0x0201)) ints) 8 = ⟨0xFFFFFFFF, 9⟩ := by decide
theorem test_bfi : reg (after (.bfi (ar (.vec 8) (.vec 2) .imm .b32 0 (.vec 1) 0x0404)) ints) 8 = ⟨0xF7, 5⟩ := by decide
theorem test_popc : reg (after (.popc (ar (.vec 8) (.vec 1) (.vec 0) .b32)) ints) 8 = ⟨32, 5⟩ := by decide
theorem test_clz : reg (after (.clz (ar (.vec 8) (.vec 2) (.vec 0) .b32)) ints) 8 = ⟨29, 9⟩ := by decide
theorem test_brev : reg (after (.brev (ar (.vec 8) (.vec 2) (.vec 0) .b32)) ints) 8 = ⟨0xE0000000, 9⟩ := by decide
theorem test_lea : (fun s => (reg s 8, reg s 9)) (after (.lea (ar (.vec 8) (.vec 10) (.vec 4) .i32 3 (.vec 0) (-4))) ints)
    = (⟨12, 99⟩, ⟨1, 99⟩) := by decide

theorem test_pset_signed : holds (after (.pset (ar (.pred 2) (.vec 1) (.vec 2) .i32 2)) ints) k0 2 = true := by decide
theorem test_plop : holds (after (.plop (ar (.pred 3) (.pred 15) (.pred 1) .none 0b00100)) ints) k0 3 = true := by decide
theorem test_pmov_get : reg (after (.pmovGet (ar (.vec 8) (.vec 0) (.vec 0) .none)) ints) 8 = ⟨0x8000, 0⟩ := by decide
theorem test_pmov_put : ((after (.pmovPut (ar (.vec 0) (.vec 2) (.vec 0) .none 1)) ints).fibre k3).preds = 0x8007 := by decide
theorem test_vote_ballot : reg (after (.vote (ar (.vec 8) (.pred 15) (.vec 0) .none 3)) ints) 8 = ⟨9, 0⟩ := by decide
theorem test_elect : (fun s => (holds s k0 2, holds s k3 2)) (after (.elect (ar (.pred 2) (.vec 0) (.vec 0) .none)) ints) = (true, false) := by
  decide
theorem test_shfl_xor : reg (after (.shfl (ar (.vec 8) (.vec 5) .imm .b32 3 (.vec 0) 3)) ints) 8 = ⟨42, 7⟩ := by decide
theorem test_shfl_no_fibre_there : reg (after (.shfl (ar (.vec 8) (.vec 2) .imm .b32 2 (.vec 0) 1)) ints) 8 = ⟨7, 9⟩ := by decide
theorem test_vred_add : reg (after (.vred (ar (.vec 8) (.vec 2) (.vec 0) .i32)) ints) 8 = ⟨14, 9⟩ := by decide
theorem test_vscan_exclusive : (fun s => (reg s 8, (s.fibre k3).reg 8)) (after (.vscan (ar (.vec 8) (.vec 2) (.vec 0) .i32 16)) ints)
    = (⟨0, 0⟩, ⟨7, 9⟩) := by decide

theorem test_fadd : reg (after (.fadd (ar (.vec 8) (.vec 1) (.vec 2) .f32)) floats) 8 = ⟨0x40400000, 5⟩ := by decide
theorem test_fsub : reg (after (.fsub (ar (.vec 8) (.vec 1) (.vec 2) .f32)) floats) 8 = ⟨0xBF800000, 5⟩ := by decide
theorem test_fmul : reg (after (.fmul (ar (.vec 8) (.vec 2) (.vec 3) .f32)) floats) 8 = ⟨0x40C00000, 9⟩ := by decide
theorem test_ffma : reg (after (.ffma (ar (.vec 8) (.vec 2) (.vec 3) .f32 0 (.vec 1))) floats) 8 = ⟨0x40E00000, 5⟩ := by decide
theorem test_fdiv_third : (fun s => (reg s 8, flags s)) (after (.fdiv (ar (.vec 8) (.vec 1) (.vec 3) .f32)) floats) = (⟨0x3EAAAAAB, 5⟩, NX) := by
  decide
theorem test_fdiv_zero : (fun s => (reg s 8, flags s)) (after (.fdiv (ar (.vec 8) (.vec 1) (.vec 0) .f32)) floats) = (⟨0x7F800000, 5⟩, DZ) := by
  decide
theorem test_fsqrt : reg (after (.fsqrt (ar (.vec 8) (.vec 4) (.vec 0) .f32)) floats) 8 = ⟨0x40000000, 0⟩ := by decide +kernel
theorem test_fsqrt_negative_zero : reg (after (.fsqrt (ar (.vec 8) (.vec 7) (.vec 0) .f32)) floats) 8 = ⟨0x80000000, 0⟩ := by decide
theorem test_frcp : reg (after (.frcp (ar (.vec 8) (.vec 2) (.vec 0) .f32)) floats) 8 = ⟨0x3F000000, 9⟩ := by decide
theorem test_frsq : reg (after (.frsq (ar (.vec 8) (.vec 4) (.vec 0) .f32)) floats) 8 = ⟨0x3F000000, 0⟩ := by decide +kernel
theorem test_fexp2 : reg (after (.fexp2 (ar (.vec 8) (.vec 1) (.vec 0) .f32)) floats) 8 = ⟨0x40000000, 5⟩ := by decide
theorem test_flog2 : reg (after (.flog2 (ar (.vec 8) (.vec 2) (.vec 0) .f32)) floats) 8 = ⟨0x3F800000, 9⟩ := by decide
theorem test_fsin_zero : reg (after (.fsin (ar (.vec 8) (.vec 7) (.vec 0) .f32)) floats) 8 = ⟨0x80000000, 0⟩ := by decide
theorem test_fcos_zero : reg (after (.fcos (ar (.vec 8) (.vec 0) (.vec 0) .f32)) floats) 8 = ⟨0x3F800000, 0⟩ := by decide
theorem test_fmin_zeros : reg (after (.fmin (ar (.vec 8) (.vec 0) (.vec 7) .f32)) floats) 8 = ⟨0x80000000, 0⟩ := by decide
theorem test_fmax_ignores_nan : reg (after (.fmax (ar (.vec 8) (.vec 6) (.vec 2) .f32)) floats) 8 = ⟨0x40000000, 9⟩ := by decide
theorem test_fabs : reg (after (.fabs (ar (.vec 8) (.vec 7) (.vec 0) .f32)) floats) 8 = ⟨0, 0⟩ := by decide
theorem test_fneg : reg (after (.fneg (ar (.vec 8) (.vec 1) (.vec 0) .f32)) floats) 8 = ⟨0xBF800000, 5⟩ := by decide
theorem test_fcmp_zeros_equal : holds (after (.fcmp (ar (.pred 2) (.vec 0) (.vec 7) .f32 0)) floats) k0 2 = true := by decide
theorem test_fclass : reg (after (.fclass (ar (.vec 8) (.vec 1) (.vec 0) .f32)) floats) 8 = ⟨0x40, 5⟩ := by decide
theorem test_fscalb : reg (after (.fscalb (ar (.vec 8) (.vec 1) .imm .f32 0 (.vec 0) 3)) floats) 8 = ⟨0x41000000, 5⟩ := by decide
theorem test_frnd_ties_to_even : reg (after (.frnd (ar (.vec 8) (.vec 5) (.vec 0) .f32)) floats) 8 = ⟨0x40000000, 0⟩ := by decide
theorem test_cvt_to_int : (fun s => (reg s 8, flags s)) (after (.cvt (ar (.vec 8) (.vec 5) (.vec 0) .i32 18)) floats) = (⟨2, 0⟩, NX) := by decide
theorem test_cvt_nan_to_int : (fun s => (reg s 8, flags s)) (after (.cvt (ar (.vec 8) (.vec 6) (.vec 0) .i32 18)) floats) = (⟨0, 0⟩, NV) := by decide
theorem test_cvt_mx8 : reg (after (.cvtMx8 (ar (.vec 8) (.vec 1) .imm .mx8 18 (.vec 0) 126)) floats) 8 = ⟨0x40, 5⟩ := by decide
theorem test_pack : reg (after (.pack (ar (.vec 8) (.vec 1) (.vec 2) .f16)) floats) 8 = ⟨0x40003C00, 5⟩ := by decide
theorem test_unpack : reg (after (.unpack (ar (.vec 8) (.vec 9) (.vec 0) .f16 1)) (vregs floats [(9, ⟨0x40003C00, 4⟩)])) 8 = ⟨0x40000000, 4⟩ := by
  decide
/-- A block of 1.0 and zeros, from v16: E0 = 127, and m = 32. -/
theorem test_qblk : (fun s => (reg s 80, reg s 88)) (after (.qblk (ar (.vec 80) (.vec 16) (.vec 0) .tx8 4)) (vregs ready [(16, ⟨0x3F800000, 5⟩)]))
    = (⟨0x20, 5⟩, ⟨0x7B7F, 5⟩) := by decide +kernel
theorem test_dqblk : (fun s => (reg s 80, reg s 81)) (after (.dqblk (ar (.vec 80) (.vec 16) (.vec 0) .f32 23))
    (vregs ready [(16, ⟨0x20, 5⟩), (24, ⟨0x7B7F, 9⟩)])) = (⟨0x3F800000, 5⟩, ⟨0, 5⟩) := by decide
/-- 1.0 has exponent 0, so that S = 119 and the element is 2^8, code 0x78. -/
theorem test_mxq : (fun s => (reg s 80, reg s 88)) (after (.mxq (ar (.vec 80) (.vec 16) (.vec 0) .mx8)) (vregs ready [(16, ⟨0x3F800000, 5⟩)]))
    = (⟨0x78, 5⟩, ⟨119, 5⟩) := by decide
theorem test_mxdq : reg (after (.mxdq (ar (.vec 80) (.vec 16) (.vec 0) .f32 24)) (vregs ready [(16, ⟨0x78, 5⟩), (24, ⟨119, 9⟩)])) 80
    = ⟨0x3F800000, 5⟩ := by decide

theorem test_stget : reg (after (.stget (ar (.vec 8) (.vec 1) (.vec 0) .b32)) ints) 8 = ⟨5, 0⟩ := by decide
theorem test_stset_only_ages : reg (after (.stset (ar (.vec 8) (.vec 4) .imm .b32 0 (.vec 0) 50)) ints) 8 = ⟨2, 50⟩ := by decide
theorem test_stless : holds (after (.stless (ar (.pred 2) (.vec 1) (.vec 2) .b32)) ints) k0 2 = true := by decide
theorem test_stmin : reg (after (.stmin (ar (.vec 8) (.vec 4) (.vec 2) .b32)) ints) 8 = ⟨2, 9⟩ := by decide
theorem test_age : reg (after (.age (ar (.vec 8) (.vec 1) (.vec 0) .b32)) ints) 8 = ⟨95, 0⟩ := by decide
theorem test_fresh_at_bound : holds (after (.fresh (ar (.pred 2) (.vec 1) .imm .b32 0 (.vec 0) 95)) ints) k0 2 = true := by decide
theorem test_fresh_beyond_bound : holds (after (.fresh (ar (.pred 2) (.vec 1) .imm .b32 0 (.vec 0) 94)) ints) k0 2 = false := by decide
theorem test_hzn : reg (after (.hzn (ar (.vec 8) (.vec 0) (.vec 0) .n32)) ints) 8 = ⟨100, 100⟩ := by decide

/-! ### For each statement, a state and operands that meet its hypotheses: encodings, steps, memory -/

theorem witness_DecodeOfEncode : wellFormed (.fence sy) = true ∧ encodeRaw (.fence sy) ≠ none := by decide
theorem witness_DecodedBytesEncodeBack : decode 3 256 (BitVec.ofNat 96 (word 0xD89E0000 0 0)) = .ok (.tret ct) := rfl
theorem witness_DecodedBytesEncodeBack_unassigned : ∀ r ∈ [(0x000, 0x00E), (0x040, 0x047), (0x080, 0x09C), (0x100, 0x113), (0x180, 0x186),
    (0x1C0, 0x1C7), (0x200, 0x20B), (0x280, 0x285), (0x2C0, 0x2C3), (0x2E0, 0x2E5), (0x300, 0x307), (0x340, 0x344), (0x360, 0x366)],
    (0x3FFFFFF0 * 2 ^ 66) / 2 ^ 86 < r.1 ∨ r.2 < (0x3FFFFFF0 * 2 ^ 66) / 2 ^ 86 := by decide

/-- A slot whose next instruction is IADD.i32 v4, v4, #16. -/
def fetching : State := State.reset.probe (word 0x20DE0402 0x70000300 0x10)
def fetched : Instr := .iadd (ar (.vec 4) (.vec 4) .imm .i32 0 (.vec 0) 16)

theorem witness_StepRunsTheDecodedInstruction_choice : fetching.agenda = .quarter 0 0 :: [] ∧ ({ fetching with agenda := [] } : State).unthrottled = true
    ∧ fetching.turnAt ≤ 4 * 0 + 0 ∧ fetching.quartersTo (4 * 0 + 0) = []
    ∧ (({ fetching with agenda := [] } : State).quarterChoice 0 0).1 = [0] := by decide
theorem witness_StepRunsTheDecodedInstruction_issue : ∃ p, aget? fetching.slots 0 ≠ none
    ∧ fetching.turn 0 ((aget? fetching.slots 0).getD Slot.zero) = some (.instr fetched 1 (BitVec.ofNat 96 (word 0x20DE0402 0x70000300 0x10)) false, p) :=
  ⟨.vector, by decide, rfl⟩
theorem witness_StepRunsTheDecodedInstruction_event : ({ dev with agenda := [.event (.sleepExpire 0)] } : State).agenda = .event (.sleepExpire 0) :: []
    ∧ encodeRaw (.sleepExpire 0) = none := by decide
theorem test_step_runs_the_word : ((match step fetching with
    | .next t => t
    | _ => dev).fibre 0).reg 4 = ⟨16, 0⟩ := by decide

theorem witness_FetchDecodesTheBytesAtThePc : ∃ bs src, let sl := (aget? fetching.slots 0).getD Slot.zero
    let l := fetching.launch 0
    fetching.arrivalCause 0 l sl = none ∧ fetching.fetchLine 0 sl (sl.pc &&& ~~~63#64) = .bytes bs src ∧ lineCause (leNat (bs.take 4)) = none
    ∧ slotOf sl.pc < lineCount (leNat (bs.take 4))
    ∧ slotCause (leNat (bs.take 4)) 0 (BitVec.ofNat 96 (leNat ((bs.drop 4).take 12))) = none
    ∧ decode l.encv (l.allot sl.role) (BitVec.ofNat 96 (leNat ((bs.drop 4).take 12))) = .ok fetched :=
  ⟨_, _, by decide, rfl, by decide, by decide, by decide, rfl⟩
theorem witness_FetchDecodesTheBytesAtThePc_memory : (canonical 128 = true ∧ regionOf 128 = 0 ∧ fetching.hist = [] ∧ fetching.pending = [])
    ∧ ∃ pg, fetching.translate 0 .fetch 128 = .ok pg ∧ (fetching.homeCause true pg.loc 64).isNone = true :=
  ⟨by decide, ok_with _ (by decide)⟩
theorem test_next_pc_within : nextPc 129 3 = 130 := by decide
theorem test_next_pc_over : nextPc 130 3 = 192 := by decide

/-- One write of two bytes at 1,000 and a byte of another granule, with stamp 7. -/
def aWrite : WReq := { id := 1, bytes := [(1000, (7, 7)), (1001, (8, 7)), (2000, (9, 7))], preds := [], carry := [], after := [] }

theorem witness_MemoryReadsWhatWasWritten : ∀ b ∈ aWrite.bytes, b.1 / 32 ∉ ready.ueHit aWrite.bytes ∧ ∀ c ∈ aWrite.bytes, c.1 = b.1 → c.2.1 = b.2.1 := by
  decide
theorem test_commit : (fun s => (State.byteAt s 1001, State.byteAt s 2000)) (ready.commit 0 false [aWrite]) = (8, 9) := by decide
theorem witness_StepKeepsMemoryCanonical : Memory.wf dev.mem = true ∧ sortedFrom 0 dev.stamps = true ∧ ∃ t, step dev = .next t :=
  ⟨by decide, by decide, _, rfl⟩

/-! ### The same: instructions that act lane by lane -/

/-- Nothing of FMASK is set, so that an instruction without a cause is quiet, whatever it gives. -/
theorem witness_quiet (d : Spec) (out : Ctx → State → Fibre → LaneOut) (h : ∀ x s fb, (out x s fb).cause = none) :
    Quiet d out (ints.ctx ctx0 (slotOf0 ints) always) ints :=
  fun _ _ => ⟨h _ _ _, (BitVec.and_zero : (out _ _ _).exc &&& 0#5 = 0#5)⟩

theorem witness_LaneResultsAndFrame : Issues ready ctx0 slot0 ∧ (ready.ctx ctx0 slot0 always).runLanes (.vec 8) = [(0, k0), (3, k3)]
    ∧ (ready.ctx ctx0 slot0 always).runLanes (.scl 8) = [(0, k0)] := ⟨⟨rfl, by decide⟩, by decide, by decide⟩
theorem witness_IntegerArithmetic : Issues ints ctx0 (slotOf0 ints)
    ∧ Quiet (.vec 8) (fun x _ fb => { regs := resultRegs .i32 (numOf .i32 (x.read fb .i32 0 (.vec 1)).val) 0 0 })
      (ints.ctx ctx0 (slotOf0 ints) always) ints := ⟨⟨rfl, rfl⟩, witness_quiet _ _ fun _ _ _ => rfl⟩
/-- Division by the zero in v0: the operands of R99's trap. -/
theorem witness_IntegerArithmetic_trap : ∃ a ∈ (ints.ctx ctx0 (slotOf0 ints) always).runLanes (.vec 8),
    numOf .i32 ((ints.ctx ctx0 (slotOf0 ints) always).read (ints.fibre a.2) .i32 0 (.vec 0)).val = 0 := by decide
theorem witness_LogicAndMoves : Issues ints ctx0 (slotOf0 ints)
    ∧ Quiet (.vec 8) (fun x _ fb => { regs := resultRegs .b32 (x.read fb .b32 0 (.vec 1)).val 0 0 })
      (ints.ctx ctx0 (slotOf0 ints) always) ints := ⟨⟨rfl, rfl⟩, witness_quiet _ _ fun _ _ _ => rfl⟩
theorem witness_ShiftsFieldsAddresses : Issues ints ctx0 (slotOf0 ints)
    ∧ Quiet (.vec 8) (fun x _ fb => { regs := resultRegs .b32 (if 32 ≤ (x.read fb .n32 32 .imm).val then 0 else 1) 0 0 })
      (ints.ctx ctx0 (slotOf0 ints) always) ints := ⟨⟨rfl, rfl⟩, witness_quiet _ _ fun _ _ _ => rfl⟩
theorem witness_ResultsWrapAndBitsStay : (31 < 32 ∧ 4 ≤ 7 ∧ 7 < 4 + min 4 32) ∧ ((5 : Nat) ≠ 0 ∧ 5 < 2 ^ 3) ∧ Ty.i64 ∈ [Ty.i64, .n64, .b64]
    ∧ Ty.n16 ∈ [Ty.n16, .b16] := by decide
theorem witness_DivisionIdentity : ((-1 : Int) ≠ 0 ∧ ¬ ((7 : Int) = loOf .i32 ∧ (-1 : Int) = -1)) ∧ (2 : Int) ≠ 0 := by decide
theorem witness_PredicatesVotesAndShuffles : Issues ints ctx0 (slotOf0 ints)
    ∧ Quiet (.pred 2) (fun x _ fb => { pred := some (decide (numOf .i32 (x.read fb .i32 0 (.vec 1)).val < 0)) })
      (ints.ctx ctx0 (slotOf0 ints) always) ints := ⟨⟨rfl, rfl⟩, witness_quiet _ _ fun _ _ _ => rfl⟩

/-- FMASK holds DZ: the division by zero raises its exception. -/
def dzTraps : State := floats.modSlot 0 fun sl => { sl with fmask := DZ }
def quotient (x : Ctx) (_ : State) (fb : Fibre) : LaneOut :=
  let r := divV (fmtOf .f32) .rne (decodeF (fmtOf .f32) (x.read fb .f32 0 (.vec 1)).val) (decodeF (fmtOf .f32) (x.read fb .f32 0 (.vec 0)).val)
  { regs := fpRegs .f32 r.1 0, exc := r.2 }

theorem witness_FloatArithmetic : Issues floats ctx0 (slotOf0 floats)
    ∧ Quiet (.vec 8) quotient (floats.ctx ctx0 (slotOf0 floats) always) floats :=
  ⟨⟨rfl, rfl⟩, by unfold Quiet; decide⟩
theorem witness_FloatArithmetic_exception : Issues dzTraps ctx0 (slotOf0 dzTraps)
    ∧ ¬ Quiet (.vec 8) quotient (dzTraps.ctx ctx0 (slotOf0 dzTraps) always) dzTraps :=
  ⟨⟨rfl, rfl⟩, by unfold Quiet; decide⟩
theorem witness_FloatSelectionAndConversion : Issues floats ctx0 (slotOf0 floats)
    ∧ Quiet (.vec 8) (fun x _ fb => { regs := fpRegs .b32 (classF (fmtOf .f32) (x.read fb .f32 0 (.vec 1)).val) 0 })
      (floats.ctx ctx0 (slotOf0 floats) always) floats := ⟨⟨rfl, rfl⟩, by unfold Quiet; decide⟩
theorem witness_RoundingModes : (2 * (6 % 2 ^ 2) = 2 ^ 2) ∧ 0x3F800000 < 2 ^ (fmtOf .f32).width
    ∧ decodeF (fmtOf .f32) 0x3F800000 = .fin false (2 ^ 23) (-23) := by decide
theorem witness_InvalidOperations : (decodeF (fmtOf .f32) 0x7FC00000).isNaN = true ∧ (decodeF (fmtOf .f32) 0x7F800001).isSig = true := by decide
theorem witness_StampInstructions : Issues ints ctx0 (slotOf0 ints)
    ∧ Quiet (.vec 8) (fun x _ fb => match ageOf x.hh x.h (x.read fb .b32 0 (.vec 1)).lo with
      | .timeless => {}
      | .age n => { regs := [(0, ⟨BitVec.ofNat 32 n, 0⟩)] }
      | .future => { cause := some 0x084 }) (ints.ctx ctx0 (slotOf0 ints) always) ints :=
  ⟨⟨rfl, rfl⟩, by unfold Quiet; decide⟩
/-- v1 has stamp 5, age 95 at horizon 100. -/
theorem witness_BoundChecks : ((5 : Word) ≠ 0 ∧ 0 ≤ sd 100 5) ∧ ((106 : Word) ≠ 0 ∧ sd 100 106 < 0 ∧ -((4 : Int) + 2) ≤ sd 100 106)
    ∧ ((107 : Word) ≠ 0 ∧ sd 100 107 < -((4 : Int) + 2)) := by decide
theorem test_bound_at_age : boundCause 4 100 (some 95) 0x080 5 = none ∧ boundCause 4 100 (some 94) 0x080 5 = some 0x080
    ∧ boundCause 4 100 (some 0) 0x080 106 = none ∧ boundCause 4 100 (some 0) 0x080 107 = some 0x084 := by decide

/-! ### Traps and returns -/

/-- The launch declares a handler at line 0, slot 0 (TRAPP, bit 44). -/
def trapping : State := ready.modLaunch 0 fun l => { l with image := l.image ||| (1#1024 <<< 44) }
/-- The launch declares a continuation (CONTP, bit 45), which the slot has enabled. -/
def continuing : State := (ready.modLaunch 0 fun l => { l with image := l.image ||| (1#1024 <<< 45) }).modSlot 0 fun sl => { sl with cont := 1 }

/-- The frame worked out at the end of R298's chapter. -/
def framed : TrapInfo := { TrapInfo.zero with
  cause := 0x080, kind := .partly, lmask := [2, 3, 7], rmask := [2, 3, 7], addr := 0x10000024, stamp := 100, bound := 400, hzn := 512
  pc := 0x08000181, next := 0x08000182, word := BitVec.ofNat 96 (word 0x801E0982 0x02F80B02 0x8190) }
theorem test_frame : (State.reset.setTeam 5 { Team.zero with index := 9 }).frameBits 4485 { Slot.zero with team := 5, w := 2 } framed 0 =
    0x801E098202F80B02 * 2 ^ 960 + 0x0000819000000000 * 2 ^ 896 + 0x0000019000000200 * 2 ^ 832 + 0x0000006400000000 * 2 ^ 768
    + 0x08000182 * 2 ^ 704 + 0x08000181 * 2 ^ 640 + 0x8C * 2 ^ 576 + 0x10000024 * 2 ^ 512 + 0x000000090208C280 * 2 ^ 448
    + 0x8C * 2 ^ 384 + 0x2480 := by decide +kernel

theorem witness_TrapEntersTheHandler : aget? trapping.slots 0 = some (slotOf0 trapping) ∧ (slotOf0 trapping).handler = false
    ∧ (trapping.launch (trapping.team (slotOf0 trapping).team).launch).trapp = true := by decide +kernel
theorem witness_TrapEntersTheHandler_fields : framed.cause < 2 ^ 9 ∧ framed.rstep < 2 ^ 16 ∧ 4485 < 2 ^ 15 ∧ slot0.role < 4 := by decide
def trapped : State := trapping.raise 0 framed none
theorem test_trap_pc_frame : (fun sl : Slot => (sl.pc, sl.frame, sl.handler)) (slotOf0 trapped)
    = (128, 0x007FFFFFFF800000, true) := by decide +kernel
theorem test_trap_frame_bytes : (trapped.byteAt (Config.framePhys + 0), trapped.byteAt (Config.framePhys + 1), trapped.byteAt (Config.framePhys + 127))
    = (0x80, 0x24, 0x80) := by decide +kernel
theorem witness_FaultsOutsideTheHandler : aget? ready.slots 0 = some slot0 ∧ (ready.launch (ready.team slot0.team).launch).trapp = false
    ∧ aget? ready.launches (ready.root (ready.team slot0.team).launch) = some (launch0 ready) := by decide +kernel
theorem witness_FaultsOutsideTheHandler_within : aget? trapped.slots 0 = some (slotOf0 trapped) ∧ (slotOf0 trapped).handler = true
    ∧ aget? trapped.launches (trapped.root (trapped.team (slotOf0 trapped).team).launch) = some (launch0 trapped) := by decide +kernel
theorem witness_FaultsOutsideTheHandler_groom : aget? continuing.slots 0 = some (slotOf0 continuing)
    ∧ ((continuing.launch (continuing.team (slotOf0 continuing).team).launch).contp && (slotOf0 continuing).cont.getLsbD 0
      && !(slotOf0 continuing).cont.getLsbD 62 && !(slotOf0 continuing).handler) = true := by decide +kernel
theorem test_no_handler_ends_team : ((after (.trap (ct (.vec 0) (.vec 0) 0 3)) ready).fibre k3).alive = false := by decide +kernel
theorem test_trap_after : (slotOf0 (after (.trap (ct (.vec 0) (.vec 0) 0 3)) trapping)).handling.map (fun t => (t.cause, t.kind))
    = some (0x1E3, .after) := by decide +kernel

/-- The slot in its handler, issuing TRET. -/
def returning : State := { trapped with cur := some ctx0 }
theorem witness_TrapReturn : (returning.cur = some ctx0 ∧ aget? returning.slots 0 = some (slotOf0 returning))
    ∧ (returning.ctx ctx0 (slotOf0 returning) always).act ≠ [] ∧ (slotOf0 returning).handler = true ∧ (slotOf0 returning).st = 0 := by decide +kernel
theorem witness_TrapReturn_frame : ∃ fr, returning.readFrame 0 0 = .ok fr ∧ fr.replay = true := ok_with _ (by decide +kernel)
theorem test_tret_replays : (fun sl : Slot => (sl.pc, sl.handler, sl.frame, sl.replay.map fun r => r.lanes))
    (slotOf0 (after (.tret ct) returning)) = (0x08000181, false, 0, some [3]) := by decide +kernel
theorem test_tret_outside : (slotOf0 (after (.tret ct) trapping)).handling.map (fun t => t.cause) = some 0x1C4 := by
  decide +kernel
theorem witness_HandlerReturnsElsewhere : Issues ready ctx0 slot0 ∧ (ready.ctx ctx0 slot0 always).act ≠ [] ∧ slot0.handler = false
    ∧ slot0.cont.getLsbD 62 = false := ⟨⟨rfl, by decide⟩, by decide, by decide, by decide⟩

/-- A page fault has started the continuation; the page is there, and READY is set. -/
def continued : State :=
  let s := continuing.raise 0 { framed with cause := 0x043, kind := .parked } (some (.pages [0]))
  { s.modSlot 0 fun sl => { sl with cont := sl.cont ||| (1#64 <<< 63) } with cur := some ctx0 }
theorem witness_HandlerReturnsElsewhere_continuation : (continued.cur = some ctx0 ∧ aget? continued.slots 0 = some (slotOf0 continued))
    ∧ (continued.ctx ctx0 (slotOf0 continued) always).act ≠ [] ∧ (slotOf0 continued).cont.getLsbD 62 = true ∧ (slotOf0 continued).handler = false
    ∧ (slotOf0 continued).cont.getLsbD 63 = true ∧ (slotOf0 continued).st = 0
    ∧ ((slotOf0 continued).contPark.map fun p => decide (p.trap.cause ∉ [0x1C6, 0x085, 0x086])) = some true := by decide +kernel
theorem witness_HandlerReturnsElsewhere_frame : ∃ fr, continued.readFrame 0 128 = .ok fr ∧ fr.replay = true := ok_with _ (by decide +kernel)
theorem test_cont : holds (after (.cont (ct (.pred 2))) continued) k3 2 = true := by decide +kernel
theorem test_resume : (fun sl : Slot => (sl.pc, sl.cont, sl.frame, sl.replay.map fun r => r.lanes))
    (slotOf0 (after (.resume ct) continued)) = (0x08000181, 1, 0, some [3]) := by decide +kernel

/-! ### Memory instructions -/

/-- v11:v10 = 128, where the line's bytes lie, with stamp 50; v13:v12 = 0x1000; v4 = 2 (stamp 99). -/
def mems : State := vregs { ready with stamps := [(4, 50), (5, 50)] } [(10, ⟨0x80, 0⟩), (12, ⟨0x1000, 0⟩), (4, ⟨2, 99⟩)]
def lx : Ctx := mems.ctx ctx0 (slotOf0 mems) always
def ldf : MemF := me (.vec 8) (.vec 10) .zero .zero .b32
def stf : MemF := me (.vec 4) (.vec 12) .zero .zero .b32

theorem witness_LoadsCheckAndStart_order : canonical 0x0200000000000000 = false
    ∧ (canonical 0x82 = true ∧ mems.badRegion (lx.who mems) false 0x82 = false ∧ 0x82 % 4 ≠ 0)
    ∧ (canonical 0x0100000000000000 = false) ∧ (canonical 0xFF00000000000000 = true ∧ mems.badRegion (lx.who mems) false 0xFF00000000000000 = true) := by
  decide +kernel
theorem witness_LoadsCheckAndStart : Issues mems ctx0 (slotOf0 mems) ∧ lx.runLanes ldf.d = [(0, k0), (3, k3)] := ⟨⟨rfl, rfl⟩, by decide⟩
theorem witness_LoadsCheckAndStart_place : ∃ pg, mems.placeBytes (lx.who mems) .load (lx.ea ldf (mems.fibre k0)) 4 = .ok pg
    ∧ (decide (pg.loc = 128) && decide (pg.loc + 4 ≤ 2 ^ 62)) = true := ok_with _ (by decide +kernel)

def loading : State := after (.ld ldf) mems
theorem test_ld_in_flight : ((slotOf0 loading).ld, (slotOf0 loading).pc, reg loading 8) = (1, 192, ⟨0, 0⟩) := by decide +kernel
def loaded : State := after (.loadDataArrive mems.uid) loading
theorem test_load_data : (reg loaded 8, (slotOf0 loaded).ld, loaded.ops) = (⟨0x08004000, 50⟩, 0, []) := by decide +kernel

def opOf (s : State) (o : Nat) : Op := (aget? s.ops o).getD ⟨mems.head lx .ld, .store []⟩
def readsOf (s : State) (o : Nat) : List LaneRead := match (opOf s o).body with
  | .load _ rs _ => rs
  | _ => []
def writesOf (s : State) (o : Nat) : List LaneWrite := match (opOf s o).body with
  | .store ws => ws
  | _ => []

theorem witness_LoadDataArrives : aget? loading.ops mems.uid = some ⟨mems.head lx .ld, .load (.ld ldf) (readsOf loading mems.uid) []⟩
    ∧ (∀ r ∈ readsOf loading mems.uid, r.unasked = [] ∧ r.waits = []) ∧ loading.blockedLoad mems.uid (readsOf loading mems.uid) = false
    ∧ loading.farOpen (((readsOf loading mems.uid).flatMap fun r => r.units).flatMap fun u => u.locs) = false
    ∧ (slotOf0 loading).team = (mems.head lx .ld).team ∧ (aget? loading.fibres k0).isSome := by decide +kernel
theorem witness_LoadDataArrives_data : ∃ q, loading.arriveLanes (mems.head lx .ld) mems.uid (.ld ldf) (readsOf loading mems.uid) = some q
    ∧ (q.1.all fun a => match a.2 with
      | .data _ exc _ => exc == 0
      | _ => false) = true := some_with _ (by decide +kernel)
theorem witness_LoadDataArrives_plain : ∀ r ∈ readsOf loading mems.uid, r.waits = [] ∧ r.bound = none ∧ r.expo = none
    ∧ r.units = [⟨0, from_ 128 4, (r.units.map fun u => u.timeless).headD true, (r.units.map fun u => u.rdidx).headD 0⟩]
    ∧ ∀ a ∈ from_ 128 4, loading.homeCause true a 1 = none ∧ (∀ w ∈ loading.hist, w.touches a = false ∧ ∀ g ∈ w.gBefore, g.1 ≠ a / 32)
        ∧ ∀ p ∈ loading.pending, a ∉ p.2.1 := by decide +kernel

/-- A write to 1,000 that fibre `k0`'s reader knows, and one that it does not. -/
def written2 : State := (mems.commit 0 false [aWrite]).commit 0 false [{ aWrite with id := 2, bytes := [(1000, (3, 9))], preds := [1] }]
def rdr : Reader := { rid := 50, know := [1], seen := [], issuedAt := 0 }
theorem witness_ReadsRespectHappensBefore : (∀ w ∈ mems.hist, w.touches 128 = false ∧ ∀ g ∈ w.gBefore, g.1 ≠ 128 / 32)
    ∧ (∀ p ∈ mems.pending, 128 ∉ p.2.1) ∧ (written2.cands rdr 1000).map (fun c => c.map fun w => w.id) = [some 1, some 2]
    ∧ (written2.cands { rdr with know := [2] } 1000).map (fun c => c.map fun w => w.id) = [some 2]
    ∧ (written2.cands { rdr with know := [] } 1000).map (fun c => c.map fun w => w.id) = [none, some 1, some 2] := by decide +kernel

theorem witness_StoresStartAndApply : ∃ pg, mems.place (lx.who mems) .store (lx.ea stf (mems.fibre k0)) 4 false = .ok (.bytes pg)
    ∧ (decide (pg.loc = 0x1000) && decide (pg.loc + 4 ≤ 2 ^ 62) && (mems.egressPort lx.l.part pg.loc).isNone) = true := by
  obtain ⟨t, h, ht⟩ := ok_with (e := mems.place (lx.who mems) .store (lx.ea stf (mems.fibre k0)) 4 false) (fun t => match t with
    | .bytes pg => decide (pg.loc = 0x1000) && decide (pg.loc + 4 ≤ 2 ^ 62) && (mems.egressPort lx.l.part pg.loc).isNone
    | .chute _ => false) (by decide +kernel)
  cases t with
  | bytes pg => exact ⟨pg, h, ht⟩
  | chute c => cases ht
theorem witness_StoresStartAndApply_lanes : lx.runLanes stf.d ≠ [] ∧ lx.bound stf (mems.fibre k0) = none ∧ 0 < stf.ty.bytes := by decide +kernel
def storing : State := after (.st stf) mems
def storeId : Nat := mems.uid + 2
theorem test_st_in_flight : ((slotOf0 storing).st, storing.byteAt 128, (writesOf storing storeId).map fun w => w.lane) = (1, 0, [3]) := by decide +kernel
theorem witness_StoresStartAndApply_apply : aget? storing.ops storeId = some ⟨mems.head lx .st, .store (writesOf storing storeId)⟩
    ∧ (∃ w ∈ writesOf storing storeId, w.bytes.filter (fun b => b.1 / 32 == 128) ≠ [])
    ∧ (∀ w ∈ writesOf storing storeId, w.remote = none ∧ w.swm = false ∧ w.bytes.filter (fun b => b.1 / 32 == 128) = w.bytes) ∧ storing.ue = []
    ∧ storing.heldBack ((writesOf storing storeId).flatMap fun w => w.bytes.map fun b => b.1) ((writesOf storing storeId).flatMap fun w => w.preds)
      ((writesOf storing storeId).flatMap fun w => w.carry) ((writesOf storing storeId).flatMap fun w => w.after) = false
    ∧ storing.homeCause false (128 * 32) 1 = none ∧ (slotOf0 storing).team = (mems.head lx .st).team := by decide +kernel
theorem test_store_apply : (fun s : State => (s.byteAt 0x1000, s.byteAt 0x1003, (slotOf0 s).st)) (after (.storeApply storeId 128) storing) = (2, 0, 0) := by
  decide +kernel
/-- A store of two granules: the first is applied, the second is left. -/
def storing2 : State := after (.st { stf with d := .vec 4, ty := .b64 }) ((vregs mems [(12, ⟨0x1000, 0⟩)]).modFibre k3 fun f => f.write 12 [(0, ⟨0x1020, 0⟩)])
theorem witness_StoresStartAndApply_left : ∃ w ∈ writesOf storing2 storeId, w.bytes.filter (fun b => b.1 / 32 == 128) ≠ w.bytes := by decide +kernel

/-- A store of 2 to offset 0x1000 of device 9, whose link domain 2 goes through port 1, not yet sent. -/
def farStore : State :=
  let w : LaneWrite := { lane := 3, fibre := k3, va := 0, id := 5, bytes := (from_ (remoteLoc 9 0x1000) 4).zip [(2, 0), (0, 0), (0, 0), (0, 0)]
                         preds := [], carry := [], after := [], timeless := false, swm := false, remote := none }
  { (mems.modPart 0 fun p => { p with domain := [(9, ⟨2, 1, 0⟩)] }) with ops := [(storeId, ⟨mems.head lx .st, .store [w]⟩)] }
def farGran : Nat := (remoteLoc 9 0x1000) / 32
theorem witness_StoresStartAndApply_far : aget? farStore.ops storeId = some ⟨mems.head lx .st, .store (writesOf farStore storeId)⟩
    ∧ 2 ^ 62 ≤ farGran * 32 ∧ ((writesOf farStore storeId).filter fun w => w.remote.isNone && w.inGran farGran ≠ []) ≠ []
    ∧ farStore.farHeld ((writesOf farStore storeId).flatMap fun w => (w.inGran farGran).map fun b => b.1)
      ((writesOf farStore storeId).flatMap fun w => w.preds) ((writesOf farStore storeId).flatMap fun w => w.carry) = false
    ∧ farStore.heldBack ((writesOf farStore storeId).flatMap fun w => (w.inGran farGran).map fun b => b.1) [] []
      ((writesOf farStore storeId).flatMap fun w => w.after) = false
    ∧ farStore.route 0 (remoteDev (farGran * 32)) = some (1, ⟨2, 1, 0⟩) := by decide +kernel
theorem test_far_store_leaves : ((after (.storeApply storeId farGran) farStore).outFlits.map fun f => (f.1, f.2.dst.toNat, f.2.off.toNat, f.2.payload.headD 0))
    = [(1, 9, 0x1000, 2)] := by decide +kernel

/-- The team has a chute (CHUTES 1, bit 81); v14 holds its offset in the team window. -/
def chuted : State := (vregs mems [(14, ⟨0x400000, 0⟩)]).modLaunch 0 fun l => { l with image := l.image ||| (1#1024 <<< 81) }
def cx : Ctx := chuted.ctx ctx0 (slotOf0 chuted) always
def pushf : MemF := me (.vec 4) (.vec 14) .zero .zero .b32
theorem witness_ChutesAreQueues_push : (chuted.cur = some ctx0 ∧ aget? chuted.slots 0 = some (slotOf0 chuted)) ∧ cx.runLanes pushf.d ≠ []
    ∧ (∃ tm, aget? chuted.teams 0 = some tm ∧ (tm.chuteAt 0 0).length + 2 ≤ Config.chuteEntries) ∧ cx.bound pushf (chuted.fibre k0) = none :=
  ⟨by decide +kernel, by decide +kernel, ⟨_, rfl, by decide +kernel⟩, by decide +kernel⟩
theorem witness_ChutesAreQueues_place : ∃ t, chuted.place (cx.who chuted) .store (cx.eaTeam pushf (chuted.fibre k0)) 4 true = .ok t
    ∧ (match t with | .chute 0 => true | _ => false) = true := ok_with _ (by decide +kernel)
def pushed : State := { after (.sts pushf) chuted with cur := some ctx0 }
theorem test_sts_pushes : ((pushed.team 0).chuteAt 0 0).map (fun e => (e.val, e.st)) = [(2, 99), (2, 99)] := by decide +kernel
theorem witness_ChutesAreQueues_pop : (pushed.ctx ctx0 (slotOf0 pushed) always).runLanes pushf.d = [(0, k0), (3, k3)]
    ∧ 2 ≤ ((pushed.team 0).chuteAt 0 0).length ∧ [(0, k0), (3, k3)].Nodup := by decide +kernel
theorem test_lds_pops : (fun s => ((s.team 0).chuteAt 0 0, reg s 8, (s.fibre k3).reg 8)) (after (.lds { pushf with d := .vec 8 }) pushed)
    = ([], ⟨2, 99⟩, ⟨2, 99⟩) := by decide +kernel

def cctlf : MemF := me (.vec 0) (.vec 10) .zero .zero .none
def wlogf : MemF := me (.vec 0) (.vec 4) .zero .zero .none
def bankf (mode : BitVec 11) : MemF := me (.scl 8) (.vec 4) .zero .zero .b32 ⟨0, 0, false, 0, mode⟩
theorem witness_CachesBanksAndTheLog : Issues mems ctx0 (slotOf0 mems) ∧ lx.act = [(0, k0), (3, k3)] ∧ (bankf 0).ext.maxage = 0 ∧ (bankf 1).ext.maxage ≠ 0
    ∧ ((bitList 32 (lx.read (lx.first mems) .b32 0 (.vec 4)).val).filter fun b => (mems.cluster 0).mode b != .scratch) = [1] :=
  ⟨⟨rfl, rfl⟩, by decide, by decide, by decide, by decide +kernel⟩
theorem witness_CachesBanksAndTheLog_place : ∃ pg, mems.placeBytes (lx.who mems) .cctl (lx.ea cctlf (mems.fibre k0)) 1 = .ok pg
    ∧ decide (pg.loc < 2 ^ 60) = true := ok_with _ (by decide +kernel)
theorem test_pref : (slotOf0 (after (.pref cctlf) mems)).pc = 192 := by decide +kernel
theorem test_cctl : ((slotOf0 (after (.cctlWb cctlf) mems)).st, (slotOf0 (after (.cctlInv cctlf) mems)).st, (slotOf0 (after (.cctlLu cctlf) mems)).st)
    = (1, 1, 1) := by decide +kernel
theorem test_wlog : (slotOf0 (after (.wlog wlogf) mems)).st = 1 := by decide +kernel
def draining : State := after (.bankcfg (bankf 1)) mems
theorem test_bankcfg_drains : (draining.cluster 0).draining = [1] := by decide +kernel
theorem witness_CachesBanksAndTheLog_drain : (draining.cluster 0).draining.contains 1 = true ∧ (0, slotOf0 draining) ∈ draining.slots
    ∧ aget? draining.slots 0 = some (slotOf0 draining) ∧ clusterOf (coreOf 0) = 0 ∧ (slotOf0 draining).wait = .banks [1] (.scl 8) 2 := by decide +kernel
theorem test_bank_drained : (fun s : State => ((s.cluster 0).mode 1, (slotOf0 s).reg 8, (slotOf0 s).wait)) (after (.bankDrainDone 0 1) draining)
    = (.scratch, ⟨2, 0⟩, .none) := by decide +kernel

/-- The same device, with its page in f32 (FMT 2). -/
def inF32 (s : State) : State := { s with ptes := s.ptes.map fun e =>
  if e.1 == (Config.rootPhys 8) then (e.1, e.2 ||| (2#128 <<< 56)) else e }
def ldef : MemF := me (.vec 8) (.vec 10) .zero .zero .f32
def ldtf : MemF := me (.vec 8) (.vec 10) .zero .zero .b8
theorem witness_LoadsCheckAndStart_lde : ∃ pl, ((inF32 mems).planLde (lx.who mems) ldef (lx.pair (mems.fibre k0) ldef.a + 0) 0).2 = .ok pl
    ∧ (pl.units.all fun u => u.locs.all fun a => decide (a < 2 ^ 62)) = true := ok_with _ (by decide +kernel)
theorem witness_LoadsCheckAndStart_ldt : ∃ pl, (mems.planLdt (lx.who mems) ldtf (lx.pair (mems.fibre k0) ldtf.a + 0) 0 3).2 = .ok pl
    ∧ (decide (pl.units.length = 32) && pl.units.all fun u => u.locs.all fun a => decide (a < 2 ^ 62)) = true := ok_with _ (by decide +kernel)
theorem test_lde : reg (after (.loadDataArrive mems.uid) (after (.lde ldef) (inF32 mems))) 8 = ⟨0x08004000, 50⟩ := by decide +kernel
theorem test_ldt_rows : (fun s => (reg s 8, (s.fibre k3).reg 9)) (after (.loadDataArrive mems.uid) (after (.ldt ldtf) mems))
    = (⟨0x08004000, 50⟩, ⟨0, 50⟩) := by decide +kernel
theorem test_ldg_in_flight : (slotOf0 (after (.ldg ldf) mems)).ld = 1 := by decide +kernel
theorem test_sct_in_flight : (slotOf0 (after (.sct stf) mems)).st = 1 := by decide +kernel

/-! ### Earlier versions, smaller windows, lines that raise, guards that hold nowhere -/

theorem witness_DecodeOfEncode_small : firstCause 1 12 (.iadd (ar (.vec 11) (.vec 1) (.vec 2) .i32 1)) = none
    ∧ encodeRaw (.iadd (ar (.vec 11) (.vec 1) (.vec 2) .i32 1)) ≠ none := by decide
theorem witness_DecodedBytesEncodeBack_earlier : (word (0x183 * 2 ^ 22) 0 0) / 2 ^ 86 = 0x183 ∧ (word (0x2C1 * 2 ^ 22) 0 0) / 2 ^ 86 = 0x2C1 := by decide

def slotF : Slot := { (aget? fetching.slots 0).getD Slot.zero with arrive := .flow }
/-- The line at 128 with line word `w` and first slot `x`. -/
def lined (w x : Nat) : State := { fetching with mem := (from_ 128 16).zip (bytesLE 4 w ++ bytesLE 12 x), slots := [(0, slotF)] }
/-- IADD.i32 v4, v4, #16, of odd parity. -/
def iaddWord : Nat := word 0x20DE0402 0x70000300 0x10

theorem witness_FetchDecodesTheBytesAtThePc_trap : (lined 1 iaddWord).arrivalCause 0 ((lined 1 iaddWord).launch 0) slotF = none ∧ slotF.replay = none
    ∧ slotF.lanes ≠ [] ∧ ((lined 1 iaddWord).team 0).state.issues = true ∧ slotF.wait = .none ∧ slotF.dueLate = none := by decide
theorem witness_FetchDecodesTheBytesAtThePc_line : ∃ bs src, (lined 1 iaddWord).fetchLine 0 slotF (slotF.pc &&& ~~~63#64) = .bytes bs src
    ∧ leNat (bs.take 4) = 1 ∧ leNat ((bs.drop 4).take 12) = iaddWord := ⟨_, _, rfl, by decide, by decide⟩
/-- One line for each cause: parity; bits 13:0; COUNT 0, and 6; the slot at COUNT; the slot's parity; PAIR in the last slot; and the decoder's. -/
theorem witness_FetchDecodesTheBytesAtThePc_causes :
    parity 1 32 = true ∧ (parity 0x80000001 32 = false ∧ bitsN 0x80000001 0 14 ≠ 0)
    ∧ (parity 0 32 = false ∧ bitsN 0 0 14 = 0 ∧ lineCount 0 = 0) ∧ (parity 0x18000 32 = false ∧ bitsN 0x18000 0 14 = 0 ∧ 5 < lineCount 0x18000)
    ∧ (lineCause 0x44000 = none ∧ lineCount 0x44000 ≤ 1)
    ∧ (lineCause 0x24000 = none ∧ 0 < lineCount 0x24000 ∧ parity iaddWord 96 ≠ lineSpar 0x24000 0)
    ∧ (lineCause 0x864000 = none ∧ 0 + 1 = lineCount 0x864000 ∧ parity iaddWord 96 = lineSpar 0x864000 0 ∧ linePair 0x864000 0 = true)
    ∧ (slotCause 0x44000 0 (BitVec.ofNat 96 iaddWord) = none) := by
  decide
theorem witness_FetchDecodesTheBytesAtThePc_refused : decode 3 256 (BitVec.ofNat 96 (word 0xFFC00000 0xC00000 0)) = .error 0x000 := rfl
theorem test_line_traps : ([(1, iaddWord), (0x80000001, iaddWord), (0x18000, iaddWord), (0x24000, iaddWord), (0x864000, iaddWord)].map fun x =>
    match (lined x.1 x.2).fetch 0 slotF with
    | some (.trap t none) => (t.cause, t.lmask, t.pc)
    | _ => (0x1FF, [], 0)) = [(0x006, [0], 128), (0x009, [0], 128), (0x008, [0], 128), (0x007, [0], 128), (0x00D, [0], 128)] := by decide
/-- p0 holds in no fibre. -/
def nowhere : Guard := ⟨false, 0⟩
theorem witness_StepRunsTheDecodedInstruction_guard : ready.cur = some ctx0 ∧ slot0.lanes ≠ [] ∧ slot0.replay = none ∧ ctx0.thenPc = none
    ∧ (ready.ctx ctx0 slot0 nowhere).act = [] ∧ encodeRaw (.iadd { ar (.vec 4) (.vec 4) .imm .i32 with g := nowhere }) ≠ none := by decide
theorem test_false_guard : (fun s : State => ((slotOf0 s).pc, reg s 4, (slotOf0 s).sregs)) (after (.exit { ct with g := nowhere }) ready)
    = (192, Reg.zero, slot0.sregs) := by decide
theorem witness_StepRunsTheDecodedInstruction_trap : ∃ t, (lined 1 iaddWord).turn 0 slotF = some (.trap t none, .branch) := ⟨_, rfl⟩

/-! ### Bits, lanes, reductions and rounding: the cases of the tables -/

theorem witness_BitsWhereTheyBelong_fields : (0 < Ty.i32.bits ∧ 0x80000000 < 2 ^ Ty.i32.bits ∧ 31 < Ty.i32.bits) ∧ (31 < 32 ∧ 0 < 32)
    ∧ min 0 Ty.i32.bits = 0 ∧ ¬ min 255 Ty.n32.bits = 0 := by decide
theorem witness_ShuffleLanes : (7 < 8) ∧ shflLane 0 8 0 7 = some 7 ∧ shflLane 0 8 0 8 = none ∧ shflLane 1 8 3 3 = some 0 ∧ shflLane 1 8 3 4 = none
    ∧ shflLane 2 8 3 4 = some 7 ∧ shflLane 2 8 3 5 = none ∧ shflLane 3 8 7 7 = some 0 ∧ shflLane 3 8 7 8 = none := by decide
theorem witness_ReductionOperations : Ty.i32 ∈ [Ty.i32, .n32, .b32, .i64, .n64, .b64] ∧ (∀ y ∈ [0xFFFFFFFF, 2], y < 2 ^ Ty.i32.bits)
    ∧ [0, 1, 2, 3, 4, 5].map (fun op => (redValue op .i32 .rne [0xFFFFFFFF, 2]).1) = [1, 0xFFFFFFFF, 2, 2, 0xFFFFFFFF, 0xFFFFFFFD] := by
  decide
/-- A NaN; both infinities; one; finite terms, and two zeros. -/
theorem witness_ReductionOperations_float :
    (([0x3F800000, 0x7FC00001].map (decodeF (fmtOf .f32))).find? FV.isNaN).isSome = true
    ∧ (([0x7F800000, 0xFF800000].map (decodeF (fmtOf .f32))).any FV.isNaN = false ∧ FV.inf false ∈ [0x7F800000, 0xFF800000].map (decodeF (fmtOf .f32))
      ∧ FV.inf true ∈ [0x7F800000, 0xFF800000].map (decodeF (fmtOf .f32)))
    ∧ (FV.inf true ∈ [0x3F800000, 0xFF800000].map (decodeF (fmtOf .f32)) ∧ FV.inf (!true) ∉ [0x3F800000, 0xFF800000].map (decodeF (fmtOf .f32)))
    ∧ (∀ v ∈ [0x3F800000, 0x80000000].map (decodeF (fmtOf .f32)), v.isNaN = false ∧ v.isInf = false)
    ∧ (redValue 0 .f32 .rne [0x3F800000, 0x3F800000]).1 = 0x40000000 ∧ (redValue 0 .f32 .rne [0x80000000, 0x80000000]).1 = 0x80000000 := by
  decide
theorem witness_FiniteResultsAreRounded : ((1 : Nat) ≠ 0 ∧ (3 : Nat) ≠ 0) ∧ ((-2 : Int) % 2 = 0 ∧ (-1 : Int) % 2 ≠ 0 ∧ (3 : Int) % 2 ≠ 0)
    ∧ ((0 : Int) ≤ 12 ∧ (-4096 : Int) ≤ -(1 : Nat) * 2 ^ (12 : Int).toNat ∧ ((1 : Nat) : Int) * 2 ^ (12 : Int).toNat ≤ 4096) ∧ 8 = 2 ^ 3
    ∧ (3 % 2 = 1) ∧ 2 ^ ((fmtOf .f32).fb + 2) ≤ (2 ^ 60 + 1) / 2 ^ 35 ∧ 2 ^ ((fmtOf .f32).fb + 2) ≤ 2 ^ 25 / 2 ^ 0 := by decide
theorem witness_FiniteResultsAreRounded_value : addV (fmtOf .f32) .rne (.fin false 1 0) (.fin true 1 0) = (0, 0)
    ∧ addV (fmtOf .f32) .rdn (.fin false 1 0) (.fin true 1 0) = (0x80000000, 0)
    ∧ divV (fmtOf .f32) .rne (.fin false 1 0) (.fin false 3 0) = (0x3EAAAAAB, NX) := by decide +kernel
/-- The least normal number is below no zero, infinities stand at the ends, and the comparisons of a NaN, of equal zeros and of two numbers. -/
theorem witness_ComparisonTables : ((1 : Nat) ≠ 0 ∧ (FV.zero true).isNaN = false)
    ∧ ((decodeF (fmtOf .f32) 0x7F800001).isNaN = true ∧ (decodeF (fmtOf .f32) 0x3F800000).isNaN = false)
    ∧ (List.range 8).map (fun k => (cmpF (fmtOf .f32) k 0 0x80000000).1) = [true, false, false, true, false, true, false, true]
    ∧ (List.range 8).map (fun k => cmpF (fmtOf .f32) k 0x7FC00000 0) = [(false, 0), (true, 0), (false, NV), (false, NV), (false, NV), (false, NV), (true, 0), (false, 0)]
    ∧ decodeF (fmtOf .f32) 0x3FC00000 = .fin false 0xC00000 (-23) ∧ (decodeF (fmtOf .f32) 0xFF800000).isInf = true
    ∧ (decodeF (fmtOf .f32) 0x80000000).isZero = true := by decide
/-- A source of each kind: an integer, a NaN, a zero, an infinity, and numbers below, in and above .i32. -/
theorem witness_ConversionTables : Ty.i32 ∈ [Ty.i32, .n32, .i64, .n64] ∧ Ty.f32 ∉ [Ty.i32, .n32, .i64, .n64]
    ∧ [0x7FC00000, 0x80000000, 0xFF800000, 0xCF800000, 0x40200000, 0x4F800000].map (fun v => cvtCode .i32 .f32 .rne v)
      = [(0, NV), (0, 0), (0x80000000, NV), (0x80000000, NV), (2, NX), (0x7FFFFFFF, NV)]
    ∧ cvtCode .f32 .i32 .rne 0xFFFFFFFF = (0xBF800000, 0) := by decide
/-- Blocks with and without a finite non-zero number; an element at the reduced exponent, one at the block's, and one clamped; and a NaN. -/
theorem witness_ConversionTables_blocks : txOf .tx4 ≠ txOf .tx8
    ∧ (quantTx (txOf .tx8) .rne 4 [.zero false, .nan false false 0 1]).1 = 127
    ∧ (let r := quantTx (txOf .tx8) .rne 4 [.fin false 1 4, .fin true 1 0, .inf false]
       r.2.1 = r.1 - 4 ∧ 127 < r.1 ∧ r.2.2.1[2]? = some (2 ^ 6)) ∧ (quantTx (txOf .tx4) .rne 0 [.fin false 1 4000]).1 = 255
    ∧ (quantMx .rne [.zero false]).1 = 127 ∧ (quantMx .rne [.fin false 1 0, .fin true 3 1]).1 = 121 ∧ (quantMx .rne [.fin false 1 900]).1 = 254 := by
  decide +kernel

/-! ### RESUME: waiting, after a failed service, and with REPLAY 0 -/

/-- The page is not there yet: READY is clear. -/
def notReady : State := continued.modSlot 0 fun sl => { sl with cont := sl.cont &&& 0x7FFFFFFFFFFFFFFF }
def contFailed : State := continued.modSlot 0 fun sl => { sl with contPark := sl.contPark.map fun p => { p with trap := { p.trap with cause := 0x1C6 } } }
/-- The continuation's frame, its first 8 bytes cleared: REPLAY 0, RPC 0x08000182 as framed. -/
def noReplay : State := { continued with mem := continued.mem.filter fun c => decide (c.1 < Config.framePhys + 128 ∨ Config.framePhys + 136 ≤ c.1) }
theorem witness_HandlerReturnsElsewhere_waits : ((notReady.ctx ctx0 (slotOf0 notReady) always).act ≠ [] ∧ (slotOf0 notReady).cont.getLsbD 62 = true
    ∧ (slotOf0 notReady).handler = false ∧ (slotOf0 notReady).cont.getLsbD 63 = false)
    ∧ (slotOf0 (continued.modSlot 0 fun sl => { sl with st := 1 })).st ≠ 0 := by decide +kernel
theorem test_resume_waits : after (.resume ct) notReady = notReady := by decide +kernel
theorem witness_HandlerReturnsElsewhere_failed : ((slotOf0 contFailed).contPark.map fun p => p.trap.cause) = some 0x1C6
    ∧ (slotOf0 contFailed).cont.getLsbD 63 = true ∧ (slotOf0 contFailed).st = 0
    ∧ ∃ fr, contFailed.readFrame 0 128 = .ok fr ∧ yes fr = true := ⟨by decide +kernel, by decide +kernel, by decide +kernel, ok_with _ (by decide +kernel)⟩
theorem test_resume_failed : ((after (.resume ct) contFailed).fibre k0).alive = false := by decide +kernel
theorem witness_HandlerReturnsElsewhere_goesOn : (slotOf0 noReplay).cont.getLsbD 63 = true
    ∧ ∃ fr, noReplay.readFrame 0 128 = .ok fr ∧ (!fr.replay) = true := ⟨by decide +kernel, ok_with _ (by decide +kernel)⟩
theorem test_resume_goes_on : (fun sl : Slot => (sl.pc, sl.replay)) (slotOf0 (after (.resume ct) noReplay)) = (0x08000182, none) := by
  decide +kernel
/-- Both words of the handler and the continuation: CONT and RESUME in a handler entered from the continuation. -/
def handlerInCont : State := continued.modSlot 0 fun sl => { sl with handler := true }
theorem witness_HandlerReturnsElsewhere_both : (slotOf0 handlerInCont).handler = true ∧ (slotOf0 handlerInCont).cont.getLsbD 62 = true
    ∧ (handlerInCont.ctx ctx0 (slotOf0 handlerInCont) always).act ≠ [] := by decide +kernel

/-! ### Stores turned back, chutes that are full or empty, the ends of CCTL and WLOG -/

/-- The egress bound of port 1 is 1, and the store's data is of stamp 50. -/
def backStore : State :=
  let s := farStore.modPart 0 fun p => { p with ports := mset PortStamp.zero p.ports 1 { PortStamp.zero with egen := true, egmax := 1 }, time := 2 ^ 26 }
  { s with ops := s.ops.map fun o => (o.1, { o.2 with body := match o.2.body with
      | .store ws => .store (ws.map fun w => { w with bytes := w.bytes.map fun b => (b.1, (b.2.1, 50)) })
      | b => b }) }
theorem witness_StoresAreApplied_egress : (∀ w ∈ writesOf storing storeId, storing.egressBad 0 w.bytes = none)
    ∧ (∀ w ∈ writesOf farStore storeId, farStore.egressBad 0 w.bytes = none) := by decide +kernel
theorem witness_StoresAreApplied_back : ((writesOf backStore storeId).map fun w => (backStore.egressBad 0 w.bytes).isSome) = [true]
    ∧ ((writesOf backStore storeId).map fun w => w.id).Nodup ∧ (∀ w ∈ writesOf backStore storeId, w.bytes ≠ [] ∧ w.remote = none ∧ w.inGran farGran ≠ [])
    ∧ backStore.farHeld ((writesOf backStore storeId).flatMap fun w => (w.inGran farGran).map fun b => b.1)
      ((writesOf backStore storeId).flatMap fun w => w.preds) ((writesOf backStore storeId).flatMap fun w => w.carry) = false
    ∧ backStore.heldBack ((writesOf backStore storeId).flatMap fun w => (w.inGran farGran).map fun b => b.1) [] []
      ((writesOf backStore storeId).flatMap fun w => w.after) = false
    ∧ (slotOf0 backStore).team = (mems.head lx .st).team ∧ (slotOf0 backStore).lanes ≠ [] := by decide +kernel
def turnedBack : State := after (.storeApply storeId farGran) backStore
theorem test_store_turned_back : (turnedBack.outFlits.length, turnedBack.ops.length, (slotOf0 turnedBack).late.map fun t => (t.1.cause, t.1.lmask))
    = (0, 0, [(0x083, [3])]) ∧ ((slotOf0 turnedBack).late.map fun t => (t.1.stamp, t.1.bound)) = [(50, 1)] := by decide +kernel

/-- The chute holds as many entries as it can. -/
def fullChute : State := chuted.modTeam 0 fun t => { t with chutes := aset t.chutes (chuteKey t 0 0) (List.replicate Config.chuteEntries ⟨5, 0, [], []⟩) }
theorem witness_ChutesAreQueues_waits : Config.chuteEntries < ((fullChute.team 0).chuteAt 0 0).length + 2 ∧ ((chuted.team 0).chuteAt 0 0).length < 2 := by
  decide +kernel
theorem test_pop_waits : after (.lds { pushf with d := .vec 8 }) chuted = chuted := by decide +kernel

/-- BANKCFG to scratch of bank 4 of the mask, no unit of which is left to drain: it is scratch already. -/
def scratchBank : State := mems.setCluster 0 { mems.cluster 0 with modes := aset (mems.cluster 0).modes 1 .scratch }
theorem witness_CachesBanksAndTheLog_none :
    ((bitList 32 (lx.read (lx.first scratchBank) .b32 0 (.vec 4)).val).filter fun b => (scratchBank.cluster 0).mode b != .scratch) = [] := by decide +kernel
theorem test_bankcfg_none : (fun s : State => ((slotOf0 s).reg 8, (slotOf0 s).pc, (slotOf0 s).wait)) (after (.bankcfg (bankf 1)) scratchBank)
    = (⟨0, 0⟩, 192, .none) := by decide +kernel

def cctling (lu sys : Bool) : State := mems.setOp 900 ⟨mems.head lx .st, .cctl [1] lu sys⟩
/-- The CCTL's fibres know a write to its line that its home has not applied. -/
def cctlHeld : State := (mems.setOp 900 ⟨{ mems.head lx .st with know := [5] }, .cctl [1] false true⟩).setOp 5
  ⟨mems.head lx .st, .store [{ lane := 3, fibre := k3, va := 0, id := 5, bytes := [(128, (2, 0))], preds := [], carry := [], after := [], timeless := false, swm := false, remote := none }]⟩
theorem witness_CachesAndTheLogEnd : (cctling true false).earlierIn (mems.head lx .st) [1] = false
    ∧ cctlHeld.earlierIn { mems.head lx .st with know := [5] } [1] = true ∧ (∀ l ∈ [1], l * 128 + 128 ≤ 2 ^ 60)
    ∧ (∀ w ∈ (cctling true false).hist, w.touches 130 = true → w.after = []) ∧ 130 / 128 ∈ [1] ∧ 1000 / 128 ∉ [1]
    ∧ (mems.head lx .st).ctr = .st ∧ (slotOf0 mems).team = (mems.head lx .st).team := by decide +kernel
theorem witness_CachesAndTheLogEnd_sys : (written2.setOp 900 ⟨mems.head lx .st, .cctl [7] false true⟩).earlierIn (mems.head lx .st) [7] = false
    ∧ (∃ w ∈ written2.hist, ∃ b ∈ w.bytes, b.1 / 128 ∈ [7]) ∧ (aget? mems.parts (mems.head lx .st).part).isSome := by decide +kernel
theorem test_cctl_held : after (.storeApply 900 0) cctlHeld = cctlHeld := by decide +kernel
theorem test_cctl_ends : (fun s : State => (s.byteAt 128, s.ops, s.sysKnow)) (after (.storeApply 900 0) (cctling false true))
    = (mems.byteAt 128, [], mems.sysKnow) := by decide +kernel

/-- The log's ring of 2^1 records lies at 0x2000, with WIDX, RIDX and OVF as given. -/
def logging (widx ovf : Nat) : State :=
  let s := mems.modPart 0 fun p => { p with wlogRing := 0x2000, wlogN := 1, wlogOn := true }
  ({ s with mem := (s.mem.filter fun (c : Host.Cell) => decide (c.1 < 0x2000 ∨ 0x2060 ≤ c.1)) ++ (from_ 0x2000 24).zip (bytesLE 8 widx ++ bytesLE 8 0 ++ bytesLE 8 ovf) }).setOp 900
    ⟨mems.head lx .st, .wlog 7⟩
theorem witness_CachesAndTheLogEnd_log : (logging 1 0).earlierStore 900 (mems.head lx .st) = false ∧ ((logging 1 0).part 0).wlogOn = true
    ∧ (logging 1 0).ue = [] ∧ 0x2000 + 64 + 16 * 2 ^ ((logging 1 0).part 0).wlogN ≤ 2 ^ 60 ∧ ((logging 1 0).part 0).wlogRing.toNat % 4096 = 0
    ∧ ((List.range 96).all fun k => canonical (((logging 1 0).part 0).wlogRing + BitVec.ofNat 64 k)
      && regionOf (((logging 1 0).part 0).wlogRing + BitVec.ofNat 64 k).toNat == 0
      && [Acc.load, .store].all (fun acc => match (logging 1 0).translate 0 acc (((logging 1 0).part 0).wlogRing + BitVec.ofNat 64 k) with
        | .ok pg => pg.loc == 0x2000 + k
        | .error _ => false)) = true := by decide +kernel
theorem witness_CachesAndTheLogEnd_places : ∀ k < 96, ∀ load len, (logging 1 0).homeCause load (0x2000 + k) len = none := by
  intro k hk load len
  have hm : ((logging 1 0).die (homeDie (0x2000 + k))).memUp = true := by revert k; decide +kernel
  have hc : ¬ Config.cxlBase ≤ 0x2000 + k := by have : 0x2000 + 96 ≤ Config.cxlBase := by decide
                                                omega
  simp [State.homeCause, State.cxlBad, hm, hc, show (logging 1 0).ue = [] from rfl]
theorem witness_CachesAndTheLogEnd_rings : (logging 0 1).natAt 0x2010 1 % 2 = 1 ∧ ((logging 2 0).natAt 0x2000 8 - (logging 2 0).natAt 0x2008 8 = 2)
    ∧ ((logging 1 0).natAt 0x2000 8 - (logging 1 0).natAt 0x2008 8 ≠ 2) ∧ (mems.part 0).wlogOn = false
    ∧ (loading.setOp 900 ⟨mems.head lx .st, .wlog 7⟩).earlierStore 900 (mems.head lx .st) = false
    ∧ (storing.setOp 900 ⟨mems.head lx .st, .wlog 7⟩).earlierStore 900 (mems.head lx .st) = true := by decide +kernel
theorem test_wlog_marks : (fun s : State => (s.natAt 0x2000 8, s.natAt 0x2010 1, s.natAt 0x2050 16)) (after (.storeApply 900 0) (logging 1 0))
    = (2, 0, 2 ^ 63 + 7) := by decide +kernel
theorem test_wlog_overflows : (fun s : State => (s.natAt 0x2000 8, s.natAt 0x2010 1)) (after (.storeApply 900 0) (logging 2 0)) = (2, 1) := by
  decide +kernel

/-! ### Control flow, fibres, the weave former -/

/-- p2 holds in lane 0 only. The slot stands at line 0, whose slot 0 is a transfer target; v2 = 0 is that target relative to the code. -/
def ctls : State := ready.modFibre k0 fun f => { f with preds := 0x8004 }
def ifP2 (f : CtrlF) : CtrlF := { f with g := ⟨false, 2⟩ }
def tx : Ctx := ctls.ctx ctx0 (slotOf0 ctls) ⟨false, 2⟩
theorem witness_TransfersPartTheSlot : Issues ctls ctx0 (slotOf0 ctls) ∧ tx.act = [(0, k0)] ∧ tx.takingPart.length = 2
    ∧ ctls.targetCause 0 (slotOf0 ctls) tx.l true (tx.l.lineOf (slotOf0 ctls).pc + 0) 0 = none
    ∧ ctls.targetCause 0 (slotOf0 ctls) tx.l true 0 0 = none := ⟨⟨rfl, rfl⟩, by decide +kernel⟩
def aimCause (n : BitVec 32) : Option FlowCause := ctls.targetCause 0 (slotOf0 ctls) tx.l true (tx.nearTarget n).1 (tx.nearTarget n).2
theorem witness_TransfersPartTheSlot_bad : (aimCause 8).map (fun k => k.cause) = some 0x00B ∧ (aimCause 5).map (fun k => k.cause) = some 0x00A
    ∧ aimCause 0 = none := by decide +kernel
theorem witness_TransfersPartTheSlot_line : ∃ bs src, 0 < tx.l.codelines ∧ ctls.fetchLine 0 (slotOf0 ctls) (tx.l.pcAt 0 0) = .bytes bs src
    ∧ bitsN (leNat (bs.take 4)) 14 3 ≤ 4 ∧ (leNat (bs.take 4)).testBit 27 = true := ⟨_, _, by decide, rfl, by decide, by decide⟩
def slotRecs (s : State) : List (Word × Nat × Nat) := (s.quarterAt 0).recs.map fun r => (r.pc, r.lane, r.fibre)
theorem test_bra_parts : (fun s => ((slotOf0 s).pc, (slotOf0 s).lanes, slotRecs s)) (after (.bra (ifP2 ct)) ctls)
    = (128, [(0, k0)], [(8, 3, k3)]) := by decide +kernel
theorem test_bra_uniform : ((slotOf0 (after (.bra ct) ctls)).pc, slotRecs (after (.bra ct) ctls)) = (128, []) := by decide +kernel
theorem test_brx : (slotOf0 (after (.brx (ct (.vec 0) (.vec 2))) ctls)).pc = 128 := by decide +kernel
theorem test_jmp : (slotOf0 (after (.jmp ct) ctls)).pc = 128 := by decide +kernel
theorem test_jmp_not_uniform : (launch0 (after (.jmp (ifP2 ct)) ctls)).first.map (fun t => t.cause) = some 0x140 := by decide +kernel
theorem test_call_links : (fun s => ((slotOf0 s).pc, reg s 8)) (after (.call (ct (.vec 8))) ctls) = (128, ⟨8, 0⟩) := by decide +kernel
theorem test_callx : (fun s => ((slotOf0 s).pc, reg s 8)) (after (.callx (ct (.vec 8) (.vec 2))) ctls) = (128, ⟨8, 0⟩) := by decide +kernel
theorem test_ret : (slotOf0 (after (.ret (ct (.vec 0) (.vec 2))) ctls)).pc = 128 := by decide +kernel
theorem test_bra_beyond_code : (launch0 (after (.bra (ct (.vec 0) (.vec 0) 0 8)) ctls)).first.map (fun t => (t.cause, t.addr)) = some (0x00B, 192) := by
  decide +kernel

theorem witness_FibresWaitSpawnAndEnd : Issues ctls ctx0 (slotOf0 ctls) ∧ tx.act ≠ []
    ∧ (ctls.quarterAt 0).recs.length + tx.act.length ≤ Config.spawnRecords := ⟨⟨rfl, rfl⟩, by decide, by decide⟩
theorem test_nop : (slotOf0 (after (.nop ct) ctls)).pc = 192 := by decide +kernel
theorem test_join : (slotOf0 (after (.join (ct (.vec 0) (.vec 0) 0 9)) ctls)).wait = .join 9 192 := by decide +kernel
theorem test_yield : (slotOf0 (after (.yield ct) ctls)).wait = .yield [] 64 := by decide +kernel
theorem test_sleep_capped : (slotOf0 (after (.sleep (ct (.vec 0) .imm 0 0xFFFFFFFF)) ctls)).wait = .sleep 1048575 := by decide +kernel
theorem test_fspawn : (fun s => (slotRecs s, (s.quarterAt 0).recs.map fun r => (r.kind1, r.arg))) (after (.fspawn (ifP2 (ct (.vec 0) (.vec 2)))) ctls)
    = ([(0, 0, 0)], [(true, 0)]) := by decide +kernel
theorem test_fend : (fun s : State => ((s.fibre k0).alive, (s.fibre k3).alive, (slotOf0 s).lanes)) (after (.fend (ifP2 ct)) ctls)
    = (false, true, [(3, k3)]) := by decide +kernel
theorem test_exit : (fun s : State => ((s.fibre k0).alive, (s.fibre k3).alive)) (after (.exit (ifP2 ct)) ctls) = (false, false) := by decide +kernel
theorem test_brk : (launch0 (after (.brk (ct (.vec 0) (.vec 0) 0 7)) ctls)).first.map (fun t => (t.cause, t.info)) = some (0x1C8, 7) := by decide +kernel

/-- A KIND 0 record of a third fibre in column 5, at a packed PC (R68): `recAt 0` waits under the slot's PC, `recAt 8` under another. -/
def k5 : Nat := fibreKey 0 0 5
def recAt (pc : Word) : Rec :=
  { team := 0, word := recWord false 0 5 pc 0x8000 0 0, ue := false, ops := [], know := [], after := [], since := 0 }
def waiting (w : Wait) : State := dev.modSlot 0 fun sl => { sl with wait := w }
theorem witness_WaitsSpillsAndTheFormer : aget? (waiting (.yield [] 64)).slots 0 = some (slotOf0 (waiting (.yield [] 64)))
    ∧ (slotOf0 (waiting (.yield [1] 0))).wait = .yield [1] 0 ∧ 0 ≤ (waiting (.yield [1] 0)).clock
    ∧ (slotOf0 (waiting (.sleep 0))).wait = .sleep 0 ∧ (waiting (.join 9 192)).nothingToJoin 0 (slotOf0 (waiting (.join 9 192))) = true := by
  decide +kernel
theorem test_yield_release : ((slotOf0 (after (.yieldRelease 0) (waiting (.yield [] 64)))).wait,
    (slotOf0 (after (.yieldRelease 0) (waiting (.yield [1] 64)))).wait) = (.none, .yield [1] 64) := by decide +kernel
theorem test_sleep_expire : ((slotOf0 (after (.sleepExpire 0) (waiting (.sleep 0)))).wait, (slotOf0 (after (.sleepExpire 0) (waiting (.sleep 1)))).wait)
    = (.none, .sleep 1) := by decide +kernel
/-- The JOIN's limit has passed, and a record of the team waits elsewhere. -/
def atLimit : State := (waiting (.join 0 192)).setQuarter 0 { (waiting .none).quarterAt 0 with recs := [recAt 0] }
theorem witness_WaitsSpillsAndTheFormer_limit : (slotOf0 atLimit).wait = .join 0 192 ∧ (slotOf0 atLimit).lanes.length ≠ (atLimit.launch 0).width
    ∧ atLimit.nothingToJoin 0 (slotOf0 atLimit) = false ∧ (slotOf0 atLimit).settled = true ∧ (slotOf0 atLimit).handler = false
    ∧ (∃ r ∈ atLimit.recsHere 0 0, r.pc ≠ (atLimit.launch 0).packPc 192) := by decide +kernel
theorem test_join_limit_leaves_records : slotRecs (after (.joinRelease 0) atLimit) = [(0, 5, k5), (8, 0, k0), (8, 3, k3)] := by decide +kernel
theorem test_join_release : (fun sl : Slot => (sl.wait, sl.pc)) (slotOf0 (after (.joinRelease 0) (waiting (.join 9 192)))) = (.none, 192) := by
  decide +kernel

def recs (pc : Word) : State :=
  let s := dev.setFibre k5 { dev.fibre k3 with lane := 5 }
  s.setQuarter 0 { s.quarterAt 0 with recs := [recAt pc] }
theorem witness_WaitsSpillsAndTheFormer_seat : aget? (recs 0).slots 0 = some (slotOf0 (recs 0)) ∧ (recs 0).recReady (recAt 0) = true
    ∧ ((recs 0).quarterAt 0).placed < 64 ∧ (recAt 0).ue = false ∧ (recAt 0).kind1 = false
    ∧ (recAt 0).pc = ((recs 0).launch 0).packPc (slotOf0 (recs 0)).pc ∧ (slotOf0 (recs 0)).handler = false ∧ (slotOf0 (recs 0)).late = []
    ∧ (slotOf0 (recs 0)).lanes ≠ [] ∧ (∀ a ∈ (slotOf0 (recs 0)).lanes, a.1 ≠ 5) ∧ ((recs 0).team 0).state.issues = true := by decide +kernel
theorem test_former_seats : (fun s => ((slotOf0 s).lanes, slotRecs s)) (after (.weaveFormerPlace 0) (recs 0)) = ([(0, k0), (3, k3), (5, k5)], []) := by
  decide +kernel
/-- A KIND 1 record for column 5, whose window is free. -/
def spawning : State :=
  let s := dev.setFibre k5 { dev.fibre k3 with lane := 5, alive := false }
  s.setQuarter 0 { s.quarterAt 0 with recs := [{ recAt 0 with word := recWord true 0 5 0 0 77 9 }] }
theorem witness_WaitsSpillsAndTheFormer_spawn : (spawning.freeWindow 0 0 0 5).map (fun x => x.1) = some k5
    ∧ ((spawning.quarterAt 0).recs.map fun r => (r.kind1, spawning.recReady r)) = [(true, true)] := by decide +kernel
theorem test_former_seats_a_spawn : (fun s : State => ((slotOf0 s).lanes, (s.fibre k5).reg 0, (s.fibre k5).alive)) (after (.weaveFormerPlace 0) spawning)
    = ([(0, k0), (3, k3), (5, k5)], ⟨77, 9⟩, true) := by decide +kernel
def starved : State := { recs 8 with clock := 2048 }
theorem witness_WaitsSpillsAndTheFormer_empty : starved.slots = [(0, slotOf0 starved)] ∧ (slotOf0 starved).wait = .none ∧ (slotOf0 starved).pc = 128
    ∧ (recAt 8).pc ≠ (starved.launch 0).packPc 128     ∧ (recAt 8).since + 2048 ≤ starved.clock := by decide +kernel
theorem test_former_empties : (fun s => ((slotOf0 s).pc, (slotOf0 s).lanes, slotRecs s)) (after (.formerEmptySlot 0 0) starved)
    = (192, [(5, k5)], [(0, 0, k0), (0, 3, k3)]) := by decide +kernel
def ok? {ε α : Type} (e : Except ε α) : Bool := match e with
  | .ok _ => true
  | .error _ => false
def spilt : State := { dev with chunks := [(1, { next := 0, launch := 0, index := 0, team := 0, core := 0, q := 0, recs := [recAt 0] })] }
theorem witness_WaitsSpillsAndTheFormer_spill : spilt.chunks.length = 1 ∧ ok? (spilt.chunkBase 0 0) = true ∧ (spilt.quarterAt 0).recs.length < 3072 := by decide
theorem test_spill_return : ((slotRecs (after (.spillReturn 0 0) spilt)), (after (.spillReturn 0 0) spilt).chunks) = ([(0, 5, k5)], []) := by
  decide +kernel

/-! ### Barriers, phases, waits, time -/

/-- A third fibre of the team stands in no slot; the launch is coresident (CORES, bit 40) with a phase tree whose phase 4 is open. -/
def more : State := ready.setFibre k5 { dev.fibre k3 with lane := 5 }
def phased : State :=
  { ready.modLaunch 0 fun l => { l with image := l.image ||| (1#1024 <<< 40), tree := some 0 } with
    trees := [(0, { launch := 0, c := 4, know := [], after := [], part := [] })] }
def px : Ctx := phased.ctx ctx0 (slotOf0 phased) always
theorem witness_BarriersAndPhases : Issues ready ctx0 slot0 ∧ (ready.ctx ctx0 slot0 always).act = slot0.lanes
    ∧ (ready.ctx ctx0 slot0 always).takingPart = slot0.lanes ∧ ready.existing 0 = 2 ∧ more.existing 0 = 3 ∧ (ready.ctx ctx0 slot0 always).next ≠ slot0.pc
    ∧ (∀ a ∈ slot0.lanes, (ready.fibre a.2).arrived.getLsbD 11 = false) ∧ (ready.ctx ctx0 slot0 always).l.coresident = false :=
  ⟨⟨rfl, by decide⟩, by decide +kernel⟩
theorem witness_BarriersAndPhases_phase : (phased.cur = some ctx0 ∧ aget? phased.slots 0 = some (slotOf0 phased)) ∧ px.act ≠ [] ∧ px.l.coresident = true
    ∧ phased.treeOf 0 = some 0 ∧ (phased.tree 0 0).c = 4 ∧ (∀ a ∈ px.act, (phased.fibre a.2).phase ≠ some 4)
    ∧ 0 < ((4 : Word) - 3).toInt ∧ 0 < ((5 : Word) - 4).toInt := by decide +kernel
/-- Eight other launches hold the trees. -/
def treeless : State :=
  { phased.modLaunch 0 fun l => { l with tree := none } with
    trees := (List.range 8).map fun k => (k, { launch := k + 1, c := 0, know := [], after := [], part := [] }) }
theorem witness_BarriersAndPhases_no_tree : treeless.treeOf 0 = none ∧ (treeless.launch 0).coresident = true := by decide +kernel
theorem test_bar_last : (fun s : State => ((slotOf0 s).pc, (slotOf0 s).wait, (s.team 0).gens)) (after (.bar (sy (.vec 0) (.vec 0) 0 2 .tm)) ready)
    = (192, .none, 4) := by decide +kernel
theorem test_bar_waits : (fun s : State => ((slotOf0 s).pc, (slotOf0 s).wait, mget 0 (s.team 0).counts 2)) (after (.bar (sy (.vec 0) (.vec 0) 0 2 .tm)) more)
    = (128, .bar 2, 2) := by decide +kernel
theorem test_phase_arrive : (fun s : State => ((slotOf0 s).reg 8, (s.fibre k3).phase)) (after (.phaseArrive (sy (.scl 8))) phased) = (⟨4, 0⟩, some 4) := by
  decide +kernel
theorem test_phase_wait_open : (slotOf0 (after (.phaseWait (sy (.vec 0) .imm 1 4)) phased)).pc = 128 := by decide +kernel
theorem test_phase_wait_done : (slotOf0 (after (.phaseWait (sy (.vec 0) .imm 1 3)) phased)).pc = 192 := by decide +kernel
/-- Sequence numbers 1 to 6 are issued, 1 to 4 done; one load is in flight. -/
def seqs : State := (ready.modTeam 0 fun t => { t with issued := 6, done := 4, errs := 2, fx := 3 }).modSlot 0 fun sl => { sl with ld := 1 }
theorem witness_WaitsForOperations : Issues seqs ctx0 (slotOf0 seqs) ∧ aget? seqs.teams 0 = some (seqs.team 0)
    ∧ (seqs.ctx ctx0 (slotOf0 seqs) always).act ≠ [] ∧ (slotOf0 seqs).ld ≤ bitsN 1 0 6 ∧ ¬ (slotOf0 seqs).ld ≤ bitsN 0 0 6
    ∧ (0 ≤ ((6 : Word) - 4).toInt ∧ 0 ≤ ((4 : Word) - 4).toInt) ∧ ((4 : Word) - 5).toInt < 0 ∧ ((6 : Word) - 7).toInt < 0 := ⟨⟨rfl, rfl⟩, by decide +kernel⟩
theorem test_wait : ((slotOf0 (after (.wait (en (.vec 0) (.vec 0) (.vec 0) .none 0 0)) seqs)).pc,
    (slotOf0 (after (.wait (en (.vec 0) (.vec 0) (.vec 0) .none 0 1)) seqs)).pc) = (128, 192) := by decide +kernel
theorem test_waitseq : ([4, 5].map fun n => (slotOf0 (after (.waitseq (en (.vec 0) .imm (.vec 0) .none 0 n)) seqs)).pc) = [192, 128] := by
  decide +kernel
theorem test_waitseq_never_issued : (launch0 (after (.waitseq (en (.vec 0) .imm (.vec 0) .none 0 7)) seqs)).first.map (fun t => t.cause) = some 0x109 := by
  decide +kernel
theorem test_seqrd_status : (fun s : State => ((slotOf0 s).reg 8, (s.team 0).errs)) (after (.seqrd (en (.scl 8) (.vec 0) (.vec 0) .none 6)) seqs)
    = (⟨0x203, 0⟩, 0) := by decide +kernel

/-! ### Failing targets, links, ties, limits, barriers and phases: the further cases -/

/-- v2 aims lane 0 at line 8, which is beyond the code, and lane 3 at slot 5 of line 0. -/
def astray : State := (vregs ready [(2, ⟨64, 0⟩)]).modFibre k3 fun f => f.write 2 [(0, ⟨5, 0⟩)]
def far : CtrlF := ct (.vec 8) (.vec 2)
def wx : Ctx := astray.ctx ctx0 (slotOf0 astray) always
theorem witness_TransfersThatFail_far : (wx.act.map fun a => (a.1, (astray.targetCause 0 (slotOf0 astray) wx.l true
      (((wx.read (astray.fibre a.2) .n32 0 far.a).val / 8 : Nat)) ((wx.read (astray.fibre a.2) .n32 0 far.a).val % 8)).map fun k => k.cause))
    = [(0, some 0x00B), (3, some 0x00A)] := by decide +kernel
theorem test_brx_beyond_code : ([.brx far, .callx far, .ret far].map fun i => (launch0 (after i astray)).first.map fun t => (t.cause, t.lmask))
    = [some (0x00B, [0, 3]), some (0x00B, [0, 3]), some (0x00B, [0, 3])] := by decide +kernel
theorem witness_TransfersPartTheSlot_scalar : (ready.ctx ctx0 slot0 always).act ≠ [] ∧ (ct (.scl 8)).d = .scl 8
    ∧ ready.targetCause 0 slot0 (ready.ctx ctx0 slot0 always).l true ((ready.ctx ctx0 slot0 always).nearTarget 0).1
      ((ready.ctx ctx0 slot0 always).nearTarget 0).2 = none := by decide +kernel
theorem test_call_links_scalar : (fun s => ((slotOf0 s).reg 8, reg s 8)) (after (.call (ct (.scl 8))) ready) = (⟨8, 0⟩, Reg.zero) := by decide +kernel

def mayJoin : State := (waiting (.join 5 192)).setQuarter 0 { (waiting .none).quarterAt 0 with recs := [recAt 0] }
theorem witness_WaitsForJoinsAndTime_more : (slotOf0 mayJoin).wait = .join 5 192 ∧ mayJoin.clock < 5 ∧ (slotOf0 mayJoin).lanes.length ≠ (mayJoin.launch 0).width
    ∧ mayJoin.nothingToJoin 0 (slotOf0 mayJoin) = false ∧ (slotOf0 atLimit).replay = none ∧ (slotOf0 atLimit).late = [] := by decide +kernel
theorem test_join_stays : after (.joinRelease 0) mayJoin = mayJoin := by decide +kernel

/-- Lane 0 arrived at barrier 2 in the generation before: it has turned since. One fibre of the team stands elsewhere. -/
def turnedOne : State := (more.modFibre k0 fun f => { f with arrived := 4, gen := 0 }).modTeam 0 fun t => { t with gens := 4 }
/-- Lane 0 has arrived and waits still; and the count says so. -/
def arrivedOne : State := (ready.modFibre k0 fun f => { f with arrived := 4, gen := 0 }).modTeam 0 fun t => { t with counts := mset 0 t.counts 2 1 }
def barf (id : BitVec 32) : SyncF := sy (.vec 0) (.vec 0) 0 id .tm
theorem witness_BarriersCountAndTurn : (more.ctx ctx0 slot0 always).act = slot0.lanes ∧ (more.ctx ctx0 slot0 always).takingPart = slot0.lanes
    ∧ (more.ctx ctx0 slot0 always).next ≠ slot0.pc ∧ (∀ a ∈ slot0.lanes, (aget? more.fibres a.2).isSome) ∧ slot0.team ∈ more.barTeams 0 2
    ∧ (more.barTeams 0 2).Nodup ∧ slot0.handler = false
    ∧ (slot0.lanes.map fun a => (turnedOne.fibre a.2).arrived.getLsbD 2 && (turnedOne.fibre a.2).gen.getLsbD 2 != (turnedOne.team 0).gens.getLsbD 2) = [true, false]
    ∧ (slot0.lanes.filter fun a => !(arrivedOne.fibre a.2).arrived.getLsbD 2).length = 1 ∧ arrivedOne.existing 0 = 2 ∧ turnedOne.existing 0 = 3 := by
  decide +kernel
theorem test_bar_turned_goes_on : (fun s : State => ((slotOf0 s).pc, (slotOf0 s).lanes, slotRecs s, mget 0 (s.team 0).counts 2))
    (after (.bar (barf 2)) turnedOne) = (192, [(0, k0)], [(0, 3, k3)], 1) := by decide +kernel
theorem test_bar_counts_the_rest : (fun s : State => ((slotOf0 s).pc, (s.team 0).gens, (s.fibre k0).arrived)) (after (.bar (barf 2)) arrivedOne)
    = (192, 4, 0) := by decide +kernel
/-- BAR `.shd` of a coresident launch whose one team stands on the die; and without one. -/
theorem witness_BarriersCountAndTurn_shared : (phased.barTeams 0 12) = [0] ∧ px.l.coresident = true ∧ 12 ≤ (12 : BitVec 32).toNat % 16
    ∧ (ready.ctx ctx0 slot0 always).l.coresident = false := by decide +kernel
theorem test_bar_shared : (fun s : State => ((slotOf0 s).pc, (s.team 0).gens)) (after (.bar (barf 12)) phased) = (192, 0x1000) := by decide +kernel
theorem test_bar_shared_alone : (launch0 (after (.bar (barf 12)) ready)).first.map (fun t => (t.cause, t.rmask, t.kind)) = some (0x142, [], .after) := by
  decide +kernel
theorem witness_BarriersCountAndTurn_uniform : tx.act.length ≠ tx.takingPart.length ∧ tx.act ≠ [] := by decide +kernel
/-- Lane 3 has arrived in the open phase 4. -/
def phasedTwice : State := phased.modFibre k3 fun f => { f with phase := some 4 }
theorem witness_PhasesArriveAndWait_twice : ∃ a ∈ px.act, (phasedTwice.fibre a.2).phase = some 4 := by decide +kernel
theorem test_phase_arrive_waits : after (.phaseArrive (sy (.scl 8))) phasedTwice = phasedTwice := by decide +kernel
theorem test_phase_wait_no_tree : (launch0 (after (.phaseWait (sy (.vec 0) .imm 1 3)) treeless)).first.map (fun t => t.cause) = some 0x143 := by decide +kernel

/-! ### Time, atomics, fences -/

/-- The partition's time is 5 x 2^32 + 3 and its die 0's message of that time is on its way, sent in clock 0. -/
def timed : State :=
  let s := ready.setPart 0 { ready.part 0 with time := 5 * 2 ^ 32 + 3, hzi := 0, k := 20 }
  { s.setDie 0 { s.die 0 with messages := [(5 * 2 ^ 32 + 3, 0)] } with clock := 1 }
def timef : ArithF := ar (.vec 8) (.vec 0) (.vec 0) .n64
def asked : State := after (.time timef) timed
theorem witness_TimeIsReadAndTicks : Issues timed ctx0 (slotOf0 timed) ∧ (timed.ctx ctx0 (slotOf0 timed) always).act ≠ [] := ⟨⟨rfl, rfl⟩, by decide⟩
theorem witness_TimeIsReadAndTicks_reply : (aget? asked.ops timed.uid).map (fun o => (o.body, o.head.lanes))
      = some (.time (.time timef) (5 * 2 ^ 32 + 3), [(0, k0), (3, k3)])
    ∧ (∀ p ∈ asked.ops, ¬ p.1 < timed.uid) := by decide +kernel
theorem test_time_reply : (fun s => (reg s 8, (s.fibre k3).reg 9)) (after (.timeReply timed.uid) asked) = (⟨3, 3⟩, ⟨5, 3⟩) := by decide +kernel
/-- 8 ns and more have gathered since the last tick. -/
def ticking : State := timed.setPart 0 { timed.part 0 with phaseNs := 2 ^ 60 }
theorem witness_TimeIsReadAndTicks_tick : ticking.tickDue 0 = true ∧ (ticking.part 0).dies.getLsbD 0 = true ∧ (ticking.part 0).dies.getLsbD 1 = false := by
  decide +kernel
theorem test_tick : (fun s : State => ((s.part 0).time, (s.die 0).messages)) (after (.partitionTick 0) ticking)
    = (5 * 2 ^ 32 + 4, [(5 * 2 ^ 32 + 3, 0), (5 * 2 ^ 32 + 4, 1)]) := by decide +kernel
theorem witness_TimeIsReadAndTicks_message : (timed.die 0).messages = (5 * 2 ^ 32 + 3, 0) :: [] ∧ 0 < timed.clock := by decide +kernel
theorem test_horizon_message : ((after (.horizonMessage 0) timed).die 0).horizon = 3 := by decide +kernel

def addf : AtomF := am (.vec 8) (.vec 10) .zero (.vec 4) .n32
theorem witness_AtomicsStartAndMayBeLost : ∃ pg, mems.placeBytes (lx.who mems) .atomic (effAddr (lx.pair (mems.fibre k0) addf.a) 0 addf.ext) 4 = .ok pg
    ∧ decide (pg.loc = 128) = true := ok_with _ (by decide +kernel)
theorem witness_AtomicsStartAndMayBeLost_lanes : Issues mems ctx0 (slotOf0 mems) ∧ lx.runLanes addf.d ≠ [] ∧ (aget? mems.teams 0).isSome
    ∧ mems.atomEgress 0 128 (older lx.h (lx.read (mems.fibre k0) .n32 0 addf.c).lo (lx.read (mems.fibre k0) .n32 0 addf.c).hi) = none :=
  ⟨⟨rfl, rfl⟩, by decide, by decide, by decide +kernel⟩
def adding : State := after (.atom addf) mems
def atomId : Nat := mems.uid + 2
def lanesOf (s : State) (o : Nat) : List AtomLane := match (opOf s o).body with
  | .atomic _ ls _ => ls
  | _ => []
theorem witness_AtomicsApplyInOneStep : atomOf (.atom addf) = some (addf, .atom)
    ∧ aget? adding.ops atomId = some ⟨mems.head lx .ld, .atomic (.atom addf) (lanesOf adding atomId) []⟩
    ∧ ((lanesOf adding atomId).head?.map fun l => l.lane) = some 0
    ∧ (∀ l ∈ lanesOf adding atomId, l.loc = 128 ∧ l.remote = none ∧ l.result = none ∧ l.lost = none ∧ l.swm = false)
    ∧ ((lanesOf adding atomId).map fun l => l.lane).Nodup ∧ ((lanesOf adding atomId).map fun l => l.fibre).Nodup
    ∧ adding.homeCause true 128 4 = none
    ∧ adding.heldBack ((lanesOf adding atomId).flatMap fun l => from_ l.loc 4) ((lanesOf adding atomId).flatMap fun l => l.preds)
      ((lanesOf adding atomId).flatMap fun l => l.carry) ((lanesOf adding atomId).flatMap fun l => l.after) = false := by
  decide +kernel
/-- The table: integers at both ends of their type; floating point; a CAS that finds what it expects, and one that does not. The operands pass
the egress bound. -/
theorem witness_AtomicsApplyInOneStep_table : Ty.i32 ∈ tysInt ∧ 0x80000000 < 2 ^ Ty.i32.bits
    ∧ (List.range 7).map (fun a => (atomNew .atom .i32 a 0x80000000 0xFFFFFFFF 0).1)
      = [some 0x7FFFFFFF, some 0x80000000, some 0xFFFFFFFF, some 0x80000000, some 0xFFFFFFFF, some 0x7FFFFFFF, some 0xFFFFFFFF]
    ∧ (atomNew .atomf .f32 0 0x3F800000 0x3F800000 0).1 = some 0x40000000 ∧ (atomNew .red .f32 1 0x3F800000 0xBF800000 0).1 = some 0xBF800000
    ∧ (atomNew .cas .b32 0 5 6 5).1 = some 6 ∧ (atomNew .cas .b32 0 5 6 4).1 = none
    ∧ (∀ l ∈ lanesOf adding atomId, adding.atomEgress 0 l.loc l.opst = none ∧ l.timeless = false) := by decide +kernel
theorem test_atom_stamp : (after (.atomicApply atomId 0) adding).stampAt 128 = 50
    ∧ (after (.atomicApply atomId 0) (after (.cas { addf with d := .vec 4, ty := .b32 }) mems)).stampAt 128 = 50 := by decide +kernel
theorem test_atom_add : (fun s => ((reg s 8).val, ((s.fibre k3).reg 8).val, s.natAt 128 4, (slotOf0 s).ld)) (after (.atomicApply atomId 0) adding)
    = (0x08004000, 0x08004002, 0x08004004, 0) := by decide +kernel
theorem test_cas_fails : (after (.atomicApply atomId 0) (after (.cas { addf with d := .vec 4, ty := .b32 }) mems)).natAt 128 4 = 0x08004000 := by
  decide +kernel
theorem test_atomf : (slotOf0 (after (.atomf { addf with ty := .f32 }) mems)).ld = 1 := by decide +kernel
theorem test_red : (fun s => (s.natAt 128 4, reg s 8, (slotOf0 s).st)) (after (.atomicApply atomId 0) (after (.red { addf with d := .vec 0 }) mems))
    = (0x08004004, ⟨0, 0⟩, 0) := by decide +kernel
/-- The same atomic in lane 0, with device 9 as its home. -/
def away : State := { adding with ops := adding.ops.map fun o => (o.1, { o.2 with body := match o.2.body with
  | .atomic i ls m => .atomic i ((ls.take 1).map fun l => { l with remote := some 1, loc := remoteLoc 9 128 }) m
  | b => b }) }
def awayLate : State := { away with clock := 2 ^ 22 }
theorem witness_AtomicsStartAndMayBeLost_lost : (lanesOf away atomId).map (fun l => (l.lane, l.remote, l.result.isSome, l.lost)) = [(0, some 1, false, none)]
    ∧ (lanesOf away atomId).all (fun l => decide (2 ^ 62 ≤ l.loc)) = true
    ∧ aget? away.slots 0 = some (slotOf0 away) ∧ (slotOf0 away).lanes ≠ [] := by decide +kernel
theorem witness_AtomicsStartAndMayBeLost_late : away.clock < (opOf away atomId).head.issuedAt + 2 ^ 22
    ∧ (opOf awayLate atomId).head.issuedAt + 2 ^ 22 ≤ awayLate.clock := by decide +kernel
theorem test_atomic_lost : (slotOf0 (after (.atomicResponseLost atomId 0) away)).late.map (fun t => (t.1.cause, t.1.lmask)) = [(0x144, [0])] := by
  decide +kernel
/-- The slot holds other fibres than the lost lane's. -/
def awayMoved : State := away.modSlot 0 fun sl => { sl with lanes := [(3, k3)] }
theorem witness_AtomicsStartAndMayBeLost_moved : (0, k0) ∉ (slotOf0 awayMoved).lanes ∧ (slotOf0 awayMoved).lanes ≠ [] := by decide +kernel
theorem test_atomic_lost_kind : ((slotOf0 (after (.atomicResponseLost atomId 0) away)).late ++ (slotOf0 (after (.atomicResponseLost atomId 0) awayMoved)).late).map
    (fun t => t.1.kind) = [.after, .late] := by decide +kernel
theorem test_atomic_timeout_early : (after (.atomicTimeout atomId 0) away).ops.length = 1 := by decide +kernel

/-- Fibre k0 has acquired write 7 and knows write 8; the load is in flight in `loading`. -/
def acquired : State := ready.modFibre k0 fun f => { f with pendAcq := [7], vec := { f.vec with know := [8] } }
theorem witness_FencesOrder : Issues acquired ctx0 (slotOf0 acquired) ∧ (acquired.ctx ctx0 (slotOf0 acquired) always).act ≠ [] ∧ acquired.ops = []
    ∧ acquired.runs = [] ∧ (aget? acquired.fibres k0).isSome := ⟨⟨rfl, rfl⟩, by decide +kernel⟩
theorem witness_FencesOrder_waits : ∃ o ∈ loading.opsHere 0 (slotOf0 loading), o.2.body.path = some .vec := by decide +kernel
theorem witness_FencesOrder_free : acquired.opsHere 0 (slotOf0 acquired) = [] := by decide +kernel
theorem test_fence_acquires : (fun f : Fibre => ([7, 8].all f.vec.know.contains, f.relFence)) ((after (.fence { sy with ord := .acq }) acquired).fibre k0)
    = (true, none) := by
  decide +kernel
theorem test_fence_waits : (slotOf0 (after (.fence { sy with ord := .acq }) { loading with cur := some ctx0 })).pc = (slotOf0 loading).pc := by decide +kernel
theorem test_xfence : ((after (.xfence { sy with mask := 0x11 }) acquired).fibre k0).coll.know = [8] := by decide +kernel

/-! ### The matrix engine: the step worked through in the chapter of R210 -/

/-- An f32 page; 2^24 (stamp 70), 1, -2^24 and 2^-24 in v16 to v19 of lane 0; v16 of lane 3 is 0. -/
def tiles : State :=
  let s := (inF32 ready).modFibre k0 fun f => ({ f with preds := 0x8004 }).write 16
    [(0, ⟨0x4B800000, 70⟩), (1, ⟨0x3F800000, 90⟩), (2, ⟨0xCB800000, 90⟩), (3, ⟨0x33800000, 90⟩)]
  s.modSlot 0 fun sl => sl.write 4 [(0, ⟨0x1000, 0⟩), (3, ⟨0x2303, 0⟩), (4, ⟨0x1000, 0⟩), (6, ⟨0x40000000, 0⟩)]
/-- Predicate 2 holds in lane 0 alone. -/
def g2 (f : EngF) : EngF := { f with g := ⟨false, 2⟩ }
def mmaf : EngF := g2 (en (.vec 0) (.vec 16) (.scl 4) .f32)
def ex : Ctx := tiles.ctx ctx0 (slotOf0 tiles) ⟨false, 2⟩
def both : Ctx := tiles.ctx ctx0 (slotOf0 tiles) always
def tileImm (t row col n : Nat) : BitVec 32 := BitVec.ofNat 32 (t + row * 32 + col * 2048 + n * 2 ^ 17)
def trdf : EngF := en (.vec 32) (.vec 0) (.vec 0) .none 0 (tileImm 3 0 1 0)
def twrf : EngF := en (.vec 0) (.vec 16) (.vec 0) .none 0 (tileImm 3 0 9 0)
def tzf : EngF := g2 (en (.vec 0) (.vec 0) (.vec 0) .none 0 3)
/-- By s10 = 2.0, from tile 3 to tile 5. -/
def tscf : EngF := g2 (en (.vec 0) (.scl 10) (.vec 0) .none 0 (5 + 3 * 32))
def tlf : EngF := g2 (en (.vec 0) (.scl 8) (.scl 6) .none 0 2)

theorem witness_TileInstructionsStart : Issues tiles ctx0 (slotOf0 tiles) ∧ ex.act = [(0, k0)]
    ∧ (let p := mmaParam fun k => ((slotOf0 tiles).reg (4 + k)).val
       p.rsv = false ∧ p.mrows = 1 ∧ p.mrows ≤ ex.l.width ∧ canonical p.baddr = true ∧ p.baddr.toNat % 32 = 0 ∧ p.pitch % 32 = 0
       ∧ p.dt + 1 ≤ ex.l.tiles ∧ 16 + 16 * p.ksteps ≤ ex.l.allot 0) := ⟨⟨rfl, rfl⟩, by decide +kernel⟩
theorem witness_TileInstructionsStart_bounds : ¬ (31 % 2 = 0 ∧ 31 + 2 ≤ ex.l.tiles) ∧ both.act.length = 2
    ∧ immRow trdf + both.l.width ≤ 64 ∧ immCol trdf + immN trdf ≤ 64 ∧ 64 < 57 + both.l.width
    ∧ (ex.pair (ex.first tiles) tlf.a).toNat % 4 = 0 ∧ ((slotOf0 tiles).reg (specNum tlf.b)).val.toNat % 4 = 0 := by decide +kernel
def multiplying : State := after (.mma mmaf) tiles
def opnds0 : List (Nat × Reg) := laneRuns tiles (slotOf0 tiles).lanes (.vec 16) 16 ++ ex.sclRun (.scl 4) 4
theorem test_mma_in_flight : ((slotOf0 multiplying).tl, (opOf multiplying tiles.uid).body.path) = (1, some .mx) := by decide +kernel
theorem test_tldm_in_flight : (slotOf0 (after (.tldm tlf) tiles)).tl = 1 := by decide +kernel
theorem test_tile_out_of_range : (launch0 (after (.tzero { tzf with imm := 32 - 1, flags := 2 }) tiles)).first.map (fun t => t.cause) = some 0x102 := by
  decide +kernel
theorem test_trd_row_out_of_range : (launch0 (after (.trd { trdf with imm := tileImm 3 57 0 0 }) tiles)).first.map (fun t => t.cause) = some 0x105 := by
  decide +kernel

/-- What the instruction retires in: a team with a tile 3 that holds 1.0 in row 0, column 1, with stamp 70 and NX. -/
def teamTile (s : State) : State := s.modTeam 0 fun t =>
  { t with tiles := [(3, { acc := 0, elems := [(1, 0x3F800000)], stamps := [(1, 70), (65, 6), (193, 7)], flags := NX, seed := 0, ue := [] })] }
def held : State := teamTile tiles
def one (i : Instr) (s : State) : State := after (.tileRetire s.uid) (after i s)
def run3 (s : State) : Tile := (s.team 0).run 0 0 3

def mh : OpHead := (opOf multiplying tiles.uid).head
def mfirst : Option Page := match multiplying.placeBytes mh.who .load 0x1000 1 with
  | .ok pg => if pg.fmt = tyFmt .f32 then some pg else none
  | .error _ => none
theorem witness_TilesRoundOnceAndRetire_step : aget? multiplying.ops tiles.uid = some ⟨mh, .tile (.mma mmaf) 3 k0 0 opnds0 0 [] false⟩
    ∧ multiplying.engineOn mh = true ∧ multiplying.tileBlocked tiles.uid mh (.mma mmaf) k0 opnds0 0 = false ∧ (aget? multiplying.teams 0).isSome ∧ (run3 multiplying).ue = [] := by decide +kernel
/-- The pitch is 0, so that every row of B has the same 64 places. -/
theorem witness_TilesRoundOnceAndRetire_bytes : ∃ pg, mfirst = some pg
    ∧ (List.range 64).all (fun c => match multiplying.elemAt mh.who pg (bAddr pg 0x1000 0 0 c).1 (bAddr pg 0x1000 0 0 c).2 with
      | .ok e => (e.bytes 4).all fun b => !isRemote b.loc
      | .error _ => false) = true := some_with _ (by decide +kernel)
theorem witness_TilesRoundOnceAndRetire_read (l : List EByte) :
    (multiplying.readEngine (multiplying.engineReader tiles.uid mh k0 0 .mx) 4 l).isSome = true :=
  Laws.readEngine_clear _ _ _ _ (by decide +kernel) (by decide +kernel)
theorem witness_TilesRoundOnceAndRetire_far (l : List EByte) (h : ∀ b ∈ l, isRemote b.loc = false) :
    multiplying.farTurn mh.part (multiplying.engineReader tiles.uid mh k0 0 .mx) l = .ready := Laws.farTurn_near _ _ _ _ h
/-- 2^24 + 1 - 2^24 + 2^-24, summed exactly and rounded once (R199). -/
theorem test_mma_rounds_once : sumAcc 0 .rne ([0x4B800000, 0x3F800000, 0xCB800000, 0x33800000].map (decodeF (fmtOf .f32)))
    (List.replicate 4 (decodeF (fmtOf .f32) 0x3F800000)) [.zero false] = (0x3F800000, NX) := by decide +kernel
theorem witness_TilesRoundOnceAndRetire : (held.team 0).halfOf 0 = 0 ∧ (run3 held).ue = [] ∧ [k0, k3].Nodup ∧ [0, 3].Nodup
    ∧ held.engineOn mh = true ∧ immCol twrf + immN twrf ≤ 64
    ∧ (mmaParam fun k => (opReg opnds0 (sclKey k)).val).ksteps ≤ 1 := by decide +kernel
theorem test_mma_retires : (fun s : State => ((slotOf0 s).tl, s.ops)) (after (.tileRetire 9)
    { multiplying with ops := [(9, ⟨mh, .tile (.mma mmaf) 3 k0 0 opnds0 1 [] false⟩)] }) = (0, []) := by decide +kernel
theorem test_trd : (fun s => (reg s 32, (s.fibre k3).reg 32, flags s)) (one (.trd trdf) held)
    = (⟨0x3F800000, 70⟩, ⟨0, 7⟩, NX) := by decide +kernel
theorem test_tzero : (fun t : Tile => (t.elem 0 1, t.stamp 0 1, t.flags)) (run3 (one (.tzero tzf) held)) = (0, 0, 0) := by decide +kernel
theorem test_twr : (fun t : Tile => (t.elem 0 9, t.stamp 0 9, t.elem 0 1, t.elem 3 9)) (run3 (one (.twr twrf) held))
    = (0x4B800000, 70, 0x3F800000, 0) := by decide +kernel
theorem test_tscl_in_flight : (slotOf0 (after (.tscl tscf) held)).tl = 1 := by decide +kernel

/-! ### The vocabulary projection -/

/-- Parameters: one column at VADDR 0x2000, HPITCH 64, MROWS 1, INIT, record at 0x1000; then one without INIT, which VPROJB takes too. -/
def parVals (w7 : Word) : List (Nat × Reg) := [(0, ⟨0x2000, 0⟩), (3, ⟨1, 0⟩), (6, ⟨64, 0⟩), (7, ⟨w7, 0⟩), (8, ⟨0x1000, 0⟩)]
/-- An empty record of heap capacity 1 and rounding mode 0, with PART or without; target 0 is index 0. -/
def rec1 (part : Bool) : VRec := { VRec.empty 1 0 [0, 0xFFFFFFFF, 0xFFFFFFFF, 0xFFFFFFFF] with part }
/-- A record with PART or without at 0x1000; one scratch page and one chute. -/
def projs (part : Bool) : State :=
  let s := (inF32 ready).modFibre k0 fun f => { f with preds := 0x8004 }
  let s := { s with mem := (from_ 0x1000 128).zip (bytesLE 128 (rec1 part).encode), stamps := (from_ 128 4).map fun g => (g, 40)
                    launches := s.launches.map fun (l : Nat × Launch) => (l.1, { l.2 with image := l.2.image ||| (0x20001#1024 <<< 64) }) }
  s.modSlot 0 fun sl => (((sl.write 16 (parVals 0x1000400)).write 32 (parVals 0x400)).write 9 [(0, ⟨0x40, 0⟩), (1, ⟨0x1000, 0⟩), (3, ⟨0x2000, 0⟩)])
def projT : State := projs true
def projF : State := projs false
def jx : Ctx := projT.ctx ctx0 (slotOf0 projT) ⟨false, 2⟩
def pjf (b : Spec) (a : Spec := .vec 0) (imm : BitVec 32 := 0) : EngF := g2 (en (.vec 0) a b .f32 0 imm .zero)
def vpf : EngF := pjf (.scl 16)
def vp2 : EngF := pjf (.scl 32)
def vmf : EngF := pjf (.scl 12) (.scl 10) 1
def vrf : EngF := pjf (.scl 9) (.scl 10)
def recPlaces (va : DWord) : List (List ELoc) := match projT.recordLocs (jx.who projT) .store va 1 1 with
  | .ok l => l
  | .error _ => []

theorem witness_Projections : Issues projT ctx0 (slotOf0 projT) ∧ jx.act = [(0, k0)] ∧ (projT.ctx ctx0 (slotOf0 projT) always).act.length = 2 :=
  ⟨⟨rfl, rfl⟩, by decide +kernel⟩
theorem witness_Projections_vproj : let n := (slotOf0 projT).block 16
    vparamBad .f32 true n = false ∧ (vparam n).init = true ∧ (vparam n).taddr = 0 ∧ (vparam n).mrows * (vparam n).k ≤ Config.heapEntries
    ∧ (vparam n).hoff + (vparam n).mrows * (vparam n).hpitch ≤ jx.l.scratch * 4096
    ∧ (recPlaces 0x1000).map (fun r => r.map ELoc.loc) = [[0x1000, 0x1020, 0x1040, 0x1060]] ∧ projT.projBusy 0 (recPlaces 0x1000) = false
    ∧ projT.hiddenCause jx .f32 (vparam n) = none ∧ projT.recordCause (recPlaces 0x1000) = none := by decide +kernel
theorem proj_clear : projT.hist = [] ∧ projT.pending = [] := by decide +kernel
theorem witness_Projections_hidden : (projT.readHidden jx (0, k0) .f32 (vparam ((slotOf0 projT).block 16))).isSome = true :=
  Laws.readHidden_clear _ _ _ _ _ proj_clear.1 proj_clear.2 (by decide +kernel)
theorem witness_Projections_resumed : vparamBad .f32 true ((slotOf0 projT).block 32) = false ∧ (vparam ((slotOf0 projT).block 32)).init = false
    ∧ (match projT.readRows 0 (projT.vpReader jx (0, k0)) (recPlaces 0x1000) with
      | .rows _ recs _ _ _ => vprojOk (vparam ((slotOf0 projT).block 32)) 0 recs
      | _ => false) = true := by decide +kernel
theorem witness_Projections_vprojb : vparamBad .f32 false ((slotOf0 projF).block 32) = false ∧ (vparam ((slotOf0 projF).block 32)).dt < jx.l.tiles
    ∧ (match projF.readArray (jx.who projF) .load (projF.vpReader jx (0, k0)) 0x1000 1 with
      | .rows _ recs _ _ u => (recs.all fun r => recConsistent r && !(VRec.decode r).part) && u.hist.isEmpty && u.pending.isEmpty
      | _ => false) = true := by decide +kernel
/-- Two records without PART, at 0x1000 and 0x1080; W with 1.0 at 0x2000. -/
def projM : State := { projF with
  mem := (from_ 0x1000 256).zip (bytesLE 128 (rec1 false).encode ++ bytesLE 128 (rec1 false).encode) ++ [(0x2000, 0), (0x2001, 0), (0x2002, 0x80), (0x2003, 0x3F)]
  stamps := (from_ 128 8).map (fun g => (g, 40)) ++ [(256, 30)] }
theorem witness_Projections_vmerge : (match projM.readArray (jx.who projM) .atomic (projM.vpReader jx (0, k0)) 0x1000 1 with
    | .rows dl ds _ _ u => (match u.readArray (jx.who projM) .load (projM.vpReader jx (0, k0)) 0x1080 1 with
      | .rows ql qs _ _ _ => vmergeOk ds qs dl ql
      | _ => false)
    | _ => false) = true := by decide +kernel

/-- VPROJ in flight: its hidden row is 1.0 and zeros, its record is the empty one, and W's column is 1.0 at every place. -/
def vph : OpHead := projM.head jx .tl
def hid1 : List Byte := [0, 0, 0x80, 0x3F] ++ List.replicate 60 0
def pd : ProjData := { ProjData.zero with param := (slotOf0 projM).block 16, rows := 1, dst := recPlaces 0x1000, recs := [(rec1 true).encode], recSt := [[40]]
                                          hidden := [hid1], hidSt := [[20]] }
def chunking : State := { (projM.startOp jx .tl (.proj (.vproj vpf) k0 0 pd 0 [])) with cur := none }
def vpId : Nat := projM.uid
def chunked : State := after (.vprojChunk vpId) chunking
def recOf (s : State) : VRec := VRec.decode (match (opOf s vpId).body with
  | .proj _ _ _ d _ _ => d.recs.headD 0
  | _ => 0)
theorem witness_Projections_chunk : aget? chunking.ops vpId = some ⟨vph, .proj (.vproj vpf) k0 0 pd 0 []⟩ ∧ chunking.engineOn vph = true
    ∧ pd.out = none ∧ pd.bad = [] ∧ chunking.engineHeld vph .vp (recLocs pd.dst) = false ∧ chunking.projBlocked vpId vph (.vproj vpf) k0 pd 0 = false
    ∧ chunking.ue = [] ∧ pd.dst.length ≤ pd.rows ∧ ((pd.dst.flatMap id).map ELoc.loc).Nodup
    ∧ (∀ e ∈ pd.dst.flatMap id, e.loc % 32 = 0 ∧ isRemote e.loc = false ∧ e.swm = false ∧ chunking.egressPort vph.part e.loc = none
        ∧ chunking.homeCause false e.loc 1 = none) := by decide +kernel
theorem witness_Projections_w : (match chunking.readW vpId vph .f32 (vparam pd.param) k0 0 0 1 with
    | .cols cols _ _ => decide (cols.length = 1)
    | _ => false) = true := by decide +kernel
/-- One logit, 1.0, of index 0: E = 1, L = 2^0, the heap and target 0 hold it. -/
theorem test_vproj_chunk : (fun r : VRec => (r.e, r.l, r.heap, r.tgts.headD (1, 1), r.tpres)) (recOf chunked)
    = (0x3F800000, 0x3FF0000000000000, [(0, 0x3F800000)], (0, 0x3F800000), 1) := by decide +kernel
def retiring : State := { chunking with ops := [(vpId, ⟨vph, .proj (.vproj vpf) k0 0 pd 1 []⟩)] }
/-- The record is written without PART. -/
theorem test_vproj_retires : (fun s : State => (s.byteAt 0x1000, s.byteAt 0x1004, s.ops)) (after (.tileRetire vpId) retiring) = (0, 1, []) := by decide +kernel
theorem witness_Projections_vrset : let m := ((slotOf0 projF).reg 9).val.toNat
    m / 2 ^ 16 = 0 ∧ bitsN m 6 7 = 1 ∧ bitsN m 13 3 ≤ 3 ∧ (jx.pair (jx.first projF) vrf.a).toNat = 0x1000 ∧ regionOf 0x1000 = 0
    ∧ vrf.c = .zero := by decide +kernel
theorem test_vrset : (fun s : State => (s.byteAt 0x1004, s.byteAt 0x1017, s.byteAt 0x1024)) (after (.tileRetire projF.uid) (after (.vrset vrf) projF))
    = (1, 0xFF, 0xFF) := by decide +kernel
def bd : ProjData := { pd with param := (slotOf0 projM).block 32, dst := [], src := recPlaces 0x1000
                               recs := [{ rec1 false with e := 0x3F800000, l := 0x3FF0000000000000, vcount := 1 : VRec }.encode] }
/-- 2^(1 - 1) / 1 - 1 for the label. -/
theorem test_vprojb_gradient : (((after (.tileRetire vpId)
    { chunking with ops := [(vpId, ⟨vph, .proj (.vprojb vpf) k0 0 bd 0 []⟩)] }).team 0).run 0 0 0).elem 0 0 = 0 := by decide +kernel
def md : ProjData := { pd with src := recPlaces 0x1080, srcs := [{ rec1 false with e := 0, l := 0x3FF0000000000000, vcount := 7 : VRec }.encode], srcSt := [[30]] }
theorem test_vmerge : (fun s : State => (s.byteAt 0x1010, s.byteAt 0x1017, s.byteAt 0x101F)) (after (.tileRetire vpId)
    { chunking with ops := [(vpId, ⟨vph, .proj (.vmerge vmf) k0 0 md 0 []⟩)] }) = (7, 0, 0x3F) := by decide +kernel

/-! ### Causes of the engines, rows of TLDM, the projection's places -/

/-- The parameters of an MMA with a field reserved, an odd B, an odd pitch, D beyond the tiles; and A beyond the window. -/
def mmaWith (r v : Nat) : State := tiles.modSlot 0 fun sl => sl.write r [(0, ⟨BitVec.ofNat 32 v, 0⟩)]
def causeOf (i : Instr) (s : State) : Option Nat := (launch0 (after i s)).first.map fun t => t.cause
theorem witness_TileInstructionsStart_causes : specNum (Spec.scl 5) % 4 ≠ 0 ∧ tiles.tileReady ex (.mma { mmaf with b := .scl 5 }) = true
    ∧ (let p (r v : Nat) := mmaParam fun k => ((slotOf0 (mmaWith r v)).reg (4 + k)).val
       p 4 0x1008 ≠ p 4 0x1000 ∧ (p 4 0x1008).rsv = false ∧ (p 4 0x1008).baddr.toNat % 32 ≠ 0 ∧ (p 7 0x80002303).rsv = true)
    ∧ ex.l.allot (slotOf0 tiles).role < 250 + 16 ∧ tiles.tileReady ex (.mma { mmaf with a := .vec 250 }) = true := by decide +kernel
theorem test_mma_causes : [causeOf (.mma { mmaf with b := .scl 5 }) tiles, causeOf (.mma mmaf) (mmaWith 7 0x80002303), causeOf (.mma mmaf) (mmaWith 4 0x1008),
    causeOf (.mma { mmaf with flags := 2 }) tiles, causeOf (.mma { mmaf with a := .vec 250 }) tiles]
      = [some 0x103, some 0x103, some 0x104, some 0x102, some 0x004] := by decide +kernel
theorem witness_TileInstructionsStart_tldm : tiles.tileReady ex (.tldm tlf) = true ∧ ((slotOf0 tiles).reg (specNum (Spec.scl 7))).val.toNat % 4 ≠ 0
    ∧ ¬ (31 % accTiles { tlf with flags := 2 }.acc = 0) ∧ both.act.length = 2 ∧ tiles.tileReady both (.mma mmaf) = true
    ∧ tiles.tileReady both (.trd { trdf with imm := tileImm 31 0 0 1, flags := 2 }) = true := by decide +kernel
theorem test_tile_causes : [causeOf (.tldm { tlf with b := .scl 7 }) tiles, causeOf (.tldm { tlf with imm := 31, flags := 2 }) tiles, causeOf (.tscl { tscf with imm := 2 + 31 * 32, flags := 2 }) tiles,
    causeOf (.trd { trdf with imm := tileImm 31 0 0 1, flags := 2 }) tiles, causeOf (.twr { twrf with imm := tileImm 31 0 0 1, flags := 2 }) tiles,
    causeOf (.mma { mmaf with g := always }) tiles] = [some 0x104, some 0x102, some 0x102, some 0x102, some 0x102, some 0x100] := by decide +kernel

/-- TLDM of tile 2 from the line at address 0; row 0 is to come. -/
def tiles0 : State := mmaWith 8 0
def tload : State := after (.tldm tlf) tiles0
def topnds : List (Nat × Reg) := (tiles0.ctx ctx0 (slotOf0 tiles0) ⟨false, 2⟩).sclRun (.scl 8) 2 ++ [(sclKey 2, (slotOf0 tiles0).reg 6)]
def tlh : OpHead := (opOf tload tiles0.uid).head
theorem witness_TilesLoadRows : aget? tload.ops tiles0.uid = some ⟨tlh, .tile (.tldm tlf) 2 k0 0 topnds 0 [] false⟩ ∧ tload.engineOn tlh = true
    ∧ tload.tileBlocked tiles0.uid tlh (.tldm tlf) k0 topnds 0 = false ∧ (aget? tload.teams tlh.team).isSome
    ∧ ((List.range 64).all fun c => match tload.placeBytes tlh.who .load (BitVec.ofNat 64 (c * 4)) 4 with
      | .ok pg => pg.loc == c * 4 && tload.homeCause true pg.loc 4 == none
      | .error _ => false) = true := by decide +kernel
theorem witness_TilesLoadRows_read (l : List EByte) :
    (tload.readEngine (tload.engineReader tiles0.uid tlh k0 0 .mx) 4 l).isSome = true :=
  Laws.readEngine_clear _ _ _ _ (by decide +kernel) (by decide +kernel)
theorem witness_TilesLoadRows_far (l : List EByte) (h : ∀ b ∈ l, isRemote b.loc = false) :
    tload.farTurn tlh.part (tload.engineReader tiles0.uid tlh k0 0 .mx) l = .ready := Laws.farTurn_near _ _ _ _ h
theorem test_tldm_row : (fun t : Tile => (t.elem 0 32, t.elem 0 33)) ((((after (.tileRetire tiles0.uid) tload).team 0).run 0 0 2))
    = (tload.natAt 128 4, tload.natAt 132 4) := by decide +kernel
/-- A TRD of the sums of the two halves: its own rounding is inexact. -/
theorem witness_TilesRetire_flags : (addV (fmtOf .f64) .rne (decodeF (fmtOf .f64) 0x3FF0000000000000) (decodeF (fmtOf .f64) 0x3FD5555555555555 )).2 = NX
    ∧ (run3 held).flags = NX ∧ (mh.ctr = .tl) ∧ (slotOf0 held).team = mh.team := by decide +kernel

theorem witness_ProjectionsStart_places : projF.tileBusy 0 0 [((vparam ((slotOf0 projF).block 32)).dt, 1)] = false
    ∧ projT.projBusy 0 ([] :: recPlaces 0x1000) = false ∧ firstSome (projM.arrayAlign (jx.who projM)) [0x1000, 0x1080] = none
    ∧ (canonical 0x1010 = true ∧ projM.badRegion (jx.who projM) false 0x1010 = false ∧ 0x1010 % 64 ≠ 0) := by decide +kernel
def vm42 : State := projM.modSlot 0 fun sl => sl.write 10 [(0, ⟨0x1010, 0⟩)]
theorem test_vmerge_misaligned : causeOf (.vmerge vmf) vm42 = some 0x042 := by decide +kernel
theorem witness_ProjectionsRetire_vrset : (chunking.readTargets vpId vph k0 0 1 []).any (fun r => r.1.bad == [] && decide (1 ≤ r.1.sts.length)
    && !r.2.engineHeld vph .vp (recLocs pd.dst)) = true := by decide +kernel

/-! ### Copies -/

/-- s10:s11 = 0x1000, s12:s13 = 128 (where the line's bytes lie), s14 = 8; one chute; 8 known bytes at 0x1000. -/
def copies : State :=
  let s := ready.modFibre k0 fun f => { f with preds := 0x8004 }
  let s := { s with mem := s.mem ++ (from_ 0x1000 8).zip [1, 2, 3, 4, 5, 6, 7, 8], stamps := [(4, 50), (5, 50), (128, 60)]
                    launches := s.launches.map fun (l : Nat × Launch) => (l.1, { l.2 with image := l.2.image ||| (1#1024 <<< 81) }) }
  s.modSlot 0 fun sl => sl.write 10 [(0, ⟨0x1000, 0⟩), (2, ⟨128, 0⟩), (4, ⟨8, 0⟩), (5, ⟨0xA5A5A5A5, 33⟩)]
def yx : Ctx := copies.ctx ctx0 (slotOf0 copies) ⟨false, 2⟩
def cpf (a b c : Spec) (imm : BitVec 32 := 0) : EngF := g2 (en (.scl 20) a b .none 0 imm c)
/-- 8 bytes from 128 to 0x1000; a push of 8 bytes to chute 0, a pop from it, and a fill. -/
def xcf : EngF := cpf (.scl 10) (.scl 12) (.scl 14)
def xpuf : EngF := cpf (.scl 2) (.scl 10) (.scl 14)
def xpof : EngF := cpf (.scl 10) (.scl 2) (.scl 14)
def xff : EngF := cpf (.scl 10) (.scl 15) (.scl 14)
def xvf : EngF := g2 (en (.scl 20) (.scl 12) (.scl 10) .f16 0 0 (.scl 14))
theorem witness_Copies : Issues copies ctx0 (slotOf0 copies) ∧ yx.act = [(0, k0)] ∧ (copies.ctx ctx0 (slotOf0 copies) always).act.length = 2
    ∧ (yx.read (yx.first copies) .n32 xcf.imm xcf.c).val = 8 ∧ 0 < yx.l.chutes := ⟨⟨rfl, rfl⟩, by decide +kernel⟩
theorem witness_Copies_operands : (yx.pair (yx.first copies) xcf.a).toNat = 0x1000 ∧ (yx.pair (yx.first copies) xcf.b).toNat = 128
    ∧ overlaps 0x1000 8 128 8 = false ∧ ((slotOf0 copies).reg (specNum xpuf.a)).val = 0 := by decide +kernel
theorem witness_Copies_conv : xconvCheck xvf 128 0x1000 8 2 = none := by decide
theorem test_xcopy_numbers : (fun s => ((slotOf0 s).reg 20, (slotOf0 s).cp, (s.team 0).issued)) (after (.xcopy xcf) copies) = (⟨1, 0⟩, 1, 1) := by decide +kernel
theorem test_xcopy_zero : (launch0 (after (.xcopy { xcf with c := .scl 3 }) copies)).first.map (fun t => t.cause) = some 0x10A := by decide +kernel
theorem test_xconv_in_flight : (slotOf0 (after (.xconv xvf) copies)).cp = 1 := by decide +kernel

/-- One piece of the entry that an instruction appends: the exec of its step moves one or more, by a free choice. -/
def run1 (i : Instr) (s : State) : State :=
  let s' := after i s
  match opOf s' s.uid with
  | ⟨h, .copy j fid lane d⟩ => match s'.movePieces s.uid h j fid lane 1 d with
    | (d, t) => t.completeCopy s.uid h j fid lane d
  | _ => s'
def cph : OpHead := copies.head yx .cp
def copying : State := after (.xcopy xcf) copies
def cpd : CopyData := { CopyData.zero with dst := 0x1000, src := 128, cnt := 8, seq := 1 }
theorem witness_Copies_entry : aget? copying.ops copies.uid = some ⟨cph, .copy (.xcopy xcf) k0 0 cpd⟩ ∧ copying.engineOn cph = true
    ∧ (copying.team 0).done + 1 = cpd.seq ∧ cpd.held = [] ∧ cpd.ue = false
    ∧ copying.chainBlocked copies.uid cph (.xcopy xcf) k0 cpd = false ∧ copying.engineHeld cph .cp (from_ 0x1000 8) = false ∧ copying.ue = []
    ∧ cpd.dst.toNat % 128 + cpd.cnt ≤ 128 ∧ xcf.flags.getLsbD 2 = false ∧ copying.hist = [] ∧ copying.pending = [] := by decide +kernel
def plain (r : Except EMiss (List ELoc)) (base : Nat) : Bool := match r with
  | .ok ls => decide (ls.map (fun e : ELoc => (e.loc, e.swm)) = [(base, false), (base + 4, false)])
  | .error _ => false
theorem witness_Copies_places : plain (copying.wordsAt cph.who .store 0x1000 2) 0x1000 = true ∧ plain (copying.wordsAt cph.who .load 128 2) 128 = true
    ∧ ∀ a ∈ from_ 0x1000 8, isRemote a = false ∧ copying.egressPort cph.part a = none ∧ copying.homeCause false a 1 = none := by decide +kernel
theorem test_xcopy : (fun s : State => (s.byteAt 0x1001, s.byteAt 0x1007, s.stampAt 0x1000, (s.team 0).done)) (run1 (.xcopy xcf) copies)
    = (0x40, 0, 50, 1) := by decide +kernel
theorem test_xfill : (fun s : State => (s.byteAt 0x1003, s.stampAt 0x1000, (slotOf0 s).cp)) (run1 (.xfill xff) copies) = (0xA5, 33, 0) := by decide +kernel
def pushedOne : State := run1 (.xcopyPush xpuf) copies
theorem test_xcopy_push : ((pushedOne.team 0).chuteAt 0 0).map (fun e => (e.val, e.st)) = [(0x0807060504030201, 60)] := by decide +kernel
theorem test_xcopy_pop : (fun s : State => ((s.team 0).chuteAt 0 0, s.byteAt 0x1000, (s.team 0).done))
    (run1 (.xcopyPop { xpof with a := .scl 10 }) { pushedOne with cur := some ctx0, mem := ready.mem }) = ([], 1, 2) := by decide +kernel
/-- An entry with a cause. -/
def failing : State := { copying with ops := [(copies.uid, ⟨cph, .copy (.xcopy xcf) k0 0 { cpd with failed := some (0x041, 0x1000) }⟩)] }
theorem test_copy_error : (fun s : State => ((s.team 0).errs, (slotOf0 s).late.map fun t => (t.1.cause, t.1.addr)))
    (after (.copyEntryComplete copies.uid) failing) = (1, [(0x041, 0x1000)]) := by decide +kernel

/-! ### Graphs and appends -/

/-- An image of one NOP node at 0x1000, a header without MAGIC and a base table, both zeros, at 0x1080. s10:s11 and s12:s13 point to them. -/
def hdr1 : Nat := graphMagic + 2 ^ 244
def images : State :=
  let s := ready.modFibre k0 fun f => { f with preds := 0x8004 }
  let s := { s with mem := (from_ 0x1000 256).zip (bytesLE 64 hdr1 ++ bytesLE 32 (6 * 2 ^ 68) ++ bytesLE 160 0), stamps := [] }
  s.modSlot 0 fun sl => sl.write 10 [(0, ⟨0x1000, 0⟩), (2, ⟨0x1080, 0⟩)]
def gx : Ctx := images.ctx ctx0 (slotOf0 images) ⟨false, 2⟩
def cgf (a b : Spec) : EngF := g2 (en (.scl 20) a b .none 0 0 .zero)
/-- Only the base table's bytes. -/
def tabled : State := { images with mem := (from_ 0x1080 128).zip (bytesLE 128 0) }
def gotOf : CollRead → Nat
  | .got n _ _ => n
  | _ => 1
theorem witness_GraphsAndAppends : Issues images ctx0 (slotOf0 images) ∧ gx.act = [(0, k0)] := ⟨⟨rfl, rfl⟩, by decide +kernel⟩
theorem witness_GraphsAndAppends_load : (match images.collRead gx (0, k0) 0x1000 2 with
    | .got hd _ u => headerInfo hd == none && bitsN hd 244 12 == 1 && (match u.collRead gx (0, k0) 0x1040 1 with
      | .got body _ _ => let xs := [gnode (BitVec.ofNat 256 body)]
                         !(xs.any fun y => y.bad 1 0) && arcsInfo xs == none && bitsN hd 320 64 == 0
      | _ => false)
    | _ => false) = true ∧ images.freeGraph = some 0 := by decide +kernel
theorem witness_GraphsAndAppends_bad : headerInfo (gotOf (tabled.collRead gx (0, k0) 0x1080 2)) = some 1
    ∧ tableCause (gotOf (tabled.collRead gx (0, k0) 0x1080 4)) = none := by decide +kernel
theorem test_cgload : (fun s : State => ((slotOf0 s).reg 20, (s.graphs.map fun g => (g.1, g.2.issued, g.2.nodes)))) (after (.cgload (cgf (.scl 10) .zero)) images)
    = (⟨0, 0⟩, [(0, 0, [6#256 <<< 68])]) := by decide +kernel
/-- Slot 0 holds a graph that has run once. -/
def graphed : State := { tabled with graphs := [(0, { part := 0, header := BitVec.ofNat 512 hdr1, nodes := [6#256 <<< 68], redImage := 0, issued := 1, done := 1, carry := [(1, [77])] })] }
theorem witness_GraphsAndAppends_slots : (graphed.graphAt gx.l.part 0).isSome ∧ graphed.graphAt gx.l.part 5 = none := by decide +kernel
theorem test_cgrun : (fun s : State => ((slotOf0 s).reg 20, s.runs.map fun r => (r.2.slot, r.2.run))) (after (.cgrun (cgf .zero (.scl 12))) graphed)
    = (⟨2, 0⟩, [(0, 2)]) := by decide +kernel
theorem test_cgstat : (fun s : State => ((slotOf0 s).reg 20, (s.fibre k0).vec.know)) (after (.cgstat (cgf .zero .zero)) graphed) = (⟨1, 0⟩, [77]) := by decide +kernel
theorem test_cgfree : (after (.cgfree (cgf .zero .zero)) graphed).graphs = [] := by decide +kernel

/-- A descriptor at 0x1000 with the first TAIL, DONE, DROPS, ROWB, CAP and the rows at 0x1040. -/
def descOf (rowb cap : Nat) : Nat := 5 + 5 * 2 ^ 32 + 7 * 2 ^ 96 + rowb * 2 ^ 128 + cap * 2 ^ 160 + 0x1000 * 2 ^ 192
/-- v10 of lane 0 points to it, v12 to the row at 128. -/
def appending (rowb cap : Nat) : State :=
  let s := ready.modFibre k0 fun f => ({ f with preds := 0x8004 }).write 10 [(0, ⟨0x1000, 0⟩), (2, ⟨128, 0⟩)]
  { s with mem := s.mem ++ (from_ 0x1000 32).zip (bytesLE 32 (descOf rowb cap)), stamps := [(4, 50), (128, 60)] }
def caf : EngF := g2 (en .zero (.vec 10) (.vec 12) .none)
def ax : Ctx := (appending 32 8).ctx ctx0 (slotOf0 (appending 32 8)) ⟨false, 2⟩
theorem witness_GraphsAndAppends_append : ax.act = [(0, k0)] ∧ (ax.pair ((appending 32 8).fibre k0) caf.a).toNat = 0x1000 := by decide +kernel
theorem witness_GraphsAndAppends_desc : ∃ pg, (appending 32 8).placeBytes (ax.who (appending 32 8)) .atomic 0x1000 32 = .ok pg
    ∧ (decide (pg.loc = 0x1000) && !pg.swm && ((appending 32 8).homeCause true pg.loc 32).isNone) = true := ok_with _ (by decide +kernel)
def apId : Nat := ready.uid
def sent (rowb cap : Nat) : State := after (.cappend caf) (appending rowb cap)
def begun (rowb cap : Nat) : State := after (.appendApply apId 0) (sent rowb cap)
def finished (rowb cap : Nat) : State := after (.appendApply apId 0) (begun rowb cap)
theorem test_cappend : (slotOf0 (sent 32 8)).st = 1 := by decide +kernel
theorem test_append_takes_an_index : (fun s : State => (s.natAt 0x1000 4, s.natAt 0x1004 4)) (begun 32 8) = (6, 5) := by decide +kernel
theorem test_append_row : (fun s : State => (s.natAt 0x10A0 2, s.stampAt 0x10A0, s.natAt 0x1004 4, (slotOf0 s).st)) (finished 32 8) = (0x4000, 50, 6, 0) := by
  decide +kernel
theorem test_append_full : (fun s : State => (s.natAt 0x100C 4, s.natAt 0x1004 4, (slotOf0 s).late.map fun t => t.1.cause)) (finished 32 5)
    = (8, 6, [0x186]) := by decide +kernel
theorem test_append_broken : (appendDesc (descOf 33 8)).broken = true := by decide
theorem witness_GraphsAndAppends_row : ∃ sp, (begun 32 8).spanLocs (ax.who (appending 32 8)) .store 0x10A0 32 = .ok sp
    ∧ decide (spanBytes sp = (from_ 0x10A0 32).map fun b => ⟨b, false⟩) = true := ok_with _ (by decide +kernel)
def laneOf (s : State) : AppendLane := match (opOf s apId).body with
  | .append (l :: _) => l
  | _ => ⟨0, 0, 0, 0, [], [], [], none, [], none, none, 0, [], false⟩
theorem witness_GraphsAndAppends_lane : (laneOf (sent 32 8)).begun = none ∧ (laneOf (sent 32 8)).remote = none ∧ (laneOf (sent 32 8)).waits = []
    ∧ (laneOf (sent 32 8)).held = [] ∧ (sent 32 8).heldBack (from_ 0x1000 4) (laneOf (sent 32 8)).know [] (laneOf (sent 32 8)).after = false := by decide +kernel
theorem witness_GraphsAndAppends_begun : let l := laneOf (begun 32 8)
    l.begun = some 5 ∧ (begun 32 8).heldBack (from_ 0x1000 16) (union l.know l.carry) [0] l.after = false
    ∧ (begun 32 8).engineHeld { (opOf (begun 32 8) apId).head with know := l.know, after := l.after } .coll (from_ 0x10A0 32) = false
    ∧ (∀ a ∈ from_ 128 32, (∀ w ∈ (begun 32 8).hist, w.touches a = false ∧ ∀ g ∈ w.gBefore, g.1 ≠ a / 32) ∧ ∀ p ∈ (begun 32 8).pending, a ∉ p.2.1)
    ∧ ∀ a ∈ from_ 0x10A0 32, isRemote a = false ∧ (begun 32 8).egressPort 0 a = none ∧ (begun 32 8).homeCause false a 1 = none := by decide +kernel
theorem witness_GraphsAndAppends_source : ∃ sq, (begun 32 8).spanLocs (ax.who (appending 32 8)) .load 128 32 = .ok sq
    ∧ decide (spanBytes sq = (from_ 128 32).map fun b => ⟨b, false⟩) = true := ok_with _ (by decide +kernel)

/-! ### Copies: stamps, longer entries, conversion; appends after earlier work on path coll -/

def timed1 (r : Except EMiss (List ELoc)) : Bool := match r with
  | .ok ls => ls.all fun e : ELoc => !e.timeless
  | .error _ => false
theorem witness_CopiesMoveAndComplete_stamps : timed1 (copying.wordsAt cph.who .store 0x1000 2) = true ∧ timed1 (copying.wordsAt cph.who .load 128 2) = true := by
  decide +kernel
/-- A fill of 200 bytes, and a copy of 200 bytes from 0x2000, of which 24 are moved. -/
def longd : CopyData := { cpd with cnt := 200, pos := 6, src := 0x2000, pat := 0xA5A5A5A5, patSt := 33 }
def filling : State := { copying with ops := [(copies.uid, ⟨cph, .copy (.xfill xff) k0 0 longd⟩)] }
def longCopy : State := { copying with ops := [(copies.uid, ⟨cph, .copy (.xcopy xcf) k0 0 longd⟩)] }
theorem witness_CopiesMoveAndComplete_long : filling.engineOn cph = true ∧ filling.chainBlocked copies.uid cph (.xfill xff) k0 longd = false
    ∧ longCopy.chainBlocked copies.uid cph (.xcopy xcf) k0 longd = false
    ∧ (longd.buf = [] ∧ longd.failed = none ∧ longd.waits = [] ∧ 4 * longd.pos < longd.cnt ∧ longd.cnt % 4 = 0 ∧ longd.dst.toNat % 4 = 0)
    ∧ filling.ue = [] ∧ filling.engineHeld cph .cp (from_ 0x1000 200) = false
    ∧ (match filling.wordsAt cph.who .store 0x1000 50, filling.wordsAt cph.who .load 0x2000 50 with
      | .ok ls, .ok ms => ls.map (fun e : ELoc => e.loc) == (List.range 50).map (fun k => 0x1000 + 4 * k) && ls.all (fun e : ELoc => !e.swm && !e.timeless)
          && ms.map (fun e : ELoc => e.loc) == (List.range 50).map (fun k => 0x2000 + 4 * k) && ms.all (fun e : ELoc => !e.swm && !e.timeless)
      | _, _ => false) = true
    ∧ (∀ a ∈ from_ 0x1000 200, isRemote a = false ∧ filling.egressPort cph.part a = none ∧ filling.homeCause false a 1 = none)
    ∧ ∀ j < 200, (0x1000 + j) / 32 < 0x2000 / 32 := by decide +kernel
/-- XCONV of 2 numbers, both pages in f32. -/
def xv32 : EngF := { xvf with ty := .f32, c := .scl 14 }
def convd : CopyData := { cpd with dst := 128, src := 0x1000, cnt := 2 }
def conving : State := { inF32 copying with ops := [(copies.uid, ⟨cph, .copy (.xconv xv32) k0 0 convd⟩)] }
theorem witness_CopiesMoveAndComplete_conv : conving.engineOn cph = true ∧ conving.chainBlocked copies.uid cph (.xconv xv32) k0 convd = false
    ∧ xconvCheck xv32 128 0x1000 2 2 = none ∧ tyFmt xv32.ty ∈ [1, 2, 3, 4, 5, 6] ∧ convd.dst.toNat % 128 + 2 * fmtElem (tyFmt xv32.ty) ≤ 128
    ∧ conving.dstFmtBad cph.who (.xconv xv32) 128 2 = false ∧ plain (conving.wordsAt cph.who .store 128 2) 128 = true
    ∧ conving.hist = [] ∧ conving.pending = [] ∧ conving.engineHeld cph .cp (from_ 128 8) = false
    ∧ (match conving.placeBytes cph.who .load 0x1000 1 with
      | .ok pg => pg.fmt == 2
      | .error _ => false) = true
    ∧ (match mapE (conving.convElem cph.who convd 2) (from_ 0 2) with
      | .ok es => (es.flatMap fun e => e.bytes 4).map (fun b => b.loc) == from_ 0x1000 8
      | .error _ => false) = true := by decide +kernel
theorem witness_CopiesMoveAndComplete_convRead (l : List EByte) :
    (({ conving with free := conving.free + 1 } : State).readEngine (conving.engineReader copies.uid cph k0 0 .cp) 4 l).isSome = true :=
  Laws.readEngine_clear _ _ _ _ (by decide +kernel) (by decide +kernel)
theorem witness_CopiesMoveAndComplete_convFar (l : List EByte) (h : ∀ b ∈ l, isRemote b.loc = false) :
    ({ conving with free := conving.free + 1 } : State).farTurn cph.part (conving.engineReader copies.uid cph k0 0 .cp) l = .ready := Laws.farTurn_near _ _ _ _ h
/-- Blocks of each type: 1.0 in every place. -/
theorem witness_ConvertedBlocks : (List.replicate 32 (FV.fin false 1 0)).length = 32
    ∧ ((convBlock { xvf with ty := .mx8 } (List.replicate 32 (FV.fin false 1 0))).1.length, (convBlock { xvf with ty := .tx8 } (List.replicate 32 (FV.fin false 1 0))).1.length,
      (convBlock { xvf with ty := .tx4 } (List.replicate 32 (FV.fin false 1 0))).1.length) = (32, 32, 16) := by decide +kernel
theorem witness_AppendsGoToTheirPlaces_order : ((sent 32 8).collEarlier apId k0 ((sent 32 8).appendReaches (ax.who (appending 32 8)) (laneOf (sent 32 8)))).isSome = true
    ∧ ((begun 32 8).collEarlier apId k0 ((begun 32 8).appendReaches (ax.who (appending 32 8)) (laneOf (begun 32 8)))).isSome = true := by decide +kernel
/-- An earlier append of the fibre to the same descriptor is still under way. -/
theorem witness_AppendsGoToTheirPlaces_after :
    ((sent 32 8).setOp (apId - 1) (opOf (sent 32 8) apId)).collEarlier apId k0 ((sent 32 8).appendReaches (ax.who (appending 32 8)) (laneOf (sent 32 8))) = none := by
  decide +kernel
theorem witness_AppendsGoToTheirPlaces_know : (((begun 32 8).collEarlier apId k0 ((begun 32 8).appendReaches (ax.who (appending 32 8)) (laneOf (begun 32 8)))).any fun m =>
    let l := laneOf (begun 32 8)
    let know := union l.know m
    !(begun 32 8).heldBack (from_ 0x1000 16) (union know l.carry) [0] l.after
      && !(begun 32 8).engineHeld { (opOf (begun 32 8) apId).head with know, after := l.after } .coll (from_ 0x10A0 32)) = true := by decide +kernel

/-! ### Special registers, progress, services -/

theorem witness_SpecialRegisters : Issues ready ctx0 slot0 ∧ (ready.ctx ctx0 slot0 always).act ≠ [] ∧ ready.ops = [] := ⟨⟨rfl, rfl⟩, by decide, rfl⟩
theorem test_srd_lane : (fun s : State => (reg s 8, (s.fibre k3).reg 8, (slotOf0 s).pc)) (after (.srd (ct (.vec 8) (.vec 0) 0 0)) ready) = (⟨0, 0⟩, ⟨3, 0⟩, 192) := by
  decide
theorem test_srd_wide : (fun s : State => ((slotOf0 s).reg 20, (slotOf0 s).reg 21)) (after (.srd (ct (.scl 20) (.vec 0) 0 18)) (ready.modSlot 0 fun sl => { sl with frame := 0x300000005 }))
    = (⟨5, 0⟩, ⟨3, 0⟩) := by decide
def s5 : State := ready.modSlot 0 fun sl => { sl with cont := 0x8000000000000006 }.write 4 [(0, ⟨0x1F, 9⟩), (1, ⟨7, 9⟩)]
theorem test_swr_cont : (slotOf0 (after (.swr (ct (.vec 0) (.scl 4) 0 19)) s5)).cont = 0x8000000000000007 := by decide
theorem test_swr_read_only : (launch0 (after (.swr (ct (.vec 0) (.scl 4) 0 3)) s5)).first.map (fun t => t.cause) = some 0x1C0 := by decide +kernel
/-- A TRD in flight holds SRD and SWR of FFLAGS back. -/
def trding : State := { after (.trd trdf) held with cur := some ctx0 }
theorem witness_SpecialRegisters_wait : Issues trding ctx0 (slotOf0 trding) ∧ trding.ops.any (fun o => o.2.head.g == 0 && o.2.head.team == 0 && (match o.2.body with
    | .tile (.trd _) .. => true
    | _ => false)) = true := ⟨⟨rfl, rfl⟩, by decide +kernel⟩

/-- s10:s11 = 0 and s12 = 0x10000, within the probe's 1 GiB page; s4 = 0x1FF. -/
def served : State := ready.modSlot 0 fun sl => (sl.write 10 [(2, ⟨0x10000, 0⟩)]).write 4 [(0, ⟨0x1FF, 0⟩)]
def kcf (svc : BitVec 32) : CtrlF := ct (.scl 20) (.scl 10) 0 svc (.scl 12)
theorem witness_ProgressAndServices : Issues served ctx0 (slotOf0 served) ∧ (aget? served.teams 0).map (fun t => t.progAt) = some 0
    ∧ (served.ctx ctx0 (slotOf0 served) always).act ≠ [] ∧ served.rangeOk 0 0 0x10000 = true ∧ served.rangeOk 0 0 0x8000 = false := by
  refine ⟨⟨rfl, rfl⟩, ?_⟩; decide +kernel
theorem test_prog : ((after (.prog (ct (.vec 0) (.scl 4))) served).team 0).prog = 0xFF := by decide
def calling (i : Instr) : State := after i served
theorem test_kcall_page_in : (slotOf0 (calling (.kcallPageIn (kcf 0)))).wait = .kcall served.uid := by decide +kernel
theorem test_kcall_page_out : (slotOf0 (calling (.kcallPageOut (kcf 1)))).wait = .kcall served.uid := by decide +kernel
theorem test_kcall_unknown : (launch0 (calling (.kcallQuery (kcf 9)))).first.map (fun t => (t.cause, t.info)) = some (0x1C1, 9) := by decide +kernel
/-- The one piece is present, so that page-in has nothing to bring. -/
theorem test_kcall_query_done : (fun s : State => ((slotOf0 s).wait, (slotOf0 s).reg 20, (slotOf0 s).pc)) (after (.kcallDone served.uid true) (calling (.kcallQuery (kcf 2))))
    = (.none, ⟨1, 0⟩, 192) := by decide +kernel
theorem test_kcall_page_in_done : (fun s : State => ((slotOf0 s).wait, (slotOf0 s).reg 20)) (after (.kcallDone served.uid true) (calling (.kcallPageIn (kcf 0))))
    = (.none, ⟨0, 0⟩) := by decide +kernel
theorem witness_ProgressAndServices_end : ∃ h, aget? (calling (.kcallQuery (kcf 2))).ops served.uid = some ⟨h, .kcall 2 0 0x10000 (.scl 20) 0⟩
    ∧ (h.team == (slotOf0 (calling (.kcallQuery (kcf 2)))).team && h.g == 0) = true :=
  ⟨(opOf (calling (.kcallQuery (kcf 2))) served.uid).head, by decide +kernel, by decide +kernel⟩

/-! ### Launches -/

/-- Queue 3 of partition 0, its tail word at 0x1000 and its ring at 0x1080 with 2 places; a write has made the tail word 1. -/
def queued0 : State :=
  { dev with mem := dev.mem ++ (from_ 0x1000 8).zip (bytesLE 8 1) ++ (from_ 0x1080 128).zip (bytesLE 128 0)
             hist := [{ id := 1, clk := 0, bytes := (from_ 0x1000 8).zip (bytesLE 8 1), preds := [], carry := [1], after := []
                        old := [], gBefore := [], gAfter := [] }] }.setQueue 3
    { Queue.zero with enable := true, granted := true, logn := 1, taila := 0x1000, tailAt := 0x1001, ringa := 0x1080 }
theorem witness_LaunchesFromQueueToEnd_tail : (queued0.queue 3).enable = true ∧ (queued0.queue 3).halt = false
    ∧ (queued0.queue 3).granted = true ∧ (queued0.queue 3).reread = false ∧ (queued0.queue 3).tailAt = 0x1000 + 1
    ∧ ((queued0.queue 3).splitSeen queued0.hist).1 = [] ∧ ((queued0.queue 3).splitSeen queued0.hist).2 = queued0.hist ∧ queued0.hist.length = 1
    ∧ ((queued0.tailWrites (queued0.queue 3)).map fun w => (w.1, w.2.length, (queued0.tailAfter w.1 w.2).1)) = some (0x1000, 1, 1) := by decide +kernel
theorem witness_LaunchesFromQueueToEnd_block : ∃ b, queued0.devRead 0 .load 0x1080 128 = .ok b ∧ decide (b.length = 128) = true := ok_with _ (by decide +kernel)
theorem test_tail_write : (fun s : State => ((s.queue 3).tail, (s.queue 3).read, (s.queue 3).halt, s.launches.map fun l => (l.2.queue, l.2.seq, l.2.state)))
    (after (.tailWrite 3) queued0) = (1, 1, false, [(0, 0, .claiming), (3, 1, .queued)]) := by decide +kernel
/-- The last tail observed was 2. -/
theorem test_tail_falls : (fun x : Queue => (x.halt, x.herr)) ((after (.tailWrite 3) (queued0.setQueue 3 { queued0.queue 3 with tail := 2 })).queue 3) = (true, 1) := by
  decide +kernel
/-- The launch waits for sequence number 5 of queue 3 of its own, valid in bit 63. -/
def waiting1 : State := (dev.setQueue 3 { Queue.zero with enable := true, granted := true }).setQueue 4 { Queue.zero with enable := true, granted := true }
  |>.setLaunch 9 { Launch.zero with queue := 4, seq := 1, state := .queued, block := BitVec.ofNat 1024 ((2 ^ 63 + 3 * 2 ^ 56 + 5) * 2 ^ 320) }
theorem witness_LaunchesFromQueueToEnd_head : (waiting1.headLaunch 4).map (fun l => (l.1, waiting1.prevClaimed l.2, waiting1.preqReason l.2, waiting1.preqsMet l.2)) = some (9, true, none, false) := by
  decide +kernel

/-- The device's launch still has its ticket 0 to draw. -/
def alloc0 : Option (Nat × Alloc) := dev.findCore (launch0 dev) 0
theorem witness_TeamsArePlaced : dev.partOfDie 0 = some 0 ∧ (dev.part 0).suspended = false ∧ (dev.die 0).drew ≠ dev.clock + 1
    ∧ (dev.claimOrder 0 (dev.claimers 0)).map (fun l => l.1) = [0] ∧ dev.restoreFirst 0 (dev.prioOf (launch0 dev)) = false ∧ dev.reduceWaits 0 0 = false
    ∧ dev.turnPassed 0 = false ∧ (dev.queue 0).ticket < (launch0 dev).nteam := by
  decide +kernel
theorem witness_TeamsArePlaced_core : alloc0.map (fun a => (a.1, a.2.wins.length, a.2.units)) = some (1, 8, []) := by decide +kernel
/-- Every ticket is drawn, in this clock for another die. -/
def drawn : State := dev.setQueue 0 { dev.queue 0 with ticket := 1, filledAt := dev.clock + 1 }
theorem witness_TeamsArePlaced_drawn : (drawn.claimOrder 0 (drawn.claimers 0)).map (fun l => l.1) = [0] ∧ (drawn.findCore (launch0 drawn) 0).isSome = true
    ∧ (launch0 drawn).nteam ≤ (drawn.queue 0).ticket ∧ drawn.turnPassed 0 = false := by decide +kernel
/-- A later die has drawn in this clock. -/
def passedBy : State := dev.setDie 1 { dev.die 1 with drew := dev.clock + 1 }
theorem witness_TeamsArePlaced_passed : passedBy.turnPassed 0 = true := by decide +kernel
def placed : State := after (.placeTeam 0) dev
/-- The first team holds all 32 tiles of core 0. -/
theorem test_place_team : (placed.teams.map (fun t => (t.2.index, t.2.core, t.2.state)), (placed.queue 0).ticket, (aget? placed.slots 256).map fun sl => (sl.pc, sl.lanes.length))
    = ([(0, 0, .running), (0, 1, .running)], 1, some (128, 8)) := by decide +kernel
/-- No core is left when every core of the die has such a team. -/
def packedDie : State := { dev with teams := (List.range 16).map fun c => (c, { dev.team 0 with core := c }) }
theorem witness_TeamsArePlaced_none : packedDie.findCore (launch0 packedDie) 0 = none ∧ aget? (launch0 packedDie).starving 0 = none := by decide +kernel
theorem test_starvation_noted : (launch0 (after (.placementStarvation 0) packedDie)).starving = [(0, 0)] := by decide +kernel
/-- A coresident launch (bit 40 of its image) whose one team was placed before this clock. -/
def together : State :=
  { dev with clock := 1, launches := [(0, { launch0 dev with image := (launch0 dev).image ||| (1#1024 <<< 40) })], teams := [(0, { dev.team 0 with state := .held })] }
theorem witness_TeamsArePlaced_coresident : (launch0 together).coresident = true ∧ (launch0 together).nteam = 1
    ∧ ∀ t ∈ together.teams, t.2.state = .held ∧ t.2.placedAt < together.clock ∧ together.banksDrained t.2 = true := by decide +kernel
theorem test_coresident_start : ((after (.coresidentStart 0) together).team 0).state = .running := by decide +kernel

/-- A team that retires with nothing in flight. -/
def leaving : State := { dev with teams := [(0, { dev.team 0 with state := .retiring })] }
theorem witness_LaunchesFromQueueToEnd_team : (leaving.team 0).state = .retiring ∧ leaving.ops = [] := by decide
theorem test_team_ends : (fun s : State => ((s.team 0).state, s.slots, s.fibres)) (after (.teamEnd 0) leaving) = (.ended, [], []) := by decide +kernel
/-- Its launch has ERRA 0x1000 and COMPA 0x2000. -/
def ended0 : State :=
  { dev with teams := [(0, { dev.team 0 with state := .ended })], slots := [], fibres := []
             launches := [(0, { launch0 dev with block := (launch0 dev).block ||| (0x1000#1024 <<< 128) ||| (0x2000#1024 <<< 192), seq := 1 })] }
theorem witness_LaunchesFromQueueToEnd_stage : (launch0 ended0).erra.toNat % 64 = 0 ∧ regionOf (ownVa (launch0 ended0).erra).toNat ≠ 1
    ∧ regionOf (ownVa (launch0 ended0).compa).toNat ≠ 1 ∧ (launch0 ended0).stage = 0 ∧ (launch0 ended0).waits = [] := by decide +kernel
/-- Its error record is on the way to another device. -/
def unanswered : State := { ended0 with launches := [(0, { launch0 ended0 with stage := 1, waits := [5] })] }
theorem witness_LaunchesFromQueueToEnd_waits : (launch0 unanswered).stage ≠ 0 ∧ (launch0 unanswered).waits ≠ [] := by decide
theorem witness_LaunchesFromQueueToEnd_launch : (launch0 ended0).state = .claiming ∧ (launch0 ended0).ending = none ∧ (launch0 ended0).nteam = 1
    ∧ ended0.storeWaits (launch0 ended0) (launch0 ended0).erra 64 = none ∧ ended0.storeWaits (launch0 ended0) (launch0 ended0).compa 8 = none
    ∧ (ended0.queue 0).cseq = 0 ∧ ended0.runs = [] := by decide +kernel
theorem test_launch_completes : (fun s : State => ((launch0 s).state, (s.queue 0).cseq, s.natAt 0x2000 8)) (after (.launchComplete 0) ended0) = (.complete, 1, 1) := by
  decide +kernel
/-- A watchdog of 65,536 clocks whose counter was reset in clock 0. -/
def overdue : State := { dev with clock := 65536 }.setQueue 0 { Queue.zero with wdog := 1, wdSince := some 0 }
theorem witness_LaunchesFromQueueToEnd_watchdog : overdue.watchdogDue 0 = true ∧ dev.endingLate 0 = false
    ∧ ({ dev with clock := 2 ^ 20, launches := [(0, { launch0 dev with ending := some (3, 0, 0) })] } : State).endingLate 0 = true := by decide +kernel
/-- The launch of queue 0 has been ending by its watchdog for 2^20 clocks. -/
def stuck : State := { dev with clock := 2 ^ 20, launches := [(0, { launch0 dev with ending := some (3, 0, 0) })] }.setQueue 0 { dev.queue 0 with granted := true }
theorem witness_LaunchesFromQueueToEnd_timeout : (launch0 stuck).queue = 0 ∧ (launch0 stuck).state = .claiming ∧ (launch0 stuck).ending = some (3, 0, 0)
    ∧ 0 + 2 ^ 20 ≤ stuck.clock ∧ (launch0 stuck).part = (stuck.queue 0).part ∧ (launch0 stuck).stage ≠ 2 ∧ (stuck.queue 0).granted = true := by decide +kernel
theorem test_termination_timeout : (fun s : State => ((launch0 s).state, (launch0 s).status, (s.queue 0).halt, (s.queue 0).herr, s.slots))
    (after (.terminationTimeout 0) stuck) = (.complete, 5, true, 5, []) := by decide +kernel
theorem test_watchdog : (fun s : State => ((s.queue 0).halt, (s.queue 0).herr, (launch0 s).ending, s.slots)) (after (.watchdogFire 0) overdue)
    = (true, 4, some (3, 0, 65536), []) := by decide +kernel
/-- An image and a block that pass R24 whatever their BINDTAG (bytes 32 to 47), of which the tag itself does not depend: KIMG 0x1000, SPILLSZ 1. -/
def goodLaunch : Launch := { probeLaunch with block := probeLaunch.block ||| 0x1000#1024 ||| (1#1024 <<< 864) }
theorem witness_LaunchesFromQueueToEnd_image : goodLaunch.imageReason = none ∧ goodLaunch.blockReserved = false ∧ goodLaunch.badAddress = false
    ∧ goodLaunch.coresident = false ∧ goodLaunch.stauth = false ∧ goodLaunch.hdr 256 128 = 0 := by decide +kernel
theorem witness_LaunchesFromQueueToEnd_tag (secret : BitVec 256) (a t u z : List Byte) (ha : a.length = 32) (ht : t.length = 16) (hu : u.length = 16) :
    bindTag secret (a ++ t ++ z) = bindTag secret (a ++ u ++ z) := by
  simp [bindTag, imageDigest, List.drop_append, ha, ht, hu]

/-! ### Launches: bad rings, order, completion, termination -/

/-- Queue 3 with the tail word `v` and its ring, of one or two places, at `ring`. -/
def queuedAt (v logn : Nat) (ring : DWord) : State :=
  let s : State := { queued0 with
    mem := dev.mem ++ (from_ 0x1000 8).zip (bytesLE 8 v) ++ (from_ 0x1080 256).zip (bytesLE 256 0)
    hist := queued0.hist.map fun w => { w with bytes := (from_ 0x1000 8).zip (bytesLE 8 v) } }
  s.setQueue 3 { queued0.queue 3 with logn, ringa := ring }
def readsBlock (s : State) (n : Nat) : Bool :=
  match s.devRead 0 .load ((s.queue 3).ringa + BitVec.ofNat 64 (128 * ((n - 1) % 2 ^ (s.queue 3).logn))) 128 with
  | .ok _ => true
  | .error _ => false
theorem witness_LaunchesAreObservedAndClaimed_rings :
    (((queuedAt 3 0 0x1080).tailWrites ((queuedAt 3 0 0x1080).queue 3)).map fun w => ((queuedAt 3 0 0x1080).tailAfter w.1 w.2).1) = some 3
    ∧ ((queuedAt 3 0 0x1080).queue 3).cseq + 2 ^ ((queuedAt 3 0 0x1080).queue 3).logn = 1 ∧ ((queuedAt 3 0 0x1080).queue 3).read = 0
    ∧ readsBlock (queuedAt 3 0 0x1080) 1 = true ∧ readsBlock (queuedAt 1 1 0x0200000000000000) 1 = false := by decide +kernel
theorem test_tail_beyond_ring : (fun s : State => ((s.queue 3).herr, (s.queue 3).read, (s.queue 3).tail, s.launches.map fun l => (l.2.queue, l.2.seq)))
    (after (.tailWrite 3) (queuedAt 3 0 0x1080)) = (2, 1, 3, [(0, 0), (3, 1)]) := by decide +kernel
theorem test_block_unreadable : (fun s : State => ((s.queue 3).herr, (s.queue 3).read, (s.queue 3).halt, s.launches.length))
    (after (.tailWrite 3) (queuedAt 1 1 0x0200000000000000)) = (3, 0, true, 1) := by decide +kernel

/-- In front stands a launch that asks for every tile of a core; behind it, one that asks for none. -/
def ordered : State :=
  { packedDie with uid := 100, launches := [(0, launch0 dev), (5, { launch0 dev with queue := 1, image := (launch0 dev).image &&& ~~~(0x3F#1024 <<< 75) })] }
theorem witness_TeamsArePlaced_order : (ordered.claimOrder 0 (ordered.claimers 0)).map (fun l => (l.1, (ordered.findCore l.2 0).isSome, ordered.starved 0 l.2))
    = [(0, false, false), (5, true, false)] := by decide +kernel
theorem test_place_past_the_first : ((after (.placeTeam 0) ordered).teams.length, ((after (.placeTeam 0) ordered).team ordered.uid).launch) = (17, 5) := by
  decide +kernel
/-- The launch in front has found no core for 2^20 clocks. -/
def starving : State := { ordered with clock := 2 ^ 20, launches := ordered.launches.map fun l => (l.1, if l.1 = 0 then { l.2 with starving := [(0, 0)] } else l.2) }
theorem witness_TeamsArePlaced_starved : (starving.claimOrder 0 (starving.claimers 0)).map (fun l => (l.1, (starving.findCore l.2 0).isSome, starving.starved 0 l.2))
    = [(0, false, true), (5, true, false)] := by decide +kernel
theorem test_starved_keeps_the_rest : (after (.placeTeam 0) starving).teams.length = 16 := by decide +kernel

/-- The launch has had one error, 0x041 in weave 3 at 128. -/
def erred : State := { ended0 with launches := [(0, { launch0 ended0 with
  errcnt := 1, recDue := [0], firstTeam := 2, firstRole := 1, firstCore := 3, first := some { TrapInfo.zero with cause := 0x041, pc := 128, weave := 3, addr := 0x77 } })] }
theorem witness_TeamsAndLaunchesEnd_record : ended0.endWaits (launch0 ended0) = none ∧ (launch0 ended0).compa.toNat % 8 = 0 ∧ ended0.pending = []
    ∧ ended0.ue = [] ∧ (ended0.part 0).wlogOn = false ∧ (launch0 ended0).recDue = [] ∧ erred.endWaits (launch0 erred) = none
    ∧ (match erred.devLocs 0 .store (ownVa (launch0 erred).erra) 64, erred.devLocs 0 .store (ownVa (launch0 erred).compa) 8 with
      | .ok ls, .ok ws => ls.map (fun x => x.1) == from_ 0x1000 64 && ws.map (fun x => x.1) == from_ 0x2000 8
      | _, _ => false) = true
    ∧ (0 ∈ (launch0 erred).recDue ∧ (launch0 erred).errcnt < 2 ^ 32 ∧ (launch0 erred).late < 2 ^ 32 ∧ (launch0 erred).firstRole < 4
      ∧ (launch0 erred).firstCore < 128 ∧ (launch0 erred).first.all (fun f => decide (f.cause < 2 ^ 9)) = true) := by decide +kernel
def erredRec : Nat := (after (.launchComplete 0) erred).natAt 0x1000 64
theorem test_error_record : (bitsN erredRec 0 16, bitsN erredRec 16 9, bitsN erredRec 32 32) = (1, 0x041, 1)
    ∧ (bitsN erredRec 64 64, bitsN erredRec 128 32, bitsN erredRec 160 16) = (128, 2, 0x103) ∧ (bitsN erredRec 176 8, bitsN erredRec 192 64) = (3, 0x77) := by
  decide +kernel
/-- COMPA lies in no page. -/
def noWord : State := { ended0 with launches := [(0, { launch0 ended0 with block := (launch0 ended0).block ||| (1#1024 <<< 249) })] }
theorem witness_TeamsAndLaunchesEnd_dropped : (noWord.devLocs 0 .store (ownVa (launch0 noWord).compa) 8).isOk = false ∧ noWord.endWaits (launch0 noWord) = none
    ∧ (launch0 noWord).compa.toNat % 8 = 0 ∧ regionOf (ownVa (launch0 noWord).compa).toNat ≠ 1
    ∧ (noWord.devLocs 0 .store (ownVa (launch0 noWord).erra) 64).isOk = true := by decide +kernel
theorem test_completion_word_dropped : ((after (.launchComplete 0) noWord).queue 0).wfail = 1 := by decide +kernel
/-- A write hb the completion word, to the expander of port 17, is still under way. -/
def wordHeld0 : State := { ended0 with launches := [(0, { launch0 ended0 with stage := 1, out := [5] })] }.setOp 5 ⟨mems.head lx .st, .store
  [{ lane := 3, fibre := k3, va := 0, id := 5, bytes := [(Config.cxlBase, (2, 0))], preds := [], carry := [], after := [], timeless := false, swm := false, remote := none }]⟩
theorem witness_TeamsAndLaunchesEnd_held : (launch0 wordHeld0).stage = 1 ∧ wordHeld0.wordHeld (launch0 wordHeld0) = true
    ∧ (∃ w ∈ wordHeld0.pending, w.2.1.any isCxl = true) := by decide +kernel
theorem test_completion_word_waits : ((launch0 (after (.launchComplete 0) wordHeld0)).state, (launch0 (after (.launchComplete 0) wordHeld0)).stage) = (.claiming, 1) := by
  decide +kernel
theorem witness_TeamsAndLaunchesEnd_watchdog : overdue.launches.map (fun l => (l.1, l.2.queue, l.2.state, l.2.stage, l.2.ending.isNone)) = [(0, 0, .claiming, 0, true)] := by
  decide +kernel
/-- Its completion word is written already. -/
def overdue2 : State := { overdue with launches := [(0, { launch0 overdue with stage := 2 })] }
theorem test_watchdog_spares_the_written : (fun s : State => ((launch0 s).ending, (s.queue 0).herr)) (after (.watchdogFire 0) overdue2) = (none, 4) := by decide +kernel
theorem witness_TeamsAndLaunchesEnd_reset : ∀ x ∈ stuck.launches, x.2.part = (stuck.queue 0).part → x.2.state = .claiming →
    aget? stuck.launches x.1 = some x.2 ∧ stuck.endWaits x.2 = none := by decide +kernel

/-! ### The groom -/

/-- Page 0 is absent and the groom's to bring; the slot is parked for it; 64 KiB of HBM at 0x40000 are the partition's. -/
def tab (n : Nat) : Nat := Config.rootPhys 8 + n * 0x80000
def pgTrap : TrapInfo := { TrapInfo.zero with cause := 0x043, kind := .parked, lmask := [0, 3], pc := 128 }
def blankImg : Image := { key := 0, bytes := List.replicate 65536 0, stamps := List.replicate 2048 0 }
def bk0 : Backing := { drive := 0, nspace := 0, lba := 0, digest := Config.sha512 blankImg.raw, entry := 0x38 }
def paging : State :=
  let s := dev.modPart 0 fun p => { p with backing := [(0, bk0)] }
  { s with ptes := [(Config.rootPhys 0, BitVec.ofNat 128 (tab 0 / 4096 * 2 ^ 8 + 1)), (tab 0, BitVec.ofNat 128 (tab 1 / 4096 * 2 ^ 8 + 1)),
                    (tab 1, BitVec.ofNat 128 (tab 2 / 4096 * 2 ^ 8 + 1)), (tab 2, 2)]
           grants := [{ lo := 0x40000, len := 65536, part := 0, kind := 0 }], storage := [(0, blankImg)]
           launches := dev.launches.map fun (l : Nat × Launch) => (l.1, { l.2 with image := l.2.image ||| (1#1024 <<< 44) })
           slots := [(0, { slot0 with wait := .park ⟨pgTrap, .pages [0]⟩ })] }
theorem witness_GroomMovesPages : paging.pageWanted 0 0 = true ∧ regionOf 0 ≠ 1 ∧ paging.pageEntry 0 0 = some (tab 2, 1, 2) ∧ paging.partOfTeam 0 = 0
    ∧ paging.freePage 0 0 65536 = some 0x40000 ∧ paging.ops = [] ∧ (launch0 paging).trapp = true ∧ (slotOf0 paging).handler = false := by decide +kernel
theorem witness_GroomMovesPages_image : paging.backedImage 0 0 = some (bk0, blankImg)
    ∧ blankImg.bytes.length = 65536 ∧ blankImg.stamps.length = 2048 := by
  refine ⟨?_, List.length_replicate, List.length_replicate⟩
  have hb : aget? (paging.part 0).backing 0 = some bk0 := by rfl
  have hs : aget? paging.storage (imageKey bk0.drive bk0.nspace bk0.lba) = some blankImg := by rfl
  have hd : paging.decrypted 0 (imageKey bk0.drive bk0.nspace bk0.lba) blankImg = blankImg := if_pos (by decide +kernel)
  simp only [State.backedImage, hb, hs, hd]
  exact if_pos rfl
theorem witness_GroomMovesPages_tails : paging.observeTails.partOfTeam 0 = 0 := by decide +kernel
theorem test_page_in_fails : (fun sl : Slot => (sl.handler, sl.wait, sl.handling.map fun t => t.cause)) (slotOf0 (after (.groomPageIn 0 0 false) paging))
    = (true, .none, some 0x1C6) := by decide +kernel
/-- The page is present at 0x40000. -/
def present0 : State := { paging with ptes := aset paging.ptes (tab 2) (BitVec.ofNat 128 (0x40 * 2 ^ 8 + 0x39)), slots := [] }
theorem witness_GroomMovesPages_out : (aget? present0.parts 0).isSome ∧ present0.pageEntry 0 0 = some (tab 2, 1, 0x40 * 2 ^ 8 + 0x39) ∧ inFrames 0 = false
    ∧ present0.rangeBusy 0x40000 65536 = false := by decide +kernel

/-- Descriptor 1 at 0x1010: VALID, queue 3, no pending launch; queue 3 has its tail word 4 at 0x1100 and its ring at 0x2000; RDBASE 0x1000. -/
def reTrap : TrapInfo := { TrapInfo.zero with cause := 0x080, kind := .parked, lmask := [0, 3], rmask := [0, 3], pc := 128 }
def refiring (sv : Serve) (pend : Nat) (most : Nat) : State :=
  let s := (dev.modPart 0 fun p => { p with rdbase := 0x1000 }).setQueue 3
    { Queue.zero with enable := true, granted := true, logn := 3, taila := 0x1100, ringa := 0x2000, tail := 4, read := 4, cseq := 4 }
  { s with mem := dev.mem ++ (from_ 0x1000 16).zip (bytesLE 16 0) ++ (from_ 0x1010 16).zip (bytesLE 16 (1 + 3 * 2 ^ 10 + pend * 2 ^ 16 + 0x1200 * 2 ^ 64)) ++ (from_ 0x1100 8).zip (bytesLE 8 4)
                    ++ (from_ 0x1200 128).zip (bytesLE 128 0)
           fibres := dev.fibres.map fun (f : Nat × Fibre) => (f.1, { f.2 with refires := most })
           launches := (dev.launches.map fun (l : Nat × Launch) => (l.1, { l.2 with image := l.2.image ||| (1#1024 <<< 44) }))
             ++ [(7, { Launch.zero with queue := 3, seq := 4, state := .complete, out := [66] })]
           slots := [(0, { slot0 with wait := .park ⟨reTrap, sv⟩ })] }
theorem witness_RefiresWaitForTheProducer : ((refiring (.refireNew 1) 0 0).refreshDesc 0 1) = some ⟨0x1200, 0, 3⟩
    ∧ (refiring (.refireNew 0) 0 0).refreshDesc 0 0 = none ∧ (refiring (.refireNew 1) 0 0).pendingProducer ⟨0x1200, 0, 3⟩ = false
    ∧ ((refiring (.refireNew 1) 4 0).setQueue 3 { (refiring (.refireNew 1) 4 0).queue 3 with cseq := 3 }).pendingProducer ⟨0x1200, 4, 3⟩ = true
    ∧ (slotOf0 (refiring (.refireNew 1) 0 0)).contPark = none ∧ (launch0 (refiring (.refireNew 1) 0 0)).trapp = true := by decide +kernel
theorem test_refire_appends : (slotOf0 (after (.refireServe 0) (refiring (.refireNew 1) 0 0))).wait = .park ⟨reTrap, .refireWait 3 5 0⟩ := by decide +kernel
theorem witness_RefiresWaitForTheProducer_append : ((refiring (.refireNew 1) 0 0).queue 3).enable = true ∧ ((refiring (.refireNew 1) 0 0).queue 3).halt = false
    ∧ (match (refiring (.refireNew 1) 0 0).appendProducer 0 1 ⟨0x1200, 0, 3⟩ with
      | some (.ok (n, _)) => n == 5
      | _ => false) = true := by decide +kernel
/-- The ring is full; then it lies in another device's window. -/
theorem witness_RefiresWaitForTheProducer_full : (((refiring (.refireNew 1) 0 0).setQueue 3 { (refiring (.refireNew 1) 0 0).queue 3 with logn := 0, cseq := 2 }).appendProducer 0 1 ⟨0x1200, 0, 3⟩).isNone = true
    ∧ (match ((refiring (.refireNew 1) 0 0).setQueue 3 { (refiring (.refireNew 1) 0 0).queue 3 with taila := 0x8000000000000000 }).appendProducer 0 1 ⟨0x1200, 0, 3⟩ with
      | some (.error _) => true
      | _ => false) = true := by decide +kernel
theorem test_third_refire : (slotOf0 (after (.refireServe 0) (refiring (.refireNew 1) 0 2))).handling.map (fun t => t.cause) = some 0x085 := by decide +kernel
theorem test_refire_replays : (fun s : State => ((slotOf0 s).wait, (slotOf0 s).replay.map fun r => r.lanes, (s.fibre k3).refires, (s.fibre k0).vec.know))
    (after (.refireReplay 0) (refiring (.refireWait 3 4 1) 0 1)) = (.none, some [0, 3], 2, [66]) := by decide +kernel
theorem witness_RefiresWaitForTheProducer_done : (refiring (.refireWait 3 4 1) 0 0).seqComplete 3 4 = true ∧ (refiring (.refireWait 3 5 1) 0 0).seqComplete 3 5 = false
    ∧ ((refiring (.refireWait 3 4 1) 0 0).launches.find? fun x => x.2.queue == 3 && x.2.seq == 4 && x.2.state == .complete).map (fun l => l.2.status) = some 0 := by
  decide +kernel

/-! ### Pre-emption -/

def inState (st : TeamState) (why : PreemptWhy) : State := { dev with teams := [(0, { dev.team 0 with state := st, why })] }
theorem witness_PreemptionMovesTeams : aget? (inState .running .priority).teams 0 = some { dev.team 0 with state := .running, why := .priority }
    ∧ (inState (.saving 9) .priority).saveReady 0 = true ∧ (inState .flushing .priority).ops = [] ∧ (slotOf0 dev).late = [] ∧ (launch0 dev).first = none := by
  decide +kernel
theorem test_preempt_drain : ((after (.preemptDrain 0) (inState .running .priority)).team 0).state = .draining 65536 := by decide +kernel
theorem test_drain_timeout : ((after (.drainTimeout 0) (inState (.draining 0) .priority)).team 0).state = .saving (2 ^ 20) := by decide +kernel
def savedDev : State := after (.preemptSave 0) (inState (.saving 9) .priority)
theorem test_preempt_save : (fun s : State => ((s.team 0).state, s.slots, (s.team 0).savedSlots.map fun x => x.2.pc, s.fibres.length)) savedDev = (.saved, [], [128], 2) := by
  decide +kernel
theorem test_preempt_flush : (fun s : State => ((s.team 0).state, s.slots, s.fibres)) (after (.preemptFlush 0) (inState .flushing .priority)) = (.flushed, [], []) := by
  decide +kernel
theorem test_save_timeout : (fun s : State => ((launch0 s).first.map fun t => t.cause, (slotOf0 s).lanes)) (after (.saveTimeout 0) (inState (.saving 0) .priority))
    = (some 0x1C2, []) := by decide +kernel
theorem witness_PreemptionMovesTeams_restore : (savedDev.part 0).suspended = false ∧ savedDev.higherFirst 0 0 (savedDev.prioOf (launch0 savedDev)) = false
    ∧ (savedDev.findCore (launch0 savedDev) 0).map (fun a => a.1) = some 0 := by decide +kernel
theorem witness_PreemptionMovesTeams_saved : (savedDev.team 0).saveUe = false ∧ (savedDev.team 0).why ≠ .switchOut := by decide +kernel
/-- Its save area is uncorrectable. -/
def badSave : State := savedDev.modTeam 0 fun t => { t with saveUe := true }
theorem witness_PreemptionMovesTeams_bad : (badSave.team 0).state = .saved ∧ (badSave.team 0).saveUe = true
    ∧ badSave.higherFirst 0 0 (badSave.prioOf (launch0 badSave)) = false ∧ (badSave.findCore (launch0 badSave) 0).isSome = true := by decide +kernel
theorem test_bad_save : (fun s : State => (launch0 s).first.map fun t => t.cause) (after (.teamRestore 0) badSave) = some 0x1C2 := by decide +kernel
theorem test_restore : (fun s : State => ((s.team 0).state, (slotOf0 s).pc)) (after (.teamRestore 0) savedDev) = (.running, 128) := by decide +kernel
/-- A slot of core 0 has been parked for 4,096 clocks, and no core of the die is free. -/
def crowded : State := { packedDie.setDie 0 { packedDie.die 0 with parkedSince := [(0, 0)] } with clock := 4096 }
theorem witness_PreemptionMovesTeams_switch : crowded.partOfDie 0 = some 0 ∧ ((crowded.claimers 0).any fun x => (crowded.findCore x.2 0).isNone) = true
    ∧ (crowded.teamsAt 0).map (fun t => t.1) = [0] ∧ (crowded.launch 0).coresident = false := by decide +kernel
theorem test_switch_out : (fun t : Team => (t.state, t.why)) ((after (.switchOut 0) crowded).team 0) = (.saving (4096 + 2 ^ 20), .switchOut) := by decide +kernel
/-- The launch has starved0 for 2^20 clocks, and a team of a launch two levels lower (queue 5, QPRIO 0) holds a core. -/
def starved0 : State :=
  let s := { packedDie with
    clock := 2 ^ 20
    launches := [(0, { launch0 dev with starving := [(0, 0)], block := (launch0 dev).block ||| (2#1024 <<< 880) }), (1, { launch0 dev with queue := 5, seq := 1, state := .complete })]
    teams := packedDie.teams.map fun (t : Nat × Team) => if t.1 = 2 then (2, { t.2 with launch := 1 }) else t }
  s.setQueue 0 { Queue.zero with qprio := 2 }
theorem witness_PreemptionMovesTeams_priority : (starved0.claimOrder 0 (starved0.claimers 0)).map (fun l => l.1) = [0] ∧ starved0.findCore (launch0 starved0) 0 = none
    ∧ starved0.preempting 0 = false ∧ (starved0.victims 0 (starved0.prioOf (launch0 starved0))).map (fun t => t.1) = [2] := by decide +kernel
theorem test_priority_preempt : ((after (.priorityPreempt 0) starved0).team 2).why = .priority := by decide +kernel

/-! ### Page-in without its exponent frame; the choice of R290 -/

/-- The entry of an f4 page with its exponent frame at 0, which no grant holds. -/
def bkF : Backing := { bk0 with entry := BitVec.ofNat 128 (0x38 + 8 * 2 ^ 56) }
def unframed : State := paging.modPart 0 fun p => { p with backing := [(0, bkF)] }
theorem witness_GroomMovesPages_frame : paging.ownsFrame 0 1 bk0.entry.toNat = true ∧ unframed.ownsFrame 0 1 bkF.entry.toNat = false
    ∧ bitsN bkF.entry.toNat 60 2 = 0 ∧ unframed.pageWanted 0 0 = true ∧ unframed.freePage 0 0 65536 = some 0x40000
    ∧ unframed.pageEntry 0 0 = some (tab 2, 1, 2) := by decide +kernel
theorem witness_GroomMovesPages_frameImage : unframed.backedImage 0 0 = some (bkF, blankImg) := by
  have hb : aget? (unframed.part 0).backing 0 = some bkF := by rfl
  have hs : aget? unframed.storage (imageKey bkF.drive bkF.nspace bkF.lba) = some blankImg := by rfl
  have hd : unframed.decrypted 0 (imageKey bkF.drive bkF.nspace bkF.lba) blankImg = blankImg := if_pos (by decide +kernel)
  simp only [State.backedImage, hb, hs, hd]
  exact if_pos rfl

/-- In front of the starving launch stands one of a higher level that does not starve. -/
def starved1 : State := (starved0.setLaunch 6 { launch0 dev with queue := 6, block := (launch0 dev).block ||| (3#1024 <<< 880) }).setQueue 6 { Queue.zero with qprio := 3 }
theorem witness_PreemptionMovesTeams_older : (starved1.claimOrder 0 (starved1.claimers 0)).map (fun l => (l.1, (starved1.displaces 0 l.2).isSome)) = [(6, false), (0, true)] := by
  decide +kernel
theorem test_priority_past_the_first : ((after (.priorityPreempt 0) starved1).team 2).why = .priority := by decide +kernel
/-- The victim, of PROG `prog` and idempotent or not, under DRAINP 5 and FLUSHP 3; then with CORES, beside another team of its launch. -/
def choosing (prog : Nat) (bits : BitVec 1024) : State :=
  let s := starved0.modPart 0 fun p => { p with drainp := 5, flushp := 3 }
  { s.modTeam 2 fun t => { t with prog } with launches := s.launches.map fun l => (l.1, if l.1 = 1 then { l.2 with image := l.2.image ||| bits } else l.2) }
def idempBit : BitVec 1024 := 1#1024 <<< 41
def coresBit : BitVec 1024 := 1#1024 <<< 40
theorem witness_PreemptionMovesTeams_choice : ((choosing 0 idempBit).victims 0 ((choosing 0 idempBit).prioOf (launch0 (choosing 0 idempBit)))).map (fun t => t.1) = [2]
    ∧ ((choosing 0 idempBit).launch 1).idemp = true ∧ ((choosing 0 idempBit).launch 1).coresident = false ∧ ((choosing 0 coresBit).launch 1).coresident = true
    ∧ (choosing 0 idempBit).findCore (launch0 (choosing 0 idempBit)) 0 = none ∧ ((choosing 0 coresBit).placedTeams 1).map (fun t => t.2.prog) = [0] := by decide +kernel
theorem test_choice : ([choosing 5 idempBit, choosing 0 idempBit, choosing 3 idempBit, choosing 0 0, choosing 5 coresBit, choosing 0 coresBit].map fun s =>
    ((after (.priorityPreempt 0) s).team 2).state) = [.running, .flushing, .saving (2 ^ 21), .saving (2 ^ 21), .running, .saving (2 ^ 21)] := by decide +kernel
/-- The team on the crowded core drains. -/
def crowdedDrain : State := crowded.modTeam 0 fun t => { t with state := .draining 70000, why := .priority }
theorem witness_PreemptionMovesTeams_drains : (crowdedDrain.team 0).drains = true ∧ ((crowdedDrain.claimers 0).any fun x => (crowdedDrain.findCore x.2 0).isNone) = true := by
  decide +kernel
theorem test_switch_out_saves_a_drain : ((after (.switchOut 0) crowdedDrain).team 0).state = .saving (4096 + 2 ^ 20) := by decide +kernel
theorem witness_PreemptionMovesTeams_flush : (inState .flushing .priority).chunksOf 0 = [] := by decide +kernel

/-! ### Links and the host -/

/-- Device 9 speaks for partition 0 under LDOM 2; the host reaches 64 KiB from 0 on through window 0. -/
def linked : State :=
  let s := dev.modPart 0 fun p => { p with domain := [(9, ⟨2, 0xFFFE, 0⟩)], wins := [(0, ⟨0, 0, 0x10000, true, true⟩)] }
  { s with stamps := [(4, 50)] }
def tagged (f : Flit) : Flit := { f with gcm := Config.linkTag 0 (flitBits f) }
def fl (kind ngr : Nat) (off : Nat) : Flit := tagged
  { off := BitVec.ofNat 47 off, src := 9, dst := Config.deviceId, ldom := 2, kind := BitVec.ofNat 4 kind, ngr := BitVec.ofNat 3 ngr, gixh := 0, tag := 5
    aux := 0, payload := List.replicate 32 7, stamps := [60], enables := List.replicate 32 true, gcm := 0 }
/-- A link key of zeros (the opaque tag of a flit is the one the key gives): the tag agrees; with 1 added it does not. -/
theorem tagged_agrees (s : State) (f : Flit) (h : s.linkKey f.src.toNat f.ldom = 0) : s.badSeal (tagged f) = false := by
  have e : s.badSeal (tagged f) = (Config.linkTag 0 (flitBits f) != Config.linkTag (s.linkKey f.src.toNat f.ldom) (flitBits f)) := rfl
  rw [e, h]; exact bne_self_eq_false _
def mistagged (f : Flit) : Flit := { f with gcm := Config.linkTag 0 (flitBits f) + 1 }
theorem mistagged_differs (s : State) (f : Flit) (h : s.linkKey f.src.toNat f.ldom = 0) : s.badSeal (mistagged f) = true := by
  have e : s.badSeal (mistagged f) = (Config.linkTag 0 (flitBits f) + 1 != Config.linkTag (s.linkKey f.src.toNat f.ldom) (flitBits f)) := rfl
  rw [e, h]
  generalize Config.linkTag 0 (flitBits f) = x
  rw [bne_iff_ne]
  bv_omega
theorem witness_FlitsAreServed_tag : linked.badSeal (fl 0 1 128) = false := tagged_agrees _ _ (by decide +kernel)
theorem witness_FlitsAreServed_bad_tag : linked.badSeal (mistagged (fl 0 1 128)) = true := mistagged_differs _ _ (by decide +kernel)
/-- Chunk flits: a good one, and one of a bad tag. -/
theorem witness_RunsOfGraphs_tag : linked.badSeal (fl 8 1 (9 * 2 ^ 15)) = false ∧ linked.badSeal (mistagged (fl 8 1 (9 * 2 ^ 15))) = true :=
  ⟨tagged_agrees _ _ (by decide +kernel), mistagged_differs _ _ (by decide +kernel)⟩
theorem witness_FlitsAreServed : (linked.port 3).down = false ∧ linked.flitPart (fl 0 1 128) = some 0 ∧ linked.flitPart { fl 0 1 128 with src := 8 } = none
    ∧ (fl 0 1 128).dst = Config.deviceId := ⟨by decide +kernel, by decide +kernel, by decide +kernel, rfl⟩
theorem witness_FlitsAreServed_read : ∃ pg, linked.translate 0 .load ((fl 0 1 128).off.zeroExtend 64) = .ok pg
    ∧ (decide (pg.loc = 128) && (linked.homeCause true pg.loc 32).isNone) = true := ok_with _ (by decide +kernel)
theorem witness_FlitsAreServed_cause : (match linked.translate 0 .load ((fl 0 1 (2 ^ 40)).off.zeroExtend 64) with
    | .error m => !m.groom && m.cause == 0x041 || m.cause == 0x043
    | .ok _ => false) = true := by decide +kernel
/-- Page 0 is the groom's to bring: the flit waits, until the groom could not bring it. -/
theorem witness_FlitsAreServed_groom : (match paging.translate 0 .load ((fl 0 1 128).off.zeroExtend 64) with
    | .error m => m.groom
    | .ok _ => false) = true ∧ (0, 0) ∉ paging.denied ∧ (0, 0) ∈ { paging with denied := [(0, 0)] }.denied := by decide +kernel
theorem witness_FlitsAreServed_write : ∃ u, (linked.ackPort 3).ingress 3 0 0x1000 (enabledBytes (fl 2 1 0x1000) 0) 60 linked.farKnow = .ok u
    ∧ (decide (u.byteAt 0x1003 = 7)) = true := ok_with _ (by decide +kernel)
/-- One flit sent in clock 0 without an acknowledgement. -/
def unseen (clock : Nat) : State := { linked.setPort 3 { Port.zero with unacked := [(fl 0 1 128, 0, 0)] } with clock }
theorem witness_FlitsAreServed_resend : ((unseen 5).port 3).unacked = [(fl 0 1 128, 0, 0)] ∧ ((unseen (2 ^ 20)).port 3).down = false
    ∧ (dev.setPort 3 ((unseen (2 ^ 20)).port 3)).outPart (fl 0 1 128) = none := ⟨rfl, by decide +kernel, by decide +kernel⟩
/-- R174: an engine's read of device 9 asks for the granule, waits, and takes what comes back. -/
def frd : Reader := { rid := 1, know := [], seen := [], issuedAt := 0 }
def asking : State := match linked.farTurn 0 frd [⟨remoteLoc 9 0x44, false⟩] with
  | .wait s => s
  | _ => linked
theorem test_far_asks : (asking.outFlits.map fun f => (f.2.kind, f.2.off, f.2.dst), asking.far.map fun f => f.1) = ([(0, 0x40, 9)], [1]) := by decide +kernel
theorem test_far_takes : (fun s : State => (s.farTurn 0 frd [⟨remoteLoc 9 0x44, false⟩], (s.readFar 1 [remoteLoc 9 0x44]).1))
    (asking.takeData { fl 1 1 0 with tag := BitVec.ofNat 16 linked.uid }) = (.ready, [(remoteLoc 9 0x44, (7, 60))]) := by decide +kernel
theorem test_resend_waits : ((after (.flitResend 3 5) (unseen 5)).outFlits).length = 0 := by decide +kernel
theorem test_port_down : ((after (.portDown 3) (unseen (2 ^ 20 - 1))).port 3).down = false := by decide +kernel

theorem witness_TheHostAndThePorts : (aget? linked.parts 0).isSome ∧ (linked.part 0).window false 128 32 = some 128 ∧ (linked.part 0).window false 0x10000 1 = none
    ∧ (linked.part 0).window true 0x1004 2 = some 0x1004 ∧ (linked.part 0).window true 0xFFFF 2 = none ∧ linked.ue = [] := by decide +kernel
theorem witness_TheHostAndThePorts_pages : ∃ pg, linked.translate 0 .store 0x1000 = .ok pg
    ∧ (decide (pg.loc = 0x1000) && !pg.swm && (linked.homeCause false pg.loc 32).isNone) = true := ok_with _ (by decide +kernel)
theorem test_host_read : (after (.hostRead 0 129 2) linked).module.reads = [some [0x40, 0]] := by decide +kernel
theorem test_host_read_refused : (fun s : State => (s.module.reads, (s.part 0).refusals)) (after (.hostRead 0 0x10000 1) linked) = ([none], 1) := by decide +kernel
theorem test_host_write : (fun s : State => (s.byteAt 0x1004, s.byteAt 0x1005)) (after (.hostWrite 0 0x1004 [1, 2]) linked) = (1, 2) := by decide +kernel
/-- OMODE 1 gives ORIGIN. -/
theorem test_ingress_origin : (fun s : State => (s.byteAt 0x1003, s.stampAt 0x1000)) (after (.ingressWrite 3 0 0x1000 (List.replicate 32 7) 60)
    ((linked.modPart 0 fun p => { p with ports := [(3, ⟨44, 1, false, 0⟩)], k := 20 }).setDie (homeDie 0x1000) { Die.zero with horizon := 100 })) = (7, 44) := by decide +kernel
theorem test_back_invalidate : (after (.backInvalidate 9) linked).stamps = [(4, 50)] := by decide +kernel

/-! ### Runs -/

theorem coord_field : ∀ d : BitVec 8, bitsN (BitVec.ofNat 512 (d.toNat * 2 ^ 280)).toNat 280 8 = d.toNat := by decide +kernel
/-- A graph of one NOP node that this device coordinates alone, and its first run. -/
def soloG : Graph := { part := 0, header := BitVec.ofNat 512 (Config.deviceId.toNat * 2 ^ 280), nodes := [6#256 <<< 68], redImage := 0, issued := 1, done := 0, carry := [] }
def soloR (state : RunState) : Run :=
  { slot := 0, collid := 9, run := 1, launch := 0, fibre := k0, part := 0, table := 0, state, staging := 2, nodes := soloG.freshNodes, aborted := false, grants := []
    startSent := false, revoking := false, know := [], after := [], seen := [], want := [], noPages := [] }
def running1 (r : Run) (msgs : List (Nat × Nat × Nat × Nat)) : State := { linked with graphs := [(0, soloG)], runs := [(7, r)], control := msgs }
theorem witness_RunsOfGraphs_coord : ((running1 (soloR .waiting) []).graph 0).coord = Config.deviceId.toNat := coord_field _
theorem witness_RunsOfGraphs : (soloR .waiting).staging ≤ Config.stagingUnits ∧ (soloG.done + 1) % 2 ^ 32 = (soloR .waiting).run ∧ (soloR .waiting).aborted = false := by
  decide
theorem test_run_starts : (match aget? (after (.runStart 9 1) (running1 (soloR .granted) [(1, 9, 1, 4)])).runs 7 with
    | some r => (r.state, r.nodes.length)
    | none => (.waiting, 0)) = (.started, 1) := by decide +kernel
/-- A started run of one node, with buffers 0 at 0x1000 (1.0 and 2.0, stamp 60) and 1 at 0x2000, and its record at 0x3000; both elements
of its chunk are 0.5 with stamp 70. -/
def nodeN : NodeState := { deps := 0, acted := false, failed := false, cause := 0, fx := 0, arrived := [(0, (bytesLE 8 0x3F0000003F000000).map fun b => (b, 70))], team := none, carry := [] }
def nodeR (i : Nat) (n : NodeState) : Run := { soloR .started with nodes := [(i, n)], table := BitVec.ofNat 1024 (0x1000 + 0x2000 * 2 ^ 64 + 0x3000 * 2 ^ 512) }
def word3 (op st wt dt : Nat) : BitVec 256 := BitVec.ofNat 256 (2 ^ 136 + 2 ^ 76 + op * 2 ^ 68 + st * 2 ^ 61 + wt * 2 ^ 56 + dt * 2 ^ 51 + 9 * 2 ^ 80)
/-- What stood at 0x2000 has stamp 80. -/
def nodeS (w : BitVec 256) (n : NodeState := nodeN) : State :=
  { dev with mem := dev.mem ++ (from_ 0x1000 8).zip (bytesLE 8 0x400000003F800000), stamps := [(128, 60), (256, 80)]
             graphs := [(0, { soloG with nodes := [w] })], runs := [(7, nodeR 0 n)] }
theorem witness_RunsOfGraphs_node : (nodeR 0 nodeN).state = .started ∧ ((nodeR 0 nodeN).node 0).ready = true ∧ (nodeS 0).ue = []
    ∧ (((nodeS (word3 3 18 0 18)).graph 0).node 0).op = 3 ∧ (wireElems 100 .f32 2 nodeN.chunk).length = 2 := by decide +kernel
theorem witness_RunsOfGraphs_lands : ∃ d, (nodeS (word3 3 18 0 18)).bufLocs 7 (nodeR 0 nodeN) .store 1 0 8 = .ok d
    ∧ (decide (spanBytes d = (from_ 0x2000 8).map fun a => ⟨a, false⟩) && d.all fun p => !p.1.swm) = true := ok_with _ (by decide +kernel)
theorem witness_RunsOfGraphs_read : (match (nodeS (word3 3 18 0 18)).nodeRead 7 (nodeR 0 nodeN) [] 0 0 8 4 with
    | .got bs _ => decide (bs.length = 8)
    | _ => false) = true := by decide +kernel
theorem witness_RunsOfGraphs_turn : let s := nodeS (word3 3 18 0 18)
    let r := nodeR 0 nodeN
    s.collEarlier 7 r.fibre (r.reaches ((s.graph 0).node 0)) = some [] ∧ s.engineHeld (s.runHead r []) .coll (from_ 0x2000 8) = false
    ∧ s.earlierRecords 7 r = some [] ∧ s.heldBack (from_ 0x3000 72) [] [0] r.after = false := by decide +kernel
theorem test_node_recv : (fun s : State => (s.natAt 0x2000 8, s.stampAt 0x2000)) (after (.nodeRecv 7 0) (nodeS (word3 1 0 18 18))) = (0x3F0000003F000000, 70) := by
  decide +kernel
theorem test_node_copy : (fun s : State => (s.natAt 0x2000 8, s.stampAt 0x2000)) (after (.nodeCopy 7 0) (nodeS (word3 3 18 0 18))) = (0x400000003F800000, 60) := by
  decide +kernel
theorem test_node_reduce : (fun s : State => (s.natAt 0x2000 8, s.stampAt 0x2000)) (after (.nodeReduce 7 0) (nodeS (word3 2 18 18 18))) = (0x402000003FC00000, 60) := by
  decide +kernel
/-- SEND to node 1 of this device. -/
theorem witness_RunsOfGraphs_send : ∀ d : BitVec 8, (fun x : GNode => (x.op, x.peer, x.pair, x.st)) (gnode (BitVec.ofNat 256 (2 ^ 136 + 2 ^ 88 + d.toNat * 2 ^ 80 + 18 * 2 ^ 61 + 18 * 2 ^ 56)))
    = (0, d.toNat, 1, .f32) := by decide +kernel
theorem witness_RunsOfGraphs_pair : (let y := gnode (word3 1 0 18 18); (y.op = 1 ∨ y.op = 2) ∧ y.wt = .f32 ∧ wireBytes y.wt y.n = 8) := by decide +kernel
/-- TEAM: its team has ended, or is still to be placed. -/
def teamS (tm : Option Nat) (st : TeamState) : State := { nodeS (5#256 <<< 68) { nodeN with team := tm } with teams := [(0, { dev.team 0 with state := st })] }
theorem test_node_team : ((aget? (after (.nodeTeam 7 0) (teamS (some 0) .ended)).runs 7).map fun r => (r.node 0).acted) = some true := by decide +kernel
theorem test_run_completes : (fun s : State => ((s.graph 0).done, s.natAt 0x3000 16, s.natAt 0x3040 8))
    (after (.runComplete 7) (nodeS (6#256 <<< 68) { nodeN with acted := true })) = (1, 1 + 2 ^ 64, 1) := by decide +kernel
theorem witness_RunsOfGraphs_record : ∃ d, (nodeS 0).spanLocs ((nodeS 0).runHead (nodeR 0 nodeN) []).who .store (tableReca (nodeR 0 nodeN).table.toNat) 64 = .ok d
    ∧ (decide (spanBytes d = (from_ 0x3000 64).map fun a => ⟨a, false⟩) && d.all fun p => !p.1.swm) = true := ok_with _ (by decide +kernel)
theorem witness_RunsOfGraphs_chunk : (fl 8 1 (9 * 2 ^ 15)).off.toNat / 2 ^ 15 = 9 ∧ granuleOf (fl 8 1 (9 * 2 ^ 15)) 0 ≠ []
    ∧ (((nodeS (word3 1 0 18 18)).graph 0).node 0).peer = 9 ∧ chunkWhole [(0, [((1 : Byte), (0 : Stamp))])] = false := by decide +kernel

/-! ### A port goes down, stamps of ports, runs of several devices -/

/-- A write flit to device 9 waits at port 3, which goes down; port 2 is the next. -/
def mineFl (kind : Nat) : Flit := { fl kind 1 128 with dst := 9 }
def waitsAt3 (kind : Nat) : State := { linked.setPort 3 { Port.zero with unacked := [(mineFl kind, 0, 0)] } with clock := 2 ^ 20 }
def down3 (s : State) : State := s.setPort 3 { s.port 3 with down := true, unacked := [] }
theorem witness_FlitsAreServed_reroute : (waitsAt3 2).outPart (mineFl 2) = some 0 ∧ ((down3 (waitsAt3 2)).route 0 9).map (fun e => e.1) = some 2
    ∧ (mineFl 2).dst.toNat = 9 ∧ (waitsAt3 2).egressOk 0 2 60 = true ∧ (mineFl 2).stamps = [60] ∧ enabledBytes (mineFl 2) 0 ≠ [] := by decide +kernel
theorem test_reroute : ((after (.portDown 3) (waitsAt3 2)).outFlits.map fun f => (f.1, f.2.off)) = [(2, 128)] := by decide +kernel
/-- The bound of port 2 keeps the flit's data back. -/
def boundAt2 : State := (waitsAt3 2).modPart 0 fun p => { p with ports := [(2, ⟨0, 0, true, 1⟩)], time := 2 ^ 26 }
theorem witness_FlitsAreServed_bound : boundAt2.egressOk 0 2 60 = false ∧ boundAt2.outPart (mineFl 2) = some 0
    ∧ ((down3 boundAt2).route 0 9).map (fun e => e.1) = some 2 ∧ (mineFl 2).kind ∈ [2, 4, 6] := by decide +kernel
theorem test_reroute_bound : (after (.portDown 3) boundAt2).outFlits.length = 0 := by decide +kernel
/-- Port 3 is the only one that reaches device 9. -/
def onlyPort3 : State := (waitsAt3 2).modPart 0 fun p => { p with domain := [(9, ⟨2, 0x0004, 0⟩)] }
theorem witness_FlitsAreServed_none : (down3 onlyPort3).route 0 9 = none ∧ onlyPort3.outPart (mineFl 2) = some 0 ∧ (mineFl 2).kind ∈ [0, 2, 4, 6] := by decide +kernel

/-- OMODE of port 3 and of the host's port; the horizon is 100 everywhere, and stamp 200 is from the future. -/
def stamping (port omode : Nat) (origin : Stamp) : State :=
  { (linked.modPart 0 fun p => { p with ports := [(port, ⟨origin, omode, false, 0⟩)], k := 20 }) with
    dies := (List.range 8).map fun d => (d, { linked.die d with horizon := 100 }) }
theorem witness_TheHostAndThePorts_stamps : (stamping 3 1 44).homeHz 0 0x1000 = 100 ∧ ageOf ((stamping 3 1 44).part 0).interval 100 44 ≠ .future
    ∧ ageOf ((stamping 3 1 44).part 0).interval 100 0x40000 = .future
    ∧ ((mget PortStamp.zero ((stamping 3 1 44).part 0).ports 3).omode, (mget PortStamp.zero ((stamping 3 1 44).part 0).ports 4).omode) = (1, 0) := by decide +kernel
theorem test_ingress_modes : ([stamping 3 1 44, stamping 3 2 44, stamping 3 0 44, stamping 3 1 0x40000].map fun s =>
    (fun t : State => (t.stampAt 0x1000, (t.port 3).mismatches)) (after (.ingressWrite 3 0 0x1000 (List.replicate 32 7) 60) s))
    = [(44, 0), (60, 0), (100, 0), (100, 1)] := by decide +kernel
theorem test_host_write_stamp : ([[1, 2], List.replicate 32 7].map fun bs => (after (.hostWrite 0 0x80 bs) (stamping 0 1 44)).stampAt 0x80) = [44, 44]
    ∧ ((after (.hostWrite 0 0x80 [1, 2]) (stamping 0 1 70)).stampAt 0x80) = 50 := by decide +kernel
theorem witness_TheHostAndThePorts_shift : ∃ pg, linked.translate 0 .store 0x80 = .ok pg ∧ (decide (pg.loc % 32 = 0x80 % 32) && !pg.timeless) = true := ok_with _ (by decide +kernel)
/-- The bound of the host's port keeps data of stamp 50 back. -/
def hostBound : State := linked.modPart 0 fun p => { p with ports := [(0, ⟨0, 0, true, 1⟩)], time := 2 ^ 26 }
theorem witness_TheHostAndThePorts_egress : hostBound.egressOk 0 0 50 = false ∧ linked.egressOk 0 0 50 = true ∧ hostBound.stampAt 128 = 50 := by decide +kernel
theorem test_host_read_bound : (fun t : State => (t.module.reads, (t.port 0).refusals, (t.part 0).refusals)) (after (.hostRead 0 128 2) hostBound) = ([none], 1, 0) := by
  decide +kernel
/-- Page 0 of TIER 0b10 lies behind port 17. -/
def cxlPage : State := { paging with
  ptes := aset paging.ptes (tab 2) (BitVec.ofNat 128 (2 * 2 ^ 60 + Config.cxlBase / 4096 * 2 ^ 8 + 0x39)), grants := [{ lo := Config.cxlBase, len := 65536, part := 0, kind := 2 }] }
theorem witness_TheHostAndThePorts_behind : ∃ pg, cxlPage.translate 0 .store 0 = .ok pg ∧ (decide (pg.tier = 2 ∧ pg.loc = Config.cxlBase) && !pg.swm
    && decide (cxlPage.egressPort 0 pg.loc = some 17) && decide (linked.egressPort 0 0x1000 = none)) = true := ok_with _ (by decide +kernel)
/-- Whether an expander errs is not ours to say: where it does not, the write is applied. -/
theorem witness_TheHostAndThePorts_expander (h : ∀ c g, Config.cxlError c g = false) : cxlPage.homeCause false Config.cxlBase 32 = none := by
  have hm : (cxlPage.die (homeDie Config.cxlBase)).memUp = true := by decide +kernel
  simp [State.homeCause, State.cxlBad, h, hm]
/-- Another run of a higher COLLID that holds all staging but one unit; and a graph of two devices. -/
def otherR (state : RunState) : Run := { soloR state with slot := 1, collid := 12, staging := Config.stagingUnits - 1, nodes := [] }
def duoG : Graph := { soloG with header := BitVec.ofNat 512 (Config.deviceId.toNat * 2 ^ 280 + 2 ^ 272) }
def twoRuns (r o : RunState) (msgs : List (Nat × Nat × Nat × Nat)) : State :=
  { linked with graphs := [(0, soloG), (1, soloG)], runs := [(7, soloR r), (8, otherR o)], control := msgs }
theorem witness_RunsStartTogether_lowest : (∀ x ∈ (twoRuns .waiting .waiting []).runs, x.2.collid = 9 → x.1 = 7)
    ∧ (∀ x ∈ (twoRuns .waiting .waiting []).runs, x.1 ≠ 7 → (9 : BitVec 32).toNat < x.2.collid.toNat)
    ∧ (((twoRuns .waiting .waiting []).graph 0).done + 1) % 2 ^ 32 = (soloR .waiting).run ∧ (otherR .waiting).state = .waiting := by decide +kernel
theorem witness_RunsStartTogether_revokes : Config.stagingUnits - ((((twoRuns .waiting .granted []).runs.filter fun x => x.2.state == .granted || x.2.state == .started).map fun x => x.2.staging).sum)
      < (soloR .waiting).staging ∧ (soloR .waiting).collid.toNat < (otherR .granted).collid.toNat ∧ (otherR .granted).revoking = false := by decide +kernel
/-- A device other than this one, which the partition reaches. -/
theorem another : ∀ d : BitVec 8, ∃ x ∈ [8, 9], x ≠ d.toNat ∧ x < 256 := by decide +kernel
theorem witness_RunsStartTogether_another : ∃ dev ∈ [8, 9], dev ≠ Config.deviceId.toNat ∧ dev < 256 := another _
theorem witness_RunsStartTogether_reached : ∀ dev ∈ [8, 9], ((linked.modPart 0 fun p => { p with domain := [(8, ⟨1, 2, 0⟩), (9, ⟨2, 2, 0⟩)] }).route 0 dev).isSome := by
  decide +kernel
theorem ndev_two : ∀ d : BitVec 8, bitsN (BitVec.ofNat 512 (d.toNat * 2 ^ 280 + 2 ^ 272)).toNat 272 8 = 1 := by decide +kernel
theorem ndev_one : ∀ d : BitVec 8, bitsN (BitVec.ofNat 512 (d.toNat * 2 ^ 280)).toNat 272 8 = 0 := by decide +kernel
/-- Grants of a run of two devices: the first and the second; one of another run stands before it. -/
theorem witness_RunsStartTogether_two : duoG.f 272 8 = 1 := ndev_two _
theorem witness_RunsStartTogether_alone : soloG.f 272 8 = 0 := ndev_one _
theorem witness_RunsStartTogether_grants : (union ([] : List Nat) [5]).length ≠ 2 ∧ (union [5] [6]).length = 2
    ∧ (∀ m ∈ [(0, 12, 1, 4)], ¬ (m.1 = 0 ∧ m.2.1 = 9 ∧ m.2.2.1 = 1)) := by decide
theorem test_start_of_a_started : ((after (.runStart 9 1) (twoRuns .started .waiting [(1, 9, 1, 4)])).runs.map fun r => r.2.state) = [.started, .waiting] := by decide +kernel
/-- A REVOKE of a device whose GRANT has come, has not, and after START. -/
theorem witness_RunsStartTogether_revoke : (soloR .granted).startSent = false ∧ ({ soloR .granted with grants := [4] }).grants = [4] ∧ (4 : Nat) ∉ (soloR .granted).grants
    ∧ ({ soloR .granted with startSent := true }).startSent = true ∧ ({ soloR .granted with revoking := true }).revoking = true := by decide
/-- ABORT by message, and at the end of the launch by the watchdog. -/
def dying : State := { running1 (soloR .started) [] with launches := dev.launches.map fun l => (l.1, { l.2 with ending := some (3, 0, 0) }) }
theorem witness_RunsStartTogether_abort : (soloR .started).state ≠ .complete ∧ (soloR .started).aborted = false
    ∧ (dying.launch (dying.root (soloR .started).launch)).ending = some (3, 0, 0) := by decide +kernel
/-- The granule that ends the chunk of node 0: no byte of it is enabled, and its stamp names the type. -/
def endFl : Flit := tagged { fl 8 1 (9 * 2 ^ 15) with aux := 1 * 2 ^ 12, stamps := [wireMark .f32], enables := List.replicate 32 false }
theorem witness_RunsStartTogether_last : granuleOf endFl 0 = [] ∧ (endFl.stamps[0]?).getD 0 = wireMark .f32
    ∧ chunkWhole (aset [(0, (bytesLE 8 0x3F0000003F000000).map fun b => (b, (70 : Stamp)))] 1 []) = true
    ∧ ((aset [(0, (bytesLE 8 0x3F0000003F000000).map fun b => (b, (70 : Stamp)))] 1 []).map fun e => e.2.length).sum = wireBytes .f32 2
    ∧ endFl.ngr = 1 ∧ ((gnode (word3 1 0 18 18)).op, (gnode (word3 1 0 18 18)).wt, (gnode (word3 1 0 18 18)).n) = (1, .f32, 2) := by decide +kernel
/-- Chunks for a run that waits, and for none. -/
theorem witness_RunsStartTogether_dropped : (soloR .waiting).state = .waiting ∧ (∀ x ∈ (twoRuns .waiting .waiting []).runs, (9 : Nat) = x.2.collid.toNat → x.1 = 7)
    ∧ ∀ x ∈ (twoRuns .waiting .waiting []).runs, (77 : Nat) ≠ x.2.collid.toNat := by decide +kernel

/-- SEND to another device: both ways of the egress bound. -/
theorem witness_NodesAct_away (e : BitVec 8) : ∃ dev ∈ [8, 9], (gnode (BitVec.ofNat 256 (2 ^ 136 + 2 ^ 88 + dev * 2 ^ 80 + 18 * 2 ^ 61 + 18 * 2 ^ 56))).op = 0
    ∧ (gnode (BitVec.ofNat 256 (2 ^ 136 + 2 ^ 88 + dev * 2 ^ 80 + 18 * 2 ^ 61 + 18 * 2 ^ 56))).peer ≠ e.toNat := by
  revert e; decide +kernel
theorem witness_NodesAct_egress : boundAt2.egressOk 0 2 60 = false ∧ linked.egressOk 0 2 60 = true := by decide +kernel

/-! ### Commands -/

/-- Bring-up has ended; partition 0 has a session with stamp authority, and 1 GiB of HBM at 0. -/
def up : State :=
  let s := dev.modPart 0 fun p => { p with session := some { ownerKey := 0, secret := 0, commandKey := 0, stampAuth := true, seq := some 4 } }
  { s with module := { s.module with stage := 5, failed := none, keysUsed := [0] }, grants := [{ lo := 0, len := 0x40000000, part := 0, kind := 0 }] }
def hop : Cmd := { fn := 0, tag := 0, seq := 0, len := 0, res47 := 0, part := 0, res31 := 0, isSealed := false, payload := [], bell := 1 }
def hop1 : Cmd := { hop with part := 1 }
/-- The owner's command of a code, with the (opaque) tag that the session's key gives. -/
def hown : Cmd := { hop with fn := 1, isSealed := true, seq := 5 }
def own (code : Nat) : Cmd := { hown with tag := Config.commandTag 0 (lowHeader hown code) [] }
/-- Its session has command key 0 and has accepted SEQ 4. -/
def listens (s : State) : Bool := s.module.stage == 5 && s.module.failed.isNone && s.module.waiting.isEmpty
  && ((s.part 0).session.map fun se => (se.commandKey, se.seq)) == some (0, some 4)
def answered (s : State) (i : Instr) (h : Cmd) : Answer → State
  | .wait => (s.ring i h).wait i
  | .refuse st => (s.ring i h).reply h (s.response h true st [])
  | .done res t => ((t.acceptSeq h).ring i h).reply h (s.response h true 0 res)
theorem own_verifies (se : Session) (i : Instr) (hk : se.commandKey = 0) : se.verifies i (own (codeOf i)) = true := by
  have e : se.verifies i (own (codeOf i)) = (Config.commandTag 0 (lowHeader hown (codeOf i)) [] == Config.commandTag se.commandKey (lowHeader hown (codeOf i)) []) := rfl
  rw [e, hk]; exact beq_self_eq_true _
theorem own_gate (s : State) (i : Instr) (hl : listens s = true) : s.gate i (own (codeOf i)) .own = none := by
  simp only [listens, Bool.and_eq_true, beq_iff_eq, Option.map_eq_some_iff, Prod.mk.injEq] at hl
  obtain ⟨_, se, hse, hk, hq⟩ := hl
  have hv := own_verifies se i hk
  have ho : s.ownGate i (own (codeOf i)) = none := by
    have hp : (own (codeOf i)).part.toNat = 0 := rfl
    have hn : (own (codeOf i)).seq.toNat = 5 := rfl
    have h1 : (!(own (codeOf i)).isSealed || !onOwn (own (codeOf i))) = false := rfl
    simp [State.ownGate, h1, hp, hse, hv, Session.accepts, hq, hn]
  have hm : malformed (own (codeOf i)) = none := rfl
  simp only [State.gate, ho, hm]; rfl
theorem own_after (s : State) (i : Instr) (act : Answer) (code : Nat) (hc : codeOf i = code) (e : exec i s = .next (s.command i (own code) .own act))
    (hl : listens s = true) : after i s = answered s i (own code) act := by
  subst hc
  have hg := own_gate s i hl
  have ha : s.answers (own (codeOf i)) = true := by
    simp only [listens, Bool.and_eq_true] at hl
    have hf : decide ((own (codeOf i)).fn ≤ 8) = true := rfl
    simp [State.answers, hf, hl.1.1]
  have hw : s.module.waiting = [] := by
    simp only [listens, Bool.and_eq_true, List.isEmpty_iff] at hl
    exact hl.1.2
  simp only [after, e, State.command, ha, hw, hg]
  cases act <;> rfl
def status (s : State) (fn : Nat) : Option Nat := (aget? s.module.responses fn).map fun r => bitsN r.header.toNat 0 16
def stP (i : Instr) : Option Nat := status (after i up) 0

theorem witness_CommandsPassTheirGate : up.module.stage = 5 ∧ up.module.failed = none ∧ hown.fn = hown.part.toNat + 1
    ∧ ((up.part 0).session.bind fun se => se.seq) = some 4 ∧ State.reset.module.stage ≠ 5 ∧ State.reset.module.failed = none := by decide +kernel
theorem test_unknown_command : stP (.unknownCommand hop 0x99) = some 1 := by decide +kernel
theorem test_owner_from_operator : (stP (.suspend hop), stP (.powerCap { hop with isSealed := true } 1500)) = (some 3, some 3) := by decide +kernel
theorem test_old_seq : up.ownGate (.suspend hown) { hown with seq := 4 } = some 2 ∧ up.gate (.suspend (own 0x34)) { own 0x34 with seq := 4 } .own = some 2 := by
  have h : ∀ (i : Instr) (c : Cmd), c.isSealed = true → c.fn = 1 → c.part = 0 → c.seq = 4 → up.ownGate i c = some 2 := by
    intro i c h1 h2 h3 h4
    have hs : (up.part 0).session = some { ownerKey := 0, secret := 0, commandKey := 0, stampAuth := true, seq := some 4 } := by decide +kernel
    have hp : c.part.toNat = 0 := by rw [h3]; rfl
    have hn : c.seq.toNat = 4 := by rw [h4]; rfl
    have ho : onOwn c = true := by rw [onOwn, h2, hp]; rfl
    simp [State.ownGate, h1, ho, hp, hs, Session.accepts, hn]
  exact ⟨h _ _ rfl rfl rfl rfl, by simp only [State.gate, h _ { own 0x34 with seq := 4 } rfl rfl rfl rfl]; rfl⟩
/-- A reserved bit that is set, and a payload that is too long; a command that waits. -/
theorem test_malformed : (stP (.powerCap { hop with res31 := 1 } 1500), stP (.powerCap { hop with len := 4065 } 1500)) = (some 4, some 4) := by decide +kernel
def busyUp : State := { up with module := { up.module with waiting := [.powerCap hop 1500] } }
theorem test_command_waits_behind : (fun s : State => (s.module.waiting.length, s.module.cap == up.module.cap)) (after (.powerCap hop 1200) busyUp) = (2, true) := by
  decide +kernel
/-- A command whose tag the key does not give (the tag of the good one, and 1): status 2. -/
theorem test_bad_tag (se : Session) (i : Instr) (hk : se.commandKey = 0) : se.verifies i { own (codeOf i) with tag := (own (codeOf i)).tag + 1 } = false := by
  have e : se.verifies i { own (codeOf i) with tag := (own (codeOf i)).tag + 1 }
      = (Config.commandTag 0 (lowHeader hown (codeOf i)) [] + 1 == Config.commandTag se.commandKey (lowHeader hown (codeOf i)) []) := rfl
  rw [e, hk]
  generalize Config.commandTag 0 (lowHeader hown (codeOf i)) [] = x
  rw [beq_eq_false_iff_ne]
  bv_omega

theorem witness_OwnersConfigureTheirPartition : up.answers hown = true ∧ up.module.waiting = [] ∧ listens up = true ∧ up.inUse 0 = false ∧ (aget? up.parts 0).isSome
    ∧ (up.part 0).root = true := by decide +kernel
theorem witness_OwnersConfigureTheirPartition_map : inFrames 0x40000000 = false ∧ up.entryAllowed 0 3 2 = true ∧ up.entryAllowed 0 1 (0x39 + 0x10 * 2 ^ 8) = true
    ∧ up.entryAt (bitsN 0x40000000 0 55) 3 4 (Config.rootPhys 0) = some (Config.rootPhys 8 + 16) := by decide +kernel
/-- An owner's command that passes its gate is refused with a status. -/
def refuses (s : State) (i : Instr) (code st : Nat) : Prop := ∃ act, exec i s = .next (s.command i (own code) .own act) ∧ act = .refuse st
theorem test_root_set : (fun s : State => (s.part 0).rdbase) (after (.rootSet (own 0x20) 0x1230) up) = 0x1230 := by
  rw [own_after up (.rootSet (own 0x20) 0x1230) _ 0x20 rfl rfl (by decide +kernel)]; decide +kernel
theorem test_map : mget 0 (after (.map (own 0x21) 0x40000000 3 2) up).ptes (Config.rootPhys 8 + 16) = 2 := by
  rw [own_after up (.map (own 0x21) 0x40000000 3 2) _ 0x21 rfl rfl (by decide +kernel)]; decide +kernel
theorem test_map_not_granted : refuses up (.map (own 0x21) 0x40000000 1 (0x39 + 0x40000#128 * 256)) 0x21 7 := ⟨_, rfl, by decide +kernel⟩
theorem test_backing_set : (aget? ((after (.backingSet (own 0x22) 0x20000 { drive := 1, nspace := 2, lba := 3, digest := 0, entry := 0 }) up).part 0).backing 0x20000).map
    (fun r => r.lba) = some 3 := by
  rw [own_after up (.backingSet (own 0x22) 0x20000 { drive := 1, nspace := 2, lba := 3, digest := 0, entry := 0 }) _ 0x22 rfl rfl (by decide +kernel)]; decide +kernel
theorem test_hostwin : (mget HostWin.zero ((after (.hostwin (own 0x23) 2 0x10000 0x20000 0x30000 true false) up).part 0).wins 2) = ⟨0x10000, 0x20000, 0x30000, false, true⟩ := by
  rw [own_after up (.hostwin (own 0x23) 2 0x10000 0x20000 0x30000 true false) _ 0x23 rfl rfl (by decide +kernel)]; decide +kernel
/-- Queue 3 is the partition's. -/
def upQ : State := up.setQueue 3 { Queue.zero with granted := true }
def qf : QueueFields := { halt := false, enable := true, qprio := 2, wdog := 7, logn := 4, taila := 0x1000, ringa := 0x2000, wfailClear := false }
theorem witness_OwnersConfigureTheirPartition_queue : upQ.ownsQueue 0 3 = true ∧ (upQ.queue 3).enable = false ∧ (upQ.queue 3).halt = false ∧ qf.logn ≠ 0 := by
  decide +kernel
theorem test_queue_cfg_aligned : refuses up (.queueCfg (own 0x31) 3 qf) 0x31 7 ∧ refuses upQ (.queueCfg (own 0x31) 3 { qf with ringa := 0x2008 }) 0x31 4 :=
  ⟨⟨_, rfl, by decide +kernel⟩, ⟨_, rfl, by decide +kernel⟩⟩
theorem test_queue_read : ∃ act, exec (.queueRead (own 0x32) 3) upQ = .next (upQ.command (.queueRead (own 0x32) 3) (own 0x32) .own act) ∧ (match act with
    | .done res _ => res.map fun r => r.1
    | _ => []) = [32] := ⟨_, rfl, by decide +kernel⟩
theorem test_cancel : ((launch0 (after (.cancel (own 0x33) 0 0) (up.setQueue 0 { Queue.zero with granted := true }))).ending) = some (4, 0, 0) := by
  rw [own_after (up.setQueue 0 { Queue.zero with granted := true }) (.cancel (own 0x33) 0 0) _ 0x33 rfl rfl (by decide +kernel)]; decide +kernel
theorem test_suspend : (fun s : State => ((s.part 0).suspended, (s.team 0).state)) (after (.suspend (own 0x34)) up) = (true, .saving (2 ^ 20)) := by
  rw [own_after up (.suspend (own 0x34)) _ 0x34 rfl rfl (by decide +kernel)]; decide +kernel
theorem test_resume_command : ((after (.fwResume (own 0x35)) (up.modPart 0 fun p => { p with suspended := true })).part 0).suspended = false := by
  rw [own_after (up.modPart 0 fun p => { p with suspended := true }) (.fwResume (own 0x35)) _ 0x35 rfl rfl (by decide +kernel)]; decide +kernel
/-- A launch that is claimed keeps TIME_CFG off. -/
theorem test_time_cfg_busy : refuses up (.timeCfg (own 0x40) 3 20 0x500000007) 0x40 5 := ⟨_, rfl, by decide +kernel⟩
theorem test_time_cfg : (fun s : State => ((s.part 0).time, (s.die 0).horizon)) (after (.timeCfg (own 0x40) 3 20 (5 * 2 ^ 23)) { up with launches := [] }) = (5 * 2 ^ 23, tstamp (5 * 2 ^ 23)) := by
  rw [own_after ({ up with launches := [] } : State) (.timeCfg (own 0x40) 3 20 (5 * 2 ^ 23)) _ 0x40 rfl rfl (by decide +kernel)]; decide +kernel
theorem test_port_stamp : mget PortStamp.zero ((after (.portStamp (own 0x41) 3 44 2 true 9) up).part 0).ports 3 = ⟨44, 2, true, 9⟩ := by
  rw [own_after up (.portStamp (own 0x41) 3 44 2 true 9) _ 0x41 rfl rfl (by decide +kernel)]; decide +kernel
theorem test_port_stamp_cxl : refuses up (.portStamp (own 0x41) 17 44 2 true 9) 0x41 4 := ⟨_, rfl, by decide +kernel⟩
theorem test_wlog_cfg : (fun p : Part => (p.wlogRing, p.wlogN, p.wlogOn)) ((after (.wlogCfg (own 0x42) 0x3000 6 true) up).part 0) = (0x3000, 6, true) := by
  rw [own_after up (.wlogCfg (own 0x42) 0x3000 6 true) _ 0x42 rfl rfl (by decide +kernel)]; decide +kernel
theorem test_preempt_cfg : (fun p : Part => (p.drainp, p.flushp, p.parkth)) ((after (.preemptCfg (own 0x43) 9 8 100) up).part 0) = (9, 8, 100) := by
  rw [own_after up (.preemptCfg (own 0x43) 9 8 100) _ 0x43 rfl rfl (by decide +kernel)]; decide +kernel
theorem test_domain_set : (aget? ((after (.domainSet (own 0x50) 9 true 2 6 0) up).part 0).domain 9).map (fun e => (e.ldom, e.ports)) = some (2, 6) := by
  rw [own_after up (.domainSet (own 0x50) 9 true 2 6 0) _ 0x50 rfl rfl (by decide +kernel)]; decide +kernel
theorem test_key_rotate : (fun s : State => ((s.part 0).key, s.slots)) (after (.keyRotate (own 0x13)) { up with mem := [], stamps := [] }) = (1, []) := by
  rw [own_after ({ up with mem := [], stamps := [] } : State) (.keyRotate (own 0x13)) _ 0x13 rfl rfl (by decide +kernel)]; decide +kernel

theorem witness_OperatorsShareTheDevice : up.answers hop = true ∧ up.module.waiting = [] ∧ aget? up.parts 1 = none ∧ up.freeKey none = some 1 ∧ (∀ q ∈ up.parts, q.2.dies &&& 2 = 0)
    ∧ grantable 0x40000000 0x10000 false = true ∧ (∀ g ∈ up.grants, overlaps 0x40000000 0x10000 g.lo g.len = false) := by decide +kernel
theorem witness_OperatorsShareTheDevice_revoke : overlaps 0x10000 1 0 0x40000000 = true ∧ ({ up with ptes := [] } : State).granted 0 0x10000 0x10000 0 = true
    ∧ (({ up with ptes := [] } : State).entriesOf 0).flatMap entryRanges = [] := by decide +kernel
theorem witness_OperatorsShareTheDevice_fits : cmdFits hop := ⟨by decide, rfl, rfl⟩
theorem test_part_create : (fun s : State => ((s.part 1).dies, (s.part 1).key, (s.part 1).parkth, (s.die 1).horizon)) (after (.partCreate hop1 2) up) = (2, 1, 50, 0xFFFFFFFF) := by
  decide +kernel
theorem test_part_create_taken : status (after (.partCreate hop1 1) up) 0 = some 5 := by decide +kernel
theorem test_part_destroy : (fun s : State => (s.parts, s.grants)) (after (.partDestroy hop) { up with mem := [], stamps := [] }) = ([], []) := by decide +kernel
theorem test_mem_grant : ((after (.memGrant hop 0x40000000 0x10000 false) up).grants.map fun g => (g.lo, g.part, g.kind)) = [(0, 0, 0), (0x40000000, 0, 0)] := by
  decide +kernel
theorem test_mem_revoke : ((after (.memRevoke hop 0x10000 0x10000) { up with ptes := [] }).grants.map fun g => (g.lo, g.len)) = [(0, 0x10000), (0x20000, 0x3FFE0000)] := by
  decide +kernel
theorem test_mem_revoke_mapped : stP (.memRevoke hop 0x10000 0x10000) = some 5 := by decide +kernel
theorem test_queue_grant : (fun q : Queue => (q.granted, q.part)) ((after (.queueGrant hop 9 false) up).queue 9) = (true, 0) := by decide +kernel
theorem test_link_retrain : ((after (.linkRetrain hop 3) (up.setPort 3 { Port.zero with down := true })).port 3).down = false := by decide +kernel
theorem test_power_cap : ((after (.powerCap hop 1200) up).module.cap, stP (.powerCap hop 2201)) = (1200, some 4) := by decide +kernel
theorem test_session_open : (((after (.sessionOpen { hown with isSealed := false } 7 8 true true) up).part 0).session.map fun se => (se.ownerKey, se.seq)) = some (7, none) := by
  decide +kernel
theorem test_attest : stP (.attest hop1 7) = some 4 ∧ stP (.attest hop 7) = some 0 := by decide +kernel
theorem test_identify : stP (.identify hop) = some 0 := by decide +kernel

/-! ### Resets and power -/

theorem witness_ResetsAndPower : (aget? up.parts 0).isSome ∧ State.reset.module.stage < 5 ∧ (launch0 up).state = .claiming := by decide +kernel
theorem test_partition_reset : (fun s : State => ((launch0 s).state, (launch0 s).status, s.slots, (s.queue 0).herr)) (after (.partitionReset 0) (up.setQueue 0 { Queue.zero with granted := true }))
    = (.complete, 5, [], 5) := by decide +kernel
theorem test_module_reset : (after .moduleReset up).slots = [] ∧ (after (.overtempReset 109) up).slots = up.slots := ⟨rfl, rfl⟩
theorem test_bring_up : ((after (.bringUp true) State.reset).module.stage, (after (.bringUp false) State.reset).module.failed) = (1, some 1) := by decide +kernel
theorem test_memory_side_reset : ((after (.memorySideReset 0) { dev with mem := [], stamps := [] }).die 0).memUp = false := by decide +kernel
theorem test_throttle : ((after (.powerThrottle 100 96) up).module.throttled, (after (.throttlingEnd 100 95) { up with module := { up.module with throttled := true } }).module.throttled)
    = (true, true) := by decide +kernel

/-! ### Grants that are refused, ranges in several grants, an owner's PART_DESTROY -/

theorem witness_OperatorsShareTheDevice_refused : (aget? up.parts 0).isSome ∧ grantable 0x20000 0x10000 false = true ∧ (∃ g ∈ up.grants, overlaps 0x20000 0x10000 g.lo g.len = true)
    ∧ grantable 0x20001 0x10000 false = false := by decide +kernel
theorem test_mem_grant_refused : (stP (.memGrant hop 0x20000 0x10000 false), stP (.memGrant hop 0x20001 0x10000 false)) = (some 5, some 4) := by decide +kernel
/-- The range lies in two grants of the partition, of two kinds; nothing maps it. -/
def twoGrants : State := { up with ptes := [], grants := [{ lo := 0, len := 0x20000, part := 0, kind := 0 }, { lo := 0x20000, len := 0x20000, part := 0, kind := 1 }] }
theorem witness_OperatorsShareTheDevice_several : (twoGrants.grants.find? fun g => overlaps 0x10000 1 g.lo g.len).map (fun g => g.part) = some 0
    ∧ (∀ a ∈ [0x10000, 0x20000], ∃ x ∈ twoGrants.grants, x.part = 0 ∧ x.lo ≤ a ∧ a + 65536 ≤ x.lo + x.len)
    ∧ (twoGrants.entriesOf 0).flatMap entryRanges = [] ∧ twoGrants.inUse 0 = false ∧ 0x10000 % 65536 = 0 ∧ 0x20000 % 65536 = 0 := by decide +kernel
theorem test_mem_revoke_several : ((after (.memRevoke hop 0x10000 0x20000) twoGrants).grants.map fun g => (g.lo, g.len)) = [(0, 0x10000), (0x30000, 0x10000)] := by
  decide +kernel
/-- No one holds the range; its owner holds a piece of it only; an entry maps it. -/
theorem witness_OperatorsShareTheDevice_kept : (twoGrants.grants.find? fun g => overlaps 0x80000 1 g.lo g.len) = none
    ∧ (∀ x ∈ twoGrants.grants, ¬ (x.lo ≤ 0x40000 ∧ 0x40000 + 65536 ≤ x.lo + x.len))
    ∧ (∃ u ∈ (up.entriesOf 0).flatMap entryRanges, overlaps 0x10000 0x10000 u.1 u.2 = true) := by decide +kernel
theorem test_mem_revoke_kept : (status (after (.memRevoke hop 0x80000 0x10000) twoGrants) 0, status (after (.memRevoke hop 0x30000 0x20000) twoGrants) 0) = (some 5, some 5) := by
  decide +kernel

/-- The owner ends its partition 0. -/
def bare : State := { up with mem := [], stamps := [] }
theorem witness_OwnersConfigureTheirPartition_destroy : bare.gate (.partDestroy (own 0x11)) (own 0x11) .own = none ∧ (aget? bare.parts 0).isSome := by
  exact ⟨own_gate bare (.partDestroy (own 0x11)) (by decide +kernel), by decide +kernel⟩
theorem witness_OwnersConfigureTheirPartition_cancel : (launch0 up).ending = none ∧ (launch0 up).stage ≠ 2 ∧ aget? up.launches 0 = some (launch0 up) := by decide +kernel
theorem witness_ResetsAndPower_pages : ∀ x ∈ up.launches, x.2.part = 0 → x.2.state = .claiming → aget? up.launches x.1 = some x.2 ∧ up.endWaits x.2 = none ∧ x.2.stage ≠ 2 := by
  decide +kernel
theorem test_partition_reset_keeps : (fun s : State => (s.module.keys.length, (s.part 0).key, (s.part 0).session.isSome)) (after (.partitionReset 0) up)
    = (up.module.keys.length, (up.part 0).key, true) := by decide +kernel
theorem test_module_reset_keeps : (fun s : State => (s.uid, s.clock, s.storage.length)) (after .moduleReset { paging with clock := 9 }) = (paging.uid, 0, 1) := by
  decide +kernel

end

end Sys2Proof.Tests
end

section
/-!
SUPPORT. No step stops (O6): a device step answers a next state whatever the state, an instruction word does in the slot that issues
it, and `step` runs the meaning of a word in no other state (R62, R64, R360).
-/
namespace Sys2Proof.Proofs

open Sys2Proof.Machine Sys2Proof.Laws

/-! ### Computations that go on -/

/-- A computation answers a next state: it neither faults nor is refused. (`Runs i s` says so of `exec i s`.) -/
def GoesOn (o : Host.Outcome State Fault Refusal) : Prop := ∃ t, o = .next t

@[simp] theorem goesOn_next (t : State) : GoesOn (.next t) := ⟨t, rfl⟩

theorem andThen_goesOn {o : Host.Outcome State Fault Refusal} {f : State → Host.Outcome State Fault Refusal}
    (ho : GoesOn o) (hf : ∀ t, GoesOn (f t)) : GoesOn (andThen o f) := by
  obtain ⟨t, rfl⟩ := ho
  exact hf t

/-! ### Instruction words -/

/-- R62, R64: the meaning of an instruction word is the course of its slot's issue, under the guard that the word names. -/
theorem exec_word {i : Instr} : encodeRaw i ≠ none → ∃ k, ∀ s, exec i s = onSlot (guardOf i) s k := by
  fun_cases encodeRaw i
  -- the last line of the table: a device step, which has no word
  rotate_right
  · exact absurd rfl
  all_goals
    intro _
    simp only [exec]
    exact ⟨_, fun _ => rfl⟩

theorem exec_word_goesOn {i : Instr} (h : encodeRaw i ≠ none) {s : State} {c : IssueCtx} {sl : Slot} (hs : Issues s c sl) :
    GoesOn (exec i s) := by
  obtain ⟨k, hk⟩ := exec_word h
  exact ⟨_, (hk s).trans (onSlot_next hs _ k)⟩

/-! ### Device steps

Every branch of a device step's definition ends in a next state. -/

/-! #### Memory -/

@[simp] theorem execBankDrainDone_goesOn (cl bank : Nat) (s : State) : GoesOn (execBankDrainDone cl bank s) := by
  fun_cases execBankDrainDone <;> exact goesOn_next _

@[simp] theorem execLoadDataArrive_goesOn (o : Nat) (s : State) : GoesOn (execLoadDataArrive o s) := by
  fun_cases execLoadDataArrive <;> exact goesOn_next _

@[simp] theorem execStoreApply_goesOn (o gran : Nat) (s : State) : GoesOn (execStoreApply o gran s) := by
  fun_cases execStoreApply <;> exact goesOn_next _

/-! #### Fibres and the weave former -/

@[simp] theorem execJoinRelease_goesOn (g : Nat) (s : State) : GoesOn (execJoinRelease g s) := by
  fun_cases execJoinRelease <;> exact goesOn_next _

@[simp] theorem execWeaveFormerPlace_goesOn (g : Nat) (s : State) : GoesOn (execWeaveFormerPlace g s) := by
  fun_cases execWeaveFormerPlace <;> exact goesOn_next _

@[simp] theorem execFormerEmptySlot_goesOn (core q : Nat) (s : State) : GoesOn (execFormerEmptySlot core q s) := by
  fun_cases execFormerEmptySlot core q s
  case case2 go g _ _ =>
    obtain ⟨t, ht⟩ := execWeaveFormerPlace_goesOn g s
    simp [go, ht]
  case case3 go g _ _ _ =>
    obtain ⟨t, ht⟩ := execWeaveFormerPlace_goesOn g (s.emptySlot g)
    simp [go, ht]
  all_goals exact goesOn_next _

@[simp] theorem execSpillReturn_goesOn (core q : Nat) (s : State) : GoesOn (execSpillReturn core q s) := by
  fun_cases execSpillReturn <;> exact goesOn_next _

@[simp] theorem execYieldRelease_goesOn (g : Nat) (s : State) : GoesOn (execYieldRelease g s) := by
  fun_cases execYieldRelease <;> exact goesOn_next _

@[simp] theorem execSleepExpire_goesOn (g : Nat) (s : State) : GoesOn (execSleepExpire g s) := by
  fun_cases execSleepExpire <;> exact goesOn_next _

/-! #### Atomics -/

@[simp] theorem execAtomicApply_goesOn (o lane : Nat) (s : State) : GoesOn (execAtomicApply o lane s) := by
  fun_cases execAtomicApply <;> exact goesOn_next _

@[simp] theorem execAtomicResponseLost_goesOn (o lane : Nat) (s : State) : GoesOn (execAtomicResponseLost o lane s) := by
  fun_cases execAtomicResponseLost <;> exact goesOn_next _

@[simp] theorem execAtomicTimeout_goesOn (o lane : Nat) (s : State) : GoesOn (execAtomicTimeout o lane s) := by
  fun_cases execAtomicTimeout <;> exact goesOn_next _

/-! #### The matrix engine -/

@[simp] theorem execMmaStep_goesOn (o : Nat) (s : State) : GoesOn (execMmaStep o s) := by
  fun_cases execMmaStep <;> exact goesOn_next _

/-! #### The vocabulary projection -/

@[simp] theorem execVprojChunk_goesOn (o : Nat) (s : State) : GoesOn (execVprojChunk o s) := by
  fun_cases execVprojChunk <;> exact goesOn_next _

@[simp] theorem execTileRetire_goesOn (o : Nat) (s : State) : GoesOn (execTileRetire o s) := by
  fun_cases execTileRetire <;> exact goesOn_next _

/-! #### The copy engine -/

@[simp] theorem execCopyEntryComplete_goesOn (o : Nat) (s : State) : GoesOn (execCopyEntryComplete o s) := by
  fun_cases execCopyEntryComplete <;> exact goesOn_next _

/-! #### Queues, launches and teams -/

@[simp] theorem execPlaceTeam_goesOn (die : Nat) (s : State) : GoesOn (execPlaceTeam die s) := by
  fun_cases execPlaceTeam <;> exact goesOn_next _

@[simp] theorem execPlacementStarvation_goesOn (die : Nat) (s : State) : GoesOn (execPlacementStarvation die s) := by
  fun_cases execPlacementStarvation <;> exact goesOn_next _

@[simp] theorem execCoresidentStart_goesOn (lid : Nat) (s : State) : GoesOn (execCoresidentStart lid s) := by
  fun_cases execCoresidentStart <;> exact goesOn_next _

@[simp] theorem execLaunchComplete_goesOn (lid : Nat) (s : State) : GoesOn (execLaunchComplete lid s) := by
  fun_cases execLaunchComplete <;> exact goesOn_next _

@[simp] theorem execTeamEnd_goesOn (t : Nat) (s : State) : GoesOn (execTeamEnd t s) := by
  fun_cases execTeamEnd <;> exact goesOn_next _

@[simp] theorem execWatchdogFire_goesOn (q : Nat) (s : State) : GoesOn (execWatchdogFire q s) := by
  fun_cases execWatchdogFire <;> exact goesOn_next _

@[simp] theorem execTailWrite_goesOn (q : Nat) (s : State) : GoesOn (execTailWrite q s) := by
  fun_cases execTailWrite <;> exact goesOn_next _

@[simp] theorem execLaunchStart_goesOn (q : Nat) (s : State) : GoesOn (execLaunchStart q s) := by
  fun_cases execLaunchStart <;> exact goesOn_next _

/-! #### Appends -/

@[simp] theorem execAppendApply_goesOn (o lane : Nat) (s : State) : GoesOn (execAppendApply o lane s) := by
  fun_cases execAppendApply <;> exact goesOn_next _

/-! #### Runs of collective graphs -/

@[simp] theorem execRunTake_goesOn (s : State) : GoesOn (execRunTake s) := by
  fun_cases execRunTake <;> exact goesOn_next _

@[simp] theorem execRunGrant_goesOn (collid : BitVec 32) (run : BitVec 20) (s : State) : GoesOn (execRunGrant collid run s) := by
  fun_cases execRunGrant <;> exact goesOn_next _

@[simp] theorem execRunStart_goesOn (collid : BitVec 32) (run : BitVec 20) (s : State) : GoesOn (execRunStart collid run s) := by
  fun_cases execRunStart <;> exact goesOn_next _

@[simp] theorem execRunRevoke_goesOn (collid : BitVec 32) (run : BitVec 20) (dev : BitVec 8) (s : State) :
    GoesOn (execRunRevoke collid run dev s) := by
  fun_cases execRunRevoke <;> exact goesOn_next _

@[simp] theorem execChunkReceive_goesOn (port : Nat) (f : Flit) (s : State) : GoesOn (execChunkReceive port f s) := by
  fun_cases execChunkReceive <;> exact goesOn_next _

@[simp] theorem execNodeSend_goesOn (k i : Nat) (s : State) : GoesOn (execNodeSend k i s) := by
  fun_cases execNodeSend <;> exact goesOn_next _

@[simp] theorem execNodeRecv_goesOn (k i : Nat) (s : State) : GoesOn (execNodeRecv k i s) := by
  fun_cases execNodeRecv <;> exact goesOn_next _

@[simp] theorem execNodeReduce_goesOn (k i : Nat) (s : State) : GoesOn (execNodeReduce k i s) := by
  fun_cases execNodeReduce <;> exact goesOn_next _

@[simp] theorem execNodeCopy_goesOn (k i : Nat) (s : State) : GoesOn (execNodeCopy k i s) := by
  fun_cases execNodeCopy <;> exact goesOn_next _

@[simp] theorem execNodeMerge_goesOn (k i : Nat) (s : State) : GoesOn (execNodeMerge k i s) := by
  fun_cases execNodeMerge <;> exact goesOn_next _

@[simp] theorem execNodeTeam_goesOn (k i : Nat) (s : State) : GoesOn (execNodeTeam k i s) := by
  fun_cases execNodeTeam <;> exact goesOn_next _

@[simp] theorem execNodeNop_goesOn (k i : Nat) (s : State) : GoesOn (execNodeNop k i s) := by
  fun_cases execNodeNop <;> exact goesOn_next _

@[simp] theorem execRunAbort_goesOn (collid : BitVec 32) (run : BitVec 20) (s : State) : GoesOn (execRunAbort collid run s) := by
  fun_cases execRunAbort <;> exact goesOn_next _

@[simp] theorem execRunComplete_goesOn (k : Nat) (s : State) : GoesOn (execRunComplete k s) := by
  fun_cases execRunComplete <;> exact goesOn_next _

/-! #### The groom -/

@[simp] theorem execGroomPageIn_goesOn (p : Nat) (va : BitVec 64) (storageOk : Bool) (s : State) :
    GoesOn (execGroomPageIn p va storageOk s) := by
  fun_cases execGroomPageIn <;> exact goesOn_next _

@[simp] theorem execKcallDone_goesOn (o : Nat) (storageOk : Bool) (s : State) : GoesOn (execKcallDone o storageOk s) := by
  fun_cases execKcallDone <;> exact goesOn_next _

@[simp] theorem execRefireServe_goesOn (g : Nat) (s : State) : GoesOn (execRefireServe g s) := by
  fun_cases execRefireServe <;> exact goesOn_next _

@[simp] theorem execRefireReplay_goesOn (g : Nat) (s : State) : GoesOn (execRefireReplay g s) := by
  fun_cases execRefireReplay <;> exact goesOn_next _

/-! #### The timebase -/

@[simp] theorem execPartitionTick_goesOn (p : Nat) (s : State) : GoesOn (execPartitionTick p s) := by
  fun_cases execPartitionTick <;> exact goesOn_next _

@[simp] theorem execHorizonMessage_goesOn (die : Nat) (s : State) : GoesOn (execHorizonMessage die s) := by
  fun_cases execHorizonMessage <;> exact goesOn_next _

/-! #### Pre-emption -/

@[simp] theorem execSwitchOut_goesOn (core : Nat) (s : State) : GoesOn (execSwitchOut core s) := by
  fun_cases execSwitchOut <;> exact goesOn_next _

@[simp] theorem execPriorityPreempt_goesOn (die : Nat) (s : State) : GoesOn (execPriorityPreempt die s) := by
  fun_cases execPriorityPreempt <;> exact goesOn_next _

@[simp] theorem execPreemptDrain_goesOn (t : Nat) (s : State) : GoesOn (execPreemptDrain t s) := by
  fun_cases execPreemptDrain <;> exact goesOn_next _

@[simp] theorem execDrainTimeout_goesOn (t : Nat) (s : State) : GoesOn (execDrainTimeout t s) := by
  fun_cases execDrainTimeout <;> exact goesOn_next _

@[simp] theorem execPreemptSave_goesOn (t : Nat) (s : State) : GoesOn (execPreemptSave t s) := by
  fun_cases execPreemptSave <;> exact goesOn_next _

@[simp] theorem execSaveTimeout_goesOn (t : Nat) (s : State) : GoesOn (execSaveTimeout t s) := by
  fun_cases execSaveTimeout <;> exact goesOn_next _

@[simp] theorem execPreemptFlush_goesOn (t : Nat) (s : State) : GoesOn (execPreemptFlush t s) := by
  fun_cases execPreemptFlush <;> exact goesOn_next _

@[simp] theorem execTeamRestore_goesOn (t : Nat) (s : State) : GoesOn (execTeamRestore t s) := by
  fun_cases execTeamRestore <;> exact goesOn_next _

/-! #### The links -/

@[simp] theorem execIngressWrite_goesOn (port p : Nat) (va : BitVec 64) (bytes : List Byte) (carried : Stamp) (s : State) :
    GoesOn (execIngressWrite port p va bytes carried s) := by
  fun_cases execIngressWrite <;> exact goesOn_next _

@[simp] theorem execFlitReceive_goesOn (port : Nat) (f : Flit) (s : State) : GoesOn (execFlitReceive port f s) := by
  fun_cases execFlitReceive <;> exact goesOn_next _

@[simp] theorem execFlitResend_goesOn (port : Nat) (tag : BitVec 16) (s : State) : GoesOn (execFlitResend port tag s) := by
  fun_cases execFlitResend <;> exact goesOn_next _

@[simp] theorem execPortDown_goesOn (port : Nat) (s : State) : GoesOn (execPortDown port s) := by
  fun_cases execPortDown <;> exact goesOn_next _

/-! #### Host, ingress and back-invalidation -/

@[simp] theorem execHostRead_goesOn (p : Nat) (off : BitVec 64) (len : Nat) (s : State) : GoesOn (execHostRead p off len s) := by
  fun_cases execHostRead <;> exact goesOn_next _

@[simp] theorem execHostWrite_goesOn (p : Nat) (off : BitVec 64) (bytes : List Byte) (s : State) :
    GoesOn (execHostWrite p off bytes s) := by
  fun_cases execHostWrite <;> exact goesOn_next _

@[simp] theorem execBackInvalidate_goesOn (line : Nat) (s : State) : GoesOn (execBackInvalidate line s) := by
  fun_cases execBackInvalidate <;> exact goesOn_next _

/-! #### Resets, bring-up and power -/

@[simp] theorem execPartitionReset_goesOn (p : Nat) (s : State) : GoesOn (execPartitionReset p s) := by
  fun_cases execPartitionReset <;> exact goesOn_next _

@[simp] theorem execTerminationTimeout_goesOn (q : Nat) (s : State) : GoesOn (execTerminationTimeout q s) := by
  fun_cases execTerminationTimeout <;> exact goesOn_next _

@[simp] theorem execBringUp_goesOn (ok : Bool) (s : State) : GoesOn (execBringUp ok s) := by
  fun_cases execBringUp <;> exact goesOn_next _

@[simp] theorem execMemorySideReset_goesOn (die : Nat) (s : State) : GoesOn (execMemorySideReset die s) := by
  fun_cases execMemorySideReset <;> exact goesOn_next _

@[simp] theorem execPowerThrottle_goesOn (watts temp : Nat) (s : State) : GoesOn (execPowerThrottle watts temp s) := by
  fun_cases execPowerThrottle <;> exact goesOn_next _

@[simp] theorem execThrottlingEnd_goesOn (watts temp : Nat) (s : State) : GoesOn (execThrottlingEnd watts temp s) := by
  fun_cases execThrottlingEnd <;> exact goesOn_next _

@[simp] theorem execOvertempReset_goesOn (temp : Nat) (s : State) : GoesOn (execOvertempReset temp s) := by
  fun_cases execOvertempReset <;> exact goesOn_next _

/-! #### Firmware commands -/

@[simp] theorem execIdentify_goesOn (h : Cmd) (s : State) : GoesOn (execIdentify h s) := by
  fun_cases execIdentify <;> exact goesOn_next _

/-! #### Replies of TIME -/

@[simp] theorem execTimeReply_goesOn (o : Nat) (s : State) : GoesOn (execTimeReply o s) := by
  fun_cases execTimeReply <;> exact goesOn_next _

/-- A device step goes on in every state: most by the lemma of its own above; a firmware command, a page-out and a module reset are a
next state outright, as a command that is refused is answered with a status (R341). -/
theorem exec_event_goesOn {i : Instr} (h : encodeRaw i = none) (s : State) : GoesOn (exec i s) := by
  cases i <;> cases h
  case groomPageOut | rootSet | backingSet | hostwin | queueRead | cancel | fwResume | wlogCfg | preemptCfg | linkRetrain |
    powerCap | unknownCommand | moduleReset | attest | partCreate | partDestroy | sessionOpen | keyRotate | map |
    memGrant | memRevoke | kernelBind | queueCfg | suspend | queueGrant | timeCfg | portStamp | domainSet => exact goesOn_next _
  all_goals simp [exec]

/-! ### The issue of a slot -/

/-- A pass over an association list that keeps every key keeps which keys stand in it. -/
theorem aget_map_isSome {α : Type} (m : List (Nat × α)) {f : Nat × α → Nat × α} (hf : ∀ x, (f x).1 = x.1) (k : Nat) :
    (aget? (m.map f) k).isSome = (aget? m k).isSome := by
  induction m with
  | nil => rfl
  | cons x m ih =>
    simp only [List.map_cons, aget?, hf]
    split
    · rfl
    · exact ih

theorem foldl_slots {β : Type} (l : List β) {f : State → β → State} (hf : ∀ s b, (f s b).slots = s.slots) (s : State) :
    (l.foldl f s).slots = s.slots := by
  induction l generalizing s with
  | nil => rfl
  | cons b l ih => exact (ih _).trans (hf s b)

theorem foldl_modFibre_slots (l : List Nat) (f : Fibre → Fibre) (s : State) :
    (l.foldl (fun s k => s.modFibre k f) s).slots = s.slots :=
  foldl_slots (f := fun s k => s.modFibre k f) l (fun s k => modFibre_slots s k f) s

@[simp] theorem noteFetch_slots (s : State) (g : Nat) (sl : Slot) : (s.noteFetch g sl).slots = s.slots := by
  simp only [State.noteFetch]
  split
  · rfl
  · refine foldl_slots _ (fun _ _ => ?_) _
    rfl

@[simp] theorem strike_isSome (s : State) (g k : Nat) : (aget? (s.strike g).slots k).isSome = (aget? s.slots k).isSome := by
  refine aget_map_isSome s.slots (fun x => ?_) k
  split
  · rfl
  · split <;> rfl

/-- What an issue notes leaves the slot in its place. -/
theorem noteIssue_keeps_slot {s : State} {g : Nat} {sl : Slot} (h : aget? s.slots g = some sl) (keep : Bool) :
    ∃ sl', aget? (s.noteIssue g sl keep).slots g = some sl' := by
  rw [← Option.isSome_iff_exists]
  simp only [State.noteIssue, modSlot_slots, aget_aupd_same, Option.isSome_map, strike_isSome, modLaunch_slots]
  split <;> simp [foldl_modFibre_slots, h]

/-- R62, R64: a meaning that an issue runs finds its slot issuing. -/
theorem startIssue_run {s t : State} {g : Nat} {peers : List Nat} {i : Instr} (h : s.startIssue g peers = .run i t) :
    ∃ c sl, Issues t c sl := by
  unfold State.startIssue at h
  split at h
  · cases h
  next sl hsl =>
    split at h
    · cases h
    · cases h
    · cases h
    · cases h
      exact ⟨_, _, rfl, (noteIssue_keeps_slot hsl _).choose_spec⟩

theorem runSlot_goesOn (g : Nat) (peers : List Nat) (s : State) : GoesOn (runSlot g peers s) := by
  unfold runSlot
  split
  · exact goesOn_next _
  next i t h =>
    obtain ⟨c, sl, hs⟩ := startIssue_run h
    refine andThen_goesOn ?_ fun _ => goesOn_next _
    by_cases hw : encodeRaw i = none
    · exact exec_event_goesOn hw t
    · exact exec_word_goesOn hw hs

theorem runSlots_goesOn (peers gs : List Nat) (s : State) : GoesOn (runSlots peers gs s) := by
  induction gs generalizing s with
  | nil => exact goesOn_next s
  | cons g gs ih => exact andThen_goesOn (runSlot_goesOn g peers s) ih

/-! ### The acts of the agenda -/

theorem runQuarter_goesOn (core q : Nat) (s : State) : GoesOn (runQuarter core q s) := by
  fun_cases runQuarter core q s
  · exact goesOn_next s
  · exact runSlots_goesOn _ _ _

theorem runQuarters_goesOn (ks : List Nat) (s : State) : GoesOn (runQuarters ks s) := by
  induction ks generalizing s with
  | nil => exact goesOn_next s
  | cons k ks ih => exact andThen_goesOn (andThen_goesOn (runQuarter_goesOn _ _ s) fun t => runQuarter_goesOn _ _ t) ih

theorem takeTurn_goesOn (core q : Nat) (s : State) : GoesOn (takeTurn core q s) := by
  fun_cases takeTurn core q s
  · exact goesOn_next s
  · exact andThen_goesOn (runQuarters_goesOn _ s) fun _ => runQuarter_goesOn core q _

theorem passClock_goesOn (s : State) : GoesOn (passClock s) :=
  andThen_goesOn (runQuarters_goesOn _ s) fun _ => goesOn_next _

/-- An event that is an instruction word does nothing by itself (log 64). -/
theorem runAct_goesOn (a : Act) (s : State) : GoesOn (runAct a s) := by
  fun_cases runAct a s
  · exact passClock_goesOn s
  · exact takeTurn_goesOn _ _ s
  next h => exact exec_event_goesOn (Option.isNone_iff_eq_none.mp h) s
  · exact goesOn_next s

/-- Settles O6: whichever act the agenda moves next, it goes on. -/
theorem stepNeverStops : Obligations.StepNeverStops := fun s => runAct_goesOn s.nextAct.1 s.nextAct.2

end Sys2Proof.Proofs
end

section
/-!
SUPPORT. Placement (O50): what a note of starvation leaves of a state, which launch a processor finds in its order, and what a placed team,
its fibres and its slots are (R21, R32 to R36, R63).
-/
namespace Sys2Proof.Proofs

open Sys2Proof.Machine Sys2Proof.Laws

/-! ### Lists and folds -/

theorem firstSome_append {α β : Type} {f : α → Option β} {pre : List α} (h : ∀ x ∈ pre, f x = none) (xs : List α) :
    firstSome f (pre ++ xs) = firstSome f xs := by
  induction pre with
  | nil => rfl
  | cons x pre ih =>
    obtain ⟨hx, hpre⟩ := List.forall_mem_cons.mp h
    simp [firstSome, hx, ih hpre]

/-- After a list of writes to a map, a key that was written holds the value of one of its writes, any other what it held. -/
theorem aget_foldl_aset {α β : Type} (l : List β) (f : β → Nat) (g : β → α) (m : List (Nat × α)) (k : Nat) :
    (∃ c ∈ l, f c = k ∧ aget? (l.foldl (fun m b => aset m (f b) (g b)) m) k = some (g c))
      ∨ ((∀ c ∈ l, f c ≠ k) ∧ aget? (l.foldl (fun m b => aset m (f b) (g b)) m) k = aget? m k) := by
  induction l generalizing m with
  | nil => exact .inr ⟨by simp, rfl⟩
  | cons b l ih =>
    rcases ih (aset m (f b) (g b)) with ⟨c, hc, hk, hv⟩ | ⟨hl, hv⟩
    · exact .inl ⟨c, List.mem_cons_of_mem _ hc, hk, hv⟩
    · by_cases hb : f b = k
      · exact .inl ⟨b, List.mem_cons_self .., hb, by rw [List.foldl_cons, hv, hb, aget_aset_same]⟩
      · exact .inr ⟨List.forall_mem_cons.mpr ⟨hb, hl⟩, by rw [List.foldl_cons, hv, aget_aset_other _ _ (Ne.symm hb)]⟩

/-- The total map that holds `v i` at each `i` below `n`. -/
theorem mget_foldl_range {α : Type} [DecidableEq α] (d : α) (v : Nat → α) (n k : Nat) :
    mget d ((List.range n).foldl (fun m i => mset d m i (v i)) []) k = if k < n then v k else d := by
  induction n with
  | zero => rfl
  | succ n ih =>
    rw [List.range_succ, List.foldl_append, List.foldl_cons, List.foldl_nil, mget_mset, ih]
    by_cases hk : k = n
    · simp [hk]
    · simp only [hk, if_false]
      congr 1
      simp only [eq_iff_iff]; omega

/-! ### What a note of starvation leaves (R33) -/

/-- A launch without the clocks at which it found no core. -/
def unstarved (l : Launch) : Launch := { l with starving := [] }

/-- Every launch as before, but for the clocks at which it found no core; everything else as before. -/
structure OnlyStarving (s t : State) : Prop where
  rest : t = { s with launches := t.launches }
  launches : ∀ k, (aget? t.launches k).map unstarved = (aget? s.launches k).map unstarved

namespace OnlyStarving

theorem refl (s : State) : OnlyStarving s s := ⟨rfl, fun _ => rfl⟩

theorem trans {s t u : State} (h : OnlyStarving s t) (h' : OnlyStarving t u) : OnlyStarving s u :=
  ⟨by rw [h'.rest, h.rest], fun k => (h'.launches k).trans (h.launches k)⟩

/-- The total reader of the launches: a launch that is not listed reads as before too. -/
theorem launch {s t : State} (h : OnlyStarving s t) (k : Nat) : unstarved (t.launch k) = unstarved (s.launch k) := by
  have hk := h.launches k
  unfold State.launch
  cases ht : aget? t.launches k <;> cases hs : aget? s.launches k <;> simp_all

section
variable {s t : State} (h : OnlyStarving s t) (k : Nat)
include h

theorem queue : (t.launch k).queue = (s.launch k).queue := by simpa [unstarved] using congrArg Launch.queue (h.launch k)
theorem part : (t.launch k).part = (s.launch k).part := by simpa [unstarved] using congrArg Launch.part (h.launch k)
theorem block : (t.launch k).block = (s.launch k).block := by simpa [unstarved] using congrArg Launch.block (h.launch k)
theorem image : (t.launch k).image = (s.launch k).image := by simpa [unstarved] using congrArg Launch.image (h.launch k)

end

theorem aget {s t : State} (h : OnlyStarving s t) {k : Nat} {l : Launch} (hl : aget? s.launches k = some l) :
    ∃ l', aget? t.launches k = some l' ∧ unstarved l' = unstarved l := by
  have hk := h.launches k
  rw [hl] at hk
  simpa using hk

end OnlyStarving

theorem modLaunch_onlyStarving (s : State) (k : Nat) {f : Launch → Launch} (hf : ∀ l, unstarved (f l) = unstarved l) :
    OnlyStarving s (s.modLaunch k f) := by
  refine ⟨rfl, fun j => ?_⟩
  rw [modLaunch_launches]
  by_cases h : j = k
  · subst h
    rw [aget_aupd_same, Option.map_map]
    congr 1
    exact funext hf
  · rw [aget_aupd_other _ _ h]

/-- The note that `State.noteStarving` makes of the `i`-th launch in a processor's order. -/
def noteOne (die : Nat) (s : State) (x : (Nat × Launch) × Nat) : State :=
  if s.starved die x.1.2 then s
  else if x.2 = 0 && (s.findCore x.1.2 die).isNone then
    if (aget? x.1.2.starving die).isSome then s else s.modLaunch x.1.1 fun l => { l with starving := aset l.starving die s.clock }
  else if (aget? x.1.2.starving die).isSome then s.modLaunch x.1.1 fun l => { l with starving := adel l.starving die }
  else s

theorem noteStarving_eq (s : State) (die : Nat) (ls : List (Nat × Launch)) :
    s.noteStarving die ls = ls.zipIdx.foldl (noteOne die) s := rfl

/-- A note changes the one launch that it is about, if any. -/
theorem noteOne_cases (die : Nat) (s : State) (x : (Nat × Launch) × Nat) :
    noteOne die s x = s ∨ ∃ f, (∀ l, unstarved (f l) = unstarved l) ∧ noteOne die s x = s.modLaunch x.1.1 f := by
  fun_cases noteOne die s x
  case case3 => exact .inr ⟨fun l => { l with starving := aset l.starving die s.clock }, fun _ => rfl, rfl⟩
  case case4 => exact .inr ⟨fun l => { l with starving := adel l.starving die }, fun _ => rfl, rfl⟩
  all_goals exact .inl rfl

theorem noteOne_onlyStarving (die : Nat) (s : State) (x : (Nat × Launch) × Nat) : OnlyStarving s (noteOne die s x) := by
  rcases noteOne_cases die s x with h | ⟨f, hf, h⟩
  · rw [h]; exact .refl s
  · rw [h]; exact modLaunch_onlyStarving s _ hf

theorem noteOne_other {die : Nat} {s : State} {x : (Nat × Launch) × Nat} {k : Nat} (hk : k ≠ x.1.1) :
    aget? (noteOne die s x).launches k = aget? s.launches k := by
  rcases noteOne_cases die s x with h | ⟨f, -, h⟩
  · rw [h]
  · rw [h, modLaunch_launches, aget_aupd_other _ _ hk]

theorem foldl_noteOne_onlyStarving (die : Nat) (xs : List ((Nat × Launch) × Nat)) (s : State) :
    OnlyStarving s (xs.foldl (noteOne die) s) := by
  induction xs generalizing s with
  | nil => exact .refl s
  | cons x xs ih => exact (noteOne_onlyStarving die s x).trans (ih _)

theorem foldl_noteOne_other {die : Nat} {xs : List ((Nat × Launch) × Nat)} {k : Nat} (hk : ∀ x ∈ xs, k ≠ x.1.1) (s : State) :
    aget? (xs.foldl (noteOne die) s).launches k = aget? s.launches k := by
  induction xs generalizing s with
  | nil => rfl
  | cons x xs ih =>
    obtain ⟨hx, hxs⟩ := List.forall_mem_cons.mp hk
    rw [List.foldl_cons, ih hxs, noteOne_other hx]

theorem noteStarving_onlyStarving (s : State) (die : Nat) (ls : List (Nat × Launch)) : OnlyStarving s (s.noteStarving die ls) := by
  rw [noteStarving_eq]; exact foldl_noteOne_onlyStarving die _ s

/-- The first launch in order notes since when it has found no core. -/
theorem noteStarving_first {s : State} {die lid : Nat} {l : Launch} {rest : List (Nat × Launch)}
    (hl : aget? s.launches lid = some l) (hrest : ∀ m, (lid, m) ∉ rest) (hcore : s.findCore l die = none)
    (hst : aget? l.starving die = none) :
    aget? (s.noteStarving die ((lid, l) :: rest)).launches lid = some { l with starving := aset l.starving die s.clock } := by
  have hfirst : noteOne die s ((lid, l), 0) = s.modLaunch lid fun l => { l with starving := aset l.starving die s.clock } := by
    simp [noteOne, State.starved, hcore, hst]
  have hkeys : ∀ x ∈ rest.zipIdx 1, lid ≠ x.1.1 := by
    rintro ⟨⟨k, m⟩, i⟩ hx rfl
    exact hrest m (List.fst_mem_of_mem_zipIdx hx)
  rw [noteStarving_eq, List.zipIdx_cons, List.foldl_cons, hfirst, foldl_noteOne_other hkeys, modLaunch_launches, aget_aupd_same, hl]
  rfl

/-! ### Readers that such a note does not touch -/

/-! #### What a core must hold is written in the image alone (R16, R17, R34) -/

section
variable {l l' : Launch} (h : l.image = l'.image)
include h

theorem hdr_of_image : l.hdr = l'.hdr := by
  funext lo w
  simp only [Launch.hdr, h]

theorem paired_of_image : l.paired = l'.paired := by simp only [Launch.paired, hdr_of_image h]
theorem tiles_of_image : l.tiles = l'.tiles := by simp only [Launch.tiles, hdr_of_image h]
theorem scratch_of_image : l.scratch = l'.scratch := by simp only [Launch.scratch, hdr_of_image h]
theorem chutes_of_image : l.chutes = l'.chutes := by simp only [Launch.chutes, hdr_of_image h]
theorem width_of_image : l.width = l'.width := by simp only [Launch.width, hdr_of_image h]
theorem nroles_of_image : l.nroles = l'.nroles := by simp only [Launch.nroles, hdr_of_image h]

theorem weaves_of_image : l.weaves = l'.weaves := by
  funext j
  simp only [Launch.weaves, hdr_of_image h]

theorem allot_of_image : l.allot = l'.allot := by
  funext j
  simp only [Launch.allot, hdr_of_image h]

theorem roleOf_of_image : l.roleOf = l'.roleOf := by
  funext w
  simp only [Launch.roleOf, nroles_of_image h, weaves_of_image h]

theorem nweave_of_image : l.nweave = l'.nweave := by simp only [Launch.nweave, nroles_of_image h, weaves_of_image h]

theorem firstHalf_of_image : l.firstHalf = l'.firstHalf := by
  unfold Launch.firstHalf
  rw [paired_of_image h, nweave_of_image h]

theorem weavesIn_of_image : l.weavesIn = l'.weavesIn := by
  funext half q
  unfold Launch.weavesIn Launch.halfOf Launch.localOf
  rw [firstHalf_of_image h, nweave_of_image h]

theorem halves_of_image : l.halves = l'.halves := by
  unfold Launch.halves
  rw [paired_of_image h]

theorem fitColumn_of_image : fitColumn l = fitColumn l' := by
  funext taken ws
  induction ws generalizing taken with
  | nil => rfl
  | cons w ws ih => simp only [fitColumn, allot_of_image h, roleOf_of_image h, ih]

theorem coreFits_of_image (s : State) : s.coreFits l = s.coreFits l' := by
  funext core half
  unfold State.coreFits State.fitWindows
  rw [weavesIn_of_image h, fitColumn_of_image h, tiles_of_image h, width_of_image h]

theorem findCore_of_image (s : State) (die : Nat) : s.findCore l die = s.findCore l' die := by
  unfold State.findCore State.fits
  rw [coreFits_of_image h, halves_of_image h, paired_of_image h, scratch_of_image h, chutes_of_image h]

end

section
variable {s t : State} (h : OnlyStarving s t)
include h

theorem teamsAt_onlyStarving (core : Nat) : t.teamsAt core = s.teamsAt core := by
  have hp (k : Nat) : (t.launch k).paired = (s.launch k).paired :=
    paired_of_image (h.image k)
  have ht : t.teams = s.teams := by rw [h.rest]
  simp only [State.teamsAt, hp, ht]

theorem tilesHeld_onlyStarving : t.tilesHeld = s.tilesHeld := by
  funext x
  have ho : t.ops = s.ops := by rw [h.rest]
  have hl : (t.launch x.2.launch).tiles = (s.launch x.2.launch).tiles := tiles_of_image (h.image _)
  simp only [State.tilesHeld, ho, hl]

theorem coreFits_onlyStarving (l : Launch) (core half : Nat) : t.coreFits l core half = s.coreFits l core half := by
  unfold State.coreFits
  rw [teamsAt_onlyStarving h, tilesHeld_onlyStarving h, h.rest]
  rfl

theorem findCore_onlyStarving (l : Launch) (die : Nat) : t.findCore l die = s.findCore l die := by
  have hf : t.fits l = s.fits l := by
    funext core
    unfold State.fits
    simp only [coreFits_onlyStarving h]
    rw [h.rest]
    rfl
  have hd : t.die die = s.die die := by rw [h.rest]; rfl
  simp only [State.findCore, hf, hd]

theorem starved_onlyStarving (die : Nat) (l : Launch) : t.starved die l = s.starved die l := by rw [h.rest]; rfl

theorem prioOf_onlyStarving (l : Launch) : t.prioOf l = s.prioOf l := by rw [h.rest]; rfl

theorem restoreFirst_onlyStarving (die p : Nat) : t.restoreFirst die p = s.restoreFirst die p := by
  have hprio (k : Nat) : t.prioOf (t.launch k) = s.prioOf (s.launch k) := by
    rw [prioOf_onlyStarving h]
    simp only [State.prioOf, Launch.prio, Launch.blk, h.block, h.queue]
  have hcore (k : Nat) : t.findCore (t.launch k) die = s.findCore (s.launch k) die :=
    (findCore_onlyStarving h _ die).trans (findCore_of_image (h.image k) s die)
  have ht : t.teams = s.teams := by rw [h.rest]
  have hp : t.part = s.part := by rw [h.rest]; rfl
  simp only [State.restoreFirst, h.part, hprio, hcore, ht, hp]

theorem reduceWaits_onlyStarving (p die : Nat) : t.reduceWaits p die = s.reduceWaits p die := by
  have hcore (k : Nat) (g : Graph) : t.findCore ((t.launch k).reduce k g) die = s.findCore ((s.launch k).reduce k g) die :=
    (findCore_onlyStarving h _ die).trans (findCore_of_image (show g.redImage = g.redImage from rfl) s die)
  have hr : t.runs = s.runs := by rw [h.rest]
  have hg : t.graph = s.graph := by rw [h.rest]; rfl
  simp only [State.reduceWaits, hcore, hr, hg]

end

/-! ### The launch that a processor finds (R33) -/

/-- Launches that have not starved keep no later one off the die. -/
theorem workList_append {s : State} {die : Nat} {pre : List (Nat × Launch)} (h : ∀ x ∈ pre, s.starved die x.2 = false)
    (xs : List (Nat × Launch)) : s.workList die (pre ++ xs) = pre ++ s.workList die xs := by
  induction pre with
  | nil => rfl
  | cons x pre ih =>
    obtain ⟨hx, hpre⟩ := List.forall_mem_cons.mp h
    simp [State.workList, hx, ih hpre]

section
variable {s : State} {die lid : Nat} {l : Launch} {pre rest : List (Nat × Launch)}
  (hpre : ∀ x ∈ pre, s.findCore x.2 die = none ∧ s.starved die x.2 = false)
include hpre

/-- Behind launches that no core holds, the next one is found if a core holds it. -/
theorem firstHeld_found {core : Nat} {a : Alloc} (hl : s.findCore l die = some (core, a)) :
    s.firstHeld die (s.workList die (pre ++ (lid, l) :: rest)) = some (lid, l, core, a) := by
  rw [workList_append fun x hx => (hpre x hx).2, State.firstHeld, firstSome_append fun x hx => by simp [(hpre x hx).1]]
  rw [State.workList]
  split <;> simp [firstSome, hl]

/-- One that has starved keeps every later one off the die. -/
theorem firstHeld_starved (hl : s.findCore l die = none) (hst : s.starved die l = true) :
    s.firstHeld die (s.workList die (pre ++ (lid, l) :: rest)) = none := by
  rw [workList_append fun x hx => (hpre x hx).2, State.firstHeld, firstSome_append fun x hx => by simp [(hpre x hx).1]]
  simp [State.workList, hst, firstSome, hl]

end

/-! ### A placed team (R21, R34, R35, R63) -/

/-- The fibre in a window of a team at the start. -/
def seatedFibre (tid : Nat) (l : Launch) (core : Nat) (know : List Nat) (w : Nat × Nat × Nat) : Fibre :=
  { Fibre.zero with
    team := tid, w := w.1, lane := w.2.1, role := l.roleOf w.1, core := core + l.halfOf w.1, q := l.localOf w.1 % 4, base := w.2.2
    size := l.allot (l.roleOf w.1), alive := true
    vec := ⟨know, []⟩, cp := ⟨know, []⟩, mx := ⟨know, []⟩, vp := ⟨know, []⟩, coll := ⟨know, []⟩ }

theorem seatFibres_eq (s : State) (tid : Nat) (l : Launch) (core : Nat) (wins : List (Nat × Nat × Nat)) (know : List Nat) :
    s.seatFibres tid l core wins know =
      { s with fibres := wins.foldl (fun m w => aset m (fibreKey tid w.1 w.2.1) (seatedFibre tid l core know w)) s.fibres } := by
  unfold State.seatFibres
  induction wins generalizing s with
  | nil => rfl
  | cons w wins ih => rw [List.foldl_cons, ih]; rfl

theorem seatFibres_seated {s : State} {tid : Nat} {l : Launch} {core : Nat} {wins : List (Nat × Nat × Nat)} {know : List Nat}
    {w : Nat × Nat × Nat} (hw : w ∈ wins) :
    ∃ w', aget? (s.seatFibres tid l core wins know).fibres (fibreKey tid w.1 w.2.1) = some (seatedFibre tid l core know w') := by
  rw [seatFibres_eq]
  rcases aget_foldl_aset wins (fun w => fibreKey tid w.1 w.2.1) (seatedFibre tid l core know) s.fibres (fibreKey tid w.1 w.2.1) with
    ⟨w', -, -, h⟩ | ⟨h, -⟩
  · exact ⟨w', h⟩
  · exact absurd rfl (h w hw)

/-- One weave takes its slot. -/
def seatSlot (l : Launch) (core : Nat) (make : Nat → Slot) (s : State) (w : Nat) : State :=
  match (s.freeSlots (core + l.halfOf w) (l.localOf w % 4)).head? with
  | none => s
  | some n => s.setSlot (256 * (core + l.halfOf w) + 64 * (l.localOf w % 4) + n) (make w)

theorem seatSlots_eq (s : State) (l : Launch) (core : Nat) (make : Nat → Slot) :
    s.seatSlots l core make = (List.range l.nweave).foldl (seatSlot l core make) s := rfl

theorem seatSlot_cases (l : Launch) (core : Nat) (make : Nat → Slot) (s : State) (w : Nat) :
    seatSlot l core make s w = s ∨ ∃ g, seatSlot l core make s w = s.setSlot g (make w) := by
  unfold seatSlot
  split
  · exact .inl rfl
  · exact .inr ⟨_, rfl⟩

theorem foldl_seatSlot_rest (l : Launch) (core : Nat) (make : Nat → Slot) (ws : List Nat) (s : State) :
    ws.foldl (seatSlot l core make) s = { s with slots := (ws.foldl (seatSlot l core make) s).slots } := by
  induction ws generalizing s with
  | nil => rfl
  | cons w ws ih =>
    rw [List.foldl_cons]
    rcases seatSlot_cases l core make s w with h | ⟨g, h⟩
    · rw [h]; exact ih s
    · rw [h]; exact ih _

theorem foldl_seatSlot_slots {l : Launch} {core : Nat} {make : Nat → Slot} {ws : List Nat} {s : State} {g : Nat} {v : Slot}
    (hv : aget? (ws.foldl (seatSlot l core make) s).slots g = some v) : aget? s.slots g = some v ∨ ∃ w, v = make w := by
  induction ws generalizing s with
  | nil => exact .inl hv
  | cons w ws ih =>
    rcases ih hv with h | h
    · rcases seatSlot_cases l core make s w with e | ⟨g', e⟩
      · rw [e] at h; exact .inl h
      · rw [e, setSlot_slots, aget_aset] at h
        split at h
        · exact .inr ⟨w, (Option.some.inj h).symm⟩
        · exact .inl h
    · exact .inr h

theorem seatSlots_rest (s : State) (l : Launch) (core : Nat) (make : Nat → Slot) :
    s.seatSlots l core make = { s with slots := (s.seatSlots l core make).slots } := foldl_seatSlot_rest l core make _ s

/-- A slot that was free before is a slot of the team. -/
theorem seatSlots_slots {s : State} {l : Launch} {core : Nat} {make : Nat → Slot} {g : Nat} {v : Slot}
    (hv : aget? (s.seatSlots l core make).slots g = some v) (hs : aget? s.slots g = none) : ∃ w, v = make w := by
  rcases foldl_seatSlot_slots hv with h | h
  · rw [hs] at h; cases h
  · exact h

/-- R21: s0 to s7 hold ARG, s8 and s9 ARGP, and every other scalar register is zero and timeless. -/
theorem startRegs_reg (l : Launch) (k : Nat) : mget Reg.zero l.startRegs k =
    if k = 9 then ⟨BitVec.ofNat 32 (l.argp / 2 ^ 32), 0⟩ else if k = 8 then ⟨BitVec.ofNat 32 l.argp, 0⟩
    else if k < 8 then ⟨l.arg k, 0⟩ else Reg.zero := by
  rw [Launch.startRegs, mget_mset, mget_mset, mget_foldl_range Reg.zero fun i => ⟨l.arg i, 0⟩]

/-- The team that a placement makes, before it is known whether its weaves may start. -/
def placedTeam (s : State) (lid core : Nat) (a : Alloc) (index : Word) (node : Option (Nat × Nat)) (know : List Nat) : Team :=
  { Team.zero with launch := lid, index, die := dieOf core, core, state := .held, placedAt := s.clock, scrId := s.uid
                   units := a.units, chuteBanks := a.chuteBanks, node, know }

/-- A placement changes the clusters, the teams, the fibres and the slots. -/
theorem placeTeam_rest (s : State) (lid core : Nat) (a : Alloc) (index : Word) (sregs : List (Nat × Reg)) (node : Option (Nat × Nat))
    (know : List Nat) :
    let t := s.placeTeam lid core a index sregs node know
    t = { s with uid := s.uid + 1, clusters := t.clusters, teams := t.teams, fibres := t.fibres, slots := t.slots } := by
  simp only [State.placeTeam]
  rw [seatSlots_rest, seatFibres_eq]
  rfl

section
variable (s : State) (lid core : Nat) (a : Alloc) (index : Word) (sregs : List (Nat × Reg)) (node : Option (Nat × Nat)) (know : List Nat)

@[simp] theorem placeTeam_clock : (s.placeTeam lid core a index sregs node know).clock = s.clock := by rw [placeTeam_rest]
@[simp] theorem placeTeam_mem : (s.placeTeam lid core a index sregs node know).mem = s.mem := by rw [placeTeam_rest]

/-- The team itself: its weaves start unless it is coresident or its banks have still to drain. -/
theorem placeTeam_team : ∃ st, (st = .held ∨ st = .running) ∧ ((s.launch lid).coresident = true → st = .held)
    ∧ aget? (s.placeTeam lid core a index sregs node know).teams s.uid
        = some { placedTeam s lid core a index node know with state := st } := by
  refine ⟨if (s.launch lid).coresident || !(s.bump.lendBanks (clusterOf core)
    (a.units.map (fun u => u.1) ++ a.chuteBanks.flatMap fun h => h.2)).banksDrained (placedTeam s lid core a index node know)
    then .held else .running, ?_, fun h => by simp [h], ?_⟩
  · split <;> simp
  · simp only [State.placeTeam]
    rw [seatSlots_rest, seatFibres_eq]
    exact aget_aset_same ..

theorem placeTeam_fibre {w : Nat × Nat × Nat} (hw : w ∈ a.wins) :
    ∃ w', aget? (s.placeTeam lid core a index sregs node know).fibres (fibreKey s.uid w.1 w.2.1)
      = some (seatedFibre s.uid (s.launch lid) core know w') := by
  simp only [State.placeTeam]
  rw [seatSlots_rest]
  exact seatFibres_seated hw

theorem placeTeam_slot {g : Nat} {v : Slot} (hv : aget? (s.placeTeam lid core a index sregs node know).slots g = some v)
    (hs : aget? s.slots g = none) : ∃ w clock, v = (s.launch lid).startSlot s.uid w clock sregs := by
  simp only [State.placeTeam] at hv
  obtain ⟨w, hw⟩ := seatSlots_slots hv (by rw [seatFibres_eq]; exact hs)
  exact ⟨w, _, hw⟩

end

/-! ### A draw (R32 to R35) -/

/-- The processor of a die takes the next ticket of a launch's queue, and places the team on a core that fits. -/
def takeTicket (s : State) (die lid : Nat) (l : Launch) (core : Nat) (a : Alloc) : State :=
  let q := s.queue l.queue
  (((s.placeTeam lid core a (BitVec.ofNat 32 q.ticket) l.startRegs none l.know).setQueue l.queue
        { q with ticket := q.ticket + 1, filledAt := if q.ticket + 1 = l.nteam then s.clock + 1 else q.filledAt }).modLaunch lid
      fun l => { l with starving := adel l.starving die }).setDie die
    { s.die die with rotation := (l.queue + 1) % 64, robin := (core % 16 + l.halves.length) % 16, drew := s.clock + 1 }

section
variable {s : State} {die p lid core : Nat} {l : Launch} {pre rest : List (Nat × Launch)} {a : Alloc}
  (hp : s.partOfDie die = some p) (hsusp : (s.part p).suspended = false) (hdrew : (s.die die).drew ≠ s.clock + 1)
  (hord : s.claimOrder die (s.claimers p) = pre ++ (lid, l) :: rest)
  (hpre : ∀ x ∈ pre, s.findCore x.2 die = none ∧ s.starved die x.2 = false)
include hp

theorem placeTeam_passed (h : s.turnPassed die = true) : exec (.placeTeam die) s = .next s := by
  simp [exec, execPlaceTeam, hp, h]

theorem placementStarvation_eq :
    exec (.placementStarvation die) s = .next (s.noteStarving die (s.claimOrder die (s.claimers p))) := by
  simp [exec, execPlacementStarvation, hp]

include hsusp hdrew hord hpre

/-- A launch that a core of the die fits, and that nothing comes before, is what the processor works on. -/
theorem placeTeam_found (hcore : s.findCore l die = some (core, a)) (hturn : s.turnPassed die = false)
    (hrest : s.restoreFirst die (s.prioOf l) = false) (hred : s.reduceWaits p die = false) : ∃ u, OnlyStarving s u ∧
      exec (.placeTeam die) s = .next (if l.nteam ≤ (s.queue l.queue).ticket then u.setDie die { s.die die with drew := s.clock + 1 }
        else takeTicket u die lid l core a) := by
  have hn := noteStarving_onlyStarving s die (pre ++ (lid, l) :: rest)
  refine ⟨_, hn, ?_⟩
  have hfound : (s.noteStarving die (pre ++ (lid, l) :: rest)).firstHeld die
      ((s.noteStarving die (pre ++ (lid, l) :: rest)).workList die (pre ++ (lid, l) :: rest)) = some (lid, l, core, a) :=
    firstHeld_found (fun x hx => by rw [findCore_onlyStarving hn, starved_onlyStarving hn]; exact hpre x hx)
      (by rw [findCore_onlyStarving hn]; exact hcore)
  have hq : (s.noteStarving die (pre ++ (lid, l) :: rest)).queue = s.queue := by rw [hn.rest]; rfl
  have hd : (s.noteStarving die (pre ++ (lid, l) :: rest)).die = s.die := by rw [hn.rest]; rfl
  have hc : (s.noteStarving die (pre ++ (lid, l) :: rest)).clock = s.clock := by rw [hn.rest]
  simp only [exec, execPlaceTeam, hp, hsusp, hdrew, hturn, hord, hfound, restoreFirst_onlyStarving hn, prioOf_onlyStarving hn,
    reduceWaits_onlyStarving hn, hrest, hred, Bool.or_self, decide_false, Bool.false_eq_true, if_false, takeTicket, hq, hd, hc,
    placeTeam_clock, setQueue_clock, modLaunch_clock]
  split <;> rfl

/-- Where no core fits the first launch that counts, a draw only notes so. -/
theorem placeTeam_starved (hcore : s.findCore l die = none) (hst : s.starved die l = true) :
    ∃ u, OnlyStarving s u ∧ exec (.placeTeam die) s = .next u := by
  by_cases hturn : s.turnPassed die = true
  · exact ⟨s, .refl s, placeTeam_passed hp hturn⟩
  have hn := noteStarving_onlyStarving s die (pre ++ (lid, l) :: rest)
  refine ⟨_, hn, ?_⟩
  have hnone : (s.noteStarving die (pre ++ (lid, l) :: rest)).firstHeld die
      ((s.noteStarving die (pre ++ (lid, l) :: rest)).workList die (pre ++ (lid, l) :: rest)) = none :=
    firstHeld_starved (fun x hx => by rw [findCore_onlyStarving hn, starved_onlyStarving hn]; exact hpre x hx)
      (by rw [findCore_onlyStarving hn]; exact hcore) (by rw [starved_onlyStarving hn]; exact hst)
  simp only [exec, execPlaceTeam, hp, hsusp, hdrew, hturn, hord, hnone, Bool.or_self, decide_false, Bool.false_eq_true, if_false]

end

/-! ### What a ticket gives -/

/-- What else a ticket moves: the counter, the pointers of the die, and no byte of memory. -/
theorem takeTicket_rest (s : State) (die lid : Nat) (l : Launch) (core : Nat) (a : Alloc) :
    ((takeTicket s die lid l core a).queue l.queue).ticket = (s.queue l.queue).ticket + 1
      ∧ ((takeTicket s die lid l core a).die die).drew = s.clock + 1
      ∧ ((takeTicket s die lid l core a).die die).rotation = (l.queue + 1) % 64
      ∧ ((takeTicket s die lid l core a).die die).robin = (core % 16 + l.halves.length) % 16
      ∧ SameBytes s (takeTicket s die lid l core a) := by
  refine ⟨?_, ?_, ?_, ?_, fun x => ?_⟩
  · simp [takeTicket, State.queue]
  iterate 3 simp [takeTicket]
  · simp [takeTicket, State.byteAt]

section
variable (s : State) (die lid : Nat) (l : Launch) (core : Nat) (a : Alloc)

theorem takeTicket_teams : (takeTicket s die lid l core a).teams =
    (s.placeTeam lid core a (BitVec.ofNat 32 (s.queue l.queue).ticket) l.startRegs none l.know).teams := by
  simp only [takeTicket, setDie_teams, modLaunch_teams, setQueue_teams]
theorem takeTicket_fibres : (takeTicket s die lid l core a).fibres =
    (s.placeTeam lid core a (BitVec.ofNat 32 (s.queue l.queue).ticket) l.startRegs none l.know).fibres := by
  simp only [takeTicket, setDie_fibres, modLaunch_fibres, setQueue_fibres]
theorem takeTicket_slots : (takeTicket s die lid l core a).slots =
    (s.placeTeam lid core a (BitVec.ofNat 32 (s.queue l.queue).ticket) l.startRegs none l.know).slots := by
  simp only [takeTicket, setDie_slots, modLaunch_slots, setQueue_slots]

end

/-- R21: a fibre at the start. -/
theorem seatedFibre_start (tid : Nat) (l : Launch) (core : Nat) (know : List Nat) (w : Nat × Nat × Nat) :
    let f := seatedFibre tid l core know w
    f.team = tid ∧ f.alive = true ∧ f.size = l.allot f.role ∧ (∀ r, f.reg r = Reg.zero) ∧ f.preds = 0x8000 :=
  ⟨rfl, rfl, rfl, fun _ => rfl, rfl⟩

/-- R21: a slot at the start. -/
theorem startSlot_start (l : Launch) (tid w clock : Nat) :
    let v := l.startSlot tid w clock l.startRegs
    v.team = tid ∧ v.lanes.length = l.width ∧ v.pc = l.pcAt (l.entry v.role / 8 : Nat) (l.entry v.role % 8) ∧ v.wait = .none
      ∧ (∀ k, k < 8 → v.reg k = ⟨l.arg k, 0⟩) ∧ v.reg 8 = ⟨BitVec.ofNat 32 l.argp, 0⟩
      ∧ v.reg 9 = ⟨BitVec.ofNat 32 (l.argp / 2 ^ 32), 0⟩ ∧ ∀ k, 10 ≤ k → v.reg k = Reg.zero := by
  have hreg (k : Nat) : (l.startSlot tid w clock l.startRegs).reg k = mget Reg.zero l.startRegs k := rfl
  refine ⟨rfl, by simp [Launch.startSlot], rfl, rfl, fun k hk => ?_, ?_, ?_, fun k hk => ?_⟩
  all_goals rw [hreg, startRegs_reg]
  · rw [if_neg (by omega), if_neg (by omega), if_pos hk]
  · simp
  · simp
  · rw [if_neg (by omega), if_neg (by omega), if_neg (by omega)]

/-- A launch is claimed through a ticket: its team, its fibres and its slots stand at their start. The state `u` in which the ticket is
drawn differs from `s` by a note of starvation alone. -/
theorem takeTicket_places {s u : State} (h : OnlyStarving s u) {die lid core : Nat} {l : Launch} {a : Alloc}
    (hl : aget? s.launches lid = some l) :
    (∃ tm, aget? (takeTicket u die lid l core a).teams s.uid = some tm ∧ tm.launch = lid ∧ tm.core = core
        ∧ tm.index = BitVec.ofNat 32 (s.queue l.queue).ticket ∧ tm.units = a.units ∧ tm.chuteBanks = a.chuteBanks
        ∧ (tm.state = .held ∨ tm.state = .running) ∧ (l.coresident = true → tm.state = .held))
      ∧ (∀ w ∈ a.wins, ∃ f, aget? (takeTicket u die lid l core a).fibres (fibreKey s.uid w.1 w.2.1) = some f ∧ f.team = s.uid
          ∧ f.alive = true ∧ f.size = l.allot f.role ∧ (∀ r, f.reg r = Reg.zero) ∧ f.preds = 0x8000)
      ∧ ∀ g v, aget? (takeTicket u die lid l core a).slots g = some v → aget? s.slots g = none → v.team = s.uid
          ∧ v.lanes.length = l.width ∧ v.pc = l.pcAt (l.entry v.role / 8 : Nat) (l.entry v.role % 8) ∧ v.wait = .none
          ∧ (∀ k, k < 8 → v.reg k = ⟨l.arg k, 0⟩) ∧ v.reg 8 = ⟨BitVec.ofNat 32 l.argp, 0⟩
          ∧ v.reg 9 = ⟨BitVec.ofNat 32 (l.argp / 2 ^ 32), 0⟩ ∧ ∀ k, 10 ≤ k → v.reg k = Reg.zero := by
  obtain ⟨l', hl', hst⟩ := h.aget hl
  have hlaunch : u.launch lid = l' := launch_of_aget u hl'
  have huid : u.uid = s.uid := by rw [h.rest]
  have hq : u.queue l.queue = s.queue l.queue := by rw [h.rest]; rfl
  have hslots : u.slots = s.slots := by rw [h.rest]
  obtain ⟨x, rfl⟩ : ∃ x, l' = { l with starving := x } := ⟨l'.starving, by cases l'; cases l; cases hst; rfl⟩
  refine ⟨?_, fun w hw => ?_, fun g v hv hs => ?_⟩
  · obtain ⟨st, hst, hco, ht⟩ := placeTeam_team u lid core a (BitVec.ofNat 32 (s.queue l.queue).ticket) l.startRegs none l.know
    rw [hlaunch] at hco
    rw [huid] at ht
    rw [takeTicket_teams, hq]
    exact ⟨_, ht, rfl, rfl, rfl, rfl, rfl, hst, hco⟩
  · obtain ⟨w', hw'⟩ := placeTeam_fibre u lid core a (BitVec.ofNat 32 (s.queue l.queue).ticket) l.startRegs none l.know hw
    rw [hlaunch, huid] at hw'
    exact ⟨_, by rw [takeTicket_fibres, hq]; exact hw', seatedFibre_start _ _ _ _ w'⟩
  · rw [takeTicket_slots] at hv
    obtain ⟨w, clock, rfl⟩ := placeTeam_slot u lid core a _ _ _ _ hv (hslots ▸ hs)
    rw [hlaunch, huid]
    exact startSlot_start l s.uid w clock

/-! ### Coresident launches (R36) -/

theorem aget_map_value {α : Type} (m : List (Nat × α)) (f : α → α) (k : Nat) :
    aget? (m.map fun x => (x.1, f x.2)) k = (aget? m k).map f := aget_map m (fun _ => f) k

/-- R36: the teams of a launch that are held start. -/
def startHeld (lid : Nat) (tm : Team) : Team := if tm.launch = lid ∧ tm.state = .held then { tm with state := .running } else tm

/-- R36: once every team of a coresident launch is placed, and its banks have drained, they start together. -/
theorem coresidentStart_starts {s : State} {lid : Nat} {l : Launch} (hl : aget? s.launches lid = some l) (hco : l.coresident = true)
    (hstate : l.state = .claiming) (hend : l.ending = none)
    (hn : l.nteam ≤ (s.teams.filter fun t => t.2.launch == lid && t.2.node.isNone).length)
    (hne : (s.teams.filter fun t => t.2.launch == lid && t.2.node.isNone) ≠ [])
    (hts : ∀ t ∈ s.teams.filter fun t => t.2.launch == lid && t.2.node.isNone,
      t.2.state = .held ∧ t.2.placedAt < s.clock ∧ s.banksDrained t.2 = true) :
    exec (.coresidentStart lid) s = .next { s with teams := s.teams.map fun t => (t.1, startHeld lid t.2) } := by
  have hlive : (s.teams.filter fun t => t.2.launch == lid && t.2.node.isNone && t.2.state != .ended) =
      s.teams.filter fun t => t.2.launch == lid && t.2.node.isNone := by
    refine List.filter_congr fun t ht => ?_
    by_cases h : (t.2.launch == lid && t.2.node.isNone) = true
    · simp [h, (hts t (List.mem_filter.mpr ⟨ht, h⟩)).1]
    · simp [h]
  have hall : ((s.teams.filter fun t => t.2.launch == lid && t.2.node.isNone).all fun t =>
      (t.2.state == .held || t.2.state == .retiring || t.2.state == .running) && decide (t.2.placedAt < s.clock) && s.banksDrained t.2)
        = true := by
    rw [List.all_eq_true]
    intro t ht
    obtain ⟨hheld, hat, hdrained⟩ := hts t ht
    simp [hheld, hat, hdrained]
  have hmap : (s.teams.map fun t => if t.2.launch == lid && t.2.state == .held then (t.1, { t.2 with state := .running }) else t) =
      s.teams.map fun t => (t.1, startHeld lid t.2) := by
    refine List.map_congr_left fun t _ => ?_
    by_cases h : t.2.launch = lid ∧ t.2.state = .held <;> simp [startHeld, h]
  simp only [exec, execCoresidentStart, launch_of_aget s hl, hlive]
  rw [if_pos (by simpa [hco, hstate, hend, hn, hne] using hall), hmap]

/-- Settles O50: the processor finds the first launch in its order that a core fits (`placeTeam_found`), and its ticket places a team as
R21 and R63 say (`takeTicket_places`). -/
theorem teamsArePlaced : Obligations.TeamsArePlaced := by
  refine ⟨fun die p lid core s l pre rest a hp hsusp hdrew hord hl hkeys hpre => ⟨placeTeam_passed hp, ?_, ?_, ?_, ?_⟩,
    fun lid s l hl hco hstate hend hts => ?_⟩
  · rintro hcore ⟨hturn, hrest, hred⟩ hfull
    obtain ⟨u, hu, hx⟩ := placeTeam_found hp hsusp hdrew hord hpre hcore hturn hrest hred
    rw [if_pos hfull] at hx
    rw [hu.rest] at hx
    exact ⟨_, hx, by simp, rfl, rfl, rfl, fun _ => rfl⟩
  · rintro hcore ⟨hturn, hrest, hred⟩ hfree
    obtain ⟨u, hu, hx⟩ := placeTeam_found hp hsusp hdrew hord hpre hcore hturn hrest hred
    rw [if_neg (by omega)] at hx
    obtain ⟨⟨tm, htm, hlaunch, hcoreOf, hindex, hunits, hbanks, hst, hheld⟩, hfibres, hslots⟩ := takeTicket_places hu (die := die)
      (core := core) (a := a) hl
    obtain ⟨hticket, hdrewAt, hrot, hrobin, hbytes⟩ := takeTicket_rest u die lid l core a
    have hclock : u.clock = s.clock := by rw [hu.rest]
    have hq : u.queue l.queue = s.queue l.queue := by rw [hu.rest]; rfl
    have hmem : SameBytes s u := by rw [hu.rest]; exact fun _ => rfl
    exact ⟨_, tm, hx, htm, hlaunch, hcoreOf, hindex, hunits, hbanks, hst, hheld, hq ▸ hticket, hclock ▸ hdrewAt, hrot, hrobin,
      hfibres, hslots, fun x => (hbytes x).trans (hmem x)⟩
  · intro hcore hst
    obtain ⟨u, hu, hx⟩ := placeTeam_starved hp hsusp hdrew hord hpre hcore hst
    rw [hu.rest] at hx
    exact ⟨_, hx, rfl, rfl, rfl, fun _ => rfl⟩
  · rintro rfl hcore hst
    have hn := noteStarving_onlyStarving s die ((lid, l) :: rest)
    have hx := placementStarvation_eq (die := die) hp
    rw [hord, List.nil_append] at hx
    exact ⟨_, _, hx, noteStarving_first hl (fun m => (hkeys m).2) hcore hst, by simp, by rw [hn.rest], by rw [hn.rest]⟩
  · obtain ⟨hn, hne, hts⟩ := hts
    refine ⟨_, coresidentStart_starts hl hco hstate hend hn hne hts, rfl, fun k tm hk => ?_⟩
    rw [aget_map_value, hk]
    rfl

end Sys2Proof.Proofs
end

section
/-!
SUPPORT. Why O49 and O60 stand open. Both say of every state what a partition reset leaves (`PartReset`), and neither asks that the next
fresh identity, `uid`, be above those of the launches. Where the groom brings a page for a launch that the reset ends (log 59), the queue
units first observe their tail words (R27), and a launch block that they then read takes the identity `uid`: in `clashing` that is the
identity of the launch that is being ended. Whether the groom brings the page is a free choice (`Config.pick`), of whose values nothing can
be proved. With `Config.pick 0` even both statements fail, as is shown here: neither can be proved of every device.
-/
namespace Sys2Proof.Proofs

open Sys2Proof.Machine Sys2Proof.Laws

/-! ### A page that the groom brings -/

/-- R336: an image under the partition's own key, with the digest of its backing record. -/
theorem backedImage_found {s : State} {p va : Nat} {b : Backing} {img : Image} (hb : aget? (s.part p).backing va = some b)
    (hi : aget? s.storage (imageKey b.drive b.nspace b.lba) = some img) (hkey : img.key = s.keySerial p)
    (hd : Config.sha512 img.raw = b.digest) : s.backedImage p va = some (b, img) := by
  simp [State.backedImage, hb, hi, State.decrypted, hkey, hd]

/-- A page of 64 KiB is filled with its image, and its entry says where it is. -/
def bringInto (s : State) (at_ base : Nat) (b : Backing) (img : Image) : State :=
  let n := b.entry.toNat
  let s := s.fillPage base img
  { s with ptes := aset s.ptes at_ (BitVec.ofNat 128 (n - bitsN n 8 40 * 2 ^ 8 - bitsN n 0 1 + base / 4096 * 2 ^ 8 + 1)) }

/-- R284: a page of 64 KiB is brought where its image is on storage and a physical page is free. -/
theorem bringPage_here {s : State} {p va at_ e base : Nat} {b : Backing} {img : Image} (hentry : s.pageEntry p va = some (at_, 1, e))
    (hvalid : bitsN e 0 1 = 0) (himg : s.backedImage p (va / 65536 * 65536) = some (b, img))
    (hfree : s.freePage p (bitsN b.entry.toNat 60 2) 65536 = some base) (hown : s.ownsFrame p 1 b.entry.toNat = true) :
    s.bringPage p va true = .here (va / 65536 * 65536) 65536 1 (bringInto s at_ base b img) := by
  have hsize : pageSize 1 = 65536 := rfl
  have hall : allSome (fun k => s.backedImage p (va / 65536 * 65536 + 65536 * k)) [0] = some [(b, img)] := by
    simp [allSome, himg]
  simp [State.bringPage, hentry, hsize, hall, hfree, hown, hvalid, bringInto]

/-- R20: the groom brings a page that the completion of a launch needs, where the device chooses so. -/
theorem bringFor_here {s t : State} {lid n page lo size c : Nat} (hwant : s.endWaits (s.launch lid) = some page)
    (hpick : Config.pick s.free % 2 = 0)
    (hpage : ((s.modLaunch lid fun l => { l with want := union l.want [page] }).choose 2).2.bringPage (s.launch lid).part page true
      = .here lo size c t) :
    s.bringFor lid (n + 1)
      = (t.pagesServed (s.launch lid).part fun a => decide (lo ≤ a) && decide (a < lo + size)).bringFor lid n := by
  have hc : (s.modLaunch lid fun l => { l with want := union l.want [page] }).choose 2 =
      (0, ((s.modLaunch lid fun l => { l with want := union l.want [page] }).choose 2).2) := by
    simp [State.choose, hpick]
  rw [State.bringFor]
  simp only [hwant]
  rw [hc]
  simp only [beq_self_eq_true, hpage]

theorem bringFor_done {s : State} {lid : Nat} (h : s.endWaits (s.launch lid) = none) (n : Nat) : s.bringFor lid n = s := by
  cases n with
  | zero => rfl
  | succ n => simp only [State.bringFor, h]

/-! ### A reset that ends one launch (R346) -/

/-- The launch has cause 0x1CA, and is to end with status 5. -/
def endedByReset (s : State) (lid : Nat) : State :=
  let s := s.recordError lid { TrapInfo.zero with cause := 0x1CA } false 0 0 0
  s.modLaunch lid fun l => { l with ending := some (5, 0, s.clock), stage := 0 }

theorem resetLaunch_completes {s t : State} {lid : Nat} (hstage : (s.launch lid).stage ≠ 2)
    (hbring : (endedByReset s lid).bringFor lid 2 = t) (hdone : t.endWaits (t.launch lid) = none) :
    s.resetLaunch lid = t.completeLaunch lid := by
  have h : s.resetLaunch lid = if (t.endWaits (t.launch lid)).isSome then t else t.completeLaunch lid := by
    rw [← hbring, State.resetLaunch, if_neg hstage]
    rfl
  simpa [hdone] using h

theorem resetPart_launches {s t : State} {p lid : Nat} (hopen : ((s.stopPart p).openLaunches p).map (fun l => l.1) = [lid])
    (hend : (s.stopPart p).resetLaunch lid = t) : (s.resetPart p).launches = t.launches := by
  have hfold : ((s.stopPart p).openLaunches p).foldl (fun s l => s.resetLaunch l.1) (s.stopPart p) = t := by
    rw [← List.foldl_map (f := fun l : Nat × Launch => l.1) (g := State.resetLaunch), hopen]
    exact hend
  rw [← hfold]
  rfl

theorem partitionReset_eq {s : State} {p : Nat} (h : (aget? s.parts p).isSome = true) :
    exec (.partitionReset p) s = .next (s.resetPart p) := by
  simp only [exec, execPartitionReset]
  rw [if_neg (by simpa [Option.isSome_iff_ne_none] using h)]

theorem terminationTimeout_eq {s : State} {q : Nat} (h : s.endingLate q = true) :
    exec (.terminationTimeout q) s = .next (s.resetPart (s.queue q).part) := by
  simp only [exec, execTerminationTimeout]
  rw [if_pos h]

/-! ### The state in which an identity is taken twice -/

/-- A queue whose tail word and ring stand at the first frame of the frame window. -/
def clashQueue : Queue := { Queue.zero with granted := true, enable := true, taila := Config.frameWindow, ringa := Config.frameWindow }

/-- The image of an empty page, and the backing record that names it. -/
def emptyImage : Image := ⟨0, [], []⟩
def emptyBacking : Backing := { drive := 0, nspace := 0, lba := 0, entry := 0, digest := Config.sha512 [] }

/-- A launch that its watchdog has been ending for 2^20 clocks, with its error record at 0x10000. -/
def clashLaunch : Launch := { Launch.zero with block := 0x10000 * 2 ^ 128, state := .claiming, ending := some (3, 0, 0) }

/-- The page at 0x10000 is marked GROOM 1; the tail word of the queue is 1, and is still to be read; the one launch has the identity
that the next one will be given. -/
def clashing : State :=
  { State.reset with clock := 2 ^ 20, mem := [(Config.framePhys, 1)], launches := [(0, clashLaunch)], queues := [(0, clashQueue)]
                     parts := [(0, { Part.zero with dies := 1, root := true, backing := [(0x10000, emptyBacking)] })]
                     grants := [⟨0, 65536, 0, 0⟩], storage := [(0, emptyImage)]
                     ptes := [(Config.rootPhys 0, BitVec.ofNat 128 (Config.rootPhys 0 / 4096 * 256 + 1)), (Config.rootPhys 0 + 16, 2)] }

/-- The launch is being ended, and the groom chooses whether to bring the page of its error record. -/
def clashEnding : State := endedByReset (clashing.stopPart 0) 0
def clashChosen : State := ((clashEnding.modLaunch 0 fun l => { l with want := union l.want [0x10000] }).choose 2).2

/-- The page is there; the queue has read its block. -/
def clashBrought : State :=
  (bringInto clashChosen (Config.rootPhys 0 + 16) 0 emptyBacking emptyImage).pagesServed 0
    fun a => decide (0x10000 / 65536 * 65536 ≤ a) && decide (a < 0x10000 / 65536 * 65536 + 65536)

theorem clashBrought_done : clashBrought.endWaits (clashBrought.launch 0) = none := by decide +kernel

theorem clashEnding_brings (h : Config.pick 0 % 2 = 0) : clashEnding.bringFor 0 2 = clashBrought := by
  have hpart : (clashEnding.launch 0).part = 0 := by decide +kernel
  have hfree : clashEnding.free = 0 := by decide +kernel
  have hpage : clashChosen.bringPage 0 0x10000 true = _ :=
    bringPage_here (at_ := Config.rootPhys 0 + 16) (e := 2) (base := 0) (b := emptyBacking) (img := emptyImage) (by decide +kernel)
      (by decide) (backedImage_found rfl rfl (by decide +kernel) rfl) (by decide +kernel) (by decide +kernel)
  have hbring := bringFor_here (s := clashEnding) (lid := 0) (n := 1) (page := 0x10000) (by decide +kernel) (hfree ▸ h)
    (by rw [hpart]; exact hpage)
  rw [hpart] at hbring
  exact hbring.trans (bringFor_done clashBrought_done 1)

/-- The launch whose identity the new one took has no termination in progress. -/
theorem clashing_overwritten (h : Config.pick 0 % 2 = 0) :
    (aget? (clashing.resetPart 0).launches 0).map (fun l => l.ending) = some none := by
  have hend : (clashing.stopPart 0).resetLaunch 0 = clashBrought.completeLaunch 0 :=
    resetLaunch_completes (by decide +kernel) (clashEnding_brings h) clashBrought_done
  rw [resetPart_launches (by decide +kernel) hend]
  decide +kernel

theorem clashing_not_partReset (h : Config.pick 0 % 2 = 0) : ¬ PartReset 0 clashing (clashing.resetPart 0) := by
  rintro ⟨hends, -⟩
  obtain ⟨u, hu, -, hending⟩ := hends 0 clashLaunch rfl rfl rfl
  have hnone := clashing_overwritten h
  rw [hu, Option.map_some, hending (by decide)] at hnone
  cases hnone

/-! ### What the two statements ask of the free choice -/

/-- O60 fails of a device whose first free choice is even. -/
theorem not_resetsAndPower_of_pick (h : Config.pick 0 % 2 = 0) : ¬ Obligations.ResetsAndPower := by
  rintro ⟨hreset, -⟩
  obtain ⟨t, ht, hr, -⟩ := hreset 0 clashing rfl
  rw [partitionReset_eq rfl] at ht
  obtain rfl := Host.Outcome.next.inj ht
  exact clashing_not_partReset h hr

/-- And so does O49, which says the same of the reset that ends an overdue termination. -/
theorem not_launchesFromQueueToEnd_of_pick (h : Config.pick 0 % 2 = 0) : ¬ Obligations.LaunchesFromQueueToEnd := by
  rintro ⟨-, -, -, -, -, -, hlate⟩
  obtain ⟨t, ht, hr⟩ := hlate 0 0 0 0 clashing clashLaunch rfl rfl rfl rfl (by decide)
  have hpart : (clashing.queue 0).part = 0 := rfl
  rw [terminationTimeout_eq (by decide +kernel), hpart] at ht
  rw [hpart] at hr
  obtain rfl := Host.Outcome.next.inj ht
  exact clashing_not_partReset h hr

end Sys2Proof.Proofs
end

section
/-!
SUPPORT. Predicates, votes, shuffles, reductions and scans (O16): one fact for each operation that VRED and VSCAN fold over the active
lanes (R86), and the course of the instructions lane by lane (R81 to R85).
-/
namespace Sys2Proof.Proofs

open Sys2Proof.Machine Sys2Proof.Laws

/-! ### Folds over the terms of a reduction (R86) -/

/-- A fold that keeps the term of the smaller key gives one of its terms, and none has a smaller key. -/
theorem foldl_keepLess (key : Nat → Int) (v : Nat) (l : List Nat) :
    l.foldl (fun m w => if key w < key m then w else m) v ∈ v :: l
      ∧ ∀ y ∈ v :: l, key (l.foldl (fun m w => if key w < key m then w else m) v) ≤ key y := by
  induction l generalizing v with
  | nil => simp
  | cons w l ih =>
    rw [List.foldl_cons]
    by_cases h : key w < key v
    · obtain ⟨hmem, hle⟩ := ih w
      rw [if_pos h]
      exact ⟨List.mem_cons_of_mem _ hmem, List.forall_mem_cons.mpr ⟨Int.le_trans (hle w List.mem_cons_self) (Int.le_of_lt h), hle⟩⟩
    · obtain ⟨hmem, hle⟩ := ih v
      obtain ⟨hv, hl⟩ := List.forall_mem_cons.mp hle
      rw [if_neg h]
      exact ⟨List.mem_cons.mpr ((List.mem_cons.mp hmem).imp id (List.mem_cons_of_mem _)),
        List.forall_mem_cons.mpr ⟨hv, List.forall_mem_cons.mpr ⟨Int.le_trans hv (Int.not_lt.mp h), hl⟩⟩⟩

theorem testBit_foldl_and (v : Nat) (l : List Nat) (k : Nat) :
    (l.foldl (fun m w => m &&& w) v).testBit k = (v :: l).all fun y => y.testBit k := by
  induction l generalizing v with
  | nil => simp
  | cons w l ih => rw [List.foldl_cons, ih]; simp [Bool.and_assoc]

theorem testBit_foldl_or (v : Nat) (l : List Nat) (k : Nat) :
    (l.foldl (fun m w => m ||| w) v).testBit k = (v :: l).any fun y => y.testBit k := by
  induction l generalizing v with
  | nil => simp
  | cons w l ih => rw [List.foldl_cons, ih]; simp [Bool.or_assoc]

/-- A bit of an exclusive or is set where an odd number of the terms have it. -/
theorem testBit_foldl_xor (v : Nat) (l : List Nat) (k : Nat) :
    (l.foldl (fun m w => m ^^^ w) v).testBit k = decide (((v :: l).filter fun y => y.testBit k).length % 2 = 1) := by
  induction l generalizing v with
  | nil => cases h : v.testBit k <;> simp [h]
  | cons w l ih =>
    rw [List.foldl_cons, ih]
    cases hv : v.testBit k <;> cases hw : w.testBit k <;> simp [hv, hw]
    omega

/-! ### The operations of VRED and VSCAN (R86) -/

theorem contains_float_iff (t : Ty) : [Ty.f32, .f64].contains t = true ↔ t = .f32 ∨ t = .f64 := by simp

theorem contains_float_of_int : ∀ t ∈ [Ty.i32, .n32, .b32, .i64, .n64, .b64], [Ty.f32, .f64].contains t = false := by decide

/-- Over no term, the identity, without an exception. -/
theorem redValue_nil (op : Nat) (t : Ty) (rm : RM) : redValue op t rm [] = (redIdentity op t, 0) := rfl

section
variable {t : Ty} (h : [Ty.f32, Ty.f64].contains t = false) (rm : RM) (x : Nat) (xs : List Nat)
include h

theorem redValue_int_exc (op : Nat) : (redValue op t rm (x :: xs)).2 = 0 := by simp only [redValue, h, Bool.false_eq_true, if_false]

theorem redValue_sum : (redValue 0 t rm (x :: xs)).1 = (x :: xs).sum % 2 ^ t.bits := by
  simp only [redValue, h, Bool.false_eq_true, if_false]

theorem redValue_least :
    (redValue 1 t rm (x :: xs)).1 ∈ x :: xs ∧ ∀ y ∈ x :: xs, numOf t (redValue 1 t rm (x :: xs)).1 ≤ numOf t y := by
  simp only [redValue, h, Bool.false_eq_true, if_false]
  exact foldl_keepLess (numOf t) x xs

theorem redValue_greatest :
    (redValue 2 t rm (x :: xs)).1 ∈ x :: xs ∧ ∀ y ∈ x :: xs, numOf t y ≤ numOf t (redValue 2 t rm (x :: xs)).1 := by
  simp only [redValue, h, Bool.false_eq_true, if_false]
  simpa only [Int.neg_lt_neg_iff, Int.neg_le_neg_iff] using foldl_keepLess (fun y => -numOf t y) x xs

theorem redValue_and (k : Nat) : (redValue 3 t rm (x :: xs)).1.testBit k = (x :: xs).all fun y => y.testBit k := by
  simp only [redValue, h, Bool.false_eq_true, if_false]
  exact testBit_foldl_and x xs k

theorem redValue_or (k : Nat) : (redValue 4 t rm (x :: xs)).1.testBit k = (x :: xs).any fun y => y.testBit k := by
  simp only [redValue, h, Bool.false_eq_true, if_false]
  exact testBit_foldl_or x xs k

theorem redValue_xor (k : Nat) :
    (redValue 5 t rm (x :: xs)).1.testBit k = decide (((x :: xs).filter fun y => y.testBit k).length % 2 = 1) := by
  simp only [redValue, h, Bool.false_eq_true, if_false]
  exact testBit_foldl_xor x xs k

end

/-! ### Floating-point sums (R86) -/

theorem redValue_float_sum {t : Ty} (h : t = .f32 ∨ t = .f64) (rm : RM) (x : Nat) (xs : List Nat) :
    redValue 0 t rm (x :: xs) = sumF (fmtOf t) rm (x :: xs) := by
  simp only [redValue, (contains_float_iff t).mpr h, if_true]

section
variable {f : Fmt} (rm : RM) {xs : List Nat}

theorem firstNaN_none {vs : List FV} (h : vs.any FV.isNaN = false) : firstNaN f vs = none := by
  simpa [firstNaN] using h

/-- The first NaN decides a sum. -/
theorem sumF_nan {v : FV} (hv : (xs.map (decodeF f)).find? FV.isNaN = some v) :
    sumF f rm xs = (quietF f v, if (xs.map (decodeF f)).any FV.isSig then NV else 0) := by
  simp only [sumF, firstNaN, hv, Option.map_some, sigFlag]

theorem any_inf_iff {vs : List FV} (n : Bool) : (vs.any fun v => v == .inf n) = true ↔ FV.inf n ∈ vs := by simp

/-- Infinities of both signs have no sum. -/
theorem sumF_inf_both (hn : (xs.map (decodeF f)).any FV.isNaN = false) (hp : FV.inf false ∈ xs.map (decodeF f))
    (hm : FV.inf true ∈ xs.map (decodeF f)) : sumF f rm xs = (canonNaN f, NV) := by
  simp only [sumF, firstNaN_none hn, (any_inf_iff false).mpr hp, (any_inf_iff true).mpr hm, Bool.and_self, if_true]

/-- Infinities of one sign are the sum. -/
theorem sumF_inf_one {n : Bool} (hn : (xs.map (decodeF f)).any FV.isNaN = false) (hi : FV.inf n ∈ xs.map (decodeF f))
    (ho : FV.inf (!n) ∉ xs.map (decodeF f)) : sumF f rm xs = (infF f n, 0) := by
  have hi' := (any_inf_iff n).mpr hi
  have ho' := Bool.eq_false_iff.mpr (mt (any_inf_iff (!n)).mp ho)
  cases n <;> simp only [Bool.not_true, Bool.not_false] at ho' <;> simp [sumF, firstNaN_none hn, hi', ho']

/-- The exact sum of finite terms is rounded once. -/
theorem sumF_finite (h : ∀ v ∈ xs.map (decodeF f), v.isNaN = false ∧ v.isInf = false) :
    sumF f rm xs = roundDy f rm (((xs.map (decodeF f)).all fun v => v == .zero true) || rm == .rdn)
      ((xs.map (decodeF f)).foldl (fun a v => a.add v.dy) Dy.zero) := by
  have hn : (xs.map (decodeF f)).any FV.isNaN = false := List.any_eq_false.mpr fun v hv => by simp [(h v hv).1]
  have hi (n : Bool) : ((xs.map (decodeF f)).any fun v => v == .inf n) = false :=
    Bool.eq_false_iff.mpr fun hi => by simpa [FV.isInf] using (h _ ((any_inf_iff n).mp hi)).2
  simp only [sumF, firstNaN_none hn, hi, Bool.and_self, Bool.or_self, Bool.false_eq_true, if_false]

end

/-- R86: what VRED and VSCAN write for a list of terms. -/
theorem redOut_eq (x : Ctx) (f : ArithF) (os : List Opnd) :
    redOut x f os =
      let op := f.sub.toNat % 8
      let r := redValue op f.ty f.rm (os.map fun o => o.val)
      let st := if 3 ≤ op then x.half os else (x.whole os, x.whole os)
      { regs := (0, ⟨BitVec.ofNat 32 r.1, st.1⟩) :: (if f.ty.wide then [(1, ⟨BitVec.ofNat 32 (r.1 / 2 ^ 32), st.2⟩)] else []), exc := r.2 } := by
  have hop : bitsN f.sub.toNat 0 3 = f.sub.toNat % 8 := rfl
  simp only [redOut, hop]
  cases f.ty.wide <;> rfl

/-! ### The source lane of SHFL (R85) -/

theorem shflLane_eq_some (width i b j : Nat) :
    (shflLane 0 width i b = some j ↔ j = b ∧ j < width)
    ∧ (shflLane 1 width i b = some j ↔ j + b = i)
    ∧ (shflLane 2 width i b = some j ↔ j = i + b ∧ j < width)
    ∧ (shflLane 3 width i b = some j ↔ j = i ^^^ b ∧ j < width) := by
  simp only [shflLane, Option.ite_none_right_eq_some, Option.some.injEq]
  exact ⟨by omega, by omega, by omega, by omega⟩

/-! ### Lane by lane (R81 to R86) -/

theorem pmovPut_does (f : ArithF) : Does (.pmovPut f) f.g (fun _ _ => True) fun x s =>
    ((x.act.map fun a => (a.2, (x.read (s.fibre a.2) .none f.imm f.a).val)).foldl (fun t v => t.modFibre v.1 fun fb =>
      { fb with preds := BitVec.ofNat 16 (v.2 % 2 ^ 15) ||| 0x8000 }) s).advance x := by
  intro s c sl hs _
  simp only [exec, execPmovPut, onSlot_next hs]

theorem vote_actsAs (f : ArithF) :
    let yes (x : Ctx) (s : State) : List (Nat × Nat) := x.act.filter fun a => readPred (s.fibre a.2) f.a
    ActsAs (.vote f) f.g f.d fun x s _ => match f.sub.toNat with
      | 0 => { pred := some ((yes x s).length == x.act.length) }
      | 1 => { pred := some (!(yes x s).isEmpty) }
      | 2 => { pred := some ((yes x s).isEmpty || (yes x s).length == x.act.length) }
      | _ => let m := laneMask ((yes x s).map fun a => a.1)
             { regs := [(0, ⟨BitVec.ofNat 32 m, 0⟩), (1, ⟨BitVec.ofNat 32 (m / 2 ^ 32), 0⟩)] } := by
  refine acts_of_lanewise fun s => ?_
  simp only [exec, execVote, List.filter_map, List.length_map, List.isEmpty_map, List.map_map]
  rfl

theorem shfl_actsAs (f : ArithF) :
    ActsAs (.shfl f) f.g f.d fun x s fb =>
      let there := (shflLane f.sub.toNat x.l.width fb.lane (x.read fb .n32 f.imm f.b).val).bind fun j =>
        x.sl.lanes.find? fun y => y.1 == j
      let a := x.read ((there.map fun y => s.fibre y.2).getD fb) f.ty f.imm f.a
      { regs := resultRegs f.ty (a.val : Int) a.lo a.hi } := by
  refine acts_of_lanewise fun s => ?_
  simp only [exec, execShfl, Ctx.read32]
  congr 1
  funext x s
  congr 1
  funext fb
  cases shflLane f.sub.toNat x.l.width fb.lane (x.read fb .n32 f.imm f.b).val with
  | none => rfl
  | some j =>
    simp only [Option.bind_some]
    cases x.sl.lanes.find? fun y => y.1 == j <;> rfl

theorem vscan_actsAs (f : ArithF) :
    ActsAs (.vscan f) f.g f.d fun x s fb => redOut x f ((x.act.filter fun a =>
      if f.sub.getLsbD 4 then decide (a.1 < fb.lane) else decide (a.1 ≤ fb.lane)).map fun a =>
        x.read (s.fibre a.2) f.ty f.imm f.a) := by
  refine acts_of_lanewise fun s => ?_
  simp only [exec, execVscan, List.filter_map, List.map_map]
  rfl

/-- Settles O16: each form follows its definition lane by lane, and each operation of a reduction is a fold over its terms. -/
theorem predicatesVotesAndShuffles : Obligations.PredicatesVotesAndShuffles := by
  refine ⟨fun f => ⟨acts_of_lanewise fun _ => rfl, acts_of_lanewise fun _ => rfl, acts_of_lanewise fun _ => rfl, pmovPut_does f, vote_actsAs f,
      acts_of_lanewise fun _ => rfl⟩,
    fun f => ⟨shfl_actsAs f, acts_of_lanewise fun _ => rfl, vscan_actsAs f⟩, fun width i b j _ => shflLane_eq_some width i b j, ?_, ?_, ?_,
    redOut_eq⟩
  · intro t rm x xs ht _
    have h := contains_float_of_int t ht
    exact ⟨redValue_int_exc h rm x xs, redValue_sum h rm x xs, redValue_least h rm x xs, redValue_greatest h rm x xs,
      redValue_and h rm x xs, redValue_or h rm x xs, redValue_xor h rm x xs⟩
  · intro t rm ht
    simp only [redValue_nil, Prod.mk.injEq, and_true]
    revert t
    decide
  · intro t rm x xs ht
    simp only [redValue_float_sum ht]
    exact ⟨fun v => sumF_nan rm, sumF_inf_both rm, fun n => sumF_inf_one rm, sumF_finite rm⟩

end Sys2Proof.Proofs
end

section
/-!
SUPPORT. A slot that is listed twice (O34). The statement asks nothing of the order of a state's lists, and a list of slots may name one
slot twice. FEND of a team's last fibre gives back the team's entries (R77, R304), and another team's entry behind them then answers for
the slot, with the fibres that it holds.
-/
namespace Sys2Proof.Proofs

open Sys2Proof.Machine Sys2Proof.Laws

/-- The slot that issues: it holds the one fibre of team 0. -/
def endingSlot : Slot := { Slot.zero with lanes := [(0, 0)] }

/-- The entry behind it under the same number: a slot of team 1 that holds a fibre. -/
def hiddenSlot : Slot := { Slot.zero with team := 1, lanes := [(0, 8192)] }

def endingCtx : IssueCtx := { g := 0, count := 1, word := 0, part := [0], rstep := none, thenPc := none, peers := [], bounds := [] }

/-- Team 0 runs its last fibre in slot 0, and team 1 has an entry for slot 0 too. -/
def listedTwice : State :=
  { State.reset with
    cur := some endingCtx, slots := [(0, endingSlot), (0, hiddenSlot)], teams := [(0, { Team.zero with state := .running })]
    fibres := [(0, { Fibre.zero with alive := true })] }

/-- FEND under a guard that always holds. -/
def fendAll : CtrlF := { g := ⟨false, 15⟩, d := .vec 0, a := .vec 0, b := .vec 0, c := .vec 0, sub := 0, top := 0, imm := 0 }

theorem listedTwice_issues : Issues listedTwice endingCtx endingSlot := ⟨rfl, rfl⟩

/-- R77, R304: the team's last fibre ends, the team gives back its slot, and the entry behind it is what the list holds for slot 0. -/
theorem fend_listedTwice : ∃ t, exec (.fend fendAll) listedTwice = .next t ∧ aget? t.slots 0 = some hiddenSlot :=
  ⟨_, rfl, by decide +kernel⟩

/-- Refutes O34: after FEND has ended the one fibre of slot 0, the slot is to hold no fibre, and the entry behind it holds one. -/
theorem not_fibresWaitSpawnAndEnd : ¬ Obligations.FibresWaitSpawnAndEnd := by
  rintro ⟨hfibres, -⟩
  obtain ⟨-, hact⟩ := hfibres fendAll listedTwice endingCtx endingSlot listedTwice_issues
  obtain ⟨-, -, -, -, -, -, ⟨t, ht, -, hlanes, -⟩, -⟩ := hact (by decide +kernel)
  obtain ⟨u, hu, hslot⟩ := fend_listedTwice
  obtain rfl := Host.Outcome.next.inj (ht.symm.trans hu)
  have h := hlanes hiddenSlot hslot
  revert h
  decide +kernel

end Sys2Proof.Proofs
end

section
/-!
SUPPORT. Waits that end, spilled records that return, and the weave former (O35): what a slot and its quarter hold after each of the
former's own steps (R69 to R71, R75, R78).
-/
namespace Sys2Proof.Proofs

open Sys2Proof.Machine Sys2Proof.Laws

/-! ### A run of bytes laid into memory (R71) -/

theorem aget_append_left {α : Type} (a b : List (Nat × α)) {k : Nat} (h : ∀ c ∈ a, c.1 ≠ k) : aget? (a ++ b) k = aget? b k := by
  induction a with
  | nil => rfl
  | cons x a ih =>
    obtain ⟨hx, ha⟩ := List.forall_mem_cons.mp h
    simp only [List.cons_append, aget?, hx, if_false, ih ha]

theorem aget_append_right {α : Type} (a b : List (Nat × α)) {k : Nat} (h : ∀ c ∈ b, c.1 ≠ k) : aget? (a ++ b) k = aget? a k := by
  induction a with
  | nil => simpa using aget_append_left b [] h
  | cons x a ih => simp only [List.cons_append, aget?, ih]

theorem getElem_from (a n i : Nat) (h : i < (from_ a n).length) : (from_ a n)[i] = a + i := by
  induction n generalizing a i with
  | zero => simp at h
  | succ n ih =>
    cases i with
    | zero => rfl
    | succ i => simp only [from_, List.getElem_cons_succ, ih]; omega

theorem getElem_bytesLE (n x i : Nat) (h : i < (bytesLE n x).length) : (bytesLE n x)[i] = BitVec.ofNat 8 (x / 256 ^ i) := by
  induction n generalizing x i with
  | zero => simp at h
  | succ n ih =>
    cases i with
    | zero => simp [bytesLE]
    | succ i => simp only [bytesLE, List.getElem_cons_succ, ih, Nat.div_div_eq_div_mul, Nat.pow_succ, Nat.mul_comm]

/-- A byte of the run reads as it was laid. -/
theorem memRead_memFill (m : List Host.Cell) (a : Nat) (bs : List Byte) {i : Nat} (h : i < bs.length) :
    memRead (memFill m a bs) (a + i) = bs[i] := by
  have hlist : (a + i, bs[i]) ∈ (from_ a bs.length).zip bs :=
    List.mem_iff_getElem.mpr ⟨i, by simpa using h, by rw [List.getElem_zip, getElem_from]⟩
  have hsorted := sortedFrom_zip_from a bs
  have hmid : aget? (memFill m a bs) (a + i) =
      aget? (((from_ a bs.length).zip bs).filter fun c => unlisted c.1 != some c.2) (a + i) := by
    rw [memFill, aget_append_right _ _ fun c hc => by have := (List.mem_filter.mp hc).2; simp at this; omega,
      aget_append_left _ _ fun c hc => by have := (List.mem_filter.mp hc).2; simp at this; omega]
  by_cases hu : unlisted (a + i) = some bs[i]
  · have hnone : aget? (((from_ a bs.length).zip bs).filter fun c => unlisted c.1 != some c.2) (a + i) = none := by
      cases hb : aget? (((from_ a bs.length).zip bs).filter fun c => unlisted c.1 != some c.2) (a + i) with
      | none => rfl
      | some b =>
        obtain ⟨hbm, hbu⟩ := List.mem_filter.mp (mem_of_aget hb)
        have heq : some b = some bs[i] := (aget_of_mem hsorted hbm).symm.trans (aget_of_mem hsorted hlist)
        exact absurd (hu.trans heq.symm) (bne_iff_ne.mp hbu)
    rw [memRead, hmid, hnone]
    simp [hu]
  · rw [memRead, hmid, aget_of_mem (sortedFrom_filter _ hsorted) (List.mem_filter.mpr ⟨hlist, by simpa using hu⟩)]

theorem layBytes_byteAt (s : State) (base : Nat) (bs : List Byte) {i : Nat} (h : i < bs.length) :
    (s.layBytes base bs).byteAt (base + i) = bs[i] := memRead_memFill s.mem base bs h

theorem layBytes_quarterAt (s : State) (base k : Nat) (bs : List Byte) : (s.layBytes base bs).quarterAt k = s.quarterAt k := rfl

/-! ### The spilled record that returns (R71) -/

/-- Where a chunk stands, its header alone is written again. -/
theorem layChunk_header {s : State} {c : Chunk} {base : Nat} (h : s.chunkBase c.launch c.index = .ok base) :
    s.layChunk c false = s.layBytes base (bytesLE 16 (s.chunkHeader c)) := by
  simp only [State.layChunk, h, Bool.false_eq_true, if_false]

theorem oldestChunk_single {s : State} {core q k : Nat} {c : Chunk} (h : s.chunks = [(k, c)]) (hcore : c.core = core) (hq : c.q = q) :
    s.oldestChunk core q = some (k, c) := by
  simp [State.oldestChunk, h, hcore, hq]

/-- The oldest record `r` of a chunk, before the records `rs`, stands in a quarter as its youngest; `cs` are the chunks that are left. -/
def unspilled (s : State) (key base : Nat) (r : Rec) (rs : List Rec) (cs : List (Nat × Chunk)) : State :=
  { s.setQuarter key { s.quarterAt key with
      recs := (s.quarterAt key).recs ++ [{ r with ue := r.ue || s.ue.contains ((base + 16 * (rs.length + 1)) / 32) }] } with
    chunks := cs }

theorem unspilled_chunkBase (s : State) (key base : Nat) (r : Rec) (rs : List Rec) (cs : List (Nat × Chunk)) (lid i : Nat) :
    (unspilled s key base r rs cs).chunkBase lid i = s.chunkBase lid i := rfl

theorem unspilled_chunkHeader (s : State) (key base : Nat) (r : Rec) (rs : List Rec) (cs : List (Nat × Chunk)) (c : Chunk) :
    (unspilled s key base r rs cs).chunkHeader c = s.chunkHeader c := rfl

theorem unspilled_recs (s : State) (key base : Nat) (r : Rec) (rs : List Rec) (cs : List (Nat × Chunk)) :
    ((unspilled s key base r rs cs).quarterAt key).recs =
      (s.quarterAt key).recs ++ [{ r with ue := r.ue || s.ue.contains ((base + 16 * (rs.length + 1)) / 32) }] := by
  simp [unspilled, State.quarterAt]

theorem spillReturn_next {s : State} {core q k base : Nat} {c : Chunk} {r : Rec} {rs : List Rec} (hcs : s.chunks = [(k, c)])
    (hcore : c.core = core) (hq : c.q = q) (hrecs : c.recs = r :: rs) (hbase : s.chunkBase c.launch c.index = .ok base)
    (hroom : (s.quarterAt (4 * core + q)).recs.length < 3072) :
    exec (.spillReturn core q) s = .next
      ((unspilled s (4 * core + q) base r rs (if rs = [] then [] else [(k, { c with recs := rs })])).layBytes base
        (bytesLE 16 (s.chunkHeader { c with recs := rs }))) := by
  have hleft : (if rs = [] then [] else [(k, { c with recs := rs })]) =
      if rs = [] then adel s.chunks k else aset s.chunks k { c with recs := rs } := by simp [hcs, adel, aset]
  rw [← unspilled_chunkHeader s (4 * core + q) base r rs, hleft,
    ← layChunk_header (c := { c with recs := rs }) ((unspilled_chunkBase ..).trans hbase)]
  simp only [exec, execSpillReturn, Nat.not_le.mpr hroom, if_false, oldestChunk_single hcs hcore hq, hrecs, hbase, List.length_cons]
  rfl

/-! ### Waits that end (R75, R78) -/

section
variable {s : State} {g : Nat} {sl : Slot} (hg : aget? s.slots g = some sl)
include hg

theorem yieldRelease_ends {others : List Nat} {till : Nat} (hw : sl.wait = .yield others till) (h : others = [] ∨ till ≤ s.clock) :
    exec (.yieldRelease g) s = .next (s.modSlot g fun u => { u with wait := .none }) := by
  simp [exec, execYieldRelease, slot_of_aget s hg, hw, h]

theorem sleepExpire_ends {till : Nat} (hw : sl.wait = .sleep till) (h : till ≤ s.clock) :
    exec (.sleepExpire g) s = .next (s.modSlot g fun u => { u with wait := .none }) := by
  simp [exec, execSleepExpire, slot_of_aget s hg, hw, h]

theorem joinRelease_ends {till : Nat} {next : DWord} (hw : sl.wait = .join till next)
    (h : sl.lanes.length = (s.launch (s.team sl.team).launch).width ∨ s.nothingToJoin g sl = true) :
    exec (.joinRelease g) s = .next (s.modSlot g fun u => { u with wait := .none, pc := next, arrive := .flow }) := by
  simp only [exec, execJoinRelease, hg, hw, State.joinOver]
  rcases h with h | h <;> simp [h]

theorem joinRelease_stays {till : Nat} {next : DWord} (hw : sl.wait = .join till next) (ht : s.clock < till)
    (hl : sl.lanes.length ≠ (s.launch (s.team sl.team).launch).width) (hn : s.nothingToJoin g sl = false) :
    exec (.joinRelease g) s = .next s := by
  simp [exec, execJoinRelease, hg, hw, State.joinOver, hl, hn, ht]

/-- R75: at its limit a JOIN lets the fibres go as records, where others of the team wait elsewhere. -/
theorem joinRelease_empties {till : Nat} {next : DWord} (hw : sl.wait = .join till next) (ht : till ≤ s.clock)
    (hl : sl.lanes.length ≠ (s.launch (s.team sl.team).launch).width) (hn : s.nothingToJoin g sl = false) (hh : sl.handler = false)
    (hr : ∃ r ∈ s.recsHere g sl.team, r.pc ≠ (s.launch (s.team sl.team).launch).packPc next) :
    exec (.joinRelease g) s = .next ((s.emptySlot g).modSlot g fun u => { u with arrive := .flow }) := by
  have hany : ((s.recsHere g sl.team).any fun r => r.pc != (s.launch (s.team sl.team).launch).packPc next) = true := by
    simpa [List.any_eq_true] using hr
  simp [exec, execJoinRelease, hg, hw, State.joinOver, hl, hn, ht, hh, hany]

end

/-! ### A slot that is emptied into records (R70, R75) -/

/-- What a slot is once its fibres have left it. -/
def leftBehind (sl : Slot) : Slot :=
  { sl with
    lanes := [], replay := none, pc := sl.nextAt, wait := if sl.wait.stays then sl.wait else .none
    late := sl.late.filter fun c => !c.1.goesBack }

/-- The records that its fibres become, lowest lane first. -/
def leaving (s : State) (g : Nat) (sl : Slot) : List Rec := sl.lanes.map fun a => s.leaveRec g sl (sl.leavesFor a.1) a.1 a.2

section
variable {s : State} {g : Nat} {sl : Slot} (hg : aget? s.slots g = some sl)
include hg

theorem emptySlot_slot : aget? (s.emptySlot g).slots g = some (leftBehind sl) := by
  simp [State.emptySlot, State.fileRecs, aget_aupd_same, hg, leftBehind]

theorem emptySlot_recs : (s.emptySlot g).quarterAt (qkeyOf g) =
    { s.quarterAt (qkeyOf g) with recs := (s.quarterAt (qkeyOf g)).recs ++ leaving s g sl } := by
  simp [State.emptySlot, State.fileRecs, slot_of_aget s hg, leaving, State.quarterAt]

end

/-- A fibre with no fault to meet afresh goes on where its slot would have. -/
theorem leavesFor_next {sl : Slot} (hw : ∀ p, sl.wait ≠ .park p) (hr : sl.replay = none) (hl : ∀ k ∈ sl.late, k.1.goesBack = false)
    (lane : Nat) : sl.leavesFor lane = sl.nextAt := by
  have hdue : (sl.late.filter fun c => c.1.goesBack) = [] := by simpa using hl
  -- the first case of the match is the park that `hw` excludes
  simp only [Slot.leavesFor, hdue, hr, List.find?_nil, List.getLast?_nil]

/-- R68: the PC of a record is the packed one of the place where its fibre goes on. -/
theorem leaveRec_pc (s : State) (g : Nat) (sl : Slot) (pc : DWord) (lane fid : Nat) :
    (s.leaveRec g sl pc lane fid).pc = (s.launch (s.team sl.team).launch).packPc pc := by
  apply BitVec.eq_of_toNat_eq
  simp only [State.leaveRec, Rec.pc, Rec.field, recWord, bitsN, BitVec.toNat_ofNat, Nat.shiftRight_zero, Bool.false_eq_true, if_false]
  omega

/-! ### A record that the former places (R69) -/

/-- A slot as the former fills it: an empty one takes the role and the PC of the bucket. -/
def opened (s : State) (g : Nat) (pc : Word) (role : Nat) : State :=
  if (s.slot g).lanes.isEmpty then
    s.modSlot g fun x =>
      { x with role, pc := (s.launch (s.team (s.slot g).team).launch).pcAt (pc.toNat / 8 : Nat) (pc.toNat % 8), arrive := .flow }
  else s

theorem opened_recReady (s : State) (g : Nat) (pc : Word) (role : Nat) (r : Rec) : (opened s g pc role).recReady r = s.recReady r := by
  unfold opened
  split <;> rfl

theorem opened_clock (s : State) (g : Nat) (pc : Word) (role : Nat) : (opened s g pc role).clock = s.clock := by
  unfold opened
  split <;> rfl

/-- The slot with one more fibre, filled now. -/
def seated (s : State) (g lane fid : Nat) : State := s.modSlot g fun x => { x with lanes := aset x.lanes lane fid, lastFill := s.clock }

section
variable {s : State} {g : Nat} {r : Rec} (hfree : ∀ a ∈ (s.slot g).lanes, a.1 ≠ r.lane)
include hfree

theorem placeRec_fibre (hk : r.kind1 = false) : s.placeRec g r = (seated s g r.lane r.fibre, true) := by
  have hcol : ((s.slot g).lanes.any fun a => a.1 == r.lane) = false := by simpa using hfree
  simp only [State.placeRec, hcol, hk, Bool.false_eq_true, if_false]
  rfl

theorem placeRec_spawn {fid : Nat} {fb : Fibre} (hk : r.kind1 = true) (hw : s.freeWindow g r.team r.role r.lane = some (fid, fb)) :
    s.placeRec g r =
      (seated ((s.modTeam r.team fun tm => { tm with gone := union tm.gone fb.allKnow }).setFibre fid (fb.spawned r)) g r.lane fid, true) := by
  have hcol : ((s.slot g).lanes.any fun a => a.1 == r.lane) = false := by simpa using hfree
  simp only [State.placeRec, hcol, hk, hw, Bool.false_eq_true, if_false, if_true]
  rfl

end

/-- Records under other PCs stay where they are. -/
theorem placeBucket_others {pc : Word} {rs : List Rec} (h : ∀ r ∈ rs, r.pc ≠ pc) (s : State) (g role room : Nat) :
    s.placeBucket g pc role room rs = (s, rs) := by
  induction rs with
  | nil => rfl
  | cons r rs ih =>
    obtain ⟨hr, hrs⟩ := List.forall_mem_cons.mp h
    simp only [State.placeBucket, beq_eq_false_iff_ne.mpr hr, Bool.and_false, Bool.false_and, Bool.false_eq_true, if_false, ih hrs]

/-- The bucket of one record, which the former can place. -/
structure Placeable (s : State) (g : Nat) (pc : Word) (role : Nat) (r : Rec) (rs : List Rec) : Prop where
  recs : (s.quarterAt (qkeyOf g)).recs = r :: rs
  room : (s.quarterAt (qkeyOf g)).placed < 64
  ofTeam : r.team = (s.slot g).team
  atPc : r.pc = pc
  ofRole : r.role = role
  ready : s.recReady r = true
  sound : r.ue = false
  others : ∀ x ∈ rs, x.pc ≠ pc

theorem fillSlot_one {s t : State} {g role : Nat} {pc : Word} {r : Rec} {rs : List Rec} (h : Placeable s g pc role r rs)
    (hteam : ((opened s g pc role).slot g).team = (s.slot g).team) (ht : (opened s g pc role).placeRec g r = (t, true)) :
    s.fillSlot g pc role = t.setQuarter (qkeyOf g) { t.quarterAt (qkeyOf g) with
      recs := rs, placed := (s.quarterAt (qkeyOf g)).placed + 1 } := by
  have hbad : s.badRecord g pc role = false := by
    have hrs : ∀ x ∈ rs, (x.pc == pc) = false := fun x hx => beq_eq_false_iff_ne.mpr (h.others x hx)
    simp only [State.badRecord, h.recs, List.any_cons, h.sound, Bool.and_false, Bool.false_or]
    exact List.any_eq_false.mpr fun x hx => by simp [hrs x hx]
  have hready : (opened s g pc role).recReady r = true := (opened_recReady s g pc role r).trans h.ready
  have hroom : 64 - (s.quarterAt (qkeyOf g)).placed ≠ 0 := by have := h.room; omega
  have hplace : (opened s g pc role).placeBucket g pc role (64 - (s.quarterAt (qkeyOf g)).placed) (r :: rs) = (t, rs) := by
    simp only [State.placeBucket, hready, h.atPc, h.ofRole, h.ofTeam, hteam, ht, ne_eq, hroom, not_false_eq_true, decide_true, beq_self_eq_true,
      Bool.and_self, if_true, placeBucket_others h.others]
  unfold opened at hplace
  simp only [State.fillSlot, hbad, h.recs, hplace, Bool.false_eq_true, if_false, List.length_cons]
  simp

/-! ### The former's own steps (R69, R70) -/

theorem quarterAt_modSlot (s : State) (g k : Nat) (f : Slot → Slot) : (s.modSlot g f).quarterAt k = s.quarterAt k := rfl

theorem seated_slot {s : State} {g : Nat} {sl : Slot} (hg : aget? s.slots g = some sl) (lane fid : Nat) :
    aget? (seated s g lane fid).slots g = some { sl with lanes := aset sl.lanes lane fid, lastFill := s.clock } := by
  simp [seated, aget_aupd_same, hg]

theorem opened_filled {s : State} {g : Nat} {sl : Slot} (hg : aget? s.slots g = some sl) (hl : sl.lanes ≠ []) (pc : Word) (role : Nat) :
    opened s g pc role = s := by
  simp [opened, slot_of_aget s hg, hl]

theorem opened_empty {s : State} {g : Nat} {sl : Slot} (hg : aget? s.slots g = some sl) (hl : sl.lanes = []) (pc : Word) (role : Nat) :
    aget? (opened s g pc role).slots g = some { sl with
      role, pc := (s.launch (s.team sl.team).launch).pcAt (pc.toNat / 8 : Nat) (pc.toNat % 8), arrive := .flow } := by
  simp [opened, slot_of_aget s hg, hl, aget_aupd_same, hg]

section
variable {s : State} {g : Nat} {sl : Slot} (hh : sl.handler = false) (hi : (s.team sl.team).state.issues = true)
include hh hi

/-- R70: the only slot is emptied when its team's oldest KIND 0 record has waited long, and filled as an empty slot is. -/
theorem formerEmptySlot_empties {r : Rec} (hs : s.slots = [(g, sl)]) (hl : sl.lanes ≠ []) (hrecs : (s.quarterAt (qkeyOf g)).recs = [r])
    (hk : r.kind1 = false) (ht : r.team = sl.team) (hlong : r.since + 2048 ≤ s.clock) {t : State}
    (hfill : execWeaveFormerPlace g (s.emptySlot g) = .next t) :
    exec (.formerEmptySlot (qkeyOf g / 4) (qkeyOf g % 4)) s = .next (t.setQuarter (qkeyOf g) ((t.quarterAt (qkeyOf g)).waitOn r t.clock)) := by
  have hkey : 4 * (qkeyOf g / 4) + qkeyOf g % 4 = qkeyOf g := Nat.div_add_mod _ 4
  have hold : s.longWaiting (qkeyOf g) = some r := by simp [State.longWaiting, hrecs, hk, hlong, ht, hi]
  have hfull : s.emptyOf (qkeyOf g) r.team = none := by simp [State.emptyOf, hs, hl]
  have hleast : s.leastFilled (qkeyOf g) r.team = some (g, sl) := by simp [State.leastFilled, hs, ht, Slot.canEmpty, hh, hl]
  simp only [exec, execFormerEmptySlot, hkey, hold, hfull, hleast, hfill]

variable (hg : aget? s.slots g = some sl)
include hg

/-- R69: a slot that stands between issues is filled from the records under its PC. -/
theorem weaveFormerPlace_fills (hl : sl.lanes ≠ []) (hr : sl.replay = none) (hlate : sl.late = []) (hw : sl.wait = .none) :
    exec (.weaveFormerPlace g) s = .next (s.fillSlot g ((s.launch (s.team sl.team).launch).packPc sl.pc) sl.role) := by
  simp [exec, execWeaveFormerPlace, hg, hh, hi, hl, Slot.settled, hr, hlate, hw]

/-- R69: an empty slot is filled from the bucket of the team's oldest record. -/
theorem weaveFormerPlace_opens {r : Rec} {rs : List Rec} (hl : sl.lanes = []) (hrecs : (s.quarterAt (qkeyOf g)).recs = r :: rs)
    (ht : r.team = sl.team) (hready : s.recReady r = true) (hk : r.kind1 = false) :
    execWeaveFormerPlace g s = .next ((s.fillSlot g r.pc r.role).modSlot g fun x => { x with wait := if x.wait.stays then x.wait else .none }) := by
  simp [execWeaveFormerPlace, hg, hh, hi, hl, State.recsHere, hrecs, ht, hready, hk]

end

/-- R69: an empty slot takes the fibre of the team's oldest record, which leaves spawn memory, with its role and its PC. -/
theorem weaveFormerPlace_seatsFirst {s : State} {g : Nat} {sl : Slot} {r : Rec} {rs : List Rec} (hg : aget? s.slots g = some sl)
    (hh : sl.handler = false) (hi : (s.team sl.team).state.issues = true) (hl : sl.lanes = []) (h : Placeable s g r.pc r.role r rs)
    (hk : r.kind1 = false) :
    ∃ t, execWeaveFormerPlace g s = .next t ∧ (t.quarterAt (qkeyOf g)).recs = rs
      ∧ aget? t.slots g = some { sl with
          role := r.role, pc := (s.launch (s.team sl.team).launch).pcAt (r.pc.toNat / 8 : Nat) (r.pc.toNat % 8), arrive := .flow
          lanes := [(r.lane, r.fibre)], lastFill := s.clock, wait := if sl.wait.stays then sl.wait else .none } := by
  have hslot := slot_of_aget s hg
  have hopen := opened_empty hg hl r.pc r.role
  have hteam : ((opened s g r.pc r.role).slot g).team = (s.slot g).team := by rw [slot_of_aget _ hopen, hslot]
  have hplace := placeRec_fibre (s := opened s g r.pc r.role) (g := g) (r := r) (by simp [slot_of_aget _ hopen, hl]) hk
  rw [weaveFormerPlace_opens hh hi hg hl h.recs (by rw [h.ofTeam, hslot]) h.ready hk, fillSlot_one h hteam hplace]
  refine ⟨_, rfl, ?_, ?_⟩
  · rw [quarterAt_modSlot, quarterAt_setQuarter_same]
  · rw [modSlot_slots, aget_aupd_same, setQuarter_slots, seated_slot hopen, opened_clock]
    simp [hl, aset]

/-! ### The former at a single record (R69, R70) -/

/-- R69: the window of a spawned fibre holds the argument in register 0 and zeros elsewhere. -/
theorem spawned_reg (fb : Fibre) (r : Rec) (k : Nat) : (fb.spawned r).reg k = if k = 0 then ⟨r.arg, r.argst⟩ else Reg.zero := by
  simp only [Fibre.reg, Fibre.spawned, mget_mset]
  rfl

/-- A slot with fibres stands between issues, and its quarter holds one record, of the same team, which is ready to be placed. -/
structure FormerMeets (s : State) (g : Nat) (sl : Slot) (r : Rec) : Prop where
  slot : aget? s.slots g = some sl
  recs : (s.quarterAt (qkeyOf g)).recs = [r]
  room : (s.quarterAt (qkeyOf g)).placed < 64
  sound : r.ue = false
  ofTeam : r.team = sl.team
  ready : s.recReady r = true
  noHandler : sl.handler = false
  noReplay : sl.replay = none
  noLate : sl.late = []
  filled : sl.lanes ≠ []
  noWait : sl.wait = .none
  issues : (s.team sl.team).state.issues = true

section
variable {s : State} {g : Nat} {sl : Slot} {r : Rec} (h : FormerMeets s g sl r)
include h

section
variable (hpc : r.pc = (s.launch (s.team sl.team).launch).packPc sl.pc) (hrole : r.role = sl.role)
include hpc hrole

/-- R69: a record under the PC of the slot is placed, and leaves spawn memory. -/
theorem weaveFormerPlace_places {t : State} (hp : s.placeRec g r = (t, true)) :
    exec (.weaveFormerPlace g) s = .next (t.setQuarter (qkeyOf g) { t.quarterAt (qkeyOf g) with
      recs := [], placed := (s.quarterAt (qkeyOf g)).placed + 1 }) := by
  have hopen := opened_filled h.slot h.filled ((s.launch (s.team sl.team).launch).packPc sl.pc) sl.role
  have hbucket : Placeable s g ((s.launch (s.team sl.team).launch).packPc sl.pc) sl.role r [] :=
    ⟨h.recs, h.room, by rw [h.ofTeam, slot_of_aget s h.slot], hpc, hrole, h.ready, h.sound, by simp⟩
  rw [weaveFormerPlace_fills h.noHandler h.issues h.slot h.filled h.noReplay h.noLate h.noWait,
    fillSlot_one hbucket (by rw [hopen]) (by rw [hopen]; exact hp)]

variable (hfree : ∀ a ∈ sl.lanes, a.1 ≠ r.lane)
include hfree

theorem weaveFormerPlace_fibre (hk : r.kind1 = false) :
    ∃ t, exec (.weaveFormerPlace g) s = .next t ∧ (t.quarterAt (qkeyOf g)).recs = [] ∧ t.fibres = s.fibres
      ∧ aget? t.slots g = some { sl with lanes := aset sl.lanes r.lane r.fibre, lastFill := s.clock } := by
  have hcol : ∀ a ∈ (s.slot g).lanes, a.1 ≠ r.lane := by rwa [slot_of_aget s h.slot]
  exact ⟨_, weaveFormerPlace_places h hpc hrole (placeRec_fibre hcol hk), by simp, rfl, seated_slot h.slot r.lane r.fibre⟩

theorem weaveFormerPlace_spawn {fid : Nat} {fb : Fibre} (hk : r.kind1 = true)
    (hwin : s.freeWindow g sl.team sl.role r.lane = some (fid, fb)) :
    ∃ t v, exec (.weaveFormerPlace g) s = .next t ∧ (t.quarterAt (qkeyOf g)).recs = []
      ∧ aget? t.slots g = some { sl with lanes := aset sl.lanes r.lane fid, lastFill := s.clock }
      ∧ aget? t.fibres fid = some v ∧ v.alive = true ∧ (∀ k, v.reg k = if k = 0 then ⟨r.arg, r.argst⟩ else Reg.zero)
      ∧ v.preds = r.preds ||| 0x8000 ∧ v.vec.know = r.know ∧ v.after = r.after := by
  have hcol : ∀ a ∈ (s.slot g).lanes, a.1 ≠ r.lane := by rwa [slot_of_aget s h.slot]
  rw [← h.ofTeam, ← hrole] at hwin
  refine ⟨_, fb.spawned r, weaveFormerPlace_places h hpc hrole (placeRec_spawn hcol hk hwin), by simp, ?_, ?_, rfl, spawned_reg fb r,
    rfl, rfl, rfl⟩
  · exact seated_slot h.slot r.lane fid
  · simp [seated]

end

/-- The slot once its fibres have left it: it goes on at no other place. -/
theorem leftBehind_meets : leftBehind sl = { sl with lanes := [] } := by
  simp [leftBehind, Slot.nextAt, h.noReplay, h.noLate, h.noWait, Wait.stays]

/-- R70: the records that the fibres become go on at the slot's PC. -/
theorem leaving_meets : leaving s g sl = sl.lanes.map fun a => s.leaveRec g sl sl.pc a.1 a.2 := by
  have hpark : ∀ p, sl.wait ≠ .park p := by simp [h.noWait]
  have hnext : sl.nextAt = sl.pc := by simp [Slot.nextAt, h.noWait]
  simp only [leaving, leavesFor_next hpark h.noReplay (by simp [h.noLate]), hnext]

section
variable (hs : s.slots = [(g, sl)]) (hk : r.kind1 = false) (hpc : r.pc ≠ (s.launch (s.team sl.team).launch).packPc sl.pc)
include hk hpc

/-- R70: the emptied slot takes the oldest record; the fibres that have left stand under another PC and stay in spawn memory. -/
theorem weaveFormerPlace_emptied :
    ∃ t, execWeaveFormerPlace g (s.emptySlot g) = .next t
      ∧ (t.quarterAt (qkeyOf g)).recs = sl.lanes.map (fun a => s.leaveRec g sl sl.pc a.1 a.2)
      ∧ aget? t.slots g = some { sl with
          role := r.role, pc := (s.launch (s.team sl.team).launch).pcAt (r.pc.toNat / 8 : Nat) (r.pc.toNat % 8), arrive := .flow
          lanes := [(r.lane, r.fibre)], lastFill := s.clock } := by
  have hslot := emptySlot_slot h.slot
  have hrecs := emptySlot_recs h.slot
  rw [h.recs, leaving_meets h] at hrecs
  have hbucket : Placeable (s.emptySlot g) g r.pc r.role r (sl.lanes.map fun a => s.leaveRec g sl sl.pc a.1 a.2) :=
    { recs := by rw [hrecs]; rfl
      room := by rw [hrecs]; exact h.room
      ofTeam := by rw [slot_of_aget _ hslot]; exact h.ofTeam
      atPc := rfl, ofRole := rfl, ready := h.ready, sound := h.sound
      others := by
        simp only [List.mem_map, forall_exists_index, and_imp, forall_apply_eq_imp_iff₂, leaveRec_pc]
        exact fun _ _ => hpc.symm }
  obtain ⟨t, ht, htrecs, htslot⟩ := weaveFormerPlace_seatsFirst hslot h.noHandler h.issues rfl hbucket hk
  exact ⟨t, ht, htrecs, by rw [htslot, leftBehind_meets h, h.noWait]; rfl⟩

include hs

theorem formerEmptySlot_refills (hlong : r.since + 2048 ≤ s.clock) :
    ∃ t, exec (.formerEmptySlot (qkeyOf g / 4) (qkeyOf g % 4)) s = .next t
      ∧ aget? t.slots g = some { sl with
          role := r.role, pc := (s.launch (s.team sl.team).launch).pcAt (r.pc.toNat / 8 : Nat) (r.pc.toNat % 8), arrive := .flow
          lanes := [(r.lane, r.fibre)], lastFill := s.clock }
      ∧ (t.quarterAt (qkeyOf g)).recs = sl.lanes.map fun a => s.leaveRec g sl sl.pc a.1 a.2 := by
  obtain ⟨t, hfill, hrecs, hslot⟩ := weaveFormerPlace_emptied h hk hpc
  refine ⟨_, formerEmptySlot_empties h.noHandler h.issues hs h.filled h.recs hk h.ofTeam hlong hfill, hslot, ?_⟩
  have hother : ∀ a ∈ sl.lanes, s.leaveRec g sl sl.pc a.1 a.2 ≠ r := fun a _ he => hpc (he ▸ leaveRec_pc s g sl sl.pc a.1 a.2)
  rw [quarterAt_setQuarter_same, Quarter.waitOn, hrecs, List.map_map]
  exact List.map_congr_left fun a ha => if_neg (hother a ha)

end

end

/-! ### The statement -/

/-- R75: what a JOIN leaves that has met its limit. -/
theorem joinRelease_leaves {s : State} {g : Nat} {sl : Slot} (hg : aget? s.slots g = some sl) {till : Nat} {next : DWord}
    (hw : sl.wait = .join till next) :
    ∃ v, aget? ((s.emptySlot g).modSlot g fun u => { u with arrive := .flow }).slots g = some v
      ∧ v.lanes = [] ∧ v.pc = next ∧ v.wait = .none ∧ v.replay = none
      ∧ (((s.emptySlot g).modSlot g fun u => { u with arrive := .flow }).quarterAt (qkeyOf g)).recs =
          (s.quarterAt (qkeyOf g)).recs ++ sl.lanes.map fun a => s.leaveRec g sl (sl.leavesFor a.1) a.1 a.2 := by
  refine ⟨{ leftBehind sl with arrive := .flow }, ?_, rfl, ?_, ?_, rfl, ?_⟩
  · rw [modSlot_slots, aget_aupd_same, emptySlot_slot hg]; rfl
  · simp [leftBehind, Slot.nextAt, hw]
  · simp [leftBehind, Wait.stays, hw]
  · rw [quarterAt_modSlot, emptySlot_recs hg]; rfl

/-- Settles O35: the waits end as their conditions say, and the former places the one record that waits. -/
theorem waitsSpillsAndTheFormer : Obligations.WaitsSpillsAndTheFormer := by
  refine ⟨fun s g sl hg => ⟨fun _ _ => yieldRelease_ends hg, fun _ => sleepExpire_ends hg, fun _ _ => joinRelease_ends hg, ?_,
    fun _ _ => joinRelease_stays hg, ?_⟩, ?_⟩
  · intro till next hw ht hl hn hh hr
    obtain ⟨v, hv⟩ := joinRelease_leaves hg hw
    refine ⟨⟨_, v, joinRelease_empties hg hw ht hl hn hh hr, hv⟩, fun hreplay hlate lane => ?_⟩
    rw [leavesFor_next (by simp [hw]) hreplay hlate, Slot.nextAt, hw]
  · intro core q k c r rs base hcs hcore hq hrecs hbase hroom
    refine ⟨_, spillReturn_next hcs hcore hq hrecs hbase hroom, ?_, rfl, fun i hi => ?_⟩
    · rw [layBytes_quarterAt, unspilled_recs]
    · rw [layBytes_byteAt _ _ _ (by simpa using hi), getElem_bytesLE]
  · intro s g sl r q hg hq hrecs hplaced hue hteam hready hh hreplay hlate hl hw hi
    subst hq
    have h : FormerMeets s g sl r := ⟨hg, hrecs, hplaced, hue, hteam, hready, hh, hreplay, hlate, hl, hw, hi⟩
    exact ⟨fun hpc hrole hfree => ⟨weaveFormerPlace_fibre h hpc hrole hfree, fun fid fb => weaveFormerPlace_spawn h hpc hrole hfree⟩,
      fun hs hk hpc => formerEmptySlot_refills h hs hk hpc⟩

end Sys2Proof.Proofs
end

section
/-!
SUPPORT. Bits and results (O14): numbers as bit vectors, the registers of a result (R92, R93), and the bits of BLOP, BFE, BFI, BREV and the
shifts (R101 to R104).
-/
namespace Sys2Proof.Proofs

open Sys2Proof.Machine Sys2Proof.Laws

/-! ### Words as bit vectors (R93) -/

theorem sextN_eq_toInt (w x : Nat) : sextN w x = (BitVec.ofNat w x).toInt := by
  rw [BitVec.toInt_eq_toNat_cond, BitVec.toNat_ofNat]
  rfl

theorem wrapN_eq_toNat (w : Nat) (v : Int) : wrapN w v = (BitVec.ofInt w v).toNat := (BitVec.toNat_ofInt v).symm

theorem sextN_toNat {w : Nat} (b : BitVec w) : sextN w b.toNat = b.toInt := by rw [sextN_eq_toInt, BitVec.ofNat_toNat, BitVec.setWidth_eq]

theorem wrapN_toInt {w v : Nat} (b : BitVec w) : wrapN v b.toInt = (b.signExtend v).toNat := wrapN_eq_toNat v b.toInt

theorem wrapN_natCast (w x : Nat) : wrapN w (x : Int) = x % 2 ^ w := by
  rw [wrapN, ← Int.natCast_emod, Int.toNat_natCast]

theorem numOf_wrapN_signed {t : Ty} (h : t.isSigned = true) (v : Int) : numOf t (wrapN t.bits v) = (BitVec.ofInt t.bits v).toInt := by
  rw [numOf, if_pos h, wrapN_eq_toNat, sextN_toNat]

theorem numOf_wrapN_unsigned {t : Ty} (h : t.isSigned = false) (v : Int) :
    numOf t (wrapN t.bits v) = (BitVec.ofInt t.bits v).toNat := by
  rw [numOf, if_neg (by simp [h]), wrapN_eq_toNat, Nat.mod_eq_of_lt (BitVec.isLt _)]

/-! ### What is written for an integer result (R92, R93) -/

/-- A signed type's result is extended by its sign into 32 bits. -/
theorem resultRegs_signed {t : Ty} (hw : t.wide = false) (h : t.isSigned = true) (v : Int) (lo hi : Stamp) :
    resultRegs t v lo hi = [(0, ⟨(BitVec.ofInt t.bits v).signExtend 32, lo⟩)] := by
  simp only [resultRegs, hw, Bool.false_eq_true, if_false, numOf_wrapN_signed h]
  rfl

/-- An unsigned type's result is extended by zeros into 32 bits. -/
theorem resultRegs_unsigned {t : Ty} (hw : t.wide = false) (h : t.isSigned = false) (v : Int) (lo hi : Stamp) :
    resultRegs t v lo hi = [(0, ⟨(BitVec.ofInt t.bits v).setWidth 32, lo⟩)] := by
  simp only [resultRegs, hw, Bool.false_eq_true, if_false, numOf_wrapN_unsigned h, BitVec.ofInt_natCast, BitVec.ofNat_toNat]

/-- A 64-bit result takes a pair, its low word first. -/
theorem resultRegs_wide {t : Ty} (hw : t.wide = true) (v : Int) (lo hi : Stamp) :
    resultRegs t v lo hi =
      [(0, ⟨(BitVec.ofInt 64 v).extractLsb' 0 32, lo⟩), (1, ⟨(BitVec.ofInt 64 v).extractLsb' 32 32, hi⟩)] := by
  simp only [resultRegs, hw, if_true, wrapN_eq_toNat, BitVec.extractLsb', Nat.shiftRight_eq_div_pow, Nat.pow_zero, Nat.div_one]

/-- A result of 32 bits is its word. -/
theorem resultRegs_word {t : Ty} (h : t.bits = 32) (v : Int) (lo hi : Stamp) :
    resultRegs t v lo hi = [(0, ⟨BitVec.ofInt 32 v, lo⟩)] := by
  have hw : t.wide = false := by simp [Ty.wide, h]
  cases hs : t.isSigned
  · rw [resultRegs_unsigned hw hs, h, BitVec.setWidth_eq]
  · rw [resultRegs_signed hw hs, h, BitVec.signExtend_eq]

/-! ### Bits of sums of powers of two (R101, R103, R104) -/

theorem sum_map_range_succ (f : Nat → Nat) (n : Nat) : ((List.range (n + 1)).map f).sum = ((List.range n).map f).sum + f n := by
  simp only [List.range_succ, List.map_append, List.map_cons, List.map_nil, List.sum_append, List.sum_cons, List.sum_nil, Nat.add_zero]

/-- A sum of the powers whose bit is asked for is the number with those bits, below 2^n. -/
theorem sum_bits_lt (p : Nat → Bool) (n : Nat) : ((List.range n).map fun k => if p k then 2 ^ k else 0).sum < 2 ^ n := by
  induction n with
  | zero => simp
  | succ n ih =>
    rw [sum_map_range_succ, Nat.pow_succ]
    split <;> omega

theorem testBit_sum_bits (p : Nat → Bool) {n k : Nat} (h : k < n) :
    ((List.range n).map fun k => if p k then 2 ^ k else 0).sum.testBit k = p k := by
  induction n with
  | zero => omega
  | succ n ih =>
    rw [sum_map_range_succ, Nat.add_comm]
    rcases Nat.lt_succ_iff_lt_or_eq.mp h with hlt | rfl
    · cases hn : p n
      · simpa using ih hlt
      · rw [if_pos rfl, Nat.testBit_two_pow_add_gt hlt, ih hlt]
    · have hlow := Nat.testBit_lt_two_pow (sum_bits_lt p k)
      cases hk : p k
      · simpa using hlow
      · rw [if_pos rfl, Nat.testBit_two_pow_add_eq, hlow, Bool.not_false]

theorem bitsN_one (x k : Nat) : bitsN x k 1 = (x.testBit k).toNat := by
  rw [bitsN, Nat.pow_one, Nat.toNat_testBit, Nat.shiftRight_eq_div_pow]

/-- R101: BLOP looks each bit up in its truth table. -/
theorem testBit_blopBits (tt a b c : Nat) {n k : Nat} (h : k < n) :
    (blopBits tt a b c n).testBit k = tt.testBit (4 * (a.testBit k).toNat + 2 * (b.testBit k).toNat + (c.testBit k).toNat) := by
  simp only [blopBits, bitsN_one]
  exact testBit_sum_bits _ h

/-- R103: BFI takes the field from `c` and the rest from `a`. -/
theorem testBit_bfi (a c p l : Nat) {n k : Nat} (h : k < n) :
    (bfi n a c p l).testBit k = if p ≤ k ∧ k < p + min l n then c.testBit (k - p) else a.testBit k := by
  have hsum : bfi n a c p l = ((List.range n).map fun k =>
      if (if p ≤ k ∧ k < p + min l n then c.testBit (k - p) else a.testBit k) then 2 ^ k else 0).sum := by
    rw [bfi]
    congr 2
    funext k
    by_cases hk : p ≤ k ∧ k < p + min l n <;> simp [hk]
  rw [hsum, testBit_sum_bits _ h]

theorem sum_map_bitList (n x : Nat) (f : Nat → Nat) :
    ((bitList n x).map f).sum = ((List.range n).map fun k => if x.testBit k then f k else 0).sum := by
  rw [bitList]
  induction List.range n with
  | nil => rfl
  | cons k l ih =>
    rw [List.filter_cons]
    cases h : x.testBit k <;> simp [h, ih]

/-- A sum over the positions below n, taken from the highest down. -/
theorem sum_map_range_reflect (f : Nat → Nat) (n : Nat) :
    ((List.range n).map f).sum = ((List.range n).map fun k => f (n - 1 - k)).sum := by
  rw [← List.sum_reverse, ← List.map_reverse, List.range_eq_range', List.reverse_range', List.map_map, ← List.range_eq_range']
  refine congrArg List.sum (List.map_congr_left fun k _ => congrArg f ?_)
  exact congrArg (· - 1 - k) (Nat.zero_add n)

/-- R104: bit j of the reversed word is bit n - 1 - j of the word. -/
theorem testBit_brev (a : Nat) {n j : Nat} (h : j < n) :
    (((bitList n a).map fun k => 2 ^ (n - 1 - k)).sum).testBit j = a.testBit (n - 1 - j) := by
  have hrev : ((bitList n a).map fun k => 2 ^ (n - 1 - k)).sum =
      ((List.range n).map fun k => if a.testBit (n - 1 - k) then 2 ^ k else 0).sum := by
    rw [sum_map_bitList, sum_map_range_reflect]
    refine congrArg List.sum (List.map_congr_left fun k hk => ?_)
    rw [Nat.sub_sub_self (Nat.le_sub_one_of_lt (List.mem_range.mp hk))]
  rw [hrev, testBit_sum_bits (fun k => a.testBit (n - 1 - k)) h]

/-! ### Fields and shifts (R102, R103) -/

theorem fdiv_two_pow (v : Int) (p : Nat) : v.fdiv (2 ^ p : Nat) = v >>> p := by
  rw [Int.fdiv_eq_ediv_of_nonneg _ (Int.natCast_nonneg _), Int.shiftRight_eq_div_pow]

/-- R103: an empty field is zero. -/
theorem bfe_empty {t : Ty} (a p : Nat) {l : Nat} (h : min l t.bits = 0) : bfe t a p l = 0 := by simp only [bfe, if_pos h]

/-- R103: a signed type's field is cut from the sign-extended operand and extended by its own sign. -/
theorem wrapN_bfe_signed {t : Ty} (h : t.isSigned = true) (a p : Nat) {l : Nat} (hl : min l t.bits ≠ 0) :
    wrapN t.bits (bfe t a p l) =
      ((((BitVec.ofNat t.bits a).sshiftRight p).signExtend (min l t.bits)).signExtend t.bits).toNat := by
  simp only [bfe, h, if_true, if_neg hl, sextN_eq_toInt t.bits, fdiv_two_pow, ← BitVec.toInt_sshiftRight, wrapN_toInt, sextN_toNat]

theorem wrapN_bfe_unsigned {t : Ty} (h : t.isSigned = false) (a p : Nat) {l : Nat} (hl : min l t.bits ≠ 0) :
    wrapN t.bits (bfe t a p l) = (a >>> p) % 2 ^ min l t.bits % 2 ^ t.bits := by
  simp only [bfe, h, Bool.false_eq_true, if_false, if_neg hl, fdiv_two_pow, ← Int.natCast_shiftRight, wrapN_natCast]

/-- Bit j of the n bits `a`, copies of its highest bit or zeros standing above them. -/
def extBit (signed : Bool) (n a j : Nat) : Bool := if j < n then a.testBit j else signed && a.testBit (n - 1)

theorem getLsbD_sshiftRight_ofNat {n j : Nat} (a p : Nat) (hj : j < n) :
    ((BitVec.ofNat n a).sshiftRight p).getLsbD j = extBit true n a (p + j) := by
  have hmsb : (BitVec.ofNat n a).msb = a.testBit (n - 1) := by
    rw [BitVec.msb_eq_getLsbD_last, BitVec.getLsbD_ofNat, decide_eq_true (by omega), Bool.true_and]
  rw [BitVec.getLsbD_sshiftRight, decide_eq_false (by omega), hmsb, extBit, BitVec.getLsbD_ofNat]
  split <;> simp [*]

/-- The sign of a word that is cut to its low m > 0 bits is its bit m - 1. -/
theorem msb_signExtend_of_le {n m : Nat} (b : BitVec n) (h : m ≤ n) (h0 : m ≠ 0) : (b.signExtend m).msb = b.getLsbD (m - 1) := by
  rw [BitVec.signExtend_eq_setWidth_of_le b h, BitVec.msb_setWidth]
  simp [Nat.pos_of_ne_zero h0]

section
variable {t : Ty} {a k l : Nat} (p : Nat) (hk : k < t.bits) (hl : min l t.bits ≠ 0)
include hk hl

theorem testBit_bfe_unsigned (h : t.isSigned = false) (ha : a < 2 ^ t.bits) :
    (wrapN t.bits (bfe t a p l)).testBit k = (decide (k < min l t.bits) && extBit false t.bits a (p + k)) := by
  have hext : a.testBit (p + k) = extBit false t.bits a (p + k) := by
    rw [extBit]
    split
    · rfl
    next hge => exact Nat.testBit_lt_two_pow (Nat.lt_of_lt_of_le ha (Nat.pow_le_pow_right (by decide) (Nat.le_of_not_lt hge)))
  rw [wrapN_bfe_unsigned h a p hl, Nat.testBit_mod_two_pow, Nat.testBit_mod_two_pow, Nat.testBit_shiftRight, decide_eq_true hk,
    Bool.true_and, hext]

theorem testBit_bfe_signed (h : t.isSigned = true) :
    (wrapN t.bits (bfe t a p l)).testBit k =
      if k < min l t.bits then extBit true t.bits a (p + k) else extBit true t.bits a (p + (min l t.bits - 1)) := by
  rw [wrapN_bfe_signed h a p hl, ← BitVec.getLsbD, BitVec.getLsbD_signExtend, msb_signExtend_of_le _ (by omega) hl,
    getLsbD_sshiftRight_ofNat a p (by omega), decide_eq_true hk, Bool.true_and]
  split
  next hlt => rw [BitVec.getLsbD_signExtend, if_pos hk, getLsbD_sshiftRight_ofNat a p hk, decide_eq_true hlt, Bool.true_and]
  · rfl

end

/-- R103: BFE copies the field and extends it by its sign or by zeros. -/
theorem testBit_bfe {t : Ty} {a k : Nat} (p l : Nat) (ha : a < 2 ^ t.bits) (hk : k < t.bits) :
    (wrapN t.bits (bfe t a p l)).testBit k =
      if min l t.bits = 0 then false
      else if k < min l t.bits then extBit t.isSigned t.bits a (p + k)
      else t.isSigned && extBit t.isSigned t.bits a (p + min l t.bits - 1) := by
  split
  next hl => simp [bfe_empty a p hl, wrapN]
  next hl =>
    cases h : t.isSigned
    · rw [testBit_bfe_unsigned p hk hl h ha]
      split <;> simp [*]
    · rw [testBit_bfe_signed p hk hl h, Bool.true_and, Nat.add_sub_assoc (Nat.one_le_iff_ne_zero.mpr hl)]

/-- R104: the zeros that CLZ counts end at the highest bit. -/
theorem clz_highest {a n : Nat} (h0 : a ≠ 0) (h : a < 2 ^ n) :
    a.testBit (n - 1 - (n - 1 - Nat.log2 a)) = true ∧ ∀ j, n - 1 - (n - 1 - Nat.log2 a) < j → a.testBit j = false := by
  have hlog := (Nat.log2_lt h0).mpr h
  rw [Nat.sub_sub_self (Nat.le_sub_one_of_lt hlog)]
  exact ⟨Nat.testBit_log2 h0, fun j hj => Nat.testBit_lt_two_pow ((Nat.log2_lt h0).mp hj)⟩

/-- R102: SHL moves every bit up by the count. -/
theorem testBit_shl (a k : Nat) {n j : Nat} (h : j < n) : (a * 2 ^ k % 2 ^ n).testBit j = (decide (k ≤ j) && a.testBit (j - k)) := by
  rw [Nat.testBit_mod_two_pow, decide_eq_true h, Bool.true_and, Nat.mul_comm, Nat.testBit_two_pow_mul]

/-- Settles O14: a result is the exact one modulo 2^n in its registers, and each bit operation acts on the bits that its rule names. -/
theorem resultsWrapAndBitsStay : Obligations.ResultsWrapAndBitsStay := by
  refine ⟨fun t v lo hi => ?_, fun tt a b c _ _ h => testBit_blopBits tt a b c h, fun _ a c p l _ h => testBit_bfi a c p l h,
    fun _ _ p l _ _ ha hk => testBit_bfe p l ha hk, fun _ a k _ h => testBit_shl a k h, fun a _ j => Nat.testBit_div_two_pow a j,
    fun _ _ h0 h => clz_highest h0 h, fun _ a _ h => testBit_brev a h⟩
  simp only [List.mem_cons, List.not_mem_nil, or_false]
  refine ⟨?_, ?_, ?_, ?_, ?_, ?_⟩
  · rintro (rfl | rfl | rfl) <;> exact resultRegs_word rfl v lo hi
  · rintro (rfl | rfl | rfl) <;> exact resultRegs_wide rfl v lo hi
  · rintro rfl; exact resultRegs_signed rfl rfl v lo hi
  · rintro rfl; exact resultRegs_signed rfl rfl v lo hi
  · rintro (rfl | rfl) <;> exact resultRegs_unsigned rfl rfl v lo hi
  · rintro (rfl | rfl) <;> exact resultRegs_unsigned rfl rfl v lo hi

end Sys2Proof.Proofs
end

section
/-!
SUPPORT. Integer, logic and address instructions (O11, O12, O13, O15): their course lane by lane (R96 to R105), and division
with its trap (R99).
-/
namespace Sys2Proof.Proofs

open Sys2Proof.Machine Sys2Proof.Laws

/-! ### A cause that lanes meet (R99) -/

theorem foldl_max_same {c : Nat} {l : List Nat} (h : ∀ y ∈ l, y = c) : l.foldl max c = c := by
  induction l with
  | nil => rfl
  | cons y l ih =>
    obtain ⟨rfl, hl⟩ := List.forall_mem_cons.mp h
    rw [List.foldl_cons, Nat.max_self, ih hl]

/-- Where the lanes meet one cause that shows no stamp (R145), the trap names that cause and the lanes that have it. -/
theorem laneTrap_single {s : State} {x : Ctx} {d : Spec} {out : Fibre → LaneOut} {c : Nat} (hc : 0x0C0 ≤ c)
    (hout : ∀ a ∈ x.runLanes d, (out (s.fibre a.2)).cause = none ∨ out (s.fibre a.2) = { cause := some c })
    (hex : ∃ a ∈ x.runLanes d, (out (s.fibre a.2)).cause = some c) :
    laneTrap s x d out = x.trap c .precise
      (((x.runLanes d).filter fun a => (out (s.fibre a.2)).cause == some c).map fun a => a.1) x.lanesOf := by
  have hcause : ∀ y ∈ (x.runLanes d).filterMap fun a => (out (s.fibre a.2)).cause, y = c := by
    intro y hy
    obtain ⟨a, ha, hay⟩ := List.mem_filterMap.mp hy
    rcases hout a ha with h | h <;> rw [h] at hay <;> cases hay
    rfl
  obtain ⟨a, ha, hac⟩ := hex
  have hmem : a ∈ (x.runLanes d).filter fun a => (out (s.fibre a.2)).cause == some c :=
    List.mem_filter.mpr ⟨ha, by simp [hac]⟩
  have hfirst : ((((x.runLanes d).filter fun a => (out (s.fibre a.2)).cause == some c).head?.map
      fun a => out (s.fibre a.2)).getD {}) = { cause := some c } := by
    obtain ⟨b, l, hl⟩ := List.exists_cons_of_ne_nil (List.ne_nil_of_mem hmem)
    obtain ⟨hb, hbc⟩ := List.mem_filter.mp (hl ▸ List.mem_cons_self : b ∈ _)
    rw [hl]
    rcases hout b hb with h | h
    · simp [h] at hbc
    · simpa using h
  dsimp only [laneTrap]
  split
  next hnil => exact absurd (List.mem_filterMap.mpr ⟨a, ha, hac⟩) (hnil ▸ List.not_mem_nil)
  next c' cs hcs =>
    rw [hcs] at hcause
    obtain ⟨rfl, hsame⟩ := List.forall_mem_cons.mp hcause
    have hlate : (decide (0x080 ≤ c') && decide (c' < 0x0C0)) = false := by simp; omega
    simp only [foldl_max_same hsame, hfirst, hlate]
    rfl

/-! ### Clamping and division (R98, R99) -/

/-- R98: `.sat` clamps. -/
theorem clamp_eq (t : Ty) (sub : BitVec 5) :
    clamp t (sub == 1) = fun v => if sub = 1 then min (max v (loOf t)) (hiOf t) else v := by
  funext v
  simp only [clamp, beq_iff_eq]

theorem divInt_eq (t : Ty) (a b : Int) :
    divInt t a b = if b = 0 then -1 else if a = loOf t ∧ b = -1 then loOf t else a.tdiv b := by
  simp only [divInt, Bool.and_eq_true, decide_eq_true_eq]

theorem remInt_eq (t : Ty) (a b : Int) : remInt t a b = if b = 0 then a else if a = loOf t ∧ b = -1 then 0 else a.tmod b := by
  simp only [remInt, Bool.and_eq_true, decide_eq_true_eq]

/-- Settles O15: outside the fixed results the two are the quotient and remainder of a division rounded towards zero. -/
theorem divisionIdentity : Obligations.DivisionIdentity := by
  intro t a b hb hlo
  rw [divInt_eq, remInt_eq, if_neg hb, if_neg hb, if_neg hlo, if_neg hlo]
  refine ⟨Int.tdiv_mul_add_tmod a b, ?_, fun ha => Int.tmod_nonneg b ha, fun ha => ?_⟩
  · rw [Int.natAbs_tmod]
    exact Nat.mod_lt _ (Int.natAbs_pos.mpr hb)
  · rw [← Int.neg_nonneg, ← Int.neg_tmod]
    exact Int.tmod_nonneg b (Int.neg_nonneg.mpr ha)

/-! ### A zero divisor (R99) -/

/-- The divisor of a lane (R93). -/
def divisor (x : Ctx) (f : ArithF) (fb : Fibre) : Int := numOf f.ty (x.read fb f.ty f.imm f.b).val

theorem divLane_eq (x : Ctx) (f : ArithF) (op : Int → Int → Int) (fb : Fibre) :
    divLane x f op fb = if f.sub = 1 ∧ divisor x f fb = 0 then { cause := some 0x0E0 } else binInt x f op fb := by
  unfold divisor
  simp only [divLane, Bool.and_eq_true, decide_eq_true_eq]

section
variable {f : ArithF} (hsub : f.sub = 1) (x : Ctx) (op : Int → Int → Int) {fb : Fibre}
include hsub

theorem divLane_zero (h : divisor x f fb = 0) : divLane x f op fb = { cause := some 0x0E0 } := by
  rw [divLane_eq, if_pos ⟨hsub, h⟩]

theorem divLane_cause : (divLane x f op fb).cause = some 0x0E0 ↔ divisor x f fb = 0 := by
  refine ⟨fun h => ?_, fun h => by rw [divLane_zero hsub x op h]⟩
  by_cases h0 : divisor x f fb = 0
  · exact h0
  · rw [divLane_eq, if_neg (fun hd => h0 hd.2)] at h
    cases h

/-- R99: with `.trap`, a zero divisor in some lane is raised in the lanes that have it. -/
theorem divLane_traps {i : Instr} (h : ActsAs i f.g f.d fun x _ fb => divLane x f op fb) :
    Does i f.g (fun x s => ∃ a ∈ x.runLanes f.d, divisor x f (s.fibre a.2) = 0) fun x s =>
      s.raise x.c.g (x.trap 0x0E0 .precise (((x.runLanes f.d).filter fun a => decide (divisor x f (s.fibre a.2) = 0)).map fun a => a.1)
        x.lanesOf) none := by
  rintro s c sl hs ⟨a, ha, hz⟩
  have hcause {x : Ctx} (b : Nat × Nat) :
      ((divLane x f op (s.fibre b.2)).cause == some 0x0E0) = decide (divisor x f (s.fibre b.2) = 0) := by
    rw [Bool.eq_iff_iff, beq_iff_eq, divLane_cause hsub, decide_eq_true_eq]
  have hmeets := (divLane_cause hsub _ op).mpr hz
  rw [h.2 s c sl hs fun hq => by cases hmeets.symm.trans (hq a ha).1]
  dsimp only
  rw [laneTrap_single (c := 0x0E0) (by decide) (fun b _ => ?_) ⟨a, ha, hmeets⟩]
  · simp only [hcause]
  · by_cases h0 : divisor (s.ctx c sl f.g) f (s.fibre b.2) = 0
    · exact .inr (divLane_zero hsub _ op h0)
    · exact .inl (by rw [divLane_eq, if_neg (fun hd => h0 hd.2)]; rfl)

end

/-! ### Lane by lane (R96 to R105) -/

/-- R97: SEL reads the operand that its predicate chooses, and takes its stamps alone. -/
theorem sel_actsAs (f : ArithF) :
    ActsAs (.sel f) f.g f.d fun x _ fb =>
      if readPred fb f.c then halfOut x f.ty (x.read fb f.ty f.imm f.a).val [x.read fb f.ty f.imm f.a]
      else halfOut x f.ty (x.read fb f.ty f.imm f.b).val [x.read fb f.ty f.imm f.b] := by
  refine acts_of_lanewise fun s => ?_
  simp only [exec, execSel]
  congr
  funext x s
  congr
  funext fb
  split <;> rfl

/-- Settles O11: each form is its rule lane by lane, and a zero divisor under `.trap` is raised (`divLane_traps`). -/
theorem integerArithmetic : Obligations.IntegerArithmetic := by
  constructor
  · intro f A B os sat out
    have hsat : sat = clamp f.ty (f.sub == 1) := (clamp_eq f.ty f.sub).symm
    clear_value sat
    subst hsat
    refine ⟨?_, ?_, ?_, ?_, ?_, ?_, ?_, ?_, ?_⟩ <;> exact acts_of_lanewise fun _ => rfl
  · intro f A B l quot rest out
    have hquot : quot = divInt f.ty := by funext a b; exact (divInt_eq f.ty a b).symm
    have hrest : rest = remInt f.ty := by funext a b; exact (remInt_eq f.ty a b).symm
    have hout (v) : out v = fun x _ fb => divLane x f v fb := by
      funext x _ fb; exact (divLane_eq x f v fb).symm
    rw [hout, hout, hquot, hrest]
    have hdiv : ActsAs (.idiv f) f.g f.d fun x _ fb => divLane x f (divInt f.ty) fb := acts_of_lanewise fun _ => rfl
    have hrem : ActsAs (.irem f) f.g f.d fun x _ fb => divLane x f (remInt f.ty) fb := acts_of_lanewise fun _ => rfl
    refine ⟨hdiv, hrem, ?_⟩
    rintro i (rfl | rfl) hsub
    · exact divLane_traps hsub _ hdiv
    · exact divLane_traps hsub _ hrem

/-- Settles O12: each form is its rule lane by lane; SEL in `sel_actsAs`. -/
theorem logicAndMoves : Obligations.LogicAndMoves := by
  intro f
  refine ⟨?_, ?_, sel_actsAs f, ?_, ?_, ?_, ?_, ?_⟩ <;> exact acts_of_lanewise fun _ => rfl

/-- Settles O13: each form is its rule lane by lane. -/
theorem shiftsFieldsAddresses : Obligations.ShiftsFieldsAddresses := by
  intro f
  refine ⟨?_, ?_, ?_, ?_, ?_, ?_, ?_, ?_, ?_, ?_⟩ <;> exact acts_of_lanewise fun _ => rfl

end Sys2Proof.Proofs
end

section
/-!
SUPPORT. Special registers (O47): what SRD reads, in which order its lanes write, and what SWR leaves in its slot (R90, R296).
-/
namespace Sys2Proof.Proofs

open Sys2Proof.Machine Sys2Proof.Laws

/-! ### What an issue leaves -/

theorem foldl_keeps {β γ : Type} (π : State → γ) (l : List β) {f : State → β → State} (hf : ∀ s b, π (f s b) = π s) (s : State) :
    π (l.foldl f s) = π s := by
  induction l generalizing s with
  | nil => rfl
  | cons b l ih => exact (ih _).trans (hf s b)

theorem advance_slot {s : State} {x : Ctx} {u : Slot} (h : aget? s.slots x.c.g = some u) :
    aget? (s.advance x).slots x.c.g =
      some { u with pc := x.c.thenPc.getD x.next, arrive := if x.c.thenPc.isSome then .resumption else .flow } := by
  rw [State.advance, modSlot_slots, aget_aupd_same, h, Option.map_some]
  cases x.c.thenPc <;> rfl

theorem modSlot_eq_setSlot {s : State} {g : Nat} {sl : Slot} (h : aget? s.slots g = some sl) (k : Slot → Slot) :
    s.modSlot g k = s.setSlot g (k sl) := by
  simp only [State.modSlot, State.setSlot, aupd, h]

theorem writeDst_mem (s : State) (g fid : Nat) (d : Spec) (rs : List (Nat × Reg)) : (s.writeDst g fid d rs).mem = s.mem := by
  cases d <;> rfl

/-- A list of writes either passes a register by or decides what it holds. -/
theorem written_decides (n : Nat) (rs : List (Nat × Reg)) (k : Nat) :
    (∀ old, written n rs k old = old) ∨ ∃ v, ∀ old, written n rs k old = v := by
  induction rs with
  | nil => exact .inl fun _ => rfl
  | cons r rs ih =>
    rcases ih with h | ⟨v, h⟩
    · by_cases hr : n + r.1 = k
      · exact .inr ⟨r.2, fun old => by rw [written, List.foldl_cons, if_pos hr]; exact h r.2⟩
      · exact .inl fun old => by rw [written, List.foldl_cons, if_neg hr]; exact h old
    · exact .inr ⟨v, fun old => h _⟩

theorem written_written (n : Nat) (rs : List (Nat × Reg)) (k : Nat) (old : Reg) :
    written n rs k (written n rs k old) = written n rs k old := by
  rcases written_decides n rs k with h | ⟨v, h⟩ <;> simp only [h]

section
variable (n : Nat) (rs : Nat → List (Nat × Reg)) (k : Nat)

theorem foldl_write_other {l : List (Nat × Nat)} (h : ∀ a ∈ l, a.2 ≠ k) (s : State) :
    (l.foldl (fun t a => t.modFibre a.2 fun f => f.write n (rs a.2)) s).fibre k = s.fibre k := by
  induction l generalizing s with
  | nil => rfl
  | cons a l ih =>
    obtain ⟨ha, hl⟩ := List.forall_mem_cons.mp h
    rw [List.foldl_cons, ih hl, fibre_modFibre_other s _ ha.symm]

/-- Lanes that each write what their fibre gives leave it in the fibre's window, also where two lanes name one fibre. -/
theorem foldl_write_reg {l : List (Nat × Nat)} (h : ∃ a ∈ l, a.2 = k) {s : State} (hs : (aget? s.fibres k).isSome) (r : Nat) :
    ((l.foldl (fun t a => t.modFibre a.2 fun f => f.write n (rs a.2)) s).fibre k).reg r = written n (rs k) r ((s.fibre k).reg r) := by
  induction l generalizing s with
  | nil => simp at h
  | cons a l ih =>
    obtain ⟨fb, hfb⟩ := Option.isSome_iff_exists.mp hs
    rw [List.foldl_cons]
    by_cases hl : ∃ b ∈ l, b.2 = k
    · have hs' : (aget? (s.modFibre a.2 fun f => f.write n (rs a.2)).fibres k).isSome := by
        by_cases ha : k = a.2
        · rw [ha, modFibre_fibres, aget_aupd_same, Option.isSome_map, ← ha]; exact hs
        · rw [modFibre_fibres, aget_aupd_other _ _ ha]; exact hs
      rw [ih hl hs']
      by_cases ha : k = a.2
      · rw [← ha, fibre_modFibre_same s _ hfb, fibre_of_aget s hfb, fibre_reg_write, written_written]
      · rw [fibre_modFibre_other s _ ha]
    · have ha : a.2 = k := by simpa [hl] using h
      rw [foldl_write_other n rs k (fun b hb he => hl ⟨b, hb, he⟩), ha, fibre_modFibre_same s _ hfb, fibre_of_aget s hfb, fibre_reg_write]

end

/-! ### Special registers (R90) -/

/-- R90: the special registers by number, up to `%cont`. -/
def specialValues (s : State) (x : Ctx) (fid : Nat) : List Nat :=
  let fb := s.fibre fid
  let core := x.c.g / 256
  let pt := s.part x.l.part
  let dies := bitList 8 pt.dies.toNat
  [fb.lane, fb.w * x.l.width + fb.lane, x.l.nweave * x.l.width, fb.w, x.l.nweave, x.l.width, x.sl.role, (s.team x.sl.team).index.toNat,
    x.l.nteam, (dies.filter fun d => decide (d < core / 16)).length, dies.length, x.l.id, core, core / 4, x.h.toNat, pt.k,
    x.sl.fflags.toNat, x.sl.fmask.toNat, x.sl.frame.toNat, x.sl.cont.toNat]

theorem special_eq (s : State) (x : Ctx) (fid n : Nat) : s.special x fid n = ((specialValues s x fid)[n]?).getD x.l.seq := by
  match n with
  | 0 | 1 | 2 | 3 | 4 | 5 | 6 | 7 | 8 | 9 | 10 | 11 | 12 | 13 | 14 | 15 | 16 | 17 | 18 | 19 => rfl
  | _ + 20 => rfl

/-- R90: the destination takes the value, and the next register its high word where the special register is wide. -/
theorem written_specialRegs (d n v r : Nat) (old : Reg) :
    written d (specialRegs n v) r old =
      if r = d then ⟨BitVec.ofNat 32 v, 0⟩
      else if r = d + 1 ∧ n ∈ [11, 18, 19, 20] then ⟨BitVec.ofNat 32 (v / 2 ^ 32), 0⟩ else old := by
  by_cases hn : n ∈ [11, 18, 19, 20]
  · have hw : srdWide n = true := by simpa [srdWide] using hn
    simp only [specialRegs, hw, if_true, written, List.foldl_cons, List.foldl_nil, hn, and_true, Nat.add_zero]
    by_cases h : r = d
    · rw [if_pos h, if_neg (by omega), if_pos h.symm]
    · rw [if_neg h, if_neg (Ne.symm h)]
      simp only [eq_comm]
  · have hw : srdWide n = false := by simpa [srdWide] using hn
    simp only [specialRegs, hw, Bool.false_eq_true, if_false, written, List.foldl_cons, List.foldl_nil, hn, and_false, Nat.add_zero,
      eq_comm]

/-- R94, R114, R202: no operation of the slot may still raise flags. -/
theorem flagsPending_false_iff (s : State) (g t : Nat) :
    s.flagsPending g t = false ↔ ∀ o ∈ s.ops, o.2.head.g = g → o.2.head.team = t →
      (∀ i t a b r st hd w, o.2.body = .tile i t a b r st hd w → ∀ e, i ≠ .trd e) ∧ (∀ i r m, o.2.body = .load i r m → ∀ e, i ≠ .lde e)
      ∧ ∀ i ls m, o.2.body = .atomic i ls m → ∀ e k, atomOf i = some (e, k) → e.ty ∉ tysFloat := by
  simp only [State.flagsPending, State.opsOf, List.any_eq_false, List.mem_filter, Bool.and_eq_true, beq_iff_eq, and_imp]
  refine forall₄_congr fun o _ _ _ => ⟨fun h => ⟨?_, ?_, ?_⟩, fun ⟨htile, hload, hatom⟩ => ?_⟩
  · rintro i t a b r st hd w hb e rfl
    exact h (by rw [hb])
  · rintro i r m hb e rfl
    exact h (by rw [hb])
  · intro i ls m hb e k hk hmem
    exact h (by simpa [hb, hk] using hmem)
  · split
    next hb =>
      split
      · exact absurd rfl (htile _ _ _ _ _ _ _ _ hb _)
      · exact Bool.false_ne_true
    next hb =>
      split
      · exact absurd rfl (hload _ _ _ hb _)
      · exact Bool.false_ne_true
    next hb =>
      split
      next hk => simpa using hatom _ _ _ hb _ _ hk
      · exact Bool.false_ne_true
    · exact Bool.false_ne_true

/-- R114, R202. -/
theorem specialReady_iff (s : State) (x : Ctx) (n : Nat) :
    s.specialReady x n = true ↔ n ≠ 16 ∨ s.flagsPending x.c.g x.sl.team = false := by
  simp [State.specialReady]

/-! ### SRD (R296) -/

/-- A write to a window moves no fibre. -/
theorem writeDst_fibre_place (s : State) (g fid : Nat) (d : Spec) (rs : List (Nat × Reg)) (k : Nat) :
    ((s.writeDst g fid d rs).fibre k).lane = (s.fibre k).lane ∧ ((s.writeDst g fid d rs).fibre k).w = (s.fibre k).w := by
  cases d with
  | vec n =>
    by_cases hk : k = fid
    · subst hk
      simp only [State.writeDst, State.fibre, modFibre_fibres, aget_aupd_same]
      cases aget? s.fibres k <;> exact ⟨rfl, rfl⟩
    · simp only [State.writeDst, fibre_modFibre_other s _ hk, and_self]
  | _ => exact ⟨rfl, rfl⟩

theorem writeDst_special (s : State) (g fid : Nat) (d : Spec) (rs : List (Nat × Reg)) (x : Ctx) (k n : Nat) :
    (s.writeDst g fid d rs).special x k n = s.special x k n := by
  obtain ⟨hlane, hw⟩ := writeDst_fibre_place s g fid d rs k
  have hpart (p : Nat) : (s.writeDst g fid d rs).part p = s.part p := by cases d <;> rfl
  have hteam (t : Nat) : (s.writeDst g fid d rs).team t = s.team t := by cases d <;> rfl
  simp only [special_eq, specialValues, hlane, hw, hpart, hteam]

/-- R296: the state in which SRD has written its destination. -/
def srdWritten (s : State) (x : Ctx) (d : Spec) (n : Nat) : State :=
  (x.runLanes d).foldl (fun t a => t.writeDst x.c.g a.2 d (specialRegs n (s.special x a.2 n))) s

/-- What the lanes before a lane have written changes no special register of it. -/
theorem foldl_special (x : Ctx) (d : Spec) (n : Nat) (l : List (Nat × Nat)) {s t : State}
    (h : ∀ k, t.special x k n = s.special x k n) :
    l.foldl (fun t a => t.writeDst x.c.g a.2 d (specialRegs n (t.special x a.2 n))) t =
      l.foldl (fun t a => t.writeDst x.c.g a.2 d (specialRegs n (s.special x a.2 n))) t := by
  induction l generalizing t with
  | nil => rw [List.foldl_nil, List.foldl_nil]
  | cons a l ih =>
    simp only [List.foldl_cons, h]
    exact ih fun k => by rw [writeDst_special, h]

theorem srdWritten_mem (s : State) (x : Ctx) (d : Spec) (n : Nat) : (srdWritten s x d n).mem = s.mem :=
  foldl_keeps State.mem _ (fun _ _ => writeDst_mem _ _ _ _ _) s

theorem srdWritten_scl {s : State} {x : Ctx} (h : x.act ≠ []) (m : BitVec 6) (n : Nat) :
    srdWritten s x (.scl m) n =
      s.modSlot x.c.g fun sl => sl.write m.toNat (specialRegs n (s.special x (x.act.headD (0, 0)).2 n)) := by
  obtain ⟨a, l, hl⟩ := List.exists_cons_of_ne_nil h
  simp only [srdWritten, Ctx.runLanes, hl]
  rfl

theorem srdWritten_slots {s : State} {x : Ctx} {d : Spec} (hd : ∀ m, d ≠ .scl m) (n : Nat) : (srdWritten s x d n).slots = s.slots := by
  refine foldl_slots _ (fun t a => ?_) s
  cases d with
  | scl m => exact absurd rfl (hd m)
  | _ => rfl

section
variable {f : CtrlF} {s : State} {c : IssueCtx} {sl : Slot} (hs : Issues s c sl)
include hs

theorem srd_waits (hact : (s.ctx c sl f.g).act ≠ []) (h : s.specialReady (s.ctx c sl f.g) (specialNum f) = false) :
    exec (.srd f) s = .next s := by
  simp only [exec, execSrd, onSlot_next hs, h, hact, Bool.not_false, ne_eq, not_false_eq_true, decide_true, Bool.and_self, if_true]

theorem srd_next (h : s.specialReady (s.ctx c sl f.g) (specialNum f) = true) :
    exec (.srd f) s = .next ((srdWritten s (s.ctx c sl f.g) f.d (specialNum f)).advance (s.ctx c sl f.g)) := by
  simp only [exec, execSrd, onSlot_next hs, h, Bool.not_true, Bool.and_false, Bool.false_eq_true, if_false,
    foldl_special _ _ _ _ (fun _ => rfl), srdWritten]

/-- R88, R296: the slot and the windows after SRD. -/
theorem srd_writes (hact : (s.ctx c sl f.g).act ≠ []) (h : s.specialReady (s.ctx c sl f.g) (specialNum f) = true) :
    let x := s.ctx c sl f.g
    let rs (k : Nat) : List (Nat × Reg) := specialRegs (specialNum f) (s.special x k (specialNum f))
    ∃ t w, exec (.srd f) s = .next t ∧ SameBytes s t ∧ aget? t.slots c.g = some w ∧ w.pc = c.thenPc.getD x.next
      ∧ (∀ d, f.d = .scl d → (∀ r, w.reg r = written d.toNat (rs (x.act.headD (0, 0)).2) r (sl.reg r)) ∧ t.fibres = s.fibres)
      ∧ (∀ d, f.d = .vec d → w.sregs = sl.sregs ∧ (∀ a ∈ x.act, (aget? s.fibres a.2).isSome →
          ∀ r, (t.fibre a.2).reg r = written d.toNat (rs a.2) r ((s.fibre a.2).reg r))
          ∧ ∀ k, (∀ a ∈ x.act, a.2 ≠ k) → t.fibre k = s.fibre k) := by
  intro x rs
  have hslot : aget? s.slots x.c.g = some sl := hs.2
  have hmem : SameBytes s ((srdWritten s x f.d (specialNum f)).advance x) := fun a => by
    simp only [State.byteAt, State.advance, modSlot_mem, srdWritten_mem]
  by_cases hd : ∃ m, f.d = .scl m
  · obtain ⟨m, hm⟩ := hd
    have hw : aget? (srdWritten s x f.d (specialNum f)).slots x.c.g = some (sl.write m.toNat (rs (x.act.headD (0, 0)).2)) := by
      rw [hm, srdWritten_scl hact, modSlot_slots, aget_aupd_same]
      exact congrArg (Option.map _) hslot
    refine ⟨_, _, srd_next hs h, hmem, advance_slot hw, rfl, fun d hd => ?_, fun d hd => ?_⟩
    · obtain rfl := Spec.scl.inj (hm.symm.trans hd)
      refine ⟨fun r => slot_reg_write sl _ _ r, ?_⟩
      rw [hm, srdWritten_scl hact]
      rfl
    · cases hm.symm.trans hd
  · have hw : aget? (srdWritten s x f.d (specialNum f)).slots x.c.g = some sl := by
      rw [srdWritten_slots fun m hm => hd ⟨m, hm⟩]
      exact hslot
    refine ⟨_, _, srd_next hs h, hmem, advance_slot hw, rfl, fun d hm => absurd ⟨d, hm⟩ hd, fun d hm =>
      ⟨rfl, fun a ha hf r => ?_, fun k hk => ?_⟩⟩
    · rw [hm]
      exact foldl_write_reg d.toNat rs a.2 ⟨a, ha, rfl⟩ hf r
    · rw [hm]
      exact foldl_write_other d.toNat rs k hk s

end

/-! ### SWR (R296) -/

/-- `%cont` with ENABLE set to the low bit of `v`. -/
def withEnable (u : DWord) (v : Nat) : DWord := (u &&& ~~~(1 : DWord)) ||| BitVec.ofNat 64 (v % 2)

/-- Bit 0 of `%cont` is ENABLE, and the rest stays. -/
theorem getLsbD_withEnable (u : DWord) (v : Nat) {j : Nat} (hj : j < 64) :
    (withEnable u v).getLsbD j = if j = 0 then decide (v % 2 = 1) else u.getLsbD j := by
  have hv : (v % 2).testBit j = (decide (j = 0) && decide (v % 2 = 1)) := by
    rw [← Nat.pow_one 2, Nat.testBit_mod_two_pow]
    cases j <;> simp [Nat.testBit_zero]
  have hone : (1 : DWord).getLsbD j = decide (j = 0) := by
    rw [show (1 : DWord) = 1#64 from rfl, BitVec.getLsbD_one]
    simp
  rw [withEnable, BitVec.getLsbD_or, BitVec.getLsbD_and, BitVec.getLsbD_not, BitVec.getLsbD_ofNat, hone, hv]
  by_cases h0 : j = 0 <;> simp [h0, hj]

/-- The operand of SWR (R90). -/
def swrValue (s : State) (x : Ctx) (f : CtrlF) (t : Ty) : Nat := (x.read (x.first s) t 0 f.a).val

section
variable {f : CtrlF} {s : State} {c : IssueCtx} {sl : Slot} (hs : Issues s c sl) (hact : (s.ctx c sl f.g).act ≠ [])
include hs hact

theorem swr_waits (hn : specialNum f = 16) (h : s.specialReady (s.ctx c sl f.g) (specialNum f) = false) : exec (.swr f) s = .next s := by
  rw [hn] at h
  simp only [exec, execSwr, onSlot_next hs, if_neg hact, hn, h, Bool.false_eq_true, if_false]

theorem swr_fflags (hn : specialNum f = 16) (h : s.specialReady (s.ctx c sl f.g) (specialNum f) = true) :
    exec (.swr f) s = .next ((s.setSlot c.g { sl with fflags := BitVec.ofNat 5 (swrValue s (s.ctx c sl f.g) f .b32) }).advance
      (s.ctx c sl f.g)) := by
  rw [hn] at h
  rw [← modSlot_eq_setSlot hs.2 fun u => { u with fflags := BitVec.ofNat 5 (swrValue s (s.ctx c sl f.g) f .b32) }]
  simp only [exec, execSwr, onSlot_next hs, if_neg hact, hn, h, if_true]
  rfl

theorem swr_fmask (hn : specialNum f = 17) :
    exec (.swr f) s = .next ((s.setSlot c.g { sl with fmask := BitVec.ofNat 5 (swrValue s (s.ctx c sl f.g) f .b32) }).advance
      (s.ctx c sl f.g)) := by
  rw [← modSlot_eq_setSlot hs.2 fun u => { u with fmask := BitVec.ofNat 5 (swrValue s (s.ctx c sl f.g) f .b32) }]
  simp only [exec, execSwr, onSlot_next hs, if_neg hact, hn]
  rfl

theorem swr_cont (hn : specialNum f = 19) :
    exec (.swr f) s = .next ((s.setSlot c.g { sl with cont := withEnable sl.cont (swrValue s (s.ctx c sl f.g) f .b64) }).advance
      (s.ctx c sl f.g)) := by
  rw [← modSlot_eq_setSlot hs.2 fun u => { u with cont := withEnable u.cont (swrValue s (s.ctx c sl f.g) f .b64) }]
  simp only [exec, execSwr, onSlot_next hs, if_neg hact, hn]
  rfl

theorem swr_traps (h16 : specialNum f ≠ 16) (h17 : specialNum f ≠ 17) (h19 : specialNum f ≠ 19) :
    exec (.swr f) s = .next (s.trapPrecise (s.ctx c sl f.g) 0x1C0 (s.ctx c sl f.g).lanesOf) := by
  simp only [exec, execSwr, onSlot_next hs, if_neg hact]

end

/-- Settles O47: SRD writes each special register for its fibre, and SWR the writable ones. -/
theorem specialRegisters : Obligations.SpecialRegisters := by
  intro f s c sl hs x n core pt dies value regs ready v to_ hact
  have hready : ready ↔ s.specialReady x (specialNum f) = true :=
    (or_congr_right (flagsPending_false_iff s c.g sl.team).symm).trans (specialReady_iff s x n).symm
  have hvalue (k : Nat) : value k = s.special x k n := (special_eq s x k n).symm
  have hregs (k r : Nat) (old : Reg) (d : Nat) : regs k r old d = written d (specialRegs n (s.special x k n)) r old := by
    rw [written_specialRegs, ← hvalue]
  refine ⟨fun h => ?_, fun h => ?_, fun hn h => swr_fflags hs hact hn (hready.mp h), swr_fmask hs hact,
    fun hn => ⟨_, swr_cont hs hact hn, fun j hj => getLsbD_withEnable _ _ hj⟩, swr_traps hs hact⟩
  · simp only [hregs]
    exact srd_writes hs hact (hready.mp h)
  · have hwait : s.specialReady x (specialNum f) = false := by simpa [hready] using h
    exact ⟨srd_waits hs hact hwait, swr_waits hs hact (Decidable.byContradiction fun hn => h (.inl hn)) hwait⟩

end Sys2Proof.Proofs
end
